-- ==== Sys2Proof/Word.lean ====
section
/-!
DEFINITION. The word types of the Grerix and the plainest arithmetic on them (R4, R8, R12).
-/
namespace Sys2Proof

/-- A byte. -/
abbrev Byte := BitVec 8
/-- A 16-bit half word. -/
abbrev Half := BitVec 16
/-- A 32-bit word: an instruction, a vector or tile slot. -/
abbrev W32 := BitVec 32
/-- A 64-bit word: a scalar register, an address, a system register. -/
abbrev W64 := BitVec 64
/-- A scalar field of six bits: 0–55 name s0–s55, 56–63 name q0–q7 (R322). -/
abbrev SReg := BitVec 6
/-- A predicate field (R322). -/
abbrev PReg := BitVec 4
/-- A vector register field (R322). -/
abbrev VReg := BitVec 5

/-- Bits `hi:lo` of a natural number, as a natural number (R4). -/
def bitsOf (x hi lo : Nat) : Nat := x / 2 ^ lo % 2 ^ (hi + 1 - lo)

/-- One bit of a natural number. -/
def bitOf (x i : Nat) : Bool := x / 2 ^ i % 2 == 1

/-- A Boolean as the number 0 or 1. -/
def boolNat (b : Bool) : Nat := if b then 1 else 0

/-- The bytes of a number, little-endian, `n` of them (R4). -/
def toBytesLE : Nat → Nat → List Byte
  | 0, _ => []
  | n + 1, x => BitVec.ofNat 8 x :: toBytesLE n (x / 256)

/-- The number that little-endian bytes denote (R4). -/
def ofBytesLE : List Byte → Nat
  | [] => 0
  | b :: bs => b.toNat + 256 * ofBytesLE bs

end Sys2Proof
end

