-- ==== Sys2Proof/Syntax.lean ====
section
/-!
DEFINITION. The abstract syntax: one constructor of `Instr` per row of the table of operations
and events. The 143 encoded rows carry exactly the fields of their encodings (R321–R334), last-use
bits included where the device ignores them; the 85 steps without an encoding carry the inputs that
the step takes.
-/
namespace Sys2Proof

/-- A place in one of the translated spaces (R158): space 0 layer memory, 1 weight store, 2 far memory. -/
structure Loc where
  space : Nat
  die : Nat
  off : Nat
  deriving DecidableEq, Repr

/-- A host command as it arrives (R305, R306): the fields of its header, the issuing endpoint, and the transport key that its
message was sent under. Reserved bits of the header are ignored (R6). -/
structure Cmd where
  seq : W64
  opcode : Byte
  tenant : BitVec 3
  slot : Byte
  len : W32
  arg : W64
  caddr : W64
  endpoint : W32
  key : Nat
  deriving DecidableEq, Repr

/-- The command of a 32-byte header (R305). -/
def Cmd.ofHeader (h : BitVec 256) (endpoint : W32) (key : Nat) : Cmd :=
  { seq := h.setWidth 64, opcode := h.extractLsb' 64 8, tenant := h.extractLsb' 72 3, slot := h.extractLsb' 80 8,
    len := h.extractLsb' 96 32, arg := h.extractLsb' 128 64, caddr := h.extractLsb' 192 64, endpoint := endpoint, key := key }

/-- A firmware or configuration image (R315): what is signed, the public key it carries, and the signature. -/
structure Image where
  configuration : Bool
  payload : List Byte
  modulus : Nat
  exponent : Nat
  signature : Nat
  deriving DecidableEq, Repr

/-- Where a host memory command points: a virtual address of the tenant, or a cell of a mark region (R93). -/
inductive HostAddr where
  | va (a : W64)
  | mark (region : Byte) (cell : Nat)
  deriving DecidableEq, Repr

/-- Binding of one engine FIFO at tenant creation (R213, R434): `completion` is the completion FIFO of a batch FIFO. -/
structure FifoBind where
  core : Nat
  fifo : Nat
  kind : Nat
  scope : Nat
  depth : Nat
  completion : Nat
  deriving DecidableEq, Repr

/-- Configuration of one stage ring at tenant creation (R265). -/
structure StageBind where
  die : Nat
  ring : Nat
  dlog : Nat
  hi : Byte
  deriving DecidableEq, Repr

/-- What the loader holds for one kernel entry: the `.scratch` image and the `.scratch.handler` image (R54, R58, R161). -/
structure KernelImage where
  entry : W64
  scratch : List Byte
  handler : List Byte
  deriving DecidableEq, Repr

/-- The arguments of tenant create (R313, R431): `keys` is the transport key set, `images` what the launch unit copies to
scratchpads, which the manual names no argument for (log entry 91, DESIGN CHOICE), `tables` the bytes that the owner's page tables have at
their physical places. Log entry 93 (DESIGN CHOICE). -/
structure TenantSpec where
  cores : List Nat
  root : Loc
  capVA : W64
  keys : List Nat
  teamQuota : Nat
  launchQuota : Nat
  srwin : W64
  rwwin : W64
  replicas : List (Nat × Nat)
  kernelTable : W64
  fifos : List FifoBind
  stages : List StageBind
  images : List KernelImage
  tables : List (Nat × Byte)
  deriving DecidableEq, Repr

/-- The kind of a team arrival with its contribution (R83–R85). -/
inductive TeamKind where
  | plain
  | vote (op : BitVec 2) (truth : Bool)
  | red (op ty : BitVec 2) (value : W64) (key : W32)
  deriving DecidableEq, Repr

/-- A request that a team home handles (R73, R74, R77). -/
inductive TeamReq where
  | hitch (name : W32) (old new : Bool)
  | arrive (slot : BitVec 14) (kind : TeamKind) (scope : BitVec 3)
  | leave (slot : BitVec 14)
  deriving DecidableEq, Repr

/-- What a packet to a context carries (R290): the value a stalled instruction waits for, with floating flags and
whether a compare-and-swap succeeded; a fault in its place; a team completion; a SYNC release with its cycle R; a multicast
tile with the core and number of its copy and the port it comes from. -/
inductive PacketBody where
  | value (v : W64) (flags : BitVec 5) (swapped : Option Bool)
  | fault (code : Byte) (addr stat : W64)
  | team (status : W64) (result : Option W64) (flags : BitVec 5)
  | release (cycle : Nat)
  | tile (tag : Half) (bytes : List Byte) (sender copy port : Nat)
  deriving DecidableEq, Repr

/-- A packet with its context tag (R290). -/
structure Packet where
  tenant : BitVec 3
  gang : Half
  ctx : Fin 12
  body : PacketBody
  deriving DecidableEq, Repr

/-- How a lost response is treated (R294): a first failure of an idempotent request, which is sent again;
a request whose instruction still waits, its effect at the home done or not; a request with no waiting
instruction, with the gang of its sender and its address. -/
inductive LostKind where
  | resend
  | waiting (done : Bool)
  | orphan (gang : Half) (addr : W64)
  deriving DecidableEq, Repr

/-- The operations and events of the device, one constructor per table row. -/
inductive Instr where
  /-- ADD: Adds two scalar registers modulo 2^64. R341. -/
  | add (d : BitVec 6) (l : Bool) (a : BitVec 6) (m : Bool) (b : BitVec 6)
  /-- SUB: Subtracts sb from sa modulo 2^64. R341. -/
  | sub (d : BitVec 6) (l : Bool) (a : BitVec 6) (m : Bool) (b : BitVec 6)
  /-- AND: Bitwise AND of two scalar registers. R341. -/
  | and (d : BitVec 6) (l : Bool) (a : BitVec 6) (m : Bool) (b : BitVec 6)
  /-- OR: Bitwise OR of two scalar registers. R341. -/
  | or (d : BitVec 6) (l : Bool) (a : BitVec 6) (m : Bool) (b : BitVec 6)
  /-- XOR: Bitwise XOR of two scalar registers. R341. -/
  | xor (d : BitVec 6) (l : Bool) (a : BitVec 6) (m : Bool) (b : BitVec 6)
  /-- SHL: Shifts sa left by sb[5:0]. R341. -/
  | shl (d : BitVec 6) (l : Bool) (a : BitVec 6) (m : Bool) (b : BitVec 6)
  /-- SHR: Shifts sa right logically by sb[5:0]. R341. -/
  | shr (d : BitVec 6) (l : Bool) (a : BitVec 6) (m : Bool) (b : BitVec 6)
  /-- SHR_S: Shifts sa right arithmetically by sb[5:0]. R341. -/
  | shrS (d : BitVec 6) (l : Bool) (a : BitVec 6) (m : Bool) (b : BitVec 6)
  /-- MUL: Low 64 bits of the product. R341. -/
  | mul (d : BitVec 6) (l : Bool) (a : BitVec 6) (m : Bool) (b : BitVec 6)
  /-- MULH: High 64 bits of the signed 128-bit product. R341. -/
  | mulh (d : BitVec 6) (l : Bool) (a : BitVec 6) (m : Bool) (b : BitVec 6)
  /-- MULH_U: High 64 bits of the unsigned 128-bit product. R341. -/
  | mulhU (d : BitVec 6) (l : Bool) (a : BitVec 6) (m : Bool) (b : BitVec 6)
  /-- DIV: Signed quotient truncated toward zero. R341. -/
  | div (d : BitVec 6) (l : Bool) (a : BitVec 6) (m : Bool) (b : BitVec 6)
  /-- DIV_U: Unsigned quotient. R341. -/
  | divU (d : BitVec 6) (l : Bool) (a : BitVec 6) (m : Bool) (b : BitVec 6)
  /-- REM: Signed remainder taking the sign of sa. R341. -/
  | rem (d : BitVec 6) (l : Bool) (a : BitVec 6) (m : Bool) (b : BitVec 6)
  /-- REM_U: Unsigned remainder. R341. -/
  | remU (d : BitVec 6) (l : Bool) (a : BitVec 6) (m : Bool) (b : BitVec 6)
  /-- MIN: Signed minimum of two registers. R341. -/
  | min (d : BitVec 6) (l : Bool) (a : BitVec 6) (m : Bool) (b : BitVec 6)
  /-- MIN_U: Unsigned minimum of two registers. R341. -/
  | minU (d : BitVec 6) (l : Bool) (a : BitVec 6) (m : Bool) (b : BitVec 6)
  /-- MAX: Signed maximum of two registers. R341. -/
  | max (d : BitVec 6) (l : Bool) (a : BitVec 6) (m : Bool) (b : BitVec 6)
  /-- MAX_U: Unsigned maximum of two registers. R341. -/
  | maxU (d : BitVec 6) (l : Bool) (a : BitVec 6) (m : Bool) (b : BitVec 6)
  /-- CLZ: Counts leading zero bits of sa. R341. -/
  | clz (d : BitVec 6) (l : Bool) (a : BitVec 6) (m : Bool)
  /-- POPC: Counts one bits of sa. R341. -/
  | popc (d : BitVec 6) (l : Bool) (a : BitVec 6) (m : Bool)
  /-- ADDI: Adds a sign-extended imm13 to sa. R342. -/
  | addi (d : BitVec 6) (l : Bool) (a : BitVec 6) (i : BitVec 13)
  /-- ANDI: ANDs sa with a sign-extended imm13. R342. -/
  | andi (d : BitVec 6) (l : Bool) (a : BitVec 6) (i : BitVec 13)
  /-- ORI: ORs sa with a sign-extended imm13. R342. -/
  | ori (d : BitVec 6) (l : Bool) (a : BitVec 6) (i : BitVec 13)
  /-- XORI: XORs sa with a sign-extended imm13. R342. -/
  | xori (d : BitVec 6) (l : Bool) (a : BitVec 6) (i : BitVec 13)
  /-- SHLI: Shifts sa left by an immediate. R342. -/
  | shli (d : BitVec 6) (l : Bool) (a : BitVec 6) (s : BitVec 6)
  /-- SHRI: Shifts sa right logically by an immediate. R342. -/
  | shri (d : BitVec 6) (l : Bool) (a : BitVec 6) (s : BitVec 6)
  /-- SHRI_S: Shifts sa right arithmetically by an immediate. R342. -/
  | shriS (d : BitVec 6) (l : Bool) (a : BitVec 6) (s : BitVec 6)
  /-- CMP: Sets a predicate from a comparison of two registers. R348. -/
  | cmp (p : BitVec 4) (l : Bool) (a : BitVec 6) (m : Bool) (b : BitVec 6) (c : BitVec 3)
  /-- CMPI: Sets a predicate from a comparison of a register with an immediate. R348. -/
  | cmpi (p : BitVec 4) (c : BitVec 3) (a : BitVec 6) (i : BitVec 13)
  /-- SEL: Selects sa or sb by a predicate. R391. -/
  | sel (d : BitVec 6) (l : Bool) (a : BitVec 6) (m : Bool) (b : BitVec 6) (n : Bool) (q : BitVec 4)
  /-- PLOG: Combines two predicates by a logical operation. R386. -/
  | plog (d : BitVec 4) (l : Bool) (a : BitVec 4) (m : Bool) (b : BitVec 4) (o : BitVec 3)
  /-- BFX: Extracts a bit field, zero- or sign-extended. R345. -/
  | bfx (d : BitVec 6) (l : Bool) (a : BitVec 6) (s : Bool) (w : BitVec 6) (p : BitVec 6)
  /-- BFI: Inserts a bit field of sa into sd. R345. -/
  | bfi (d : BitVec 6) (l : Bool) (a : BitVec 6) (w : BitVec 6) (p : BitVec 6)
  /-- LIH: Loads a sign-extended upper immediate. R367. -/
  | lih (d : BitVec 6) (i : BitVec 20)
  /-- PCREL: Forms PC plus a shifted immediate. R385. -/
  | pcrel (d : BitVec 6) (i : BitVec 20)
  /-- BR: Branches when the predicate XOR negate is 1. R346. -/
  | br (p : BitVec 4) (n : Bool) (o : BitVec 21)
  /-- JAL: Jumps PC-relative and writes the link. R360. -/
  | jal (d : BitVec 6) (o : BitVec 20)
  /-- JR: Jumps to the address in sa and writes the link. R360. -/
  | jr (d : BitVec 6) (l : Bool) (a : BitVec 6) (m : Bool)
  /-- START: Starts a helper in the lowest free slot without blocking. R32. -/
  | start (d : BitVec 6) (l : Bool) (a : BitVec 6) (m : Bool) (b : BitVec 6) (p : BitVec 4)
  /-- QUIT: Ends the issuing context, leaving teams and draining its stores. R387. -/
  | quit (l : Bool) (m : Bool)
  /-- HWAIT: Blocks the control context until the named helpers have ended. R35. -/
  | hwait (l : Bool) (a : BitVec 6) (m : Bool)
  /-- YIELD: Moves the context to the end of the round-robin order. R46. -/
  | yield (l : Bool) (m : Bool)
  /-- IDLE: Makes the context not ready for a count of cycles. R46. -/
  | idle (l : Bool) (a : BitVec 6) (m : Bool)
  /-- LD: Loads 1, 2, 4 or 8 bytes, seeing own buffered stores. R363. -/
  | ld (d : BitVec 6) (l : Bool) (a : BitVec 6) (z : BitVec 2) (g : Bool) (i : BitVec 10)
  /-- ST: Stores to the scratchpad at once or into the store buffer. R392. -/
  | st (z : BitVec 2) (l : Bool) (a : BitVec 6) (m : Bool) (b : BitVec 6) (i : BitVec 10)
  /-- LDA: Acquire load bypassing the read cache and invalidating it. R364. -/
  | lda (d : BitVec 6) (l : Bool) (a : BitVec 6) (z : BitVec 2) (g : Bool) (i : BitVec 10)
  /-- STL: Release store: drains the buffer, waits within scope, then stores the flag. R395. -/
  | stl (z : BitVec 2) (l : Bool) (a : BitVec 6) (m : Bool) (b : BitVec 6) (c : BitVec 3) (i : BitVec 7)
  /-- ST_OWN: Buffered store to the issuing die's replica only. R393. -/
  | stOwn (z : BitVec 2) (l : Bool) (a : BitVec 6) (m : Bool) (b : BitVec 6) (i : BitVec 7)
  /-- ST_STK: Buffered store to every replica of the stack over the rein. R393. -/
  | stStk (z : BitVec 2) (l : Bool) (a : BitVec 6) (m : Bool) (b : BitVec 6) (i : BitVec 7)
  /-- LDSUM_F32: Sums an FP32 word over the stack's replicas in layer order. R208. -/
  | ldsumF32 (d : BitVec 6) (l : Bool) (a : BitVec 6) (i : BitVec 10)
  /-- LDSUM_F64: Sums an FP64 word over the stack's replicas in layer order. R208. -/
  | ldsumF64 (d : BitVec 6) (l : Bool) (a : BitVec 6) (i : BitVec 10)
  /-- LDSUM_I64: Sums an integer word over the stack's replicas in layer order. R208. -/
  | ldsumI64 (d : BitVec 6) (l : Bool) (a : BitVec 6) (i : BitVec 10)
  /-- FENCE_REL: Drains as a release window and waits within scope. R199. -/
  | fenceRel (l : Bool) (m : Bool) (s : BitVec 3)
  /-- FENCE_ACQ: Acquire point: invalidates the read cache and orders later accesses. R199. -/
  | fenceAcq (l : Bool) (m : Bool) (s : BitVec 3)
  /-- FENCE_FULL: Release then acquire. R199. -/
  | fenceFull (l : Bool) (m : Bool) (s : BitVec 3)
  /-- AMO: Integer atomic at the home, optionally waking waiters on zero. R343. -/
  | amo (d : BitVec 6) (l : Bool) (a : BitVec 6) (m : Bool) (b : BitVec 6) (w : Bool) (z : Bool) (o : BitVec 4)
  /-- AMOF: Floating atomic add, min or max at the home. R344. -/
  | amof (d : BitVec 6) (l : Bool) (a : BitVec 6) (m : Bool) (b : BitVec 6) (t : Bool) (o : BitVec 2)
  /-- RED_INT: Integer reduction sent to the home with no value returned. R388. -/
  | redInt (l : Bool) (a : BitVec 6) (m : Bool) (b : BitVec 6) (z : Bool) (o : BitVec 4)
  /-- RED_FLOAT: Floating reduction sent to the home with no value returned. R388. -/
  | redFloat (l : Bool) (a : BitVec 6) (m : Bool) (b : BitVec 6) (t : Bool) (o : BitVec 2)
  /-- MDEP: Sends a saturated deposit to a mark cell and retires. R104. -/
  | mdep (l : Bool) (a : BitVec 6) (m : Bool) (b : BitVec 6)
  /-- MSENSE_MAX: Senses the maximum mark among selected neighbours. R105. -/
  | msenseMax (d : BitVec 6) (l : Bool) (a : BitVec 6) (k : BitVec 12)
  /-- MSENSE_MIN: Senses the minimum mark among selected neighbours. R105. -/
  | msenseMin (d : BitVec 6) (l : Bool) (a : BitVec 6) (k : BitVec 12)
  /-- HITCH: Joins or creates a named team and writes a harness handle. R73. -/
  | hitch (h : BitVec 4) (p : BitVec 4) (l : Bool) (a : BitVec 6) (f : BitVec 2)
  /-- UNHITCH: Leaves a team and clears the harness register. R408. -/
  | unhitch (h : BitVec 4) (l : Bool) (s : BitVec 3)
  /-- TBAR: Arrives and blocks until the generation completes. R401. -/
  | tbar (h : BitVec 4) (d : BitVec 6) (l : Bool) (s : BitVec 3)
  /-- TARR: Arrives in the generation without waiting. R400. -/
  | tarr (h : BitVec 4) (l : Bool) (s : BitVec 3)
  /-- TWAIT: Blocks until the generation of the outstanding TARR completes. R407. -/
  | twait (h : BitVec 4) (d : BitVec 6) (l : Bool)
  /-- TVOTE: Arrives with a vote and receives the generation's result. R406. -/
  | tvote (h : BitVec 4) (d : BitVec 6) (l : Bool) (a : BitVec 6) (o : BitVec 2) (s : BitVec 3)
  /-- TRED: Arrives with a keyed value and receives the ordered reduction. R405. -/
  | tred (h : BitVec 4) (d : BitVec 6) (l : Bool) (a : BitVec 6) (t : BitVec 2) (o : BitVec 2) (s : BitVec 3)
  /-- TINFO: Returns the team state at the home. R403. -/
  | tinfo (h : BitVec 4) (d : BitVec 6) (l : Bool)
  /-- TDROP: Dissolves the team and releases blocked members. R402. -/
  | tdrop (h : BitVec 4) (l : Bool)
  /-- WPUSH: Pushes a task descriptor at the head of the core's work queue. R257. -/
  | wpush (p : BitVec 4) (l : Bool) (a : BitVec 6) (m : Bool)
  /-- WPUSH_ORD: Pushes a task descriptor marked as an ordered task. R257. -/
  | wpushOrd (p : BitVec 4) (l : Bool) (a : BitVec 6) (m : Bool)
  /-- WPOP: Takes the head descriptor of the own work queue. R258. -/
  | wpop (d : BitVec 6) (l : Bool) (a : BitVec 6) (m : Bool) (p : BitVec 4)
  /-- WSTEAL: Takes the tail descriptor of a neighbour's work queue. R258. -/
  | wsteal (d : BitVec 6) (l : Bool) (a : BitVec 6) (m : Bool) (p : BitVec 4) (n : BitVec 3)
  /-- WCNT: Reads the counts of a work queue. R261. -/
  | wcnt (d : BitVec 6) (l : Bool) (m : Bool) (n : BitVec 4)
  /-- CHPUT: Puts an element into a ring or stage ring without waiting. R264. -/
  | chput (p : BitVec 4) (l : Bool) (a : BitVec 6) (m : Bool) (c : BitVec 6)
  /-- CHGET: Gets an element from a ring or stage ring without waiting. R264. -/
  | chget (d : BitVec 6) (p : BitVec 4) (m : Bool) (c : BitVec 6)
  /-- CPY: Sends a plain or .N16 copy to a streamer, status to sd. R351. -/
  | cpy (d : BitVec 6) (l : Bool) (a : BitVec 6) (m : Bool) (b : BitVec 6) (n : Bool) (s : BitVec 3)
  /-- CPY_CSR: Sends a dense-to-compressed-row conversion to a streamer. R177. -/
  | cpyCsr (d : BitVec 6) (l : Bool) (a : BitVec 6) (m : Bool) (s : BitVec 3)
  /-- CPYM: Multicasts a tile to every subscriber of a tag. R352. -/
  | cpym (d : BitVec 6) (l : Bool) (a : BitVec 6) (m : Bool) (b : BitVec 6) (s : BitVec 3)
  /-- SUBS: Subscribes a ring to a multicast tag. R244. -/
  | subs (p : BitVec 4) (l : Bool) (a : BitVec 6) (g : BitVec 3)
  /-- UNSUBS: Removes a multicast tag from the match table. R409. -/
  | unsubs (l : Bool) (a : BitVec 6)
  /-- EPUSH: Releases and pushes an element to an engine FIFO. R214. -/
  | epush (p : BitVec 4) (l : Bool) (m : Bool) (b : BitVec 6) (n : BitVec 4)
  /-- EPOP: Pops an element from an engine FIFO as an acquire. R215. -/
  | epop (d : BitVec 6) (l : Bool) (p : BitVec 4) (m : Bool) (n : BitVec 4)
  /-- SYNC: Drains into the superstep window, arrives and blocks until release. R398. -/
  | sync (l : Bool) (m : Bool)
  /-- XMIT: Arms an exchange transmission for a frame and slot. R236. -/
  | xmit (n : BitVec 6) (l : Bool) (a : BitVec 6) (m : Bool) (b : BitVec 6)
  /-- XSEL: Arms an exchange reception from a named source. R237. -/
  | xsel (n : BitVec 6) (l : Bool) (a : BitVec 6) (m : Bool) (b : BitVec 6)
  /-- MREAD: Reads a mark cell value of the request's interval. R106. -/
  | mread (d : BitVec 6) (l : Bool) (a : BitVec 6) (m : Bool)
  /-- MTICK: Sends a tick request for a mark region. R107. -/
  | mtick (l : Bool) (a : BitVec 6) (m : Bool)
  /-- LAUNCH: Releases at .PKG and submits a gang launch record. R248. -/
  | launch (d : BitVec 6) (l : Bool) (a : BitVec 6) (m : Bool) (p : BitVec 4)
  /-- PACE: Loads and starts the Pacer from a descriptor. R269. -/
  | pace (l : Bool) (a : BitVec 6) (m : Bool)
  /-- PERMIT: Adds permits to the Pacer. R271. -/
  | permit (l : Bool) (a : BitVec 6) (m : Bool)
  /-- MFS: Reads a system register. R371. -/
  | mfs (d : BitVec 6) (r : BitVec 12)
  /-- MTS: Writes a system register without a row of its own, by field access codes. R371. -/
  | mts (s : BitVec 6) (r : BitVec 12)
  /-- TRAP: Raises a software trap with a code. R404. -/
  | trap (c : BitVec 12)
  /-- ERET: Ends the handler's service with the TACT action. R281. -/
  | eret
  /-- SVCTX: Saves a context image to the save area. R397. -/
  | svctx (n : BitVec 4)
  /-- LDCTX: Restores a context image from the save area. R365. -/
  | ldctx (n : BitVec 4)
  /-- ICFLUSH: Discards fetched words and refetches. R358. -/
  | icflush
  /-- REP: Captures the following words as a repeat frame. R389. -/
  | rep (c : BitVec 4) (n : BitVec 8) (s : BitVec 14)
  /-- VADD: Elementwise add with rounding code in fn. R412. -/
  | vadd (d : BitVec 5) (l : Bool) (a : BitVec 5) (m : Bool) (b : BitVec 5) (r : BitVec 3) (t : BitVec 4)
  /-- VSUB: Elementwise subtract. R412. -/
  | vsub (d : BitVec 5) (l : Bool) (a : BitVec 5) (m : Bool) (b : BitVec 5) (r : BitVec 3) (t : BitVec 4)
  /-- VMUL: Elementwise multiply. R412. -/
  | vmul (d : BitVec 5) (l : Bool) (a : BitVec 5) (m : Bool) (b : BitVec 5) (r : BitVec 3) (t : BitVec 4)
  /-- VFMA: Elementwise fused multiply-add into vd. R412. -/
  | vfma (d : BitVec 5) (l : Bool) (a : BitVec 5) (m : Bool) (b : BitVec 5) (r : BitVec 3) (t : BitVec 4)
  /-- VMAX: Elementwise maximum. R412. -/
  | vmax (d : BitVec 5) (l : Bool) (a : BitVec 5) (m : Bool) (b : BitVec 5) (t : BitVec 4)
  /-- VMIN: Elementwise minimum. R412. -/
  | vmin (d : BitVec 5) (l : Bool) (a : BitVec 5) (m : Bool) (b : BitVec 5) (t : BitVec 4)
  /-- VABS: Elementwise absolute value. R412. -/
  | vabs (d : BitVec 5) (l : Bool) (a : BitVec 5) (m : Bool) (t : BitVec 4)
  /-- VNEG: Elementwise negation. R412. -/
  | vneg (d : BitVec 5) (l : Bool) (a : BitVec 5) (m : Bool) (t : BitVec 4)
  /-- VRCP: Elementwise correctly rounded reciprocal. R418. -/
  | vrcp (d : BitVec 5) (l : Bool) (a : BitVec 5) (m : Bool) (r : BitVec 5) (t : BitVec 4)
  /-- VRSQ: Elementwise correctly rounded reciprocal square root. R418. -/
  | vrsq (d : BitVec 5) (l : Bool) (a : BitVec 5) (m : Bool) (r : BitVec 5) (t : BitVec 4)
  /-- VEXP: Elementwise exponential rounded to nearest even. R418. -/
  | vexp (d : BitVec 5) (l : Bool) (a : BitVec 5) (m : Bool) (t : BitVec 4)
  /-- VLOG: Elementwise bitwise logic. R422. -/
  | vlog (d : BitVec 5) (l : Bool) (a : BitVec 5) (m : Bool) (b : BitVec 5) (o : BitVec 3) (t : BitVec 4)
  /-- VSH: Elementwise shift. R427. -/
  | vsh (d : BitVec 5) (l : Bool) (a : BitVec 5) (m : Bool) (b : BitVec 5) (o : BitVec 2) (t : BitVec 4)
  /-- VMAC: Widening byte multiply-accumulate into 32-bit lanes. R423. -/
  | vmac (d : BitVec 5) (l : Bool) (a : BitVec 5) (m : Bool) (b : BitVec 5) (t : BitVec 4)
  /-- VCMP: Elementwise compare to an all-ones mask. R414. -/
  | vcmp (d : BitVec 5) (l : Bool) (a : BitVec 5) (m : Bool) (b : BitVec 5) (c : BitVec 3) (t : BitVec 4)
  /-- VSEL: Elementwise select by the mask in vd. R426. -/
  | vsel (d : BitVec 5) (l : Bool) (a : BitVec 5) (m : Bool) (b : BitVec 5) (t : BitVec 4)
  /-- VLD: Loads 128 scratchpad bytes into a vector register. R421. -/
  | vld (d : BitVec 5) (l : Bool) (s : BitVec 6) (i : BitVec 5)
  /-- VST: Stores a vector register to 128 scratchpad bytes. R421. -/
  | vst (d : BitVec 5) (l : Bool) (s : BitVec 6) (i : BitVec 5)
  /-- VGATH: Holds a gather served in the next exchange phase. R420. -/
  | vgath (d : BitVec 5) (l : Bool) (s : BitVec 6) (b : BitVec 5) (t : BitVec 4)
  /-- VSCAT: Holds a scatter that contributes to the next window. R420. -/
  | vscat (d : BitVec 5) (l : Bool) (s : BitVec 6) (b : BitVec 5) (t : BitVec 4)
  /-- VBCAST: Broadcasts a scalar into every element. R413. -/
  | vbcast (d : BitVec 5) (l : Bool) (s : BitVec 6) (t : BitVec 4)
  /-- VPERM: Permutes slots of va by indices in vb. R424. -/
  | vperm (d : BitVec 5) (l : Bool) (a : BitVec 5) (m : Bool) (b : BitVec 5)
  /-- VRED: Pairwise-tree reduction over the elements. R425. -/
  | vred (d : BitVec 5) (l : Bool) (a : BitVec 5) (m : Bool) (k : BitVec 5) (f : BitVec 3) (t : BitVec 4)
  /-- VSCAN: Inclusive scan in ascending lane order. R425. -/
  | vscan (d : BitVec 5) (l : Bool) (a : BitVec 5) (m : Bool) (k : BitVec 5) (f : BitVec 3) (t : BitVec 4)
  /-- VCVT: Converts elements between types. R415. -/
  | vcvt (d : BitVec 5) (l : Bool) (a : BitVec 5) (m : Bool) (g : BitVec 5) (r : BitVec 3) (t : BitVec 4)
  /-- VENC: Encodes FP32 elements to 8-bit codes. R417. -/
  | venc (d : BitVec 5) (l : Bool) (a : BitVec 5) (m : Bool) (s : BitVec 2)
  /-- VDEC: Decodes 8-bit codes to FP32. R417. -/
  | vdec (d : BitVec 5) (l : Bool) (a : BitVec 5) (m : Bool) (s : BitVec 2)
  /-- VFLIP: Advances a block of 32 binary variables by at most one flip. R156. -/
  | vflip (d : BitVec 5) (l : Bool) (a : BitVec 5) (m : Bool) (b : BitVec 5) (g : BitVec 3)
  /-- MMA: Accumulates a ring A tile times a ring B tile into a tile register. R374. -/
  | mma (d : BitVec 3) (a : BitVec 3) (b : BitVec 3) (k : BitVec 3) (i : BitVec 6) (x : Bool) (r : Bool) (p : Bool) (q : Bool)
  /-- MZERO: Zeroes a tile register. R383. -/
  | mzero (d : BitVec 3) (k : BitVec 3) (i : BitVec 6)
  /-- MSCALE: Divides each tile row by SSUM. R378. -/
  | mscale (d : BitVec 3) (k : BitVec 3) (i : BitVec 6)
  /-- MSM: Online softmax of a score tile into half of a ring A tile. R380. -/
  | msm (d : BitVec 3) (g : BitVec 3) (k : BitVec 3) (i : BitVec 6) (h : Bool)
  /-- MMAS: Sparse matrix accumulate with metadata from a third ring. R375. -/
  | mmas (d : BitVec 3) (a : BitVec 3) (b : BitVec 3) (k : BitVec 3) (i : BitVec 6) (t : BitVec 2) (g : BitVec 3) (p : Bool) (q : Bool)
  /-- MLD: Loads a tile from the scratchpad, optionally transposed. R373. -/
  | mld (d : BitVec 3) (s : BitVec 6) (k : BitVec 3) (i : BitVec 6) (t : Bool) (m : BitVec 5)
  /-- MST: Stores a tile converting by OTYPE. R373. -/
  | mst (d : BitVec 3) (s : BitVec 6) (k : BitVec 3) (i : BitVec 6) (m : BitVec 5)
  /-- MMOV: Moves a tile slice to or from a vector register. R376. -/
  | mmov (t : BitVec 3) (s : BitVec 6) (v : BitVec 5) (c : Bool) (d : Bool) (m : BitVec 5)
  /-- MFMT: Sets the core's format word. R370. -/
  | mfmt (s : BitVec 6)
  /-- MTAB: Loads a decode table slot and builds its encode list. R381. -/
  | mtab (t : BitVec 2) (s : BitVec 6)
  /-- KLD: Loads a tile predicate register. R361. -/
  | kld (k : BitVec 3) (s : BitVec 6)
  /-- KOP: Combines a tile predicate with a scalar. R361. -/
  | kop (k : BitVec 3) (s : BitVec 6) (a : BitVec 3) (o : BitVec 2)
  /-- HINT: Retires with no effect; NOP and SPINH are hints. R336. -/
  | hint (h : BitVec 26)
  /-- ILLEGAL_WORD: a word that is no instruction raises illegal instruction. R335. -/
  | illegalWord (w : W32)
  /-- QCFG_WRITE: MTS to QCFG from scalar register `s`. R41, R372. -/
  | qcfgWrite (s : SReg)
  /-- DOMAIN_WRITE: MTS to DOMAIN. R37, R372. -/
  | domainWrite (s : SReg)
  /-- TSTAMP_WRITE: MTS to TSTAMP, which rekeys held entries. R192, R372. -/
  | tstampWrite (s : SReg)
  /-- RING_DESCRIPTOR_WRITE: MTS to bits 63:0 of ring `g`. R145, R372. -/
  | ringDescriptorWrite (g : BitVec 3) (s : SReg)
  /-- FSTAT_CLEAR: MTS to FSTAT, write one to clear. R122, R372. -/
  | fstatClear (s : SReg)
  /-- FSTAT_READ: MFS of FSTAT into `d`. R138, R372. -/
  | fstatRead (d : SReg)
  /-- HFAULT_CLEAR: MTS to CTX, write one to clear HFAULT. R30, R372. -/
  | hfaultClear (s : SReg)
  /-- ROLE_WRITE: MTS to ROLE. R266, R372. -/
  | roleWrite (s : SReg)
  /-- VSHARE_WRITE: MTS to VSHARE. R141, R372. -/
  | vshareWrite (s : SReg)
  /-- FRAME_WRITE: MTS to FRAME, FRBASE or FRPC (`which` 0, 1, 2). R372. -/
  | frameWrite (which : BitVec 2) (s : SReg)
  /-- VECTOR_QUEUE_DISPATCH: the head of `core`'s vector queue is checked and dispatched. R138. -/
  | vectorQueueDispatch (core : Nat)
  /-- VECTOR_ENTRY_COMPLETE: the dispatched entry writes its results. R142. -/
  | vectorEntryComplete (core : Nat)
  /-- FRAME_STEP_DISPATCH: the frame dispatches one staggered body word. R389. -/
  | frameStepDispatch (core : Nat)
  /-- COMMIT_WINDOW_APPLY: the window of superstep `dom` applies. R194. -/
  | commitWindowApply (dom : Nat)
  /-- STORE_REPLAY: the first resolved parked entry of `die` replays. R222. -/
  | storeReplay (die : Nat)
  /-- DOMAIN_ARRIVAL: the domain home receives `core`'s SYNC arrival. R39. -/
  | domainArrival (core : Nat)
  /-- SUPERSTEP_RELEASE: the release of superstep `dom` reaches every member. R39. -/
  | superstepRelease (dom : Nat)
  /-- SUPERSTEP_END: every member has ended its exchange phase. R39. -/
  | superstepEnd (dom : Nat)
  /-- EXCHANGE_TRANSMIT: the port of `core` sends the armed transfer of (frame, slot). R236. -/
  | exchangeTransmit (core : Nat) (frame : Byte) (slot : BitVec 6)
  /-- EXCHANGE_ARRIVAL: the words armed at `core` for (frame, slot) are written. R237. -/
  | exchangeArrival (core : Nat) (frame : Byte) (slot : BitVec 6)
  /-- GATHER_SERVE: `core`'s held gather and scatter requests are served. R219. -/
  | gatherServe (core : Nat)
  /-- MARK_END_NOTICE: `core`'s end notice reaches the home mark units. R97. -/
  | markEndNotice (core : Nat)
  /-- MARK_TICK: region `region` of `tenant` ticks. R96. -/
  | markTick (tenant : BitVec 3) (region : Byte)
  /-- MARK_DEPOSIT_APPLY: `core`'s next mark request, a deposit, arrives. R96. -/
  | markDepositApply (core : Nat)
  /-- MARK_SENSE_SERVE: `core`'s next mark request, a sense or read, is served. R105. -/
  | markSenseServe (core : Nat)
  /-- TEAM_ARRIVAL: the home handles a request of thread `tid`. R77. -/
  | teamArrival (tenant : BitVec 3) (tid : BitVec 15) (req : TeamReq)
  /-- TEAM_DEPARTURE: the home performs a departed leave of thread `tid`. R89. -/
  | teamDeparture (slot : BitVec 14) (tid : BitVec 15)
  /-- TEAM_PARKED_NOTICE: the home receives a parked or resumed notice. R90. -/
  | teamParkedNotice (slot : BitVec 14) (tid : BitVec 15) (parked : Bool)
  /-- DOMAIN_RESUME_REQUEST: the home of superstep `dom` asks for its pre-empted members. R40. -/
  | domainResumeRequest (dom : Nat)
  /-- COPY_SLOT_RESERVE: ring-form copy `id` of `core` reserves the tail slot. R351. -/
  | copySlotReserve (core : Nat) (id : Nat)
  /-- COPY_STATUS: copy `id` of `core` moves its bytes and writes its status word. R218. -/
  | copyStatus (core : Nat) (id : Nat)
  /-- STREAMER_BATCH_ELEMENT: a streamer takes an element of a batch FIFO. R434. -/
  | streamerBatchElement (core : Nat) (fifo : BitVec 4)
  /-- STREAMER_COMPLETION_PUSH: the streamer pushes a completion element. R434. -/
  | streamerCompletionPush (core : Nat) (fifo : BitVec 4)
  /-- MULTICAST_ARRIVAL: the next multicast tile for `core` lands. R245. -/
  | multicastArrival (core : Nat)
  /-- REDUCTION_BATCH: the switch of `stack` combines and applies one batch. R210. -/
  | reductionBatch (stack : Nat)
  /-- DESCRIPTOR_WAKE: a released descriptor enters `core`'s work queue. R263. -/
  | descriptorWake (core : Nat)
  /-- PACER_PUSH: the Pacer of `core` takes a permit or pushes an address. R270. -/
  | pacerPush (core : Nat)
  /-- WRANGLER_SAMPLE: the Wrangler of `die` samples its stage rings for `tenant`. R267. -/
  | wranglerSample (die : Nat) (tenant : BitVec 3)
  /-- SPIN_GOVERNOR_TRIP: the failure count of a context reaches COUNT. R47. -/
  | spinGovernorTrip (core : Nat) (ctx : Fin 12)
  /-- SPIN_HOLD_EXPIRY: the HOLD count of a context ends. R47. -/
  | spinHoldExpiry (core : Nat) (ctx : Fin 12)
  /-- IDLE_EXPIRY: the IDLE count of a context ends. R46. -/
  | idleExpiry (core : Nat) (ctx : Fin 12)
  /-- WEIGHT_REFRESH: a refresh window of `die` begins or ends. R169. -/
  | weightRefresh (die : Nat)
  /-- WAIT_COUNTER_POLL: the launch unit rereads the wait counter of record `gang`. R249. -/
  | waitCounterPoll (gang : W32)
  /-- GANG_PLACE: the launch unit places the first eligible record that fits. R250. -/
  | gangPlace
  /-- GANG_COMPLETE: the completion record of `gang` is written. R254. -/
  | gangComplete (gang : W32)
  /-- PREEMPT_INTERRUPT: a pre-empt interrupt with detail `stat` reaches `core`. R288. -/
  | preemptInterrupt (core : Nat) (stat : BitVec 2)
  /-- RESTORE_INTERRUPT: the scratchpad of `gang` is copied back to `core` and a restore interrupt is raised. R291. -/
  | restoreInterrupt (core : Nat) (gang : W32)
  /-- LEND_END: a lend of `core` ends. R288. -/
  | lendEnd (core : Nat)
  /-- SPILL_DIVERT: a packet whose tag is not resident is diverted. R290. -/
  | spillDivert (core : Nat) (p : Packet)
  /-- PACKET_RESEND: a refused packet is sent again. R290. -/
  | packetResend (core : Nat)
  /-- PAGE_FAULT_RETRY: the management processor answers a record with retry. R284. -/
  | pageFaultRetry (die : Nat) (tenant : BitVec 3) (page : BitVec 32)
  /-- PAGE_FAULT_FATAL: the management processor answers a record as fatal. R284. -/
  | pageFaultFatal (die : Nat) (tenant : BitVec 3) (page : BitVec 32)
  /-- TRAP_QUEUE_RECORD: a waiting fault record of `die` is written. R285. -/
  | trapQueueRecord (die : Nat)
  /-- DOUBLE_FAULT: the management processor ends every context of `core`. R287. -/
  | doubleFault (core : Nat)
  /-- LOST_RESPONSE: a request of a context has had no answer for 65,536 cycles. R294. -/
  | lostResponse (core : Nat) (ctx : Fin 12) (k : LostKind)
  /-- BRIDLE_HALT: the halt tree stops issue in a partition, or in the package. R292. -/
  | bridleHalt (tenant : Option (BitVec 3))
  /-- BRIDLE_RESUME: the halt tree restarts issue. R292. -/
  | bridleResume (tenant : Option (BitVec 3))
  /-- POWER_LIMIT: issue holds are inserted or removed on every core. R318. -/
  | powerLimit (on : Bool)
  /-- CRITICAL_TEMPERATURE: every partition is halted and reported. R318. -/
  | criticalTemperature
  /-- DEVICE_RESET: reset, boot of a firmware and a configuration image, ready entry. R317, R315. -/
  | deviceReset (firmware configuration : Image)
  /-- TENANT_CREATE. R313, R431. -/
  | tenantCreate (c : Cmd) (spec : TenantSpec)
  /-- TENANT_TEARDOWN. R314. -/
  | tenantTeardown (c : Cmd)
  /-- FABRIC_CONFIGURATION: calendar entries (die, slot), rein slot entries (stack, slot), link calendar entries (link, slot). R306. -/
  | fabricConfiguration (c : Cmd) (cal : List (Nat × Nat × Byte)) (rein : List (Nat × Nat × Half))
      (link : List (Nat × Nat × Byte))
  /-- IMAGE_LOAD of an image whose data are `bytes` long. R315, R305. -/
  | imageLoad (c : Cmd) (image : Image) (bytes : Nat)
  /-- MEMORY_READ of `n` bytes, or of `n` mark cells. R306. -/
  | memoryRead (c : Cmd) (at_ : HostAddr) (n : Nat)
  /-- MEMORY_WRITE of bytes, or of mark cells (two bytes each). R306, R93. -/
  | memoryWrite (c : Cmd) (at_ : HostAddr) (bytes : List Byte)
  /-- HOST_LAUNCH of an inline 64-byte record. R306. -/
  | hostLaunch (c : Cmd) (record : BitVec 512)
  /-- EVENT: AMO.ADD.WAKE of a value on a device word. R306. -/
  | event (c : Cmd) (va : W64) (value : W64)
  /-- WEIGHT_STORE_FILL. R168. -/
  | weightStoreFill (c : Cmd) (va : W64) (bytes : List Byte)
  /-- REGION_INSTALL of a descriptor. R93. -/
  | regionInstall (c : Cmd) (region : Byte) (desc : BitVec 128)
  /-- REGION_REWRITE. R93. -/
  | regionRewrite (c : Cmd) (region : Byte) (desc : BitVec 128)
  /-- REGION_REMOVE. R93. -/
  | regionRemove (c : Cmd) (region : Byte)
  /-- TRANSLATION_INVALIDATE. R165. -/
  | translationInvalidate (c : Cmd)
  /-- PAGE_MIGRATE of the page that holds `va` to a new home. R212. -/
  | pageMigrate (c : Cmd) (va : W64) (home : Loc)
  /-- JOURNAL_READ from a SEQ upward. R310. -/
  | journalRead (c : Cmd) (from_ : W64)
  /-- CAPABILITY_READ. R312. -/
  | capabilityRead (c : Cmd)
  /-- ATTEST over a 64-byte nonce. R316. -/
  | attest (c : Cmd) (nonce : BitVec 512)
  /-- LAYER_SLEEP of the layer of `die`. R319. -/
  | layerSleep (c : Cmd) (die : Nat)
  /-- LAYER_WAKE. R209. -/
  | layerWake (c : Cmd) (die : Nat)
  /-- BRIDLE_QUIESCED: no packet of the halted partition remains. R292. -/
  | bridleQuiesced (tenant : Option (BitVec 3))
  /-- FATAL_RECORD_SERVED: the management processor takes a fatal or double-fault record of `die`. R285. -/
  | fatalRecordServed (die : Nat)
  /-- TENANT_FIELD_ERROR: a packet on `link` is dropped. R294. -/
  | tenantFieldError (link : Nat)
  /-- NETWORK_SEND_ELEMENT: a network engine takes an element of a send FIFO. R216. -/
  | networkSendElement (core : Nat) (fifo : BitVec 4)
  /-- NETWORK_INBOUND: bytes of a peer are applied and an element is pushed; `ack` acknowledges a remote write of a thread. R215, R211. -/
  | networkInbound (core : Nat) (fifo : BitVec 4) (elem : W64) (writes : List (W64 × Byte))
      (ack : Option (BitVec 15))
  deriving DecidableEq, Repr

end Sys2Proof
end

