-- ==== Sys2Proof/Decode.lean ====
section
/-!
DEFINITION. Decoding, total on every word, rejecting by name, and the encoder (R320–R336).
`decodeRaw` splits a word by the opcode tables of R325–R334; `legal` holds the operand rules that
the tables and the reference entries add; `decode` is both together. A word that is rejected is
illegal (R335): `step` runs it as `illegalWord`.
-/
namespace Sys2Proof

/-- Why a word is no instruction (R335). -/
inductive DecodeError where
  | opcodeZero
  | reservedOpcode (op : Nat)
  | unassignedCode (op : Nat)
  | illegalOperand (op : Nat)
  deriving DecidableEq, Repr

/-- The system register numbers of R329. -/
def sysRegListed (r : Nat) : Bool :=
  decide (r ≤ 0x006) || decide (r = 0x008) || decide (r = 0x009) ||
  (decide (0x010 ≤ r) && decide (r ≤ 0x031)) || (decide (0x040 ≤ r) && decide (r ≤ 0x051)) ||
  (decide (0x060 ≤ r) && decide (r ≤ 0x074))

/-- An even register from s2 to s54 (R72). -/
def evenPair (d : SReg) : Bool := decide (d.toNat % 2 = 0) && decide (2 ≤ d.toNat) && decide (d.toNat ≤ 54)

/-- Vector types .I32, .U32, .F32, .I64, .F64 (R411). -/
def ty32or64 (t : BitVec 4) : Bool := decide (t.toNat ≤ 4)
/-- Vector types .F32 and .F64 (R411). -/
def tyFloat (t : BitVec 4) : Bool := decide (t.toNat = 2) || decide (t.toNat = 4)
/-- Vector types .I32, .F32, .I64, .F64 (R411, VABS and VNEG). -/
def tySigned (t : BitVec 4) : Bool := decide (t.toNat ≤ 4) && decide (t.toNat ≠ 1)
/-- Vector types .I32, .U32, .I64 (R411, VLOG and VSH). -/
def tyLogic (t : BitVec 4) : Bool := decide (t.toNat ≤ 1) || decide (t.toNat = 3)

/-- The MMAS requests whose popped operands are the first taken from each ring (R148, R333):
operands are taken in the order A, B, metadata, and the metadata slot is popped with A. -/
def mmasPops (a b g : BitVec 3) (popA popB : Bool) : Bool :=
  !((decide (a = b) && popB && !popA) ||
    (decide (g = b) && decide (g ≠ a) && popA && !popB) ||
    (decide (a = b) && decide (b = g) && (popA != popB)))

/-- The operand rules of the opcode tables and of the reference entries (R323–R334, R343, R345, R351, R411, R415). -/
def legal : Instr → Bool
  | .add _ _ _ _ _ => true
  | .sub _ _ _ _ _ => true
  | .and _ _ _ _ _ => true
  | .or _ _ _ _ _ => true
  | .xor _ _ _ _ _ => true
  | .shl _ _ _ _ _ => true
  | .shr _ _ _ _ _ => true
  | .shrS _ _ _ _ _ => true
  | .mul _ _ _ _ _ => true
  | .mulh _ _ _ _ _ => true
  | .mulhU _ _ _ _ _ => true
  | .div _ _ _ _ _ => true
  | .divU _ _ _ _ _ => true
  | .rem _ _ _ _ _ => true
  | .remU _ _ _ _ _ => true
  | .min _ _ _ _ _ => true
  | .minU _ _ _ _ _ => true
  | .max _ _ _ _ _ => true
  | .maxU _ _ _ _ _ => true
  | .clz _ _ _ _ => true
  | .popc _ _ _ _ => true
  | .addi _ _ _ _ => true
  | .andi _ _ _ _ => true
  | .ori _ _ _ _ => true
  | .xori _ _ _ _ => true
  | .shli _ _ _ _ => true
  | .shri _ _ _ _ => true
  | .shriS _ _ _ _ => true
  | .cmp _ _ _ _ _ _ => true
  | .cmpi _ _ _ _ => true
  | .sel _ _ _ _ _ _ _ => true
  | .plog _ _ _ _ _ o => decide (o.toNat ≤ 5)
  | .bfx _ _ _ _ w p => decide (p.toNat + w.toNat + 1 ≤ 64)
  | .bfi d _ _ w p => decide (p.toNat + w.toNat + 1 ≤ 64) && decide (d.toNat < 56)
  | .lih _ _ => true
  | .pcrel _ _ => true
  | .br _ _ _ => true
  | .jal _ _ => true
  | .jr _ _ _ _ => true
  | .start _ _ _ _ _ _ => true
  | .quit _ _ => true
  | .hwait _ _ _ => true
  | .yield _ _ => true
  | .idle _ _ _ => true
  | .ld _ _ _ z g _ => !(g && decide (z.toNat = 3))
  | .st _ _ _ _ _ _ => true
  | .lda _ _ _ z g _ => !(g && decide (z.toNat = 3))
  | .stl _ _ _ _ _ c _ => decide (c.toNat ≤ 5)
  | .stOwn _ _ _ _ _ _ => true
  | .stStk _ _ _ _ _ _ => true
  | .ldsumF32 _ _ _ _ => true
  | .ldsumF64 _ _ _ _ => true
  | .ldsumI64 _ _ _ _ => true
  | .fenceRel _ _ s => decide (s.toNat ≤ 5)
  | .fenceAcq _ _ _ => true
  | .fenceFull _ _ s => decide (s.toNat ≤ 5)
  | .amo d _ _ _ _ _ _ o => decide (o.toNat ≤ 9) && !(decide (o.toNat = 9) && decide (56 ≤ d.toNat))
  | .amof _ _ _ _ _ _ o => decide (o.toNat ≠ 3)
  | .redInt _ _ _ _ _ o => decide (o.toNat ≤ 7)
  | .redFloat _ _ _ _ _ o => decide (o.toNat ≠ 3)
  | .mdep _ _ _ _ => true
  | .msenseMax _ _ _ _ => true
  | .msenseMin _ _ _ _ => true
  | .hitch _ _ _ _ f => decide (f.toNat ≠ 3)
  | .unhitch _ _ s => decide (s.toNat ≤ 5)
  | .tbar _ d _ s => decide (s.toNat ≤ 5) && decide (d.toNat < 56)
  | .tarr _ _ s => decide (s.toNat ≤ 5)
  | .twait _ d _ => decide (d.toNat < 56)
  | .tvote _ d _ _ o s => decide (s.toNat ≤ 5) && decide (o.toNat ≠ 3) && evenPair d
  | .tred _ d _ a t o s => decide (s.toNat ≤ 5) && decide (o.toNat ≠ 3) && decide (t.toNat ≠ 3) && evenPair d && evenPair a
  | .tinfo _ d _ => decide (d.toNat < 56)
  | .tdrop _ _ => true
  | .wpush _ _ _ _ => true
  | .wpushOrd _ _ _ _ => true
  | .wpop _ _ _ _ _ => true
  | .wsteal _ _ _ _ _ _ => true
  | .wcnt _ _ _ n => decide (n.toNat ≤ 8)
  | .chput _ _ _ _ c => decide (c.toNat ≤ 23)
  | .chget _ _ _ c => decide (c.toNat ≤ 23)
  | .cpy d _ _ _ b _ s => (decide (b.toNat ≤ 7) || decide (b.toNat = 63)) && decide (s.toNat ≤ 5) && decide (d.toNat < 56)
  | .cpyCsr d _ _ _ s => decide (s.toNat ≤ 5) && decide (d.toNat < 56)
  | .cpym d _ _ _ _ s => decide (s.toNat ≤ 5) && decide (d.toNat < 56)
  | .subs _ _ _ _ => true
  | .unsubs _ _ => true
  | .epush _ _ _ _ _ => true
  | .epop _ _ _ _ _ => true
  | .sync _ _ => true
  | .xmit _ _ _ _ _ => true
  | .xsel _ _ _ _ _ => true
  | .mread _ _ _ _ => true
  | .mtick _ _ _ => true
  | .launch _ _ _ _ _ => true
  | .pace _ _ _ => true
  | .permit _ _ _ => true
  | .mfs _ r => sysRegListed r.toNat
  | .mts _ r => sysRegListed r.toNat
  | .trap _ => true
  | .eret => true
  | .svctx n => decide (n.toNat ≤ 10)
  | .ldctx n => decide (n.toNat ≤ 10)
  | .icflush => true
  | .rep _ _ _ => true
  | .vadd _ _ _ _ _ r t => decide (r.toNat ≤ 4) && ty32or64 t
  | .vsub _ _ _ _ _ r t => decide (r.toNat ≤ 4) && ty32or64 t
  | .vmul _ _ _ _ _ r t => decide (r.toNat ≤ 4) && ty32or64 t
  | .vfma _ _ _ _ _ r t => decide (r.toNat ≤ 4) && tyFloat t
  | .vmax _ _ _ _ _ t => ty32or64 t
  | .vmin _ _ _ _ _ t => ty32or64 t
  | .vabs _ _ _ _ t => tySigned t
  | .vneg _ _ _ _ t => tySigned t
  | .vrcp _ _ _ _ r t => decide (r.toNat ≤ 4) && tyFloat t
  | .vrsq _ _ _ _ r t => decide (r.toNat ≤ 4) && tyFloat t
  | .vexp _ _ _ _ t => tyFloat t
  | .vlog _ _ _ _ b o t => tyLogic t && (decide (o.toNat ≤ 3) || (decide (o.toNat = 4) && decide (b.toNat = 0)))
  | .vsh _ _ _ _ _ o t => tyLogic t && decide (o.toNat ≤ 2)
  | .vmac _ _ _ _ _ t => decide (t.toNat = 7) || decide (t.toNat = 8)
  | .vcmp _ _ _ _ _ c t => ty32or64 t && decide (c.toNat ≤ 5)
  | .vsel _ _ _ _ _ t => ty32or64 t
  | .vld _ _ _ _ => true
  | .vst _ _ _ _ => true
  | .vgath _ _ _ _ t => ty32or64 t
  | .vscat _ _ _ _ t => ty32or64 t
  | .vbcast _ _ _ t => ty32or64 t
  | .vperm _ _ _ _ _ => true
  | .vred _ _ _ _ _ f t => ty32or64 t && decide (f.toNat ≤ 6)
  | .vscan _ _ _ _ _ f t => ty32or64 t && decide (f.toNat ≤ 6)
  | .vcvt _ _ _ _ g r t => decide (r.toNat ≤ 4) && decide (t.toNat ≤ 6) && decide (g.toNat ≤ 6) && decide (t.toNat ≠ g.toNat)
  | .venc _ _ _ _ _ => true
  | .vdec _ _ _ _ _ => true
  | .vflip _ _ _ _ _ _ => true
  | .mma _ a b _ _ _ _ p q => !(decide (a = b) && q && !p)
  | .mzero _ _ _ => true
  | .mscale _ _ _ => true
  | .msm _ _ _ _ _ => true
  | .mmas _ a b _ _ t g p q => decide (t.toNat ≠ 3) && mmasPops a b g p q
  | .mld _ _ _ _ _ _ => true
  | .mst _ _ _ _ _ => true
  | .mmov _ _ _ _ _ _ => true
  | .mfmt _ => true
  | .mtab _ _ => true
  | .kld _ _ => true
  | .kop _ _ _ _ => true
  | .hint _ => true
  | .illegalWord _ => true
  | .qcfgWrite _ => true
  | .domainWrite _ => true
  | .tstampWrite _ => true
  | .ringDescriptorWrite _ _ => true
  | .fstatClear _ => true
  | .fstatRead _ => true
  | .hfaultClear _ => true
  | .roleWrite _ => true
  | .vshareWrite _ => true
  | .frameWrite _ _ => true
  | .vectorQueueDispatch core => decide (core < 1536)
  | .vectorEntryComplete core => decide (core < 1536)
  | .frameStepDispatch core => decide (core < 1536)
  | .commitWindowApply _ => true
  | .storeReplay die => decide (die < 24)
  | .domainArrival core => decide (core < 1536)
  | .superstepRelease _ => true
  | .superstepEnd _ => true
  | .exchangeTransmit core _ _ => decide (core < 1536)
  | .exchangeArrival core _ _ => decide (core < 1536)
  | .gatherServe core => decide (core < 1536)
  | .markEndNotice core => decide (core < 1536)
  | .markTick _ _ => true
  | .markDepositApply core => decide (core < 1536)
  | .markSenseServe core => decide (core < 1536)
  | .teamArrival _ _ _ => true
  | .teamDeparture _ _ => true
  | .teamParkedNotice _ _ _ => true
  | .domainResumeRequest _ => true
  | .copySlotReserve core _ => decide (core < 1536)
  | .copyStatus core _ => decide (core < 1536)
  | .streamerBatchElement core _ => decide (core < 1536)
  | .streamerCompletionPush core _ => decide (core < 1536)
  | .multicastArrival core => decide (core < 1536)
  | .reductionBatch stack => decide (stack < 4)
  | .descriptorWake core => decide (core < 1536)
  | .pacerPush core => decide (core < 1536)
  | .wranglerSample die _ => decide (die < 24)
  | .spinGovernorTrip core _ => decide (core < 1536)
  | .spinHoldExpiry core _ => decide (core < 1536)
  | .idleExpiry core _ => decide (core < 1536)
  | .weightRefresh die => decide (die < 24)
  | .waitCounterPoll _ => true
  | .gangPlace => true
  | .gangComplete _ => true
  | .preemptInterrupt core _ => decide (core < 1536)
  | .restoreInterrupt core _ => decide (core < 1536)
  | .lendEnd core => decide (core < 1536)
  | .spillDivert core _ => decide (core < 1536)
  | .packetResend core => decide (core < 1536)
  | .pageFaultRetry die _ _ => decide (die < 24)
  | .pageFaultFatal die _ _ => decide (die < 24)
  | .trapQueueRecord die => decide (die < 24)
  | .doubleFault core => decide (core < 1536)
  | .lostResponse core _ _ => decide (core < 1536)
  | .bridleHalt _ => true
  | .bridleResume _ => true
  | .powerLimit _ => true
  | .criticalTemperature => true
  | .deviceReset _ _ => true
  | .tenantCreate _ _ => true
  | .tenantTeardown _ => true
  | .fabricConfiguration _ _ _ _ => true
  | .imageLoad _ _ _ => true
  | .memoryRead _ _ _ => true
  | .memoryWrite _ _ _ => true
  | .hostLaunch _ _ => true
  | .event _ _ _ => true
  | .weightStoreFill _ _ _ => true
  | .regionInstall _ _ _ => true
  | .regionRewrite _ _ _ => true
  | .regionRemove _ _ => true
  | .translationInvalidate _ => true
  | .pageMigrate _ _ _ => true
  | .journalRead _ _ => true
  | .capabilityRead _ => true
  | .attest _ _ => true
  | .layerSleep _ die => decide (die < 24)
  | .layerWake _ die => decide (die < 24)
  | .bridleQuiesced _ => true
  | .fatalRecordServed die => decide (die < 24)
  | .tenantFieldError _ => true
  | .networkSendElement core _ => decide (core < 1536)
  | .networkInbound core _ _ _ _ => decide (core < 1536)

/-- Field `hi:lo` of an instruction word. -/
def fld (k n hi lo : Nat) : BitVec k := BitVec.ofNat k (bitsOf n hi lo)

/-- Major opcode 0x01. -/
def decodeOp01 (n : Nat) : Except DecodeError Instr :=
  if bitsOf n 11 0 = 19 then .ok (.clz (fld 6 n 25 20) (bitOf n 19) (fld 6 n 18 13) (bitOf n 12))
  else if bitsOf n 11 0 = 20 then .ok (.popc (fld 6 n 25 20) (bitOf n 19) (fld 6 n 18 13) (bitOf n 12))
  else if bitsOf n 5 0 = 0 then .ok (.add (fld 6 n 25 20) (bitOf n 19) (fld 6 n 18 13) (bitOf n 12) (fld 6 n 11 6))
  else if bitsOf n 5 0 = 1 then .ok (.sub (fld 6 n 25 20) (bitOf n 19) (fld 6 n 18 13) (bitOf n 12) (fld 6 n 11 6))
  else if bitsOf n 5 0 = 2 then .ok (.and (fld 6 n 25 20) (bitOf n 19) (fld 6 n 18 13) (bitOf n 12) (fld 6 n 11 6))
  else if bitsOf n 5 0 = 3 then .ok (.or (fld 6 n 25 20) (bitOf n 19) (fld 6 n 18 13) (bitOf n 12) (fld 6 n 11 6))
  else if bitsOf n 5 0 = 4 then .ok (.xor (fld 6 n 25 20) (bitOf n 19) (fld 6 n 18 13) (bitOf n 12) (fld 6 n 11 6))
  else if bitsOf n 5 0 = 5 then .ok (.shl (fld 6 n 25 20) (bitOf n 19) (fld 6 n 18 13) (bitOf n 12) (fld 6 n 11 6))
  else if bitsOf n 5 0 = 6 then .ok (.shr (fld 6 n 25 20) (bitOf n 19) (fld 6 n 18 13) (bitOf n 12) (fld 6 n 11 6))
  else if bitsOf n 5 0 = 7 then .ok (.shrS (fld 6 n 25 20) (bitOf n 19) (fld 6 n 18 13) (bitOf n 12) (fld 6 n 11 6))
  else if bitsOf n 5 0 = 8 then .ok (.mul (fld 6 n 25 20) (bitOf n 19) (fld 6 n 18 13) (bitOf n 12) (fld 6 n 11 6))
  else if bitsOf n 5 0 = 9 then .ok (.mulh (fld 6 n 25 20) (bitOf n 19) (fld 6 n 18 13) (bitOf n 12) (fld 6 n 11 6))
  else if bitsOf n 5 0 = 10 then .ok (.mulhU (fld 6 n 25 20) (bitOf n 19) (fld 6 n 18 13) (bitOf n 12) (fld 6 n 11 6))
  else if bitsOf n 5 0 = 11 then .ok (.div (fld 6 n 25 20) (bitOf n 19) (fld 6 n 18 13) (bitOf n 12) (fld 6 n 11 6))
  else if bitsOf n 5 0 = 12 then .ok (.divU (fld 6 n 25 20) (bitOf n 19) (fld 6 n 18 13) (bitOf n 12) (fld 6 n 11 6))
  else if bitsOf n 5 0 = 13 then .ok (.rem (fld 6 n 25 20) (bitOf n 19) (fld 6 n 18 13) (bitOf n 12) (fld 6 n 11 6))
  else if bitsOf n 5 0 = 14 then .ok (.remU (fld 6 n 25 20) (bitOf n 19) (fld 6 n 18 13) (bitOf n 12) (fld 6 n 11 6))
  else if bitsOf n 5 0 = 15 then .ok (.min (fld 6 n 25 20) (bitOf n 19) (fld 6 n 18 13) (bitOf n 12) (fld 6 n 11 6))
  else if bitsOf n 5 0 = 16 then .ok (.minU (fld 6 n 25 20) (bitOf n 19) (fld 6 n 18 13) (bitOf n 12) (fld 6 n 11 6))
  else if bitsOf n 5 0 = 17 then .ok (.max (fld 6 n 25 20) (bitOf n 19) (fld 6 n 18 13) (bitOf n 12) (fld 6 n 11 6))
  else if bitsOf n 5 0 = 18 then .ok (.maxU (fld 6 n 25 20) (bitOf n 19) (fld 6 n 18 13) (bitOf n 12) (fld 6 n 11 6))
  else .error (.unassignedCode 0x01)

/-- Major opcode 0x02. -/
def decodeOp02 (n : Nat) : Except DecodeError Instr :=
  .ok (.addi (fld 6 n 25 20) (bitOf n 19) (fld 6 n 18 13) (fld 13 n 12 0))

/-- Major opcode 0x03. -/
def decodeOp03 (n : Nat) : Except DecodeError Instr :=
  .ok (.andi (fld 6 n 25 20) (bitOf n 19) (fld 6 n 18 13) (fld 13 n 12 0))

/-- Major opcode 0x04. -/
def decodeOp04 (n : Nat) : Except DecodeError Instr :=
  .ok (.ori (fld 6 n 25 20) (bitOf n 19) (fld 6 n 18 13) (fld 13 n 12 0))

/-- Major opcode 0x05. -/
def decodeOp05 (n : Nat) : Except DecodeError Instr :=
  .ok (.xori (fld 6 n 25 20) (bitOf n 19) (fld 6 n 18 13) (fld 13 n 12 0))

/-- Major opcode 0x06. -/
def decodeOp06 (n : Nat) : Except DecodeError Instr :=
  if bitsOf n 12 6 = 0 then .ok (.shli (fld 6 n 25 20) (bitOf n 19) (fld 6 n 18 13) (fld 6 n 5 0))
  else .error (.unassignedCode 0x06)

/-- Major opcode 0x07. -/
def decodeOp07 (n : Nat) : Except DecodeError Instr :=
  if bitsOf n 12 6 = 0 then .ok (.shri (fld 6 n 25 20) (bitOf n 19) (fld 6 n 18 13) (fld 6 n 5 0))
  else if bitsOf n 12 6 = 64 then .ok (.shriS (fld 6 n 25 20) (bitOf n 19) (fld 6 n 18 13) (fld 6 n 5 0))
  else .error (.unassignedCode 0x07)

/-- Major opcode 0x08. -/
def decodeOp08 (n : Nat) : Except DecodeError Instr :=
  if bitsOf n 25 24 = 0 ∧ bitsOf n 5 3 = 0 then .ok (.cmp (fld 4 n 23 20) (bitOf n 19) (fld 6 n 18 13) (bitOf n 12) (fld 6 n 11 6) (fld 3 n 2 0))
  else .error (.unassignedCode 0x08)

/-- Major opcode 0x09. -/
def decodeOp09 (n : Nat) : Except DecodeError Instr :=
  .ok (.cmpi (fld 4 n 25 22) (fld 3 n 21 19) (fld 6 n 18 13) (fld 13 n 12 0))

/-- Major opcode 0x0A. -/
def decodeOp0A (n : Nat) : Except DecodeError Instr :=
  if bitsOf n 5 5 = 0 then .ok (.sel (fld 6 n 25 20) (bitOf n 19) (fld 6 n 18 13) (bitOf n 12) (fld 6 n 11 6) (bitOf n 4) (fld 4 n 3 0))
  else .error (.unassignedCode 0x0A)

/-- Major opcode 0x0B. -/
def decodeOp0B (n : Nat) : Except DecodeError Instr :=
  if bitsOf n 25 24 = 0 ∧ bitsOf n 18 17 = 0 ∧ bitsOf n 11 10 = 0 ∧ bitsOf n 5 3 = 0 then .ok (.plog (fld 4 n 23 20) (bitOf n 19) (fld 4 n 16 13) (bitOf n 12) (fld 4 n 9 6) (fld 3 n 2 0))
  else .error (.unassignedCode 0x0B)

/-- Major opcode 0x0C. -/
def decodeOp0C (n : Nat) : Except DecodeError Instr :=
  .ok (.bfx (fld 6 n 25 20) (bitOf n 19) (fld 6 n 18 13) (bitOf n 12) (fld 6 n 11 6) (fld 6 n 5 0))

/-- Major opcode 0x0D. -/
def decodeOp0D (n : Nat) : Except DecodeError Instr :=
  if bitsOf n 12 12 = 0 then .ok (.bfi (fld 6 n 25 20) (bitOf n 19) (fld 6 n 18 13) (fld 6 n 11 6) (fld 6 n 5 0))
  else .error (.unassignedCode 0x0D)

/-- Major opcode 0x0E. -/
def decodeOp0E (n : Nat) : Except DecodeError Instr :=
  .ok (.lih (fld 6 n 25 20) (fld 20 n 19 0))

/-- Major opcode 0x0F. -/
def decodeOp0F (n : Nat) : Except DecodeError Instr :=
  .ok (.pcrel (fld 6 n 25 20) (fld 20 n 19 0))

/-- Major opcode 0x10. -/
def decodeOp10 (n : Nat) : Except DecodeError Instr :=
  .ok (.br (fld 4 n 25 22) (bitOf n 21) (fld 21 n 20 0))

/-- Major opcode 0x11. -/
def decodeOp11 (n : Nat) : Except DecodeError Instr :=
  .ok (.jal (fld 6 n 25 20) (fld 20 n 19 0))

/-- Major opcode 0x12. -/
def decodeOp12 (n : Nat) : Except DecodeError Instr :=
  if bitsOf n 11 0 = 0 then .ok (.jr (fld 6 n 25 20) (bitOf n 19) (fld 6 n 18 13) (bitOf n 12))
  else .error (.unassignedCode 0x12)

/-- Major opcode 0x13. -/
def decodeOp13 (n : Nat) : Except DecodeError Instr :=
  if bitsOf n 5 4 = 0 then .ok (.start (fld 6 n 25 20) (bitOf n 19) (fld 6 n 18 13) (bitOf n 12) (fld 6 n 11 6) (fld 4 n 3 0))
  else .error (.unassignedCode 0x13)

/-- Major opcode 0x14. -/
def decodeOp14 (n : Nat) : Except DecodeError Instr :=
  if bitsOf n 25 20 = 0 ∧ bitsOf n 18 13 = 0 ∧ bitsOf n 11 0 = 0 then .ok (.quit (bitOf n 19) (bitOf n 12))
  else if bitsOf n 25 20 = 0 ∧ bitsOf n 18 13 = 0 ∧ bitsOf n 11 0 = 2 then .ok (.yield (bitOf n 19) (bitOf n 12))
  else if bitsOf n 25 20 = 0 ∧ bitsOf n 11 0 = 1 then .ok (.hwait (bitOf n 19) (fld 6 n 18 13) (bitOf n 12))
  else if bitsOf n 25 20 = 0 ∧ bitsOf n 11 0 = 3 then .ok (.idle (bitOf n 19) (fld 6 n 18 13) (bitOf n 12))
  else .error (.unassignedCode 0x14)

/-- Major opcode 0x15. -/
def decodeOp15 (n : Nat) : Except DecodeError Instr :=
  .ok (.ld (fld 6 n 25 20) (bitOf n 19) (fld 6 n 18 13) (fld 2 n 12 11) (bitOf n 10) (fld 10 n 9 0))

/-- Major opcode 0x16. -/
def decodeOp16 (n : Nat) : Except DecodeError Instr :=
  .ok (.st (fld 2 n 25 24) (bitOf n 23) (fld 6 n 22 17) (bitOf n 16) (fld 6 n 15 10) (fld 10 n 9 0))

/-- Major opcode 0x17. -/
def decodeOp17 (n : Nat) : Except DecodeError Instr :=
  .ok (.lda (fld 6 n 25 20) (bitOf n 19) (fld 6 n 18 13) (fld 2 n 12 11) (bitOf n 10) (fld 10 n 9 0))

/-- Major opcode 0x18. -/
def decodeOp18 (n : Nat) : Except DecodeError Instr :=
  if bitsOf n 9 7 = 6 then .ok (.stOwn (fld 2 n 25 24) (bitOf n 23) (fld 6 n 22 17) (bitOf n 16) (fld 6 n 15 10) (fld 7 n 6 0))
  else if bitsOf n 9 7 = 7 then .ok (.stStk (fld 2 n 25 24) (bitOf n 23) (fld 6 n 22 17) (bitOf n 16) (fld 6 n 15 10) (fld 7 n 6 0))
  else .ok (.stl (fld 2 n 25 24) (bitOf n 23) (fld 6 n 22 17) (bitOf n 16) (fld 6 n 15 10) (fld 3 n 9 7) (fld 7 n 6 0))

/-- Major opcode 0x19. -/
def decodeOp19 (n : Nat) : Except DecodeError Instr :=
  if bitsOf n 12 10 = 4 then .ok (.ldsumF32 (fld 6 n 25 20) (bitOf n 19) (fld 6 n 18 13) (fld 10 n 9 0))
  else if bitsOf n 12 10 = 6 then .ok (.ldsumF64 (fld 6 n 25 20) (bitOf n 19) (fld 6 n 18 13) (fld 10 n 9 0))
  else if bitsOf n 12 10 = 7 then .ok (.ldsumI64 (fld 6 n 25 20) (bitOf n 19) (fld 6 n 18 13) (fld 10 n 9 0))
  else .error (.unassignedCode 0x19)

/-- Major opcode 0x1A. -/
def decodeOp1A (n : Nat) : Except DecodeError Instr :=
  if bitsOf n 25 20 = 0 ∧ bitsOf n 18 13 = 0 ∧ bitsOf n 11 3 = 1 then .ok (.fenceRel (bitOf n 19) (bitOf n 12) (fld 3 n 2 0))
  else if bitsOf n 25 20 = 0 ∧ bitsOf n 18 13 = 0 ∧ bitsOf n 11 3 = 2 then .ok (.fenceAcq (bitOf n 19) (bitOf n 12) (fld 3 n 2 0))
  else if bitsOf n 25 20 = 0 ∧ bitsOf n 18 13 = 0 ∧ bitsOf n 11 3 = 3 then .ok (.fenceFull (bitOf n 19) (bitOf n 12) (fld 3 n 2 0))
  else .error (.unassignedCode 0x1A)

/-- Major opcode 0x1B. -/
def decodeOp1B (n : Nat) : Except DecodeError Instr :=
  .ok (.amo (fld 6 n 25 20) (bitOf n 19) (fld 6 n 18 13) (bitOf n 12) (fld 6 n 11 6) (bitOf n 5) (bitOf n 4) (fld 4 n 3 0))

/-- Major opcode 0x1C. -/
def decodeOp1C (n : Nat) : Except DecodeError Instr :=
  if bitsOf n 5 3 = 0 then .ok (.amof (fld 6 n 25 20) (bitOf n 19) (fld 6 n 18 13) (bitOf n 12) (fld 6 n 11 6) (bitOf n 2) (fld 2 n 1 0))
  else .error (.unassignedCode 0x1C)

/-- Major opcode 0x1D. -/
def decodeOp1D (n : Nat) : Except DecodeError Instr :=
  if bitsOf n 25 20 = 0 ∧ bitsOf n 5 3 = 4 then .ok (.redFloat (bitOf n 19) (fld 6 n 18 13) (bitOf n 12) (fld 6 n 11 6) (bitOf n 2) (fld 2 n 1 0))
  else if bitsOf n 25 20 = 0 ∧ bitsOf n 5 5 = 0 then .ok (.redInt (bitOf n 19) (fld 6 n 18 13) (bitOf n 12) (fld 6 n 11 6) (bitOf n 4) (fld 4 n 3 0))
  else .error (.unassignedCode 0x1D)

/-- Major opcode 0x1E. -/
def decodeOp1E (n : Nat) : Except DecodeError Instr :=
  if bitsOf n 25 20 = 0 ∧ bitsOf n 5 0 = 0 then .ok (.mdep (bitOf n 19) (fld 6 n 18 13) (bitOf n 12) (fld 6 n 11 6))
  else .error (.unassignedCode 0x1E)

/-- Major opcode 0x1F. -/
def decodeOp1F (n : Nat) : Except DecodeError Instr :=
  if bitsOf n 12 12 = 0 then .ok (.msenseMax (fld 6 n 25 20) (bitOf n 19) (fld 6 n 18 13) (fld 12 n 11 0))
  else if bitsOf n 12 12 = 1 then .ok (.msenseMin (fld 6 n 25 20) (bitOf n 19) (fld 6 n 18 13) (fld 12 n 11 0))
  else .error (.unassignedCode 0x1F)

/-- Major opcode 0x20. -/
def decodeOp20 (n : Nat) : Except DecodeError Instr :=
  if bitsOf n 21 20 = 0 ∧ bitsOf n 8 5 = 0 ∧ bitsOf n 2 0 = 0 then .ok (.hitch (fld 4 n 25 22) (fld 4 n 19 16) (bitOf n 15) (fld 6 n 14 9) (fld 2 n 4 3))
  else .error (.unassignedCode 0x20)

/-- Major opcode 0x21. -/
def decodeOp21 (n : Nat) : Except DecodeError Instr :=
  if bitsOf n 21 16 = 0 ∧ bitsOf n 14 3 = 0 then .ok (.unhitch (fld 4 n 25 22) (bitOf n 15) (fld 3 n 2 0))
  else .error (.unassignedCode 0x21)

/-- Major opcode 0x22. -/
def decodeOp22 (n : Nat) : Except DecodeError Instr :=
  if bitsOf n 14 3 = 0 then .ok (.tbar (fld 4 n 25 22) (fld 6 n 21 16) (bitOf n 15) (fld 3 n 2 0))
  else .error (.unassignedCode 0x22)

/-- Major opcode 0x23. -/
def decodeOp23 (n : Nat) : Except DecodeError Instr :=
  if bitsOf n 21 16 = 0 ∧ bitsOf n 14 3 = 0 then .ok (.tarr (fld 4 n 25 22) (bitOf n 15) (fld 3 n 2 0))
  else .error (.unassignedCode 0x23)

/-- Major opcode 0x24. -/
def decodeOp24 (n : Nat) : Except DecodeError Instr :=
  if bitsOf n 14 0 = 0 then .ok (.twait (fld 4 n 25 22) (fld 6 n 21 16) (bitOf n 15))
  else .error (.unassignedCode 0x24)

/-- Major opcode 0x25. -/
def decodeOp25 (n : Nat) : Except DecodeError Instr :=
  if bitsOf n 8 5 = 0 then .ok (.tvote (fld 4 n 25 22) (fld 6 n 21 16) (bitOf n 15) (fld 6 n 14 9) (fld 2 n 4 3) (fld 3 n 2 0))
  else .error (.unassignedCode 0x25)

/-- Major opcode 0x26. -/
def decodeOp26 (n : Nat) : Except DecodeError Instr :=
  if bitsOf n 8 7 = 0 then .ok (.tred (fld 4 n 25 22) (fld 6 n 21 16) (bitOf n 15) (fld 6 n 14 9) (fld 2 n 6 5) (fld 2 n 4 3) (fld 3 n 2 0))
  else .error (.unassignedCode 0x26)

/-- Major opcode 0x27. -/
def decodeOp27 (n : Nat) : Except DecodeError Instr :=
  if bitsOf n 21 16 = 0 ∧ bitsOf n 14 0 = 8 then .ok (.tdrop (fld 4 n 25 22) (bitOf n 15))
  else if bitsOf n 14 0 = 0 then .ok (.tinfo (fld 4 n 25 22) (fld 6 n 21 16) (bitOf n 15))
  else .error (.unassignedCode 0x27)

/-- Major opcode 0x28. -/
def decodeOp28 (n : Nat) : Except DecodeError Instr :=
  if bitsOf n 25 24 = 0 ∧ bitsOf n 11 0 = 0 then .ok (.wpush (fld 4 n 23 20) (bitOf n 19) (fld 6 n 18 13) (bitOf n 12))
  else if bitsOf n 25 24 = 0 ∧ bitsOf n 11 0 = 1 then .ok (.wpushOrd (fld 4 n 23 20) (bitOf n 19) (fld 6 n 18 13) (bitOf n 12))
  else if bitsOf n 18 13 = 0 ∧ bitsOf n 11 4 = 1 then .ok (.wcnt (fld 6 n 25 20) (bitOf n 19) (bitOf n 12) (fld 4 n 3 0))
  else if bitsOf n 11 10 = 0 ∧ bitsOf n 5 0 = 2 then .ok (.wpop (fld 6 n 25 20) (bitOf n 19) (fld 6 n 18 13) (bitOf n 12) (fld 4 n 9 6))
  else if bitsOf n 11 10 = 0 ∧ bitsOf n 5 3 = 1 then .ok (.wsteal (fld 6 n 25 20) (bitOf n 19) (fld 6 n 18 13) (bitOf n 12) (fld 4 n 9 6) (fld 3 n 2 0))
  else .error (.unassignedCode 0x28)

/-- Major opcode 0x29. -/
def decodeOp29 (n : Nat) : Except DecodeError Instr :=
  if bitsOf n 19 17 = 0 ∧ bitsOf n 5 0 = 1 then .ok (.chget (fld 6 n 25 20) (fld 4 n 16 13) (bitOf n 12) (fld 6 n 11 6))
  else if bitsOf n 25 24 = 0 ∧ bitsOf n 5 0 = 0 then .ok (.chput (fld 4 n 23 20) (bitOf n 19) (fld 6 n 18 13) (bitOf n 12) (fld 6 n 11 6))
  else .error (.unassignedCode 0x29)

/-- Major opcode 0x2A. -/
def decodeOp2A (n : Nat) : Except DecodeError Instr :=
  if bitsOf n 25 20 = 0 ∧ bitsOf n 12 0 = 49 then .ok (.unsubs (bitOf n 19) (fld 6 n 18 13))
  else if bitsOf n 25 24 = 0 ∧ bitsOf n 12 9 = 0 ∧ bitsOf n 5 0 = 48 then .ok (.subs (fld 4 n 23 20) (bitOf n 19) (fld 6 n 18 13) (fld 3 n 8 6))
  else if bitsOf n 11 3 = 506 then .ok (.cpyCsr (fld 6 n 25 20) (bitOf n 19) (fld 6 n 18 13) (bitOf n 12) (fld 3 n 2 0))
  else if bitsOf n 5 3 = 4 then .ok (.cpym (fld 6 n 25 20) (bitOf n 19) (fld 6 n 18 13) (bitOf n 12) (fld 6 n 11 6) (fld 3 n 2 0))
  else if bitsOf n 5 4 = 0 then .ok (.cpy (fld 6 n 25 20) (bitOf n 19) (fld 6 n 18 13) (bitOf n 12) (fld 6 n 11 6) (bitOf n 3) (fld 3 n 2 0))
  else .error (.unassignedCode 0x2A)

/-- Major opcode 0x2B. -/
def decodeOp2B (n : Nat) : Except DecodeError Instr :=
  if bitsOf n 25 24 = 0 ∧ bitsOf n 18 13 = 0 ∧ bitsOf n 5 4 = 0 then .ok (.epush (fld 4 n 23 20) (bitOf n 19) (bitOf n 12) (fld 6 n 11 6) (fld 4 n 3 0))
  else if bitsOf n 18 17 = 0 ∧ bitsOf n 11 4 = 1 then .ok (.epop (fld 6 n 25 20) (bitOf n 19) (fld 4 n 16 13) (bitOf n 12) (fld 4 n 3 0))
  else .error (.unassignedCode 0x2B)

/-- Major opcode 0x2C. -/
def decodeOp2C (n : Nat) : Except DecodeError Instr :=
  if bitsOf n 25 20 = 0 ∧ bitsOf n 18 13 = 0 ∧ bitsOf n 11 0 = 0 then .ok (.sync (bitOf n 19) (bitOf n 12))
  else if bitsOf n 25 20 = 0 ∧ bitsOf n 11 0 = 4 then .ok (.mtick (bitOf n 19) (fld 6 n 18 13) (bitOf n 12))
  else if bitsOf n 11 0 = 3 then .ok (.mread (fld 6 n 25 20) (bitOf n 19) (fld 6 n 18 13) (bitOf n 12))
  else if bitsOf n 5 0 = 1 then .ok (.xmit (fld 6 n 25 20) (bitOf n 19) (fld 6 n 18 13) (bitOf n 12) (fld 6 n 11 6))
  else if bitsOf n 5 0 = 2 then .ok (.xsel (fld 6 n 25 20) (bitOf n 19) (fld 6 n 18 13) (bitOf n 12) (fld 6 n 11 6))
  else .error (.unassignedCode 0x2C)

/-- Major opcode 0x2D. -/
def decodeOp2D (n : Nat) : Except DecodeError Instr :=
  if bitsOf n 25 20 = 0 ∧ bitsOf n 11 0 = 1 then .ok (.pace (bitOf n 19) (fld 6 n 18 13) (bitOf n 12))
  else if bitsOf n 25 20 = 0 ∧ bitsOf n 11 0 = 2 then .ok (.permit (bitOf n 19) (fld 6 n 18 13) (bitOf n 12))
  else if bitsOf n 11 10 = 0 ∧ bitsOf n 5 0 = 0 then .ok (.launch (fld 6 n 25 20) (bitOf n 19) (fld 6 n 18 13) (bitOf n 12) (fld 4 n 9 6))
  else .error (.unassignedCode 0x2D)

/-- Major opcode 0x2E. -/
def decodeOp2E (n : Nat) : Except DecodeError Instr :=
  if bitsOf n 25 0 = 3 then .ok (.eret)
  else if bitsOf n 25 0 = 6 then .ok (.icflush)
  else if bitsOf n 25 12 = 0 ∧ bitsOf n 7 0 = 4 then .ok (.svctx (fld 4 n 11 8))
  else if bitsOf n 25 12 = 0 ∧ bitsOf n 7 0 = 5 then .ok (.ldctx (fld 4 n 11 8))
  else if bitsOf n 25 20 = 0 ∧ bitsOf n 7 0 = 2 then .ok (.trap (fld 12 n 19 8))
  else if bitsOf n 7 0 = 0 then .ok (.mfs (fld 6 n 25 20) (fld 12 n 19 8))
  else if bitsOf n 7 0 = 1 then .ok (.mts (fld 6 n 25 20) (fld 12 n 19 8))
  else .error (.unassignedCode 0x2E)

/-- Major opcode 0x2F. -/
def decodeOp2F (n : Nat) : Except DecodeError Instr :=
  .ok (.rep (fld 4 n 25 22) (fld 8 n 21 14) (fld 14 n 13 0))

/-- Major opcode 0x30. -/
def decodeOp30 (n : Nat) : Except DecodeError Instr :=
  if bitsOf n 13 4 = 22 then .ok (.vabs (fld 5 n 25 21) (bitOf n 20) (fld 5 n 19 15) (bitOf n 14) (fld 4 n 3 0))
  else if bitsOf n 13 4 = 23 then .ok (.vneg (fld 5 n 25 21) (bitOf n 20) (fld 5 n 19 15) (bitOf n 14) (fld 4 n 3 0))
  else if bitsOf n 13 4 = 26 then .ok (.vexp (fld 5 n 25 21) (bitOf n 20) (fld 5 n 19 15) (bitOf n 14) (fld 4 n 3 0))
  else if bitsOf n 8 4 = 20 then .ok (.vmax (fld 5 n 25 21) (bitOf n 20) (fld 5 n 19 15) (bitOf n 14) (fld 5 n 13 9) (fld 4 n 3 0))
  else if bitsOf n 8 4 = 21 then .ok (.vmin (fld 5 n 25 21) (bitOf n 20) (fld 5 n 19 15) (bitOf n 14) (fld 5 n 13 9) (fld 4 n 3 0))
  else if bitsOf n 8 4 = 24 then .ok (.vrcp (fld 5 n 25 21) (bitOf n 20) (fld 5 n 19 15) (bitOf n 14) (fld 5 n 13 9) (fld 4 n 3 0))
  else if bitsOf n 8 4 = 25 then .ok (.vrsq (fld 5 n 25 21) (bitOf n 20) (fld 5 n 19 15) (bitOf n 14) (fld 5 n 13 9) (fld 4 n 3 0))
  else if bitsOf n 8 4 ≤ 4 then .ok (.vadd (fld 5 n 25 21) (bitOf n 20) (fld 5 n 19 15) (bitOf n 14) (fld 5 n 13 9) (BitVec.ofNat 3 (bitsOf n 8 4)) (fld 4 n 3 0))
  else if 5 ≤ bitsOf n 8 4 ∧ bitsOf n 8 4 ≤ 9 then .ok (.vsub (fld 5 n 25 21) (bitOf n 20) (fld 5 n 19 15) (bitOf n 14) (fld 5 n 13 9) (BitVec.ofNat 3 (bitsOf n 8 4 - 5)) (fld 4 n 3 0))
  else if 10 ≤ bitsOf n 8 4 ∧ bitsOf n 8 4 ≤ 14 then .ok (.vmul (fld 5 n 25 21) (bitOf n 20) (fld 5 n 19 15) (bitOf n 14) (fld 5 n 13 9) (BitVec.ofNat 3 (bitsOf n 8 4 - 10)) (fld 4 n 3 0))
  else if 15 ≤ bitsOf n 8 4 ∧ bitsOf n 8 4 ≤ 19 then .ok (.vfma (fld 5 n 25 21) (bitOf n 20) (fld 5 n 19 15) (bitOf n 14) (fld 5 n 13 9) (BitVec.ofNat 3 (bitsOf n 8 4 - 15)) (fld 4 n 3 0))
  else .error (.unassignedCode 0x30)

/-- Major opcode 0x31. -/
def decodeOp31 (n : Nat) : Except DecodeError Instr :=
  if bitsOf n 8 4 = 12 then .ok (.vmac (fld 5 n 25 21) (bitOf n 20) (fld 5 n 19 15) (bitOf n 14) (fld 5 n 13 9) (fld 4 n 3 0))
  else if bitsOf n 8 4 = 24 then .ok (.vsel (fld 5 n 25 21) (bitOf n 20) (fld 5 n 19 15) (bitOf n 14) (fld 5 n 13 9) (fld 4 n 3 0))
  else if bitsOf n 8 6 = 2 then .ok (.vsh (fld 5 n 25 21) (bitOf n 20) (fld 5 n 19 15) (bitOf n 14) (fld 5 n 13 9) (fld 2 n 5 4) (fld 4 n 3 0))
  else if bitsOf n 8 7 = 0 then .ok (.vlog (fld 5 n 25 21) (bitOf n 20) (fld 5 n 19 15) (bitOf n 14) (fld 5 n 13 9) (fld 3 n 6 4) (fld 4 n 3 0))
  else if bitsOf n 8 7 = 2 then .ok (.vcmp (fld 5 n 25 21) (bitOf n 20) (fld 5 n 19 15) (bitOf n 14) (fld 5 n 13 9) (fld 3 n 6 4) (fld 4 n 3 0))
  else .error (.unassignedCode 0x31)

/-- Major opcode 0x32. -/
def decodeOp32 (n : Nat) : Except DecodeError Instr :=
  if bitsOf n 13 4 = 4 then .ok (.vbcast (fld 5 n 25 21) (bitOf n 20) (fld 6 n 19 14) (fld 4 n 3 0))
  else if bitsOf n 8 0 = 0 then .ok (.vld (fld 5 n 25 21) (bitOf n 20) (fld 6 n 19 14) (fld 5 n 13 9))
  else if bitsOf n 8 0 = 16 then .ok (.vst (fld 5 n 25 21) (bitOf n 20) (fld 6 n 19 14) (fld 5 n 13 9))
  else if bitsOf n 8 0 = 80 then .ok (.vperm (fld 5 n 25 21) (bitOf n 20) (fld 5 n 19 15) (bitOf n 14) (fld 5 n 13 9))
  else if bitsOf n 8 4 = 2 then .ok (.vgath (fld 5 n 25 21) (bitOf n 20) (fld 6 n 19 14) (fld 5 n 13 9) (fld 4 n 3 0))
  else if bitsOf n 8 4 = 3 then .ok (.vscat (fld 5 n 25 21) (bitOf n 20) (fld 6 n 19 14) (fld 5 n 13 9) (fld 4 n 3 0))
  else .error (.unassignedCode 0x32)

/-- Major opcode 0x33. -/
def decodeOp33 (n : Nat) : Except DecodeError Instr :=
  if bitsOf n 13 11 = 0 ∧ bitsOf n 8 0 = 386 then .ok (.venc (fld 5 n 25 21) (bitOf n 20) (fld 5 n 19 15) (bitOf n 14) (fld 2 n 10 9))
  else if bitsOf n 13 11 = 0 ∧ bitsOf n 8 0 = 409 then .ok (.vdec (fld 5 n 25 21) (bitOf n 20) (fld 5 n 19 15) (bitOf n 14) (fld 2 n 10 9))
  else if bitsOf n 8 4 ≤ 6 then .ok (.vred (fld 5 n 25 21) (bitOf n 20) (fld 5 n 19 15) (bitOf n 14) (fld 5 n 13 9) (BitVec.ofNat 3 (bitsOf n 8 4)) (fld 4 n 3 0))
  else if 8 ≤ bitsOf n 8 4 ∧ bitsOf n 8 4 ≤ 14 then .ok (.vscan (fld 5 n 25 21) (bitOf n 20) (fld 5 n 19 15) (bitOf n 14) (fld 5 n 13 9) (BitVec.ofNat 3 (bitsOf n 8 4 - 8)) (fld 4 n 3 0))
  else if 16 ≤ bitsOf n 8 4 ∧ bitsOf n 8 4 ≤ 20 then .ok (.vcvt (fld 5 n 25 21) (bitOf n 20) (fld 5 n 19 15) (bitOf n 14) (fld 5 n 13 9) (BitVec.ofNat 3 (bitsOf n 8 4 - 16)) (fld 4 n 3 0))
  else .error (.unassignedCode 0x33)

/-- Major opcode 0x34. -/
def decodeOp34 (n : Nat) : Except DecodeError Instr :=
  if bitsOf n 8 7 = 0 ∧ bitsOf n 3 0 = 2 then .ok (.vflip (fld 5 n 25 21) (bitOf n 20) (fld 5 n 19 15) (bitOf n 14) (fld 5 n 13 9) (fld 3 n 6 4))
  else .error (.unassignedCode 0x34)

/-- Major opcode 0x35. -/
def decodeOp35 (n : Nat) : Except DecodeError Instr :=
  if bitsOf n 22 17 = 0 ∧ bitsOf n 7 0 = 16 then .ok (.mzero (fld 3 n 25 23) (fld 3 n 16 14) (fld 6 n 13 8))
  else if bitsOf n 22 17 = 0 ∧ bitsOf n 7 0 = 32 then .ok (.mscale (fld 3 n 25 23) (fld 3 n 16 14) (fld 6 n 13 8))
  else if bitsOf n 19 17 = 0 ∧ bitsOf n 7 1 = 24 then .ok (.msm (fld 3 n 25 23) (fld 3 n 22 20) (fld 3 n 16 14) (fld 6 n 13 8) (bitOf n 0))
  else if bitsOf n 7 4 = 0 then .ok (.mma (fld 3 n 25 23) (fld 3 n 22 20) (fld 3 n 19 17) (fld 3 n 16 14) (fld 6 n 13 8) (bitOf n 3) (bitOf n 2) (bitOf n 1) (bitOf n 0))
  else if bitsOf n 7 7 = 1 then .ok (.mmas (fld 3 n 25 23) (fld 3 n 22 20) (fld 3 n 19 17) (fld 3 n 16 14) (fld 6 n 13 8) (fld 2 n 6 5) (fld 3 n 4 2) (bitOf n 1) (bitOf n 0))
  else .error (.unassignedCode 0x35)

/-- Major opcode 0x36. -/
def decodeOp36 (n : Nat) : Except DecodeError Instr :=
  if bitsOf n 10 6 = 2 then .ok (.mmov (fld 3 n 25 23) (fld 6 n 22 17) (fld 5 n 16 12) (bitOf n 11) (bitOf n 5) (fld 5 n 4 0))
  else if bitsOf n 7 5 = 2 then .ok (.mst (fld 3 n 25 23) (fld 6 n 22 17) (fld 3 n 16 14) (fld 6 n 13 8) (fld 5 n 4 0))
  else if bitsOf n 7 6 = 0 then .ok (.mld (fld 3 n 25 23) (fld 6 n 22 17) (fld 3 n 16 14) (fld 6 n 13 8) (bitOf n 5) (fld 5 n 4 0))
  else .error (.unassignedCode 0x36)

/-- Major opcode 0x37. -/
def decodeOp37 (n : Nat) : Except DecodeError Instr :=
  if bitsOf n 25 23 = 0 ∧ bitsOf n 16 0 = 0 then .ok (.mfmt (fld 6 n 22 17))
  else if bitsOf n 25 25 = 0 ∧ bitsOf n 16 0 = 64 then .ok (.mtab (fld 2 n 24 23) (fld 6 n 22 17))
  else if bitsOf n 16 0 = 128 then .ok (.kld (fld 3 n 25 23) (fld 6 n 22 17))
  else if bitsOf n 13 2 = 48 then .ok (.kop (fld 3 n 25 23) (fld 6 n 22 17) (fld 3 n 16 14) (fld 2 n 1 0))
  else .error (.unassignedCode 0x37)

/-- Major opcode 0x3F. -/
def decodeOp3F (n : Nat) : Except DecodeError Instr :=
  .ok (.hint (fld 26 n 25 0))

/-- A word split by its major opcode (R325–R335). -/
def decodeRaw (n : Nat) : Except DecodeError Instr :=
  match bitsOf n 31 26 with
  | 0x00 => .error .opcodeZero
  | 0x01 => decodeOp01 n
  | 0x02 => decodeOp02 n
  | 0x03 => decodeOp03 n
  | 0x04 => decodeOp04 n
  | 0x05 => decodeOp05 n
  | 0x06 => decodeOp06 n
  | 0x07 => decodeOp07 n
  | 0x08 => decodeOp08 n
  | 0x09 => decodeOp09 n
  | 0x0A => decodeOp0A n
  | 0x0B => decodeOp0B n
  | 0x0C => decodeOp0C n
  | 0x0D => decodeOp0D n
  | 0x0E => decodeOp0E n
  | 0x0F => decodeOp0F n
  | 0x10 => decodeOp10 n
  | 0x11 => decodeOp11 n
  | 0x12 => decodeOp12 n
  | 0x13 => decodeOp13 n
  | 0x14 => decodeOp14 n
  | 0x15 => decodeOp15 n
  | 0x16 => decodeOp16 n
  | 0x17 => decodeOp17 n
  | 0x18 => decodeOp18 n
  | 0x19 => decodeOp19 n
  | 0x1A => decodeOp1A n
  | 0x1B => decodeOp1B n
  | 0x1C => decodeOp1C n
  | 0x1D => decodeOp1D n
  | 0x1E => decodeOp1E n
  | 0x1F => decodeOp1F n
  | 0x20 => decodeOp20 n
  | 0x21 => decodeOp21 n
  | 0x22 => decodeOp22 n
  | 0x23 => decodeOp23 n
  | 0x24 => decodeOp24 n
  | 0x25 => decodeOp25 n
  | 0x26 => decodeOp26 n
  | 0x27 => decodeOp27 n
  | 0x28 => decodeOp28 n
  | 0x29 => decodeOp29 n
  | 0x2A => decodeOp2A n
  | 0x2B => decodeOp2B n
  | 0x2C => decodeOp2C n
  | 0x2D => decodeOp2D n
  | 0x2E => decodeOp2E n
  | 0x2F => decodeOp2F n
  | 0x30 => decodeOp30 n
  | 0x31 => decodeOp31 n
  | 0x32 => decodeOp32 n
  | 0x33 => decodeOp33 n
  | 0x34 => decodeOp34 n
  | 0x35 => decodeOp35 n
  | 0x36 => decodeOp36 n
  | 0x37 => decodeOp37 n
  | 0x3F => decodeOp3F n
  | op => .error (.reservedOpcode op)

/-- The instruction of a word, or the name of what makes it illegal (R335). -/
def decode (w : W32) : Except DecodeError Instr :=
  match decodeRaw w.toNat with
  | .error e => .error e
  | .ok i => if legal i then .ok i else .error (.illegalOperand (bitsOf w.toNat 31 26))

/-- The instruction of the 32-bit word `w`, numbered as the opcode table numbers its bits; every
instruction has 32 bits (R320), so a shorter or longer word is none. -/
def decodeTableWord (nbits w : Nat) : Option Instr :=
  if nbits = 32 then (decode (BitVec.ofNat 32 w)).toOption else none

/-- Fields given from bit 31 downward as (width, value), put together into one number. -/
def pack : List (Nat × Nat) → Nat
  | [] => 0
  | (_, v) :: rest => v * 2 ^ (rest.map Prod.fst).sum + pack rest

/-- The word of an encoded instruction as a number, field by field (R321–R334); `none` for a step
that has no encoding. -/
def encodeNat : Instr → Option Nat
  | .add d l a m b => some (pack [(6, 0x01), (6, d.toNat), (1, boolNat l), (6, a.toNat), (1, boolNat m), (6, b.toNat), (6, 0)])
  | .sub d l a m b => some (pack [(6, 0x01), (6, d.toNat), (1, boolNat l), (6, a.toNat), (1, boolNat m), (6, b.toNat), (6, 1)])
  | .and d l a m b => some (pack [(6, 0x01), (6, d.toNat), (1, boolNat l), (6, a.toNat), (1, boolNat m), (6, b.toNat), (6, 2)])
  | .or d l a m b => some (pack [(6, 0x01), (6, d.toNat), (1, boolNat l), (6, a.toNat), (1, boolNat m), (6, b.toNat), (6, 3)])
  | .xor d l a m b => some (pack [(6, 0x01), (6, d.toNat), (1, boolNat l), (6, a.toNat), (1, boolNat m), (6, b.toNat), (6, 4)])
  | .shl d l a m b => some (pack [(6, 0x01), (6, d.toNat), (1, boolNat l), (6, a.toNat), (1, boolNat m), (6, b.toNat), (6, 5)])
  | .shr d l a m b => some (pack [(6, 0x01), (6, d.toNat), (1, boolNat l), (6, a.toNat), (1, boolNat m), (6, b.toNat), (6, 6)])
  | .shrS d l a m b => some (pack [(6, 0x01), (6, d.toNat), (1, boolNat l), (6, a.toNat), (1, boolNat m), (6, b.toNat), (6, 7)])
  | .mul d l a m b => some (pack [(6, 0x01), (6, d.toNat), (1, boolNat l), (6, a.toNat), (1, boolNat m), (6, b.toNat), (6, 8)])
  | .mulh d l a m b => some (pack [(6, 0x01), (6, d.toNat), (1, boolNat l), (6, a.toNat), (1, boolNat m), (6, b.toNat), (6, 9)])
  | .mulhU d l a m b => some (pack [(6, 0x01), (6, d.toNat), (1, boolNat l), (6, a.toNat), (1, boolNat m), (6, b.toNat), (6, 10)])
  | .div d l a m b => some (pack [(6, 0x01), (6, d.toNat), (1, boolNat l), (6, a.toNat), (1, boolNat m), (6, b.toNat), (6, 11)])
  | .divU d l a m b => some (pack [(6, 0x01), (6, d.toNat), (1, boolNat l), (6, a.toNat), (1, boolNat m), (6, b.toNat), (6, 12)])
  | .rem d l a m b => some (pack [(6, 0x01), (6, d.toNat), (1, boolNat l), (6, a.toNat), (1, boolNat m), (6, b.toNat), (6, 13)])
  | .remU d l a m b => some (pack [(6, 0x01), (6, d.toNat), (1, boolNat l), (6, a.toNat), (1, boolNat m), (6, b.toNat), (6, 14)])
  | .min d l a m b => some (pack [(6, 0x01), (6, d.toNat), (1, boolNat l), (6, a.toNat), (1, boolNat m), (6, b.toNat), (6, 15)])
  | .minU d l a m b => some (pack [(6, 0x01), (6, d.toNat), (1, boolNat l), (6, a.toNat), (1, boolNat m), (6, b.toNat), (6, 16)])
  | .max d l a m b => some (pack [(6, 0x01), (6, d.toNat), (1, boolNat l), (6, a.toNat), (1, boolNat m), (6, b.toNat), (6, 17)])
  | .maxU d l a m b => some (pack [(6, 0x01), (6, d.toNat), (1, boolNat l), (6, a.toNat), (1, boolNat m), (6, b.toNat), (6, 18)])
  | .clz d l a m => some (pack [(6, 0x01), (6, d.toNat), (1, boolNat l), (6, a.toNat), (1, boolNat m), (12, 19)])
  | .popc d l a m => some (pack [(6, 0x01), (6, d.toNat), (1, boolNat l), (6, a.toNat), (1, boolNat m), (12, 20)])
  | .addi d l a i => some (pack [(6, 0x02), (6, d.toNat), (1, boolNat l), (6, a.toNat), (13, i.toNat)])
  | .andi d l a i => some (pack [(6, 0x03), (6, d.toNat), (1, boolNat l), (6, a.toNat), (13, i.toNat)])
  | .ori d l a i => some (pack [(6, 0x04), (6, d.toNat), (1, boolNat l), (6, a.toNat), (13, i.toNat)])
  | .xori d l a i => some (pack [(6, 0x05), (6, d.toNat), (1, boolNat l), (6, a.toNat), (13, i.toNat)])
  | .shli d l a s => some (pack [(6, 0x06), (6, d.toNat), (1, boolNat l), (6, a.toNat), (7, 0), (6, s.toNat)])
  | .shri d l a s => some (pack [(6, 0x07), (6, d.toNat), (1, boolNat l), (6, a.toNat), (7, 0), (6, s.toNat)])
  | .shriS d l a s => some (pack [(6, 0x07), (6, d.toNat), (1, boolNat l), (6, a.toNat), (7, 64), (6, s.toNat)])
  | .cmp p l a m b c => some (pack [(6, 0x08), (2, 0), (4, p.toNat), (1, boolNat l), (6, a.toNat), (1, boolNat m), (6, b.toNat), (3, 0), (3, c.toNat)])
  | .cmpi p c a i => some (pack [(6, 0x09), (4, p.toNat), (3, c.toNat), (6, a.toNat), (13, i.toNat)])
  | .sel d l a m b n q => some (pack [(6, 0x0A), (6, d.toNat), (1, boolNat l), (6, a.toNat), (1, boolNat m), (6, b.toNat), (1, 0), (1, boolNat n), (4, q.toNat)])
  | .plog d l a m b o => some (pack [(6, 0x0B), (2, 0), (4, d.toNat), (1, boolNat l), (2, 0), (4, a.toNat), (1, boolNat m), (2, 0), (4, b.toNat), (3, 0), (3, o.toNat)])
  | .bfx d l a s w p => some (pack [(6, 0x0C), (6, d.toNat), (1, boolNat l), (6, a.toNat), (1, boolNat s), (6, w.toNat), (6, p.toNat)])
  | .bfi d l a w p => some (pack [(6, 0x0D), (6, d.toNat), (1, boolNat l), (6, a.toNat), (1, 0), (6, w.toNat), (6, p.toNat)])
  | .lih d i => some (pack [(6, 0x0E), (6, d.toNat), (20, i.toNat)])
  | .pcrel d i => some (pack [(6, 0x0F), (6, d.toNat), (20, i.toNat)])
  | .br p n o => some (pack [(6, 0x10), (4, p.toNat), (1, boolNat n), (21, o.toNat)])
  | .jal d o => some (pack [(6, 0x11), (6, d.toNat), (20, o.toNat)])
  | .jr d l a m => some (pack [(6, 0x12), (6, d.toNat), (1, boolNat l), (6, a.toNat), (1, boolNat m), (12, 0)])
  | .start d l a m b p => some (pack [(6, 0x13), (6, d.toNat), (1, boolNat l), (6, a.toNat), (1, boolNat m), (6, b.toNat), (2, 0), (4, p.toNat)])
  | .quit l m => some (pack [(6, 0x14), (6, 0), (1, boolNat l), (6, 0), (1, boolNat m), (12, 0)])
  | .hwait l a m => some (pack [(6, 0x14), (6, 0), (1, boolNat l), (6, a.toNat), (1, boolNat m), (12, 1)])
  | .yield l m => some (pack [(6, 0x14), (6, 0), (1, boolNat l), (6, 0), (1, boolNat m), (12, 2)])
  | .idle l a m => some (pack [(6, 0x14), (6, 0), (1, boolNat l), (6, a.toNat), (1, boolNat m), (12, 3)])
  | .ld d l a z g i => some (pack [(6, 0x15), (6, d.toNat), (1, boolNat l), (6, a.toNat), (2, z.toNat), (1, boolNat g), (10, i.toNat)])
  | .st z l a m b i => some (pack [(6, 0x16), (2, z.toNat), (1, boolNat l), (6, a.toNat), (1, boolNat m), (6, b.toNat), (10, i.toNat)])
  | .lda d l a z g i => some (pack [(6, 0x17), (6, d.toNat), (1, boolNat l), (6, a.toNat), (2, z.toNat), (1, boolNat g), (10, i.toNat)])
  | .stl z l a m b c i => some (pack [(6, 0x18), (2, z.toNat), (1, boolNat l), (6, a.toNat), (1, boolNat m), (6, b.toNat), (3, c.toNat), (7, i.toNat)])
  | .stOwn z l a m b i => some (pack [(6, 0x18), (2, z.toNat), (1, boolNat l), (6, a.toNat), (1, boolNat m), (6, b.toNat), (3, 6), (7, i.toNat)])
  | .stStk z l a m b i => some (pack [(6, 0x18), (2, z.toNat), (1, boolNat l), (6, a.toNat), (1, boolNat m), (6, b.toNat), (3, 7), (7, i.toNat)])
  | .ldsumF32 d l a i => some (pack [(6, 0x19), (6, d.toNat), (1, boolNat l), (6, a.toNat), (3, 4), (10, i.toNat)])
  | .ldsumF64 d l a i => some (pack [(6, 0x19), (6, d.toNat), (1, boolNat l), (6, a.toNat), (3, 6), (10, i.toNat)])
  | .ldsumI64 d l a i => some (pack [(6, 0x19), (6, d.toNat), (1, boolNat l), (6, a.toNat), (3, 7), (10, i.toNat)])
  | .fenceRel l m s => some (pack [(6, 0x1A), (6, 0), (1, boolNat l), (6, 0), (1, boolNat m), (9, 1), (3, s.toNat)])
  | .fenceAcq l m s => some (pack [(6, 0x1A), (6, 0), (1, boolNat l), (6, 0), (1, boolNat m), (9, 2), (3, s.toNat)])
  | .fenceFull l m s => some (pack [(6, 0x1A), (6, 0), (1, boolNat l), (6, 0), (1, boolNat m), (9, 3), (3, s.toNat)])
  | .amo d l a m b w z o => some (pack [(6, 0x1B), (6, d.toNat), (1, boolNat l), (6, a.toNat), (1, boolNat m), (6, b.toNat), (1, boolNat w), (1, boolNat z), (4, o.toNat)])
  | .amof d l a m b t o => some (pack [(6, 0x1C), (6, d.toNat), (1, boolNat l), (6, a.toNat), (1, boolNat m), (6, b.toNat), (3, 0), (1, boolNat t), (2, o.toNat)])
  | .redInt l a m b z o => some (pack [(6, 0x1D), (6, 0), (1, boolNat l), (6, a.toNat), (1, boolNat m), (6, b.toNat), (1, 0), (1, boolNat z), (4, o.toNat)])
  | .redFloat l a m b t o => some (pack [(6, 0x1D), (6, 0), (1, boolNat l), (6, a.toNat), (1, boolNat m), (6, b.toNat), (3, 4), (1, boolNat t), (2, o.toNat)])
  | .mdep l a m b => some (pack [(6, 0x1E), (6, 0), (1, boolNat l), (6, a.toNat), (1, boolNat m), (6, b.toNat), (6, 0)])
  | .msenseMax d l a k => some (pack [(6, 0x1F), (6, d.toNat), (1, boolNat l), (6, a.toNat), (1, 0), (12, k.toNat)])
  | .msenseMin d l a k => some (pack [(6, 0x1F), (6, d.toNat), (1, boolNat l), (6, a.toNat), (1, 1), (12, k.toNat)])
  | .hitch h p l a f => some (pack [(6, 0x20), (4, h.toNat), (2, 0), (4, p.toNat), (1, boolNat l), (6, a.toNat), (4, 0), (2, f.toNat), (3, 0)])
  | .unhitch h l s => some (pack [(6, 0x21), (4, h.toNat), (6, 0), (1, boolNat l), (12, 0), (3, s.toNat)])
  | .tbar h d l s => some (pack [(6, 0x22), (4, h.toNat), (6, d.toNat), (1, boolNat l), (12, 0), (3, s.toNat)])
  | .tarr h l s => some (pack [(6, 0x23), (4, h.toNat), (6, 0), (1, boolNat l), (12, 0), (3, s.toNat)])
  | .twait h d l => some (pack [(6, 0x24), (4, h.toNat), (6, d.toNat), (1, boolNat l), (15, 0)])
  | .tvote h d l a o s => some (pack [(6, 0x25), (4, h.toNat), (6, d.toNat), (1, boolNat l), (6, a.toNat), (4, 0), (2, o.toNat), (3, s.toNat)])
  | .tred h d l a t o s => some (pack [(6, 0x26), (4, h.toNat), (6, d.toNat), (1, boolNat l), (6, a.toNat), (2, 0), (2, t.toNat), (2, o.toNat), (3, s.toNat)])
  | .tinfo h d l => some (pack [(6, 0x27), (4, h.toNat), (6, d.toNat), (1, boolNat l), (15, 0)])
  | .tdrop h l => some (pack [(6, 0x27), (4, h.toNat), (6, 0), (1, boolNat l), (15, 8)])
  | .wpush p l a m => some (pack [(6, 0x28), (2, 0), (4, p.toNat), (1, boolNat l), (6, a.toNat), (1, boolNat m), (12, 0)])
  | .wpushOrd p l a m => some (pack [(6, 0x28), (2, 0), (4, p.toNat), (1, boolNat l), (6, a.toNat), (1, boolNat m), (12, 1)])
  | .wpop d l a m p => some (pack [(6, 0x28), (6, d.toNat), (1, boolNat l), (6, a.toNat), (1, boolNat m), (2, 0), (4, p.toNat), (6, 2)])
  | .wsteal d l a m p n => some (pack [(6, 0x28), (6, d.toNat), (1, boolNat l), (6, a.toNat), (1, boolNat m), (2, 0), (4, p.toNat), (3, 1), (3, n.toNat)])
  | .wcnt d l m n => some (pack [(6, 0x28), (6, d.toNat), (1, boolNat l), (6, 0), (1, boolNat m), (8, 1), (4, n.toNat)])
  | .chput p l a m c => some (pack [(6, 0x29), (2, 0), (4, p.toNat), (1, boolNat l), (6, a.toNat), (1, boolNat m), (6, c.toNat), (6, 0)])
  | .chget d p m c => some (pack [(6, 0x29), (6, d.toNat), (3, 0), (4, p.toNat), (1, boolNat m), (6, c.toNat), (6, 1)])
  | .cpy d l a m b n s => some (pack [(6, 0x2A), (6, d.toNat), (1, boolNat l), (6, a.toNat), (1, boolNat m), (6, b.toNat), (2, 0), (1, boolNat n), (3, s.toNat)])
  | .cpyCsr d l a m s => some (pack [(6, 0x2A), (6, d.toNat), (1, boolNat l), (6, a.toNat), (1, boolNat m), (9, 506), (3, s.toNat)])
  | .cpym d l a m b s => some (pack [(6, 0x2A), (6, d.toNat), (1, boolNat l), (6, a.toNat), (1, boolNat m), (6, b.toNat), (3, 4), (3, s.toNat)])
  | .subs p l a g => some (pack [(6, 0x2A), (2, 0), (4, p.toNat), (1, boolNat l), (6, a.toNat), (4, 0), (3, g.toNat), (6, 48)])
  | .unsubs l a => some (pack [(6, 0x2A), (6, 0), (1, boolNat l), (6, a.toNat), (13, 49)])
  | .epush p l m b n => some (pack [(6, 0x2B), (2, 0), (4, p.toNat), (1, boolNat l), (6, 0), (1, boolNat m), (6, b.toNat), (2, 0), (4, n.toNat)])
  | .epop d l p m n => some (pack [(6, 0x2B), (6, d.toNat), (1, boolNat l), (2, 0), (4, p.toNat), (1, boolNat m), (8, 1), (4, n.toNat)])
  | .sync l m => some (pack [(6, 0x2C), (6, 0), (1, boolNat l), (6, 0), (1, boolNat m), (12, 0)])
  | .xmit n l a m b => some (pack [(6, 0x2C), (6, n.toNat), (1, boolNat l), (6, a.toNat), (1, boolNat m), (6, b.toNat), (6, 1)])
  | .xsel n l a m b => some (pack [(6, 0x2C), (6, n.toNat), (1, boolNat l), (6, a.toNat), (1, boolNat m), (6, b.toNat), (6, 2)])
  | .mread d l a m => some (pack [(6, 0x2C), (6, d.toNat), (1, boolNat l), (6, a.toNat), (1, boolNat m), (12, 3)])
  | .mtick l a m => some (pack [(6, 0x2C), (6, 0), (1, boolNat l), (6, a.toNat), (1, boolNat m), (12, 4)])
  | .launch d l a m p => some (pack [(6, 0x2D), (6, d.toNat), (1, boolNat l), (6, a.toNat), (1, boolNat m), (2, 0), (4, p.toNat), (6, 0)])
  | .pace l a m => some (pack [(6, 0x2D), (6, 0), (1, boolNat l), (6, a.toNat), (1, boolNat m), (12, 1)])
  | .permit l a m => some (pack [(6, 0x2D), (6, 0), (1, boolNat l), (6, a.toNat), (1, boolNat m), (12, 2)])
  | .mfs d r => some (pack [(6, 0x2E), (6, d.toNat), (12, r.toNat), (8, 0)])
  | .mts s r => some (pack [(6, 0x2E), (6, s.toNat), (12, r.toNat), (8, 1)])
  | .trap c => some (pack [(6, 0x2E), (6, 0), (12, c.toNat), (8, 2)])
  | .eret => some (pack [(6, 0x2E), (26, 3)])
  | .svctx n => some (pack [(6, 0x2E), (14, 0), (4, n.toNat), (8, 4)])
  | .ldctx n => some (pack [(6, 0x2E), (14, 0), (4, n.toNat), (8, 5)])
  | .icflush => some (pack [(6, 0x2E), (26, 6)])
  | .rep c n s => some (pack [(6, 0x2F), (4, c.toNat), (8, n.toNat), (14, s.toNat)])
  | .vadd d l a m b r t => some (pack [(6, 0x30), (5, d.toNat), (1, boolNat l), (5, a.toNat), (1, boolNat m), (5, b.toNat), (5, r.toNat), (4, t.toNat)])
  | .vsub d l a m b r t => some (pack [(6, 0x30), (5, d.toNat), (1, boolNat l), (5, a.toNat), (1, boolNat m), (5, b.toNat), (5, 5 + r.toNat), (4, t.toNat)])
  | .vmul d l a m b r t => some (pack [(6, 0x30), (5, d.toNat), (1, boolNat l), (5, a.toNat), (1, boolNat m), (5, b.toNat), (5, 10 + r.toNat), (4, t.toNat)])
  | .vfma d l a m b r t => some (pack [(6, 0x30), (5, d.toNat), (1, boolNat l), (5, a.toNat), (1, boolNat m), (5, b.toNat), (5, 15 + r.toNat), (4, t.toNat)])
  | .vmax d l a m b t => some (pack [(6, 0x30), (5, d.toNat), (1, boolNat l), (5, a.toNat), (1, boolNat m), (5, b.toNat), (5, 20), (4, t.toNat)])
  | .vmin d l a m b t => some (pack [(6, 0x30), (5, d.toNat), (1, boolNat l), (5, a.toNat), (1, boolNat m), (5, b.toNat), (5, 21), (4, t.toNat)])
  | .vabs d l a m t => some (pack [(6, 0x30), (5, d.toNat), (1, boolNat l), (5, a.toNat), (1, boolNat m), (10, 22), (4, t.toNat)])
  | .vneg d l a m t => some (pack [(6, 0x30), (5, d.toNat), (1, boolNat l), (5, a.toNat), (1, boolNat m), (10, 23), (4, t.toNat)])
  | .vrcp d l a m r t => some (pack [(6, 0x30), (5, d.toNat), (1, boolNat l), (5, a.toNat), (1, boolNat m), (5, r.toNat), (5, 24), (4, t.toNat)])
  | .vrsq d l a m r t => some (pack [(6, 0x30), (5, d.toNat), (1, boolNat l), (5, a.toNat), (1, boolNat m), (5, r.toNat), (5, 25), (4, t.toNat)])
  | .vexp d l a m t => some (pack [(6, 0x30), (5, d.toNat), (1, boolNat l), (5, a.toNat), (1, boolNat m), (10, 26), (4, t.toNat)])
  | .vlog d l a m b o t => some (pack [(6, 0x31), (5, d.toNat), (1, boolNat l), (5, a.toNat), (1, boolNat m), (5, b.toNat), (2, 0), (3, o.toNat), (4, t.toNat)])
  | .vsh d l a m b o t => some (pack [(6, 0x31), (5, d.toNat), (1, boolNat l), (5, a.toNat), (1, boolNat m), (5, b.toNat), (3, 2), (2, o.toNat), (4, t.toNat)])
  | .vmac d l a m b t => some (pack [(6, 0x31), (5, d.toNat), (1, boolNat l), (5, a.toNat), (1, boolNat m), (5, b.toNat), (5, 12), (4, t.toNat)])
  | .vcmp d l a m b c t => some (pack [(6, 0x31), (5, d.toNat), (1, boolNat l), (5, a.toNat), (1, boolNat m), (5, b.toNat), (2, 2), (3, c.toNat), (4, t.toNat)])
  | .vsel d l a m b t => some (pack [(6, 0x31), (5, d.toNat), (1, boolNat l), (5, a.toNat), (1, boolNat m), (5, b.toNat), (5, 24), (4, t.toNat)])
  | .vld d l s i => some (pack [(6, 0x32), (5, d.toNat), (1, boolNat l), (6, s.toNat), (5, i.toNat), (9, 0)])
  | .vst d l s i => some (pack [(6, 0x32), (5, d.toNat), (1, boolNat l), (6, s.toNat), (5, i.toNat), (9, 16)])
  | .vgath d l s b t => some (pack [(6, 0x32), (5, d.toNat), (1, boolNat l), (6, s.toNat), (5, b.toNat), (5, 2), (4, t.toNat)])
  | .vscat d l s b t => some (pack [(6, 0x32), (5, d.toNat), (1, boolNat l), (6, s.toNat), (5, b.toNat), (5, 3), (4, t.toNat)])
  | .vbcast d l s t => some (pack [(6, 0x32), (5, d.toNat), (1, boolNat l), (6, s.toNat), (10, 4), (4, t.toNat)])
  | .vperm d l a m b => some (pack [(6, 0x32), (5, d.toNat), (1, boolNat l), (5, a.toNat), (1, boolNat m), (5, b.toNat), (9, 80)])
  | .vred d l a m k f t => some (pack [(6, 0x33), (5, d.toNat), (1, boolNat l), (5, a.toNat), (1, boolNat m), (5, k.toNat), (5, f.toNat), (4, t.toNat)])
  | .vscan d l a m k f t => some (pack [(6, 0x33), (5, d.toNat), (1, boolNat l), (5, a.toNat), (1, boolNat m), (5, k.toNat), (5, 8 + f.toNat), (4, t.toNat)])
  | .vcvt d l a m g r t => some (pack [(6, 0x33), (5, d.toNat), (1, boolNat l), (5, a.toNat), (1, boolNat m), (5, g.toNat), (5, 16 + r.toNat), (4, t.toNat)])
  | .venc d l a m s => some (pack [(6, 0x33), (5, d.toNat), (1, boolNat l), (5, a.toNat), (1, boolNat m), (3, 0), (2, s.toNat), (9, 386)])
  | .vdec d l a m s => some (pack [(6, 0x33), (5, d.toNat), (1, boolNat l), (5, a.toNat), (1, boolNat m), (3, 0), (2, s.toNat), (9, 409)])
  | .vflip d l a m b g => some (pack [(6, 0x34), (5, d.toNat), (1, boolNat l), (5, a.toNat), (1, boolNat m), (5, b.toNat), (2, 0), (3, g.toNat), (4, 2)])
  | .mma d a b k i x r p q => some (pack [(6, 0x35), (3, d.toNat), (3, a.toNat), (3, b.toNat), (3, k.toNat), (6, i.toNat), (4, 0), (1, boolNat x), (1, boolNat r), (1, boolNat p), (1, boolNat q)])
  | .mzero d k i => some (pack [(6, 0x35), (3, d.toNat), (6, 0), (3, k.toNat), (6, i.toNat), (8, 16)])
  | .mscale d k i => some (pack [(6, 0x35), (3, d.toNat), (6, 0), (3, k.toNat), (6, i.toNat), (8, 32)])
  | .msm d g k i h => some (pack [(6, 0x35), (3, d.toNat), (3, g.toNat), (3, 0), (3, k.toNat), (6, i.toNat), (7, 24), (1, boolNat h)])
  | .mmas d a b k i t g p q => some (pack [(6, 0x35), (3, d.toNat), (3, a.toNat), (3, b.toNat), (3, k.toNat), (6, i.toNat), (1, 1), (2, t.toNat), (3, g.toNat), (1, boolNat p), (1, boolNat q)])
  | .mld d s k i t m => some (pack [(6, 0x36), (3, d.toNat), (6, s.toNat), (3, k.toNat), (6, i.toNat), (2, 0), (1, boolNat t), (5, m.toNat)])
  | .mst d s k i m => some (pack [(6, 0x36), (3, d.toNat), (6, s.toNat), (3, k.toNat), (6, i.toNat), (3, 2), (5, m.toNat)])
  | .mmov t s v c d m => some (pack [(6, 0x36), (3, t.toNat), (6, s.toNat), (5, v.toNat), (1, boolNat c), (5, 2), (1, boolNat d), (5, m.toNat)])
  | .mfmt s => some (pack [(6, 0x37), (3, 0), (6, s.toNat), (17, 0)])
  | .mtab t s => some (pack [(6, 0x37), (1, 0), (2, t.toNat), (6, s.toNat), (17, 64)])
  | .kld k s => some (pack [(6, 0x37), (3, k.toNat), (6, s.toNat), (17, 128)])
  | .kop k s a o => some (pack [(6, 0x37), (3, k.toNat), (6, s.toNat), (3, a.toNat), (12, 48), (2, o.toNat)])
  | .hint h => some (pack [(6, 0x3F), (26, h.toNat)])
  | .illegalWord _ => none
  | .qcfgWrite _ => none
  | .domainWrite _ => none
  | .tstampWrite _ => none
  | .ringDescriptorWrite _ _ => none
  | .fstatClear _ => none
  | .fstatRead _ => none
  | .hfaultClear _ => none
  | .roleWrite _ => none
  | .vshareWrite _ => none
  | .frameWrite _ _ => none
  | .vectorQueueDispatch _ => none
  | .vectorEntryComplete _ => none
  | .frameStepDispatch _ => none
  | .commitWindowApply _ => none
  | .storeReplay _ => none
  | .domainArrival _ => none
  | .superstepRelease _ => none
  | .superstepEnd _ => none
  | .exchangeTransmit _ _ _ => none
  | .exchangeArrival _ _ _ => none
  | .gatherServe _ => none
  | .markEndNotice _ => none
  | .markTick _ _ => none
  | .markDepositApply _ => none
  | .markSenseServe _ => none
  | .teamArrival _ _ _ => none
  | .teamDeparture _ _ => none
  | .teamParkedNotice _ _ _ => none
  | .domainResumeRequest _ => none
  | .copySlotReserve _ _ => none
  | .copyStatus _ _ => none
  | .streamerBatchElement _ _ => none
  | .streamerCompletionPush _ _ => none
  | .multicastArrival _ => none
  | .reductionBatch _ => none
  | .descriptorWake _ => none
  | .pacerPush _ => none
  | .wranglerSample _ _ => none
  | .spinGovernorTrip _ _ => none
  | .spinHoldExpiry _ _ => none
  | .idleExpiry _ _ => none
  | .weightRefresh _ => none
  | .waitCounterPoll _ => none
  | .gangPlace => none
  | .gangComplete _ => none
  | .preemptInterrupt _ _ => none
  | .restoreInterrupt _ _ => none
  | .lendEnd _ => none
  | .spillDivert _ _ => none
  | .packetResend _ => none
  | .pageFaultRetry _ _ _ => none
  | .pageFaultFatal _ _ _ => none
  | .trapQueueRecord _ => none
  | .doubleFault _ => none
  | .lostResponse _ _ _ => none
  | .bridleHalt _ => none
  | .bridleResume _ => none
  | .powerLimit _ => none
  | .criticalTemperature => none
  | .deviceReset _ _ => none
  | .tenantCreate _ _ => none
  | .tenantTeardown _ => none
  | .fabricConfiguration _ _ _ _ => none
  | .imageLoad _ _ _ => none
  | .memoryRead _ _ _ => none
  | .memoryWrite _ _ _ => none
  | .hostLaunch _ _ => none
  | .event _ _ _ => none
  | .weightStoreFill _ _ _ => none
  | .regionInstall _ _ _ => none
  | .regionRewrite _ _ _ => none
  | .regionRemove _ _ => none
  | .translationInvalidate _ => none
  | .pageMigrate _ _ _ => none
  | .journalRead _ _ => none
  | .capabilityRead _ => none
  | .attest _ _ => none
  | .layerSleep _ _ => none
  | .layerWake _ _ => none
  | .bridleQuiesced _ => none
  | .fatalRecordServed _ => none
  | .tenantFieldError _ => none
  | .networkSendElement _ _ => none
  | .networkInbound _ _ _ _ _ => none

/-- The word of an encoded instruction. -/
def encode (i : Instr) : Option W32 := (encodeNat i).map (BitVec.ofNat 32)

end Sys2Proof
end

