-- ==== Sys2Proof/Machine/Float.lean ====
section
/-!
DEFINITION. Floating formats, exact dyadic values, rounding and the operations of IEEE 754-2019 with
the NaN rule of R128 (R113, R114, R116, R122, R123, R127–R129).
-/
namespace Sys2Proof.Machine

/-- A binary format: exponent and fraction widths (R113, R114). -/
structure Fmt where
  exp : Nat
  frac : Nat
  deriving DecidableEq, Repr

def f16 : Fmt := ⟨5, 10⟩
def bf16 : Fmt := ⟨8, 7⟩
def f32 : Fmt := ⟨8, 23⟩
def f64 : Fmt := ⟨11, 52⟩
def e8m10 : Fmt := ⟨8, 10⟩

namespace Fmt
def width (f : Fmt) : Nat := 1 + f.exp + f.frac
def bias (f : Fmt) : Int := 2 ^ (f.exp - 1) - 1
/-- The exponent of the last place of a subnormal. -/
def emin (f : Fmt) : Int := 1 - f.bias - f.frac
def signBit (f : Fmt) : Nat := 2 ^ (f.exp + f.frac)
def infBits (f : Fmt) : Nat := (2 ^ f.exp - 1) * 2 ^ f.frac
def quietBit (f : Fmt) : Nat := 2 ^ (f.frac - 1)
/-- The canonical quiet NaN (R116). -/
def qnan (f : Fmt) : Nat := f.infBits + f.quietBit
def neg (f : Fmt) (x : Nat) : Bool := x / f.signBit % 2 == 1
/-- The bits below the sign. -/
def mag (f : Fmt) (x : Nat) : Nat := x % f.signBit
def isNaN (f : Fmt) (x : Nat) : Bool := decide (f.infBits < f.mag x)
def isSNaN (f : Fmt) (x : Nat) : Bool := f.isNaN x && x / f.quietBit % 2 == 0
def isInf (f : Fmt) (x : Nat) : Bool := f.mag x == f.infBits
def isZero (f : Fmt) (x : Nat) : Bool := f.mag x == 0
def quiet (f : Fmt) (x : Nat) : Nat := if x / f.quietBit % 2 == 0 then x + f.quietBit else x
def withSign (f : Fmt) (neg : Bool) (m : Nat) : Nat := if neg then m + f.signBit else m
end Fmt

/-- FSTAT: NX, UF, OF, DZ, NV from bit 0 (R122). -/
abbrev FFlags := BitVec 5
def fNX : FFlags := 1
def fUF : FFlags := 2
def fOF : FFlags := 4
def fDZ : FFlags := 8
def fNV : FFlags := 16

/-- A result with its flags. -/
abbrev FRes := Nat × FFlags

/-- An exact dyadic number m × 2^e. -/
structure Dy where
  m : Int
  e : Int
  deriving DecidableEq, Repr

/-- The value of a finite pattern (R114). -/
def Fmt.value (f : Fmt) (x : Nat) : Dy :=
  let mag := f.mag x
  let ex := mag / 2 ^ f.frac
  let fr := mag % 2 ^ f.frac
  let m : Nat := if ex = 0 then fr else 2 ^ f.frac + fr
  { m := if f.neg x then -(m : Int) else (m : Int), e := f.emin + (if ex = 0 then 0 else (ex : Int) - 1) }

def pow2i (k : Int) : Int := 2 ^ k.toNat

def Dy.add (a b : Dy) : Dy :=
  let e := min a.e b.e
  { m := a.m * pow2i (a.e - e) + b.m * pow2i (b.e - e), e := e }
def Dy.mul (a b : Dy) : Dy := { m := a.m * b.m, e := a.e + b.e }
def Dy.neg (a : Dy) : Dy := { a with m := -a.m }
def Dy.sub (a b : Dy) : Dy := a.add b.neg
def Dy.scale (k : Int) (a : Dy) : Dy := { a with e := a.e + k }
def Dy.lt (a b : Dy) : Bool := decide ((a.sub b).m < 0)
def Dy.le (a b : Dy) : Bool := decide ((a.sub b).m ≤ 0)
def Dy.eq (a b : Dy) : Bool := decide ((a.sub b).m = 0)

/-- The number of bits of a number. -/
def bitLen (n : Nat) : Nat := if n = 0 then 0 else n.log2 + 1

/-- Rounding modes of R123. -/
inductive RMode where
  | rne
  | rtz
  | rup
  | rdn
  deriving DecidableEq, Repr

def RMode.ofCode : Nat → RMode
  | 0 => .rne
  | 1 => .rtz
  | 2 => .rup
  | _ => .rdn

/-- Whether the kept part is rounded away from zero: `rem` of `unit` is dropped, `sticky` says that a little more
than that is dropped. -/
def roundsAway (r : RMode) (neg odd : Bool) (rem unit : Nat) (sticky : Bool) : Bool :=
  match r with
  | .rne => decide (unit < 2 * rem) || (2 * rem == unit && (sticky || odd))
  | .rtz => false
  | .rup => !neg && (rem != 0 || sticky)
  | .rdn => neg && (rem != 0 || sticky)

/-- Keep (m, plus a little when `sticky`) × 2^e at unit 2^u: the rounded multiple and whether it is inexact. -/
def roundAt (r : RMode) (neg : Bool) (m : Nat) (e u : Int) (sticky : Bool) : Nat × Bool :=
  if u ≤ e then (m * 2 ^ (e - u).toNat, sticky)
  else
    let unit := 2 ^ (u - e).toNat
    let q := m / unit
    let rem := m % unit
    (if roundsAway r neg (q % 2 == 1) rem unit sticky then q + 1 else q, rem != 0 || sticky)

/-- Round a nonzero magnitude into a format: overflow by the mode, tininess after rounding (R127). -/
def roundMag (f : Fmt) (r : RMode) (neg : Bool) (m : Nat) (e : Int) (sticky : Bool) : FRes :=
  let top : Int := (bitLen m : Int) + e - 1
  let u := max (top - f.frac) f.emin
  let q := roundAt r neg m e u sticky
  let bits := (u - f.emin).toNat * 2 ^ f.frac + q.1
  if f.infBits ≤ bits then
    let inf := match r with
      | .rne => true
      | .rtz => false
      | .rup => !neg
      | .rdn => neg
    (f.withSign neg (if inf then f.infBits else f.infBits - 1), fOF ||| fNX)
  else
    let tiny := decide (top < 1 - f.bias) &&
      !(top == -f.bias && (roundAt r neg m e (top - f.frac) sticky).1 == 2 ^ (f.frac + 1))
    (f.withSign neg bits, if q.2 then (if tiny then fNX ||| fUF else fNX) else 0)

/-- Round an exact value; `zneg` is the sign of an exact zero. -/
def roundDy (f : Fmt) (r : RMode) (zneg : Bool) (d : Dy) : FRes :=
  if d.m = 0 then (f.withSign zneg 0, 0) else roundMag f r (decide (d.m < 0)) d.m.natAbs d.e false

/-- The first NaN of some operands, quieted; NV for a signalling one (R128). -/
def nanOf (f : Fmt) (xs : List Nat) : Option FRes :=
  (xs.find? f.isNaN).map fun x => (f.quiet x, if xs.any f.isSNaN then fNV else 0)

/-- The sign of an exact zero sum of terms of these signs. -/
def zeroSign (r : RMode) (a b : Bool) : Bool := if a == b then a else r == .rdn

def fAdd (f : Fmt) (r : RMode) (a b : Nat) : FRes :=
  match nanOf f [a, b] with
  | some x => x
  | none =>
    if f.isInf a then if f.isInf b && f.neg a != f.neg b then (f.qnan, fNV) else (a, 0)
    else if f.isInf b then (b, 0)
    else roundDy f r (zeroSign r (f.neg a) (f.neg b)) ((f.value a).add (f.value b))

def fNeg (f : Fmt) (x : Nat) : Nat := if f.neg x then x - f.signBit else x + f.signBit
def fAbs (f : Fmt) (x : Nat) : Nat := f.mag x

/-- Subtraction; a NaN operand comes back with its own sign (R128). -/
def fSub (f : Fmt) (r : RMode) (a b : Nat) : FRes :=
  match nanOf f [a, b] with
  | some x => x
  | none => fAdd f r a (fNeg f b)

def fMul (f : Fmt) (r : RMode) (a b : Nat) : FRes :=
  let s := f.neg a != f.neg b
  match nanOf f [a, b] with
  | some x => x
  | none =>
    if f.isInf a || f.isInf b then
      if f.isZero a || f.isZero b then (f.qnan, fNV) else (f.withSign s f.infBits, 0)
    else roundDy f r s ((f.value a).mul (f.value b))

/-- Fused multiply-add; infinity times zero sets NV even beside a NaN addend (R128). -/
def fFma (f : Fmt) (r : RMode) (a b c : Nat) : FRes :=
  let s := f.neg a != f.neg b
  let invalid := (f.isInf a && f.isZero b) || (f.isZero a && f.isInf b)
  match nanOf f [a, b, c] with
  | some x => (x.1, if invalid then x.2 ||| fNV else x.2)
  | none =>
    if invalid then (f.qnan, fNV)
    else if f.isInf a || f.isInf b then
      if f.isInf c && f.neg c != s then (f.qnan, fNV) else (f.withSign s f.infBits, 0)
    else if f.isInf c then (c, 0)
    else
      let p := (f.value a).mul (f.value b)
      roundDy f r (if p.m = 0 && f.isZero c then zeroSign r s (f.neg c) else r == .rdn) (p.add (f.value c))

/-- An order on non-NaN patterns with −0 below +0. -/
def fKey (f : Fmt) (x : Nat) : Int := if f.neg x then -((f.mag x : Nat) : Int) - 1 else ((f.mag x : Nat) : Int)

def fMax (f : Fmt) (a b : Nat) : FRes :=
  match nanOf f [a, b] with
  | some x => x
  | none => (if fKey f a < fKey f b then b else a, 0)

def fMin (f : Fmt) (a b : Nat) : FRes :=
  match nanOf f [a, b] with
  | some x => x
  | none => (if fKey f b < fKey f a then b else a, 0)

/-- Round the quotient of two nonzero finite patterns. -/
def roundQuot (f : Fmt) (r : RMode) (neg : Bool) (a b : Dy) : FRes :=
  let k := f.frac + 4 + bitLen b.m.natAbs
  let n := a.m.natAbs * 2 ^ k
  roundMag f r neg (n / b.m.natAbs) (a.e - b.e - k) (n % b.m.natAbs != 0)

def fDiv (f : Fmt) (r : RMode) (a b : Nat) : FRes :=
  let s := f.neg a != f.neg b
  match nanOf f [a, b] with
  | some x => x
  | none =>
    if f.isInf a then if f.isInf b then (f.qnan, fNV) else (f.withSign s f.infBits, 0)
    else if f.isInf b then (f.withSign s 0, 0)
    else if f.isZero b then if f.isZero a then (f.qnan, fNV) else (f.withSign s f.infBits, fDZ)
    else if f.isZero a then (f.withSign s 0, 0)
    else roundQuot f r s (f.value a) (f.value b)

/-- Reciprocal (R129). -/
def fRcp (f : Fmt) (r : RMode) (a : Nat) : FRes := fDiv f r (f.bias.toNat * 2 ^ f.frac) a

/-- The integer square root, by bits from 2^n down. -/
def isqrtFrom (x : Nat) : Nat → Nat → Nat
  | 0, r => r
  | n + 1, r => isqrtFrom x n (if (r + 2 ^ n) * (r + 2 ^ n) ≤ x then r + 2 ^ n else r)
def isqrt (x : Nat) : Nat := isqrtFrom x (bitLen x / 2 + 1) 0

/-- Reciprocal square root (R129). -/
def fRsqrt (f : Fmt) (r : RMode) (a : Nat) : FRes :=
  match nanOf f [a] with
  | some x => x
  | none =>
    if f.isZero a then (f.withSign (f.neg a) f.infBits, fDZ)
    else if f.neg a then (f.qnan, fNV)
    else if f.isInf a then (0, 0)
    else
      let d := f.value a
      let odd := d.e % 2 ≠ 0
      let m := if odd then 2 * d.m.natAbs else d.m.natAbs
      let e := if odd then d.e - 1 else d.e
      let k := f.frac + 6 + bitLen m
      let q := isqrt (2 ^ (2 * k) / m)
      roundMag f r false q (-(e / 2) - k) (q * q * m != 2 ^ (2 * k))

/-! The exponential -/

/-- ln 2 × 2^p, between the result and the result plus p + 2: the sum of 2^(p−i) ÷ i. -/
def ln2Below (p : Nat) : Nat → Nat
  | 0 => 0
  | i + 1 => 2 ^ (p - (i + 1)) / (i + 1) + ln2Below p i

/-- Sum of the series of the exponential of r ÷ 2^p from below: every term is cut. -/
def expBelow (p r : Nat) : Nat → Nat → Nat → Nat → Nat
  | 0, _, _, acc => acc
  | n + 1, i, t, acc => expBelow p r n (i + 1) (t * r / (i * 2 ^ p)) (acc + t)

/-- The same from above: every term is raised. -/
def expAbove (p r : Nat) : Nat → Nat → Nat → Nat → Nat
  | 0, _, _, acc => acc + 2
  | n + 1, i, t, acc => expAbove p r n (i + 1) (t * r / (i * 2 ^ p) + 1) (acc + t)

/-- Bounds of exp(d) as integers times 2^e, with p bits of working precision; |d| < 2^12. -/
def expBounds (p : Nat) (d : Dy) : Nat × Nat × Int :=
  let x : Int := if d.e + p < 0 then d.m / pow2i (-(d.e + p)) else d.m * pow2i (d.e + p)
  let l : Int := ln2Below p p
  let k := x / (l + p + 2)
  let errs : Int := k.natAbs * (p + 2) + 2
  let lo := max 0 (x - k * l - errs)
  let hi := x - k * l + errs
  (expBelow p lo.toNat (p / 2 + 8) 1 (2 ^ p) 0, expAbove p hi.toNat (p / 2 + 8) 1 (2 ^ p) 0, k - p)

/-- Precisions tried, one after another. Log entry 39 (DEDUCED). -/
def expPrecisions : List Nat := [128, 256, 512, 1024]

/-- The result that a rounding `out` gives for exp(d), d ≠ 0: precision rises until both bounds round alike. `out`
takes a magnitude m × 2^e that the value lies a little above. -/
def expWith {β : Type} [DecidableEq β] (out : Nat → Int → β) (d : Dy) : List Nat → β
  | [] => let b := expBounds 2048 d; out b.1 b.2.2
  | p :: ps =>
    let b := expBounds p d
    let x := out b.1 b.2.2
    if x = out (b.2.1 - 1) b.2.2 then x else expWith out d ps

/-- exp of an exact nonzero value under a rounding: far values need no series. -/
def expOf {β : Type} [DecidableEq β] (out : Nat → Int → β) (d : Dy) : β :=
  let top : Int := (bitLen d.m.natAbs : Int) + d.e
  if 12 < top then if d.m < 0 then out (2 ^ 60) (-8192) else out (2 ^ 60) 8192
  else expWith out d expPrecisions

/-- exp of an exact value, rounded once to nearest even. -/
def expRound (f : Fmt) (d : Dy) : FRes :=
  if d.m = 0 then roundDy f .rne false { m := 1, e := 0 }
  else expOf (fun m e => roundMag f .rne false m e true) d

/-- VEXP: the source format and the output format (R129). -/
def fExp (src out : Fmt) (a : Nat) : FRes :=
  if src.isInf a then if src.neg a then (0, 0) else (out.infBits, 0)
  else expRound out (src.value a)

/-! Conversions (R130) -/

/-- A NaN narrowed or widened: its sign and top payload bits, quieted. -/
def convNaN (src dst : Fmt) (x : Nat) : Nat :=
  let fr := x % 2 ^ src.frac
  let g := if dst.frac ≤ src.frac then fr / 2 ^ (src.frac - dst.frac) else fr * 2 ^ (dst.frac - src.frac)
  dst.withSign (src.neg x) (dst.quiet (dst.infBits + g))

/-- Floating to floating. -/
def convFF (src dst : Fmt) (r : RMode) (x : Nat) : FRes :=
  if src.isNaN x then (convNaN src dst x, if src.isSNaN x then fNV else 0)
  else if src.isInf x then (dst.withSign (src.neg x) dst.infBits, 0)
  else roundDy dst r (src.neg x) (src.value x)

/-- Floating to an integer between two bounds (R130). -/
def convFI (src : Fmt) (r : RMode) (lo hi : Int) (x : Nat) : Int × FFlags :=
  if src.isNaN x then (0, fNV)
  else if src.isInf x then (if src.neg x then lo else hi, fNV)
  else
    let d := src.value x
    let q := roundAt r (decide (d.m < 0)) d.m.natAbs d.e 0 false
    let v : Int := if d.m < 0 then -(q.1 : Int) else q.1
    if v < lo then (lo, fNV) else if hi < v then (hi, fNV) else (v, if q.2 then fNX else 0)

/-- An integer to a floating format. -/
def convIF (dst : Fmt) (r : RMode) (v : Int) : FRes := roundDy dst r false { m := v, e := 0 }

end Sys2Proof.Machine
end

