-- ==== Sys2Proof/Config.lean ====
section
/-!
DEFINITION. The fixed figures of the device (R13, R21, R58, R158, R162) and the free values: what
the manual leaves open is an opaque constant here, applied to the state's counter `fresh` or to the
operands it depends on, so no proof can see a value of it. Log entries 4 and 63 (DESIGN CHOICE).
-/
namespace Sys2Proof.Config

/-- Bytes of layer memory of one compute die (R158). -/
def layerBytes : Nat := 384 * 2 ^ 20
/-- Bytes of weight store of one compute die (R158). -/
def weightBytes : Nat := 1536 * 2 ^ 20
/-- Bytes of far memory of one stack (R21). -/
def farStackBytes : Nat := 48 * 2 ^ 30
/-- Bytes of mark store of one compute die (R158). -/
def markBytes : Nat := 16 * 2 ^ 20
/-- First byte after the scratchpad (R158). -/
def scratchBytes : Nat := 0x30000
/-- First byte of the pinned handler area (R161). -/
def pinnedBase : Nat := 0x2C000
/-- Compute dies of the package (R8). -/
def dies : Nat := 24
/-- Cores of the package (R8). -/
def cores : Nat := 1536
/-- Entries of a store buffer (R180), entries of an overflow log that stores may use (R181), and all of them. -/
def bufEntries : Nat := 64
def logStoreEntries : Nat := 2048
def logEntries : Nat := 2112
/-- Entries of a vector queue (R138). -/
def vqEntries : Nat := 16
/-- Depth of a queue register (R41). -/
def queueDepth : Nat := 8
/-- Entries of a work queue (R255) and waiter registrations of a die's homes (R257). -/
def workEntries : Nat := 256
def waiterEntries : Nat := 4096
/-- Lines of a read cache (R167), entries of a TLB and of a die's translation cache (R165). -/
def cacheLines : Nat := 512
def tlbEntries : Nat := 64
def tcacheEntries : Nat := 16384
/-- Team entries of one quarter (R69), match-table entries (R244), tag bitmaps of a switch (R244). -/
def quarterEntries : Nat := 4096
def matchEntries : Nat := 16
def switchTags : Nat := 4096
/-- Tag bitmaps of a die's crossbar (R244). -/
def crossbarTags : Nat := 1024
/-- Records of a trap queue, and those kept for fatal and double-fault records (R285). -/
def trapRecords : Nat := 1024
def trapReserved : Nat := 16
/-- Pending launch records (R248), journal entries (R310), rein-log slots (R209), bytes of a spill buffer (R290). -/
def launchRecords : Nat := 4096
def journalEntries : Nat := 65536
def reinLogSlots : Nat := 65536
def spillBytes : Nat := 32768
/-- Outstanding copies of a context (R351), unsent gathers and scatters of a core (R220), armed transfers (R235). -/
def copyMax : Nat := 64
def gatherMax : Nat := 64
def exchangeMax : Nat := 64

/-- FREE VALUE: which of several enabled agents moves next. -/
opaque pick : Nat → Nat
/-- FREE CHOICE: which of the values that its context has held a freed scalar register reads as under LUMODE 1 (R43). -/
opaque freedScalar : Nat → Nat
/-- FREE CHOICE: slot by slot, which of the rows held a freed vector register reads from under LUMODE 1 (R43, R323). -/
opaque freedSlot : Nat → Nat → Nat
/-- FREE CHOICE: whether a load is served from a line the read cache holds (R196). -/
opaque keepLine : Nat → Bool
/-- FREE CHOICE: whether a cached translation is used or the tables are walked again (R165). -/
opaque keepTranslation : Nat → Bool
/-- FREE CHOICE: whether a fetch returns the word fetched earlier (R188). -/
opaque oldWord : Nat → Bool
/-- FREE CHOICE: which line or translation a full cache gives up (R165, R167). -/
opaque evict : Nat → Nat
/-- FREE VALUE: byte by byte, what a slot holds beyond the COUNT of a copy that stopped (R351). -/
opaque tailByte : Nat → Nat → Byte
/-- FREE CHOICE: whether a batch of the reduction window ends before the next request of its kind (R210). -/
opaque closeBatch : Nat → Bool
/-- IMPLEMENTATION: the identity key pair, generated inside the device: modulus, public and secret exponent (R316). -/
opaque identityModulus : Nat
opaque identityExponent : Nat
opaque identitySecret : Nat
/-- FREE VALUE: the salt of a signature (R315). -/
opaque salt : Nat → List Byte
/-- IMPLEMENTATION: the SHA-512 digest in mask ROM of the public key that images verify against (R315). -/
opaque romDigest : BitVec 512
/-- IMPLEMENTATION: the rollback version and the owner endpoint that the payload of an image names (R306, R315). -/
opaque imageVersion : List Byte → Nat
opaque imageOwner : List Byte → W32
/-- IMPLEMENTATION: the bytes of a public key whose digest is compared and reported (R315, R316). -/
opaque keyBytes : Nat → Nat → List Byte
/-- FREE VALUE: the memory keys that the random source draws (R174). -/
opaque drawKey : Nat → BitVec 512
/-- IMPLEMENTATION: the 32 bytes of a ready entry (R317) and of a report of a critical temperature (R318). -/
opaque reportBytes : Bool → List Byte
/-- IMPLEMENTATION: the bytes of the arguments of tenant create, whose digest a report holds (R316). -/
opaque creationBytes : TenantSpec → List Byte
/-- IMPLEMENTATION: whether the package is of the form GRX-24M (R435). -/
opaque formM : Bool
/-- IMPLEMENTATION: which ports are in service (R435). -/
opaque portInService : Nat → Bool

end Sys2Proof.Config
end

