-- ==== Sys2Proof/Machine/State.lean ====
section
/-!
DEFINITION. The state of the device as plain data: one focused core with its contexts, the other
cores, the memories and the units of dies, stacks and package, and what the host has set up.
INVENTORY.md lists every piece with its rule and its reset value.
-/
namespace Sys2Proof.Machine

/-- Why the machine stops. No rule of the manual stops the device; the one constructor stands for a
core number that names no core, which no run reaches (safe). -/
inductive Fault where
  /-- Raised by no step of a reachable state: a turn names a core outside 0–1,535 (safe). -/
  | noSuchCore
  deriving DecidableEq, Repr

/-- Why an operation has no meaning here. -/
inductive Refusal where
  /-- Raised by an arm of `exec` that is not modelled yet (safe: the machine stops). -/
  | notModelled (mnemonic : String)
  deriving DecidableEq, Repr

/-- Bytes by address, addresses strictly rising, no zero byte listed (an unlisted byte reads zero, R175). -/
abbrev Memory := List Host.Cell

/-- The canonical form of a memory: strictly rising addresses, no entry equal to the unlisted byte. -/
def Memory.wf : Memory → Bool
  | [] => true
  | [(_, b)] => b != 0
  | (a, b) :: (a', b') :: m => b != 0 && decide (a < a') && Memory.wf ((a', b') :: m)

/-- The replica kind of a buffered store (R180, R393). -/
inductive StKind where
  | plain
  | own
  | stk
  deriving DecidableEq, Repr

/-- (TSTAMP, TID) of a context (R192). -/
structure CommitKey where
  stamp : W64
  tid : Nat
  deriving DecidableEq, Repr

/-- One store-buffer entry: an aligned 8-byte word of virtual address space, `word` being the address
divided by 8, with its byte mask and bytes (R180). -/
structure SBEntry where
  word : Nat
  mask : Byte
  data : W64
  kind : StKind
  deriving DecidableEq, Repr

/-- A buffered entry in a commit window: the entry, the place in the address space of the device that its
drain translated it to (R183, R221), and its number in the program order of its drain; entries of the replicated region have the
offset in each replica instead of a place (R172). -/
structure WinEntry where
  entry : SBEntry
  phys : Nat
  seq : Nat
  deriving DecidableEq, Repr

/-- An ordered task: its descriptor, its read signature (R203), and whether its context has ended by a fault, which discards the task
(R428). -/
structure OrdTask where
  desc : BitVec 256
  sig : BitVec 2048
  ended : Bool
  deriving DecidableEq, Repr

/-- A scalar source with its last-use bit (R323). -/
structure Src where
  reg : SReg
  last : Bool
  deriving DecidableEq, Repr

/-- What a context waits for. The waits of the first group end when their condition holds, and the
instruction is then issued again; those of the second group are ended by the event that answers. -/
inductive Wait where
  | ready
  /-- a queue register holds too few entries (R42) -/
  | qRead (q : Fin 8) (n : Nat)
  /-- a queue register is full (R42) -/
  | qWrite (q : Fin 8)
  /-- a copy status register to read is not written (R351) -/
  | copyStatus (reg : SReg)
  /-- a copy status register to write over is not written (R351) -/
  | copyDest (reg : SReg)
  /-- 64 copies are outstanding (R351) -/
  | copySlots
  /-- the vector queue is full (R138) -/
  | vqFull
  /-- a repeat frame is active (R153, R389) -/
  | frameActive
  /-- the vector queue is not empty, or holds a frame (R145, R398) -/
  | vqEmpty
  /-- the queue names a ring or the ring has reserved slots (R145, R264) -/
  | ring (g : BitVec 3) (reserved : Bool)
  /-- earlier vector-queue entries of this context are not complete (R138) -/
  | fstat
  /-- an earlier vector-queue entry of this context touches these scratchpad bytes (R138) -/
  | scratch (addr bytes : Nat)
  /-- an earlier entry writes one of the registers that VGATH or VSCAT reads (R219) -/
  | gatherRegs (regs : List VReg)
  /-- the context's replay queue is not empty (R222) -/
  | replay
  /-- live helpers (R34) -/
  | helpers
  /-- armed exchange transfers (R238) -/
  | exchange
  /-- a page fault record is outstanding on the page of an address, with the access (R284) -/
  | pageFault (addr stat : W64)
  /-- a weight-store group refreshes until a cycle (R169) -/
  | refresh (till : Nat)
  /-- a layer that catches up (R209) -/
  | layer (die : Nat)
  /-- no slot of the tenant carries the message between the context's die and a home, or a store to it (R15, R23, R25, R27) -/
  | path (home : Nat) (write : Bool)
  /-- the launch unit cannot translate an address of a record yet (R15, R20, R169) -/
  | unit (va : W64)
  /-- a remote write not acknowledged by its peer (R200, R211) -/
  | remote
  /-- a RED at a switch, not yet applied, that a release waits for (R388) -/
  | red (scope : BitVec 3)
  /-- the answer of a reduction switch (R210) -/
  | reduction (sd : SReg) (srcs : List Src)
  /-- not ready until a cycle (R46) -/
  | idle (till : Nat)
  /-- held by the spin governor until a cycle (R47) -/
  | hold (till : Nat)
  /-- helpers whose end has not been observed, and the source (R35) -/
  | hwait (mask : BitVec 11) (srcs : List Src)
  /-- the arrival of a SYNC is sent (R39) -/
  | sync
  /-- a team completion: entry, harness register, status or result register, sources (R81–R84) -/
  | team (slot : BitVec 14) (h : BitVec 4) (sd : SReg) (srcs : List Src)
  /-- the answer of a counter's home to a WPUSH: the counter's place, the descriptor, predicate and source (R257) -/
  | push (home : Nat) (d : BitVec 256) (p : PReg) (x : Src)
  /-- a mark sense or read in flight (R105, R106) -/
  | mark (sd : SReg) (srcs : List Src)
  /-- paused by a handled trap (R277) -/
  | trapped
  deriving DecidableEq, Repr

/-- One context (R28). `s` holds s0–s55, `freed` the marks of R43, `h` the harness registers. `past` lists the values that its
scalar registers have held, the latest first: what a freed one may read as under LUMODE 1 (R43, log entry 66). `taken` are the queue
entries that its instruction, which waits for an answer, took at issue (R42); `blocked` says that its instruction has blocked (R44, R47). -/
structure Ctx where
  pc : W64
  s : Vector W64 56
  past : List W64
  freed : BitVec 64
  p : BitVec 16
  h : Vector W32 16
  tstamp : W64
  fstat : BitVec 5
  frm : BitVec 2
  buf : List SBEntry
  log : List SBEntry
  live : Bool
  wait : Wait
  spin : Nat
  ord : Option OrdTask
  taken : List (Fin 8 × W64)
  blocked : Bool
  instret : W64
  deriving DecidableEq, Repr

/-- A reserved ring slot: who reserved it (0 an MSM, n + 1 a copy or tile with number n), whether it is complete (R146). -/
structure Resv where
  owner : Nat
  slot : Nat
  done : Bool
  deriving DecidableEq, Repr

/-- A ring register (R145) with its reserved slots in reservation order (R146). -/
structure Ring where
  base : BitVec 18
  slog : BitVec 4
  size : BitVec 12
  head : BitVec 8
  tail : BitVec 8
  filled : BitVec 9
  free : BitVec 9
  resv : List Resv
  deriving DecidableEq, Repr

/-- Vector, tile, ring and tile-predicate registers, format context and decode tables (R137, R143–R147, R117).
`vfreed` are the marks of R43 in issue order, which reads are checked against, `vgone` those of completed entries, `past` the
rows that the vector registers have held (log entry 66).
`fmtIssued` is the word of the last MFMT issued (FMT), `fmt` the one in force in queue order (R368, R372). -/
structure VecRegs where
  v : Vector (Vector W32 32) 32
  past : List (Vector W32 32)
  vfreed : BitVec 32
  vgone : BitVec 32
  m : Vector (Vector W32 1024) 8
  smx : Vector (Option (Vector W32 32)) 8
  rings : Vector Ring 8
  k : Vector W64 8
  fmtIssued : W64
  fmt : W64
  smax : Vector W32 32
  ssum : Vector W32 32
  sfac : Vector W32 32
  tabs : Vector (Vector (BitVec 21) 256) 4
  deriving DecidableEq, Repr

/-- FRAME, FRBASE, FRPC (R154), the captured words, the context that issued the REP (R389), and the address and detail of the
replayable fault that its step waits on (R284). -/
structure Frame where
  word : W64
  base : W64
  pc : W64
  body : List W32
  ctx : Fin 12
  fault : Option (W64 × W64)
  deriving DecidableEq, Repr

/-- ROLE (R266). -/
structure Role where
  stage : BitVec 4
  en : Bool
  lock : Bool
  pend : Bool
  next : BitVec 4
  deriving DecidableEq, Repr

/-- The Pacer (R269–R271): the descriptor in use, the iteration counters, and how many streams of the
present iteration have been pushed (`none` before its permit is taken). -/
structure Pacer where
  active : Bool
  permits : Half
  levels : Nat
  streams : Nat
  qbase : Nat
  n : Vector Nat 4
  base : Vector W64 4
  stride : Vector W32 16
  i : Vector Nat 4
  stream : Option Nat
  deriving DecidableEq, Repr

/-- A lane of a gather or scatter: its element, address, home and the data of a scatter (R420). -/
structure Lane where
  elem : Nat
  va : W64
  home : Nat
  data : W64
  deriving DecidableEq, Repr

/-- A held VGATH or VSCAT (R219, R420): its lanes, whether its requests have been sent (at the release that ends its
computation phase) and served, and the gathered values. -/
structure Gather where
  scat : Bool
  vd : VReg
  wide : Bool
  lanes : List Lane
  sent : Bool
  served : Bool
  values : List (Nat × W64)
  deriving DecidableEq, Repr

/-- The core registers that SVCTX of context 0 saves (R288). -/
structure CoreRegs where
  vec : VecRegs
  frame : Frame
  q : Vector (List W64) 8
  qcfg : W64
  lumode : Bool
  spinCount : Half
  spinHold : Half
  level : BitVec 3
  levelNext : BitVec 3
  sstep : W32
  weight : BitVec 4
  role : Role
  pacer : Pacer
  gpend : BitVec 32
  gathers : List Gather
  scats : List WinEntry
  deriving DecidableEq, Repr

/-- A trap raised by an instruction (R283). -/
structure Trap where
  code : Byte
  addr : W64
  stat : W64
  deriving DecidableEq, Repr

/-- An entry of the vector queue (R138): its word and address, the issuing context, the scalar value and
rounding mode read at issue, an MTAB image, the trap that reading a guarded word's scalar owes (R337), and, when
a frame dispatched it, that frame as it stood at its step and index. -/
structure VEntry where
  word : W32
  pc : W64
  ctx : Fin 12
  sval : W64
  rm : BitVec 2
  image : List W32
  owed : Option Trap
  frame : Option Frame
  deriving DecidableEq, Repr

/-- A line of the read cache (R167): its number in the address space of the device, its bytes, whether an
instruction fetch filled it, the contexts that have executed ICFLUSH since it was filled (R358), and whether an uncorrectable
soft error stands in it. -/
structure RLine where
  line : Nat
  bytes : List Byte
  byFetch : Bool
  flushed : BitVec 12
  bad : Bool
  deriving DecidableEq, Repr

/-- A cached translation (R165): tenant, first virtual page and number of 64 KiB pages, permissions, the home
and whether the page bypasses the read cache. -/
structure TlbEntry where
  tenant : BitVec 3
  page : Nat
  pages : Nat
  w : Bool
  x : Bool
  nc : Bool
  loc : Loc
  deriving DecidableEq, Repr

/-- An engine FIFO (R213); `completion` is the completion FIFO bound with a batch FIFO (R434). -/
structure Fifo where
  kind : BitVec 4
  scope : BitVec 3
  depth : Nat
  completion : Nat
  elems : List W64
  deriving DecidableEq, Repr

/-- Where a copy goes (R349, R352). -/
inductive CopyForm where
  | ring (g : BitVec 3)
  | plain (dst : W64)
  | csr (desc : BitVec 512)
  | multi (tag : Half)
  deriving DecidableEq, Repr

/-- A copy under way (R351): who waits for its status, or the completion FIFO and tag of its batch element (R434). `bad`
marks an invalid descriptor, `sent` a multicast on its way, `result` a batch status that waits for room in its FIFO, `moved`
lists the units of 8 bytes that have moved already. -/
structure Copy where
  id : Nat
  ctx : Fin 12
  sd : Option SReg
  mode : BitVec 2
  scope : BitVec 3
  form : CopyForm
  src : W64
  len : Nat
  bad : Bool
  slot : Option Nat
  batch : Option (BitVec 4 × Half)
  sent : Bool
  result : Option W64
  moved : List Nat
  deriving DecidableEq, Repr

/-- A multicast tile at a core, with the core and number of the copy that sent it (R245), and the source port that it came from, named
by a place behind that port (R232). -/
structure Tile where
  tag : Half
  bytes : List Byte
  sender : Nat
  copy : Nat
  port : Nat
  deriving DecidableEq, Repr

/-- An armed transmission (R234, R236). -/
structure Xmit where
  slot : BitVec 6
  frame : Byte
  addr : W64
  words : Nat
  stk : Bool
  pkg : Bool
  sent : Bool
  deriving DecidableEq, Repr

/-- An armed reception (R234, R237); `done` once its arrival cycle has passed. -/
structure Xsel where
  slot : BitVec 6
  frame : Byte
  src : Nat
  addr : W64
  done : Bool
  deriving DecidableEq, Repr

/-- What a mark request asks (R103). -/
inductive MarkOp where
  | deposit (addr : W64) (amount : Nat)
  | sense (addr : W64) (mask : BitVec 12) (wantMin : Bool)
  | read (addr : W64)
  | tick (addr : W64)
  | notice (region : Byte) (trigger : Nat)
  deriving DecidableEq, Repr

/-- A mark request on its way from a context, with its context tag (R98, R290). -/
structure MarkMsg where
  tenant : BitVec 3
  gang : Half
  ctx : Fin 12
  op : MarkOp
  deriving DecidableEq, Repr

/-- A frame as a trap of one of its entries lets it stand (R155): at the step and index of that entry, and `past`, what FRAME holds if it
is this frame that goes on there, `none` once entries of a later frame are queued. -/
structure FrameStop where
  frame : Frame
  past : Option W64
  deriving DecidableEq, Repr

/-- A raised trap as it waits for or receives service (R278–R280): `frame` is where its frame stands, `wait` is the wait that the context
resumes, `cycle` the cycle in which it was raised (R279). -/
structure TrapRec where
  ctx : Fin 12
  code : Byte
  addr : W64
  stat : W64
  epc : W64
  npc : W64
  qhead : Bool
  frame : Option FrameStop
  entry : Option VEntry
  wait : Wait
  cycle : Nat
  deriving DecidableEq, Repr

/-- A pending interrupt (R282). -/
structure IntrRec where
  code : Byte
  stat : W64
  deriving DecidableEq, Repr

/-- What the handler is serving (R279). -/
inductive Service where
  | none
  | trap (r : TrapRec)
  | intr (r : IntrRec)
  deriving DecidableEq, Repr

/-- The trap unit of a core (R279, R280, R287). `wokeAt` is the handler's INSTRET at its last wake, `held` are the queue entries taken out at a trap at the head (R278);
`later` is the frame that was dispatching behind a frame whose entry trapped, to go on behind those entries, `saved` marks the contexts saved in
the present service (R397). -/
structure TrapUnit where
  tcause : W64
  taddr : W64
  tepc : W64
  tnpc : W64
  tstat : W64
  tvec : Byte
  tact : BitVec 3
  wokeAt : W64
  service : Service
  pendTraps : List TrapRec
  pendIntrs : List IntrRec
  held : List VEntry
  later : Option Frame
  saved : BitVec 12
  shadowCause : W64
  shadowAddr : W64
  halted : Bool
  deriving DecidableEq, Repr

/-- A drained contribution to a commit window (R193, R203): the number of its drain, the lanes of scatters, issued before the stores
(R219), and the entries in program order. -/
structure Contribution where
  win : Nat
  drain : Nat
  key : CommitKey
  core : Nat
  gang : W32
  ctx : Fin 12
  tenant : BitVec 3
  scats : List WinEntry
  entries : List WinEntry
  ord : Option OrdTask
  deriving DecidableEq, Repr

/-- A SYNC arrival on its way to the domain home (R39): the member's gang and level, and what it drained. -/
structure Arrival where
  gang : W32
  level : BitVec 3
  contrib : Contribution
  deriving DecidableEq, Repr

/-- A core (R28 and the rules of INVENTORY.md). `lineErrors` counts the read-cache lines discarded for a soft error (R167); `icache`
holds the fetched words, each with the contexts that have executed ICFLUSH since its line was read (R188, R358). `exch` is the
first cycle R of its exchange phase, `exchLast` the last occurrence or arrival cycle of that phase (R233, R238). -/
structure Core where
  regs : CoreRegs
  ctxs : Vector Ctx 12
  cur : Fin 12
  order : List (Fin 12)
  gang : Option W32
  tenant : BitVec 3
  helpers : Nat
  scratchReq : Nat
  hfault : BitVec 11
  scratch : Memory
  badScratch : List Nat
  rcache : List RLine
  lineErrors : Nat
  icache : List (Nat × W32 × BitVec 12)
  tlb : List TlbEntry
  efifo : Vector Fifo 16
  matchTab : List (Half × BitVec 3)
  copies : List Copy
  nextCopy : Nat
  vq : List VEntry
  flying : Option VEntry
  work : List (BitVec 256)
  parked : Nat
  ordf : Nat
  exch : Option Nat
  exchLast : Option Nat
  xmits : List Xmit
  xsels : List Xsel
  arrivals : List Arrival
  markQ : List MarkMsg
  tiles : List Tile
  trap : TrapUnit
  msgSent : W64
  msgRecv : W64
  bridled : Bool
  latched : List W64
  resend : List Packet
  deriving DecidableEq, Repr

/-- A save-area image of a core under a pre-empted or lending gang (R288, R290): the contexts and the core registers
that SVCTX has written, the packets diverted, since when the core is lent, and the rest of the core's state at its release. -/
structure Saved where
  gang : W32
  core : Nat
  ctxs : List (Fin 12 × Ctx)
  regs : Option CoreRegs
  spill : List Packet
  lent : Option Nat
  rest : Core
  deriving DecidableEq, Repr

/-- A superstep of a domain under way (R39): which members have arrived and with what level, the
contributions, whether the window has applied and the release gone out, who has ended the exchange phase; `ticks` are the
regions that it triggers, fixed at its release (R97). -/
structure Superstep where
  id : Nat
  gang : W32
  level : BitVec 3
  unit : Nat
  arrived : List (Nat × BitVec 3)
  contribs : List Contribution
  applied : Bool
  released : Bool
  ended : List Nat
  ticks : List Byte
  deriving DecidableEq, Repr

/-- A parked entry in a die's replay queue (R221): its thread, its window, drain and key, its number in the program order of the
drain, its page, and whether the fault is resolved. -/
structure Replay where
  core : Nat
  gang : Half
  ctx : Fin 12
  tid : Nat
  tenant : BitVec 3
  win : Nat
  drain : Nat
  seq : Nat
  key : CommitKey
  entry : SBEntry
  page : BitVec 32
  resolved : Bool
  deriving DecidableEq, Repr

/-- What stands behind a value that a window has applied: its key, the number of its drain, and its place in the program order of the
drain, scatters first (R192, R219, R222). -/
structure Landed where
  key : CommitKey
  drain : Nat
  place : Nat
  deriving DecidableEq, Repr

/-- A window with parked entries: the value last applied to each byte (R222). -/
structure OpenWin where
  id : Nat
  keys : List (Nat × Landed)
  deriving DecidableEq, Repr

/-- A record of a die's trap queue (R285). -/
structure TqRec where
  seq : W32
  tid : Half
  tenant : BitVec 3
  kind : BitVec 5
  code : Byte
  addr : W64
  epc : W64
  stat : W64
  deriving DecidableEq, Repr

/-- A stage ring (R265). -/
structure Stage where
  valid : Bool
  tenant : BitVec 3
  dlog : BitVec 5
  hi : Byte
  elems : List W64
  deriving DecidableEq, Repr

/-- Who waits on a dependence counter (R257, R249). -/
inductive Waiter where
  | desc (core : Nat) (gang : W32) (d : BitVec 256)
  | launch (gang : W32)
  deriving DecidableEq, Repr

/-- The units of one compute die. -/
structure Die where
  awake : Bool
  lastSeq : W64
  cal : Vector Byte 64
  stages : Vector Stage 16
  waiters : List (Nat × Waiter)
  tq : List TqRec
  tqSeq : W32
  tqWait : List TqRec
  faults : List (BitVec 3 × BitVec 32)
  replay : List Replay
  moves : List (Nat × Nat)
  sampled : List (BitVec 3 × Nat)
  tcache : List TlbEntry
  deriving DecidableEq, Repr

/-- A request to the reduction window waiting at a base-die switch (R210), or a RED on its way to its home (R388), with the address
it names and its home. -/
structure RedReq where
  die : Nat
  core : Nat
  ctx : Fin 12
  tenant : BitVec 3
  gang : Half
  va : W64
  phys : Nat
  wide : Bool
  float : Bool
  op : BitVec 4
  operand : W64
  cmp : W64
  answer : Bool
  /-- the number of the next drain when it was sent: which drains are later (R232) -/
  seq : Nat
  deriving DecidableEq, Repr

/-- A push of a context on its way to the home of its counter, in the order in which they were sent (R232, R257). -/
structure PushReq where
  core : Nat
  gang : Half
  ctx : Fin 12
  home : Nat
  /-- as that of a RED -/
  seq : Nat
  deriving DecidableEq, Repr

/-- The units of one stack: rein slot table, SEQ, rein log, switch queue (R206, R209, R210, R241). -/
structure Stack where
  slots : Vector Half 64
  seq : W64
  log : List (W64 × List (Nat × Byte))
  switch : List RedReq
  deriving DecidableEq, Repr

/-- An arrival in a generation (R77, R399). -/
structure TeamArr where
  kind : TeamKind
  scope : BitVec 3
  deriving DecidableEq, Repr

/-- The status that a completion forms for a member: its window with its scope and keys, the status word and the merge's flags
(R80, R84, R399). -/
structure Formed where
  win : Nat
  scope : BitVec 3
  keys : List CommitKey
  status : W64
  flags : BitVec 5
  deriving DecidableEq, Repr

/-- A member of a team (R69): its arrival in the generation it counts toward, whether its context is blocked on that
generation, its outstanding TARR with the generation and, once formed, the status (R80, R82). -/
structure Member where
  tid : Nat
  gang : Half
  first : Nat
  arrived : Option TeamArr
  waiting : Bool
  tarr : Option (Nat × Option Formed)
  dlast : W32
  parked : Bool
  deriving DecidableEq, Repr

/-- A used entry of the team table (R69). `withdrawn` lists the kinds of arrivals in the open generation whose members have
departed (R83, R84, R89); `scope` and `scopeNext` are the widest scopes named by the arrivals of the open and the next generation
(R399). `win` and `winNext` are the windows of the open and the next generation, with their
window numbers (R79, R87). -/
structure TeamEntry where
  slot : BitVec 14
  tenant : BitVec 3
  name : W32
  gen : Nat
  dep : W32
  members : List Member
  withdrawn : List TeamKind
  scope : BitVec 3
  scopeNext : BitVec 3
  winId : Nat
  win : List Contribution
  winNextId : Nat
  winNext : List Contribution
  deriving DecidableEq, Repr

/-- A message of a core on its way to a team's home that has no answer: a departed leave, or that the member is parked or resumed
(R89, R90). -/
structure TeamNote where
  slot : BitVec 14
  tid : Nat
  gang : Half
  parked : Option Bool
  deriving DecidableEq, Repr

/-- A team completion that waits for the parked entries of its window, for what its release scope holds back, or for a path to its
member (R222, R399, R15): the stack of its home, the keys of the window's contributors, to whom it goes and what it carries. -/
structure TeamDone where
  stack : Nat
  win : Nat
  scope : BitVec 3
  keys : List CommitKey
  tenant : BitVec 3
  tid : Nat
  gang : Half
  status : W64
  result : Option W64
  flags : BitVec 5
  deriving DecidableEq, Repr

/-- A team-resume request on its way from a home to the launch unit (R90, R15, R20): the stack of the home, the tenant, and the gangs of
the members that it names. -/
structure ResumeReq where
  stack : Nat
  tenant : BitVec 3
  gangs : List Half
  deriving DecidableEq, Repr

/-- A tenant (R92, R313, R431): `memKey` is the pair of memory keys drawn at its creation (R174). -/
structure Tenant where
  num : BitVec 3
  spec : TenantSpec
  memKey : BitVec 512
  regions : List (Byte × BitVec 128)
  deriving DecidableEq, Repr

/-- A domain tick that has been triggered and not applied (R97): the superstep that triggered it, the gang and the members of
that superstep, and the members whose end notice has arrived. -/
structure MarkTrig where
  id : Nat
  gang : W32
  members : List Nat
  notices : List Nat
  deriving DecidableEq, Repr

/-- The run state of a mark region (R97, R98): its tick number, the domain ticks under way in the order in which they were
triggered, and the requests that are held, each with its core and the triggers it waits for. -/
structure MarkRun where
  tenant : BitVec 3
  region : Byte
  tick : Nat
  trigs : List MarkTrig
  held : List (Nat × MarkMsg × List Nat)
  deriving DecidableEq, Repr

/-- An accepted launch record (R248, R249); `woken` is the place of the counter whose wake is on its way to the launch unit (R15, R20). -/
structure LaunchRec where
  gang : W32
  tenant : BitVec 3
  record : BitVec 512
  since : Option Nat
  registered : Bool
  woken : Option Nat
  caddr : Option W64
  deriving DecidableEq, Repr

/-- Whether the launch unit has asked a placed gang's cores to save it (R253). -/
inductive GangState where
  | running
  | saving
  deriving DecidableEq, Repr

/-- A placed gang (R250–R254): `ended` lists the cores whose control context has ended, `wanted` says that a domain
or team home has asked for its restoration (R40, R90). -/
structure Gang where
  num : W32
  tenant : BitVec 3
  prio : BitVec 2
  cores : List Nat
  compl : W64
  placed : Nat
  status : Byte
  state : GangState
  ended : List Nat
  caddr : Option W64
  wanted : Bool
  deriving DecidableEq, Repr

/-- What a journal entry stands for: a command, the ready entry of a reset (R317), or the report of a critical temperature
(R318). -/
inductive JKind where
  | command
  | ready
  | thermal
  deriving DecidableEq, Repr

/-- An entry of a journal ring (R310); space 0–7 a tenant's ring, 8 the device ring (R307). -/
structure JEntry where
  kind : JKind
  space : Nat
  idx : Nat
  seq : W64
  endpoint : W32
  tenant : BitVec 3
  opcode : Byte
  slot : Byte
  state : Byte
  status : Byte
  result : W64
  deriving DecidableEq, Repr

/-- What the device has sent to the host: completion records (R308) with the data of reads, gang completion records sent again
(R308), and the Bridle's reports (R292). -/
inductive HostOut where
  | completion (caddr : W64) (seq : W64) (opcode slot status : Byte) (result : W64) (jidx : Nat) (data : List Byte)
  | gang (caddr : W64) (gang : W32) (status : Byte) (cycles : W64)
  | quiesced (tenant : Option (BitVec 3))
  deriving DecidableEq, Repr

/-- A transfer of the exchange in flight (R236): its source, occurrence cycle, words and reach. -/
structure Transfer where
  tenant : BitVec 3
  src : Nat
  slot : BitVec 6
  frame : Byte
  c0 : Nat
  words : List W64
  stk : Bool
  pkg : Bool
  deriving DecidableEq, Repr

/-- The host side of the package (R303–R319, R246–R254): the running images, the commands that are accepted and have not
completed, each with its space and journal index, where the completions of commands sent again go (R307), and the mark cells in
error that ticks have reported (R100). -/
structure HostSide where
  ready : Bool
  firmware : Option Image
  configuration : Option Image
  rollback : Nat
  farBytes : Vector Nat 4
  tenants : List Tenant
  journal : List JEntry
  accepted : List (Nat × Nat × Instr)
  again : List (Nat × Nat × W64)
  maxSeq : List (Nat × W64)
  out : List HostOut
  netOut : List (Nat × W64)
  unacked : List (Nat × Nat)
  linkErrors : List (Nat × Nat)
  powerHold : Bool
  markErrors : List Nat
  deriving DecidableEq, Repr

/-- Launch unit, team table, supersteps, marks and the remaining units of the package. `incs` holds the INC of
team entries that have been freed (R76), `departs` the departed leaves and parked notices on their way (R89, R90), `resumes` the requests
of team homes on their way to the launch unit (R90), `inFlight` the drained bytes outside
the scope of their release that have no path to their homes (R200, R23), `reds` the REDs on their way to homes outside the
reduction window, in the order in which they were sent (R202, R388), `wakes` the released descriptors on their way: the counter's
place, the pusher's core and gang, and the descriptor (R263). -/
structure Pkg where
  dies : Vector Die 24
  stackUnits : Vector Stack 4
  links : Vector (Vector Byte 64) 12
  marks : List (Nat × BitVec 16 × BitVec 16)
  badMarks : List Nat
  markRuns : List MarkRun
  teams : List TeamEntry
  incs : List (BitVec 14 × Half)
  departs : List TeamNote
  teamDone : List TeamDone
  resumes : List ResumeReq
  steps : List Superstep
  inFlight : List Contribution
  reds : List RedReq
  pushQ : List PushReq
  nextId : Nat
  openWins : List OpenWin
  transfers : List Transfer
  launches : List LaunchRec
  gangs : List Gang
  nextGang : W32
  wakes : List (Nat × Nat × W32 × BitVec 256)
  saved : List Saved
  preempts : List (Nat × BitVec 2)
  host : HostSide
  deriving DecidableEq, Repr

/-- Which agent moves next, when plain data fixes it: a context of a core issues, the first input is
taken or, a command, only accepted, an accepted command starts or completes, an event of the device takes place, some bytes of a
copy move, a WPUSH receives its answer, team completions and messages to the launch unit that waited go out, a RED reaches its home, or
time passes. -/
inductive Turn where
  | issue (core : Nat) (ctx : Fin 12)
  | input
  | accept
  | start (space idx : Nat)
  | complete (space idx : Nat)
  | event (i : Instr)
  | move (core id : Nat)
  | answer (core : Nat) (ctx : Fin 12)
  | deliver
  | red (n : Nat)
  | idle
  deriving DecidableEq, Repr

/-- The device. `core` is the core numbered `coreId` (R8); `others` lists the other cores that have been touched,
by rising number; a core not listed is `Core.reset`. `mem` is layer memory, weight store and far memory in one address space;
`fresh` is the counter that free values are applied to. -/
structure State where
  core : Core
  coreId : Nat
  others : List (Nat × Core)
  mem : Memory
  badMem : List Nat
  /-- Of each 64-byte line that a tenant has written, the tenant that wrote it last: whose lines they are (R175). -/
  owners : List (Nat × BitVec 3)
  pkg : Pkg
  cycle : W64
  fresh : Nat
  turn : Option Turn
  inputs : List Instr
  deriving DecidableEq, Repr

/-- A context after reset (INVENTORY.md; log entry 1 for the values the manual does not state). -/
def Ctx.reset (live : Bool) : Ctx :=
  { pc := 0, s := Vector.replicate 56 0, past := [0], freed := 0, p := 0, h := Vector.replicate 16 0, tstamp := 0,
    fstat := 0, frm := 0, buf := [], log := [], live := live, wait := .ready, spin := 0, ord := none, taken := [],
    blocked := false, instret := 0 }

/-- An unconfigured ring (R145). -/
def Ring.reset : Ring :=
  { base := 0, slog := 0, size := 0, head := 0, tail := 0, filled := 0, free := 0, resv := [] }

def VecRegs.reset : VecRegs :=
  { v := Vector.replicate 32 (Vector.replicate 32 0), past := [Vector.replicate 32 0], vfreed := 0, vgone := 0,
    m := Vector.replicate 8 (Vector.replicate 1024 0), smx := Vector.replicate 8 none,
    rings := Vector.replicate 8 Ring.reset, k := Vector.replicate 8 0, fmtIssued := 0, fmt := 0,
    smax := Vector.replicate 32 0xFF800000, ssum := Vector.replicate 32 0,
    sfac := Vector.replicate 32 0x3F800000, tabs := Vector.replicate 4 (Vector.replicate 256 0) }

def Pacer.reset : Pacer :=
  { active := false, permits := 0, levels := 1, streams := 1, qbase := 0, n := Vector.replicate 4 0,
    base := Vector.replicate 4 0, stride := Vector.replicate 16 0, i := Vector.replicate 4 0, stream := none }

/-- Core registers after reset and at kernel entry (R30, R36, R41, R47, R141, R143, R154, R266). -/
def CoreRegs.reset : CoreRegs :=
  { vec := VecRegs.reset, frame := { word := 0, base := 0, pc := 0, body := [], ctx := 0, fault := none },
    q := Vector.replicate 8 [], qcfg := 0xFFFFFFFFFFFFFFFF, lumode := false, spinCount := 64,
    spinHold := 1024, level := 0, levelNext := 0, sstep := 0, weight := 1,
    role := { stage := 0, en := false, lock := false, pend := false, next := 0 },
    pacer := Pacer.reset, gpend := 0, gathers := [], scats := [] }

def TrapUnit.reset : TrapUnit :=
  { tcause := 0, taddr := 0, tepc := 0, tnpc := 0, tstat := 0, tvec := 0, tact := 0, wokeAt := 0, service := .none,
    pendTraps := [], pendIntrs := [], held := [], later := none, saved := 0, shadowCause := 0, shadowAddr := 0,
    halted := false }

/-- The contexts of a core after reset: context 0 and the handler (index 11, context 15) live (R28, R30). -/
def Core.resetCtxs : Vector Ctx 12 :=
  ((Vector.replicate 12 (Ctx.reset false)).set 0 (Ctx.reset true)).set 11 (Ctx.reset true)

def Core.reset : Core :=
  { regs := CoreRegs.reset, ctxs := Core.resetCtxs, cur := 0, order := [0, 1, 2, 3, 4, 5, 6, 7, 8, 9, 10],
    gang := none, tenant := 0, helpers := 0, scratchReq := 0x2C000, hfault := 0, scratch := [],
    badScratch := [], rcache := [], lineErrors := 0, icache := [], tlb := [],
    efifo := Vector.replicate 16 { kind := 0, scope := 0, depth := 0, completion := 0, elems := [] },
    matchTab := [], copies := [], nextCopy := 0, vq := [], flying := none, work := [], parked := 0,
    ordf := 0, exch := none, exchLast := none, xmits := [], xsels := [], arrivals := [], markQ := [], tiles := [],
    trap := TrapUnit.reset, msgSent := 0, msgRecv := 0, bridled := false, latched := [], resend := [] }

def Die.reset : Die :=
  { awake := true, lastSeq := 0, cal := Vector.replicate 64 0,
    stages := Vector.replicate 16 { valid := false, tenant := 0, dlog := 0, hi := 0, elems := [] },
    waiters := [], tq := [], tqSeq := 0, tqWait := [], faults := [], replay := [], moves := [],
    sampled := [], tcache := [] }

/-- The host side after reset, with all far memory attached. Log entry 3 (DESIGN CHOICE). -/
def HostSide.reset : HostSide :=
  { ready := false, firmware := none, configuration := none, rollback := 0, farBytes := Vector.replicate 4 Config.farStackBytes,
    tenants := [], journal := [], accepted := [], again := [], maxSeq := [], out := [], netOut := [], unacked := [], linkErrors := [],
    powerHold := false, markErrors := [] }

def Pkg.reset : Pkg :=
  { dies := Vector.replicate 24 Die.reset,
    stackUnits := Vector.replicate 4 { slots := Vector.replicate 64 7, seq := 0, log := [], switch := [] },
    links := Vector.replicate 12 (Vector.replicate 64 0), marks := [], badMarks := [], markRuns := [],
    teams := [], incs := [], departs := [], teamDone := [], resumes := [], steps := [], inFlight := [], reds := [], pushQ := [], nextId := 0, openWins := [], transfers := [], launches := [],
    gangs := [], nextGang := 1, wakes := [], saved := [], preempts := [], host := HostSide.reset }

/-- The device right after reset: no tenant, no gang, nothing in memory. Log entry 1 (DESIGN CHOICE). -/
def State.reset : State :=
  { core := Core.reset, coreId := 0, others := [], mem := [], badMem := [], owners := [], pkg := Pkg.reset, cycle := 0,
    fresh := 0, turn := none, inputs := [] }

end Sys2Proof.Machine
end

