-- ==== Sys2Proof/Machine/Words.lean ====
section
/-!
DEFINITION. What a queued word reads and writes, the marks of its registers, and the format word in issue order (R43, R138,
R143, R323, R410).
-/
namespace Sys2Proof.Machine

/-! What a word reads and writes (R323, R410) -/

/-- The mask register of VRED and VSCAN; 0 is no mask (R425). Log entry 53 (DEDUCED). -/
def maskReg (k : VReg) : List (VReg × Bool) := if k = 0 then [] else [(k, false)]

/-- The vector sources of a word in field order, each with its last-use bit. -/
def vecSources : Instr → List (VReg × Bool)
  | .vadd _ l a m b _ _ => [(a, l), (b, m)]
  | .vsub _ l a m b _ _ => [(a, l), (b, m)]
  | .vmul _ l a m b _ _ => [(a, l), (b, m)]
  | .vfma d l a m b _ _ => [(a, l), (b, m), (d, false)]
  | .vmax _ l a m b _ => [(a, l), (b, m)]
  | .vmin _ l a m b _ => [(a, l), (b, m)]
  | .vabs _ l a _ _ => [(a, l)]
  | .vneg _ l a _ _ => [(a, l)]
  | .vrcp _ l a _ _ _ => [(a, l)]
  | .vrsq _ l a _ _ _ => [(a, l)]
  | .vexp _ l a _ _ => [(a, l)]
  | .vlog _ l a m b o _ => if o = 4 then [(a, l)] else [(a, l), (b, m)]
  | .vsh _ l a m b _ _ => [(a, l), (b, m)]
  | .vmac d l a m b _ => [(a, l), (b, m), (d, false)]
  | .vcmp _ l a m b _ _ => [(a, l), (b, m)]
  | .vsel d l a m b _ => [(a, l), (b, m), (d, false)]
  | .vst d _ _ _ => [(d, false)]
  | .vgath _ _ _ b _ => [(b, false)]
  | .vscat d _ _ b _ => [(b, false), (d, false)]
  | .vperm _ l a m b => [(a, l), (b, m)]
  | .vred _ l a m k _ _ => (a, l) :: (maskReg k).map fun x => (x.1, m)
  | .vscan _ l a m k _ _ => (a, l) :: (maskReg k).map fun x => (x.1, m)
  | .vcvt _ l a _ _ _ _ => [(a, l)]
  | .venc _ l a _ _ => [(a, l)]
  | .vdec _ l a _ _ => [(a, l)]
  | .vflip _ l a m b _ => [(a, l), (b, m)]
  | .mmov _ _ v _ c _ => if c then [(v, false)] else []
  | _ => []

/-- The vector register that a word writes. -/
def vecDest : Instr → List VReg
  | .vadd d _ _ _ _ _ _ => [d]
  | .vsub d _ _ _ _ _ _ => [d]
  | .vmul d _ _ _ _ _ _ => [d]
  | .vfma d _ _ _ _ _ _ => [d]
  | .vmax d _ _ _ _ _ => [d]
  | .vmin d _ _ _ _ _ => [d]
  | .vabs d _ _ _ _ => [d]
  | .vneg d _ _ _ _ => [d]
  | .vrcp d _ _ _ _ _ => [d]
  | .vrsq d _ _ _ _ _ => [d]
  | .vexp d _ _ _ _ => [d]
  | .vlog d _ _ _ _ _ _ => [d]
  | .vsh d _ _ _ _ _ _ => [d]
  | .vmac d _ _ _ _ _ => [d]
  | .vcmp d _ _ _ _ _ _ => [d]
  | .vsel d _ _ _ _ _ => [d]
  | .vld d _ _ _ => [d]
  | .vgath d _ _ _ _ => [d]
  | .vbcast d _ _ _ => [d]
  | .vperm d _ _ _ _ => [d]
  | .vred d _ _ _ _ _ _ => [d]
  | .vscan d _ _ _ _ _ _ => [d]
  | .vcvt d _ _ _ _ _ _ => [d]
  | .venc d _ _ _ _ => [d]
  | .vdec d _ _ _ _ => [d]
  | .vflip d _ _ _ _ _ => [d]
  | .mmov _ _ v _ c _ => if c then [] else [v]
  | _ => []

def vbit (r : VReg) : BitVec 32 := (1 : BitVec 32) <<< r.toNat
def vmask (l : List VReg) : BitVec 32 := l.foldl (fun m r => m ||| vbit r) 0

/-- The marks of freed registers after a word: last uses free, then the written register is live (R43). -/
def freedAfter (i : Instr) (m : BitVec 32) : BitVec 32 :=
  (m ||| vmask (((vecSources i).filter (·.2)).map (·.1))) &&& ~~~vmask (vecDest i)

/-- The word that FMT shows after a word has issued: CLRS reads as 0 (R372). -/
def fmtAfter (i : Instr) (v fmt : W64) : W64 :=
  match i with
  | .mfmt _ => v &&& ~~~((1 : W64) <<< 28)
  | _ => fmt

/-! The queue in issue order (R138) -/

/-- Entries not complete, oldest first: a dispatched one stands in the queue until it is complete. Log entry 10 (DESIGN CHOICE). -/
def Core.entries (c : Core) : List VEntry := c.flying.toList ++ c.vq

/-- The marks and the format word in issue order, from the completed entries and those queued: what they are again once entries have left
the queue or come back to it (R43, R143). -/
def reissued (c : Core) : Core :=
  let step := fun (acc : BitVec 32 × W64) (e : VEntry) => match decode e.word with
    | .ok i => (freedAfter i acc.1, fmtAfter i e.sval acc.2)
    | .error _ => acc
  let r := c.entries.foldl step (c.regs.vec.vgone &&& ~~~c.regs.gpend, c.regs.vec.fmt)
  { c with regs := { c.regs with vec := { c.regs.vec with vfreed := r.1, fmtIssued := r.2 } } }

/-- The word that FMT shows to context `i`: the last MFMT issued, those of its own held entries among them, of which no other
context sees any (R143, R278). Log entry 97 (DESIGN CHOICE). -/
def Core.fmtShown (i : Fin 12) (c : Core) : W64 :=
  (c.trap.held.filter fun e => e.ctx == i).foldl (fun f e => match decode e.word with
    | .ok w => fmtAfter w e.sval f
    | .error _ => f) c.regs.vec.fmtIssued

end Sys2Proof.Machine
end

