-- ==== Sys2Proof/Machine/Ops.lean ====
section
/-!
DEFINITION. The named operations over the state: contexts and cores, the byte lists that stand for
memories, retiring, taking a trap or interrupt and returning from one (R277–R289).
-/
namespace Sys2Proof.Machine

/-- The result of a step. -/
abbrev Result := Host.Outcome State Fault Refusal

/-- Why an instruction has no effect now: it raises a trap, or it waits and is issued again. -/
inductive Stop where
  | trap (t : Trap)
  | block (w : Wait)
  deriving DecidableEq, Repr

/-! Finding and replacing elements -/

/-- Element `i` of a vector, or `d` outside it. -/
def vget {α : Type} {n : Nat} (v : Vector α n) (i : Nat) (d : α) : α := (v[i]?).getD d

/-- Replace the elements of a list that satisfy `p`. -/
def mapIf {α : Type} (p : α → Bool) (f : α → α) (l : List α) : List α := l.map fun x => if p x then f x else x

/-- Insert by a key, before the first element with a larger key. -/
def insertBy {α : Type} (key : α → Nat) (x : α) : List α → List α
  | [] => [x]
  | y :: ys => if key x < key y then x :: y :: ys else y :: insertBy key x ys

/-- Sort by a key, stable. -/
def sortBy {α : Type} (key : α → Nat) (l : List α) : List α := l.foldl (fun acc x => insertBy key x acc) []

/-! Numbers of places and threads (R8) -/

/-- The handler's place among the contexts of a core. -/
def handlerIx : Fin 12 := 11

/-- The number of the context at place `i` (R28). -/
def ctxNum (i : Fin 12) : Nat := if i = handlerIx then 15 else i.val

/-- The place of context number `n`, where there is one. -/
def ctxIx (n : Nat) : Option (Fin 12) :=
  if n = 15 then some handlerIx else if h : n < 11 then some ⟨n, by omega⟩ else none

def dieOfCore (c : Nat) : Nat := c / 64
def stackOfDie (d : Nat) : Nat := d / 6
def tidOf (core : Nat) (i : Fin 12) : Nat := core * 16 + ctxNum i
def coreOfTid (t : Nat) : Nat := t / 16

/-- Cores in the unit that a level or scope names: core, cluster, die, stack, package (R10, R37). -/
def unitSize (level : Nat) : Nat :=
  match level with
  | 0 => 1
  | 1 => 4
  | 2 => 64
  | 3 => 384
  | _ => 1536

/-! Contexts and cores -/

def State.ctxAt (s : State) (i : Fin 12) : Ctx := s.core.ctxs[i]
def State.ctx (s : State) : Ctx := s.ctxAt s.core.cur
def State.modCore (f : Core → Core) (s : State) : State := { s with core := f s.core }
def Core.modCtxAt (i : Fin 12) (f : Ctx → Ctx) (c : Core) : Core := { c with ctxs := c.ctxs.set i (f c.ctxs[i]) }
def State.modCtxAt (i : Fin 12) (f : Ctx → Ctx) (s : State) : State := s.modCore (Core.modCtxAt i f)
def State.modCtx (f : Ctx → Ctx) (s : State) : State := s.modCtxAt s.core.cur f
def State.modRegs (f : CoreRegs → CoreRegs) (s : State) : State := s.modCore fun c => { c with regs := f c.regs }
def State.modVec (f : VecRegs → VecRegs) (s : State) : State := s.modRegs fun r => { r with vec := f r.vec }
def State.modTrap (f : TrapUnit → TrapUnit) (s : State) : State := s.modCore fun c => { c with trap := f c.trap }
def State.modPkg (f : Pkg → Pkg) (s : State) : State := { s with pkg := f s.pkg }
def State.modHost (f : HostSide → HostSide) (s : State) : State := s.modPkg fun p => { p with host := f p.host }
def State.dieAt (s : State) (d : Nat) : Die := vget s.pkg.dies d Die.reset
def State.modDie (d : Nat) (f : Die → Die) (s : State) : State :=
  s.modPkg fun p => { p with dies := p.dies.setIfInBounds d (f (vget p.dies d Die.reset)) }
def State.die (s : State) : Nat := dieOfCore s.coreId
def State.isHandler (s : State) : Bool := s.core.cur == handlerIx
def State.isControl (s : State) : Bool := s.core.cur == 0
def State.isHelper (s : State) : Bool := !s.isHandler && !s.isControl
def State.tid (s : State) : Nat := tidOf s.coreId s.core.cur

/-- A free value has been used. -/
def State.useFresh (s : State) : State := { s with fresh := s.fresh + 1 }

/-- Core `c` of the package. -/
def State.coreAt (s : State) (c : Nat) : Core :=
  if c = s.coreId then s.core else (s.others.lookup c).getD Core.reset

/-- The cores that have been touched, with their numbers. -/
def State.cores (s : State) : List (Nat × Core) := (s.coreId, s.core) :: s.others

/-- The dies of a stack. -/
def diesOfStack (st : Nat) : List Nat := (List.range 6).map (st * 6 + ·)

def State.stackAt (s : State) (st : Nat) : Stack :=
  vget s.pkg.stackUnits st { slots := Vector.replicate 64 0, seq := 0, log := [], switch := [] }

def State.modStack (st : Nat) (f : Stack → Stack) (s : State) : State :=
  s.modPkg fun p => { p with stackUnits := p.stackUnits.setIfInBounds st (f (s.stackAt st)) }

/-- The link from one stack to another (R242). -/
def linkIx (a b : Nat) : Nat := a * 3 + (if b < a then b else b - 1)

/-- Bring core `c` into focus. -/
def State.focus (c : Nat) (s : State) : State :=
  if c = s.coreId then s
  else { s with core := s.coreAt c, coreId := c,
                others := insertBy (·.1) (s.coreId, s.core) (s.others.filter fun p => p.1 != c) }

/-- Act on core `c` and come back. -/
def State.onCore (c : Nat) (f : State → State) (s : State) : State := (f (s.focus c)).focus s.coreId

def State.modCoreAt (c : Nat) (f : Core → Core) (s : State) : State := s.onCore c (State.modCore f)

/-- Act on context `i` of core `c`, as if it were issuing. -/
def State.onCtx (c : Nat) (i : Fin 12) (f : State → State) (s : State) : State :=
  s.onCore c fun t => (f (t.modCore fun k => { k with cur := i })).modCore fun k => { k with cur := t.core.cur }

/-- The gang of a number. -/
def State.gangOf (s : State) (g : W32) : Option Gang := s.pkg.gangs.find? fun x => x.num == g

def State.modGang (g : W32) (f : Gang → Gang) (s : State) : State :=
  s.modPkg fun p => { p with gangs := mapIf (fun x => x.num == g) f p.gangs }

/-! The registers of a gang on a core: in its save-area image, or live (R288, R291) -/

/-- The image of a gang on a core. -/
def imageOf (s : State) (core : Nat) (g : W32) : Option Saved := s.pkg.saved.find? fun v => v.core == core && v.gang == g

def modImage (core : Nat) (g : W32) (f : Saved → Saved) (s : State) : State :=
  s.modPkg fun p => { p with saved := mapIf (fun v => v.core == core && v.gang == g) f p.saved }

/-- The core registers of a gang on a core: those that SVCTX of context 0 has written, else the live ones, else those with
which the core was given up. -/
def regsOf (s : State) (core : Nat) (g : W32) : CoreRegs :=
  match imageOf s core g with
  | some v => v.regs.getD (if (s.coreAt core).gang = some g then (s.coreAt core).regs else v.rest.regs)
  | none => (s.coreAt core).regs

/-- Change them there. -/
def modRegsOf (core : Nat) (g : W32) (f : CoreRegs → CoreRegs) (s : State) : State :=
  if ((imageOf s core g).bind (·.regs)).isSome then modImage core g (fun v => { v with regs := v.regs.map f }) s
  else if (s.coreAt core).gang = some g then s.modCoreAt core fun c => { c with regs := f c.regs }
  else modImage core g (fun v => { v with rest := { v.rest with regs := f v.rest.regs } }) s

/-- Change context `i` of a gang on a core, in its image or live. -/
def modCtxOf (core : Nat) (g : W32) (i : Fin 12) (f : Ctx → Ctx) (s : State) : State :=
  if ((imageOf s core g).any fun v => v.ctxs.any fun c => c.1 == i) then
    modImage core g (fun v => { v with ctxs := mapIf (fun c => c.1 == i) (fun c => (c.1, f c.2)) v.ctxs }) s
  else if (s.coreAt core).gang = some g then s.modCoreAt core (Core.modCtxAt i f)
  else s

/-- The core registers of the focused core's gang, of its image once SVCTX of context 0 has written them; what its units do
meanwhile is not lost (R289, R291). -/
def State.gangRegs (s : State) : CoreRegs :=
  match s.core.gang with
  | some g => regsOf s s.coreId g
  | none => s.core.regs

def State.modGangRegs (f : CoreRegs → CoreRegs) (s : State) : State :=
  match s.core.gang with
  | some g => modRegsOf s.coreId g f s
  | none => s.modRegs f

/-- Change context `i` of the focused core, in the image once SVCTX has written it. -/
def State.modGangCtx (i : Fin 12) (f : Ctx → Ctx) (s : State) : State :=
  match i == handlerIx, s.core.gang with
  | false, some g => modCtxOf s.coreId g i f s
  | _, _ => s.modCtxAt i f

/-! Messages of a core (R293). Log entry 28 (DEDUCED). -/

/-- `n` packets leave a core. -/
def Core.sent (n : Nat) (c : Core) : Core := { c with msgSent := c.msgSent + BitVec.ofNat 64 n }

/-- `n` packets reach a core. -/
def Core.received (n : Nat) (c : Core) : Core := { c with msgRecv := c.msgRecv + BitVec.ofNat 64 n }

/-- `n` requests of the focused core whose answers come in the same step. -/
def State.roundTrips (n : Nat) (s : State) : State := s.modCore fun c => (c.sent n).received n

/-! Memories as byte lists -/

/-- The byte at an address. Log entry 2 (DESIGN CHOICE). -/
def Memory.get (m : Memory) (a : Nat) : Byte := (m.lookup a).getD 0

/-- Write a byte; the canonical form stays. -/
def Memory.set (a : Nat) (b : Byte) : Memory → Memory
  | [] => if b = 0 then [] else [(a, b)]
  | (x, y) :: m =>
    if a < x then (if b = 0 then (x, y) :: m else (a, b) :: (x, y) :: m)
    else if a = x then (if b = 0 then m else (a, b) :: m)
    else (x, y) :: Memory.set a b m

/-- `n` bytes from an address upward. -/
def Memory.bytes (m : Memory) (a : Nat) : Nat → List Byte
  | 0 => []
  | n + 1 => m.get a :: m.bytes (a + 1) n

/-- Write bytes from an address upward. -/
def Memory.setBytes (a : Nat) : List Byte → Memory → Memory
  | [], m => m
  | b :: bs, m => Memory.setBytes (a + 1) bs (Memory.set a b m)

/-- The little-endian number of `n` bytes. -/
def Memory.num (m : Memory) (a n : Nat) : Nat := ofBytesLE (m.bytes a n)

/-- Zero `n` bytes from an address upward. -/
def Memory.clear (m : Memory) (a n : Nat) : Memory := m.filter fun c => decide (c.1 < a ∨ a + n ≤ c.1)

/-! Registers of the issuing context -/

/-- Write a scalar register that is no queue register: s0 discards (R28), a write makes the register live (R43). -/
def Ctx.setS (r : SReg) (v : W64) (c : Ctx) : Ctx :=
  if r = 0 then c
  else { c with s := c.s.setIfInBounds r.toNat v, past := v :: c.past, freed := c.freed &&& ~~~((1 : BitVec 64) <<< r.toNat) }

def Ctx.getS (c : Ctx) (r : SReg) : W64 := if r = 0 then 0 else vget c.s r.toNat 0

/-- Write a predicate; p0 discards (R32). -/
def Ctx.setP (r : PReg) (b : Bool) (c : Ctx) : Ctx :=
  if r = 0 then c
  else { c with p := if b then c.p ||| ((1 : BitVec 16) <<< r.toNat) else c.p &&& ~~~((1 : BitVec 16) <<< r.toNat) }

/-- Write a vector register, which from then on has held the row (R43). -/
def VecRegs.setRow (d : VReg) (row : Vector W32 32) (v : VecRegs) : VecRegs :=
  { v with v := v.v.set d.toNat row, past := row :: v.past }

/-- Read a predicate; p0 reads true (R28). -/
def Ctx.getP (c : Ctx) (r : PReg) : Bool := r == 0 || c.p.getLsbD r.toNat

/-- Whether a wait is a block (R44). -/
def Wait.blocks : Wait → Bool
  | .qRead .. | .qWrite .. | .copyStatus .. | .helpers | .hwait .. | .sync | .team .. => true
  | _ => false

/-- An instruction of the context completes with the program counter at `target`; INSTRET counts it (R293), and one that has blocked
clears the spin count, whatever it waited for last (R47). -/
def Ctx.retireTo (target : W64) (c : Ctx) : Ctx :=
  { c with pc := target, instret := c.instret + 1, spin := if c.blocked || c.wait.blocks then 0 else c.spin, wait := .ready,
           blocked := false }

def Ctx.retire (c : Ctx) : Ctx := c.retireTo (c.pc + 4)

def State.retire (s : State) : State := s.modCtx Ctx.retire
def State.retireTo (t : W64) (s : State) : State := s.modCtx (Ctx.retireTo t)

/-! Trap causes (R283) -/

inductive TrapClass where
  | handled
  | replayable
  | fatal
  deriving DecidableEq, Repr

/-- The class of a cause at issue. -/
def trapClass (code : Byte) : TrapClass :=
  if code = 0x14 then .replayable
  else if code = 0x15 || code = 0x16 || code = 0x7E || code = 0x7F then .fatal
  else .handled

/-! The trap queue of a die (R285) -/

/-- Whether a record of this kind may be written now. -/
def tqRoom (d : Die) (kind : BitVec 5) : Bool :=
  let free := Config.trapRecords - d.tq.length
  if kind = 1 || kind = 2 then decide (1 ≤ free) else decide (Config.trapReserved + 1 ≤ free)

def tqWrite (r : TqRec) (d : Die) : Die := { d with tq := d.tq ++ [{ r with seq := d.tqSeq }], tqSeq := d.tqSeq + 1 }

/-- Write a record, or leave it waiting at its source. -/
def tqPut (r : TqRec) (d : Die) : Die :=
  if tqRoom d r.kind then tqWrite r d else { d with tqWait := d.tqWait ++ [r] }

def pageOf (a : W64) : BitVec 32 := (a >>> 16).setWidth 32

/-- Note a replayable fault on a page: one outstanding record per tenant and page (R284). -/
def noteFault (tid : Nat) (tenant : BitVec 3) (addr epc stat : W64) (d : Die) : Die :=
  if d.faults.contains (tenant, pageOf addr) then d
  else tqPut { seq := 0, tid := BitVec.ofNat 16 tid, tenant := tenant, kind := 0, code := 0x14, addr := addr,
               epc := epc, stat := stat } { d with faults := d.faults ++ [(tenant, pageOf addr)] }

/-! The frame registers (R154) -/

def frameStep (w : W64) : Nat := bitsOf w.toNat 7 0
def frameIndex (w : W64) : Nat := bitsOf w.toNat 11 8
def frameCount (w : W64) : Nat := bitsOf w.toNat 15 12
def frameLast (w : W64) : Nat := bitsOf w.toNat 23 16
def frameActive (w : W64) : Bool := w.getLsbD 24

/-- Move (STEP, INDEX) past the present entry; ACTIVE clears after the last one, where they stay (R281, R389). -/
def frameAdvance (w : W64) : W64 :=
  if frameIndex w < frameCount w then w &&& ~~~0xF00 ||| BitVec.ofNat 64 ((frameIndex w + 1) * 256)
  else if frameStep w < frameLast w then w &&& ~~~0xFFF ||| BitVec.ofNat 64 (frameStep w + 1)
  else w &&& ~~~((1 : W64) <<< 24)

/-- The bits of an address that FRBASE and FRPC keep (R154). -/
def addrBits (v : W64) : W64 := v &&& 0xFFFFFFFFFFFF

def State.modFrame (f : Frame → Frame) (s : State) : State := s.modRegs fun r => { r with frame := f r.frame }

/-! The handler and what it serves (R279, R280) -/

/-- The address the handler starts at (R280). -/
def handlerEntry (t : TrapUnit) : W64 := 0x2C000 + 64 * t.tvec.setWidth 64

def tcauseOf (code : Byte) (intr : Bool) (ctx : Nat) (qhead : Bool) : W64 :=
  BitVec.ofNat 64 (code.toNat + 256 * boolNat intr + 4096 * ctx + 65536 * boolNat qhead)

def wakeHandler (s : State) : State :=
  (s.modTrap fun u => { u with wokeAt := (s.ctxAt handlerIx).instret }).modCtxAt handlerIx fun c =>
    { c with pc := handlerEntry s.core.trap, wait := .ready }

/-- FRAME, FRBASE and FRPC hold the frame of a trap that is served (R155); another frame of its context that was dispatching goes on
later. -/
def standFrame (r : TrapRec) (s : State) : State :=
  match r.frame with
  | none => s
  | some x =>
    let f := s.core.regs.frame
    let other := frameActive f.word && f.ctx == r.ctx && x.past != some f.word
    (if other then s.modTrap fun u => { u with later := some f } else s).modFrame fun _ => x.frame

/-- The handler starts the service of a trap (R280). -/
def serveTrap (r : TrapRec) (rest : List TrapRec) (s : State) : State :=
  wakeHandler ((standFrame r s).modTrap fun u => { u with
    service := .trap r, pendTraps := rest, tcause := tcauseOf r.code false (ctxNum r.ctx) r.qhead,
    taddr := r.addr, tepc := r.epc, tnpc := r.npc, tstat := r.stat })

/-- Serve the next pending trap, else the next pending interrupt, else let the handler sleep (R279); an interrupt waits
while the core is in an exchange phase (R238, R288) or halted (R292). -/
def serveNext (s : State) : State :=
  let u := s.core.trap
  if u.halted then s
  else match u.service, u.pendTraps, u.pendIntrs with
    | .none, r :: rest, _ => serveTrap r rest s
    | .none, [], r :: rest =>
      if s.core.exch.isSome || s.core.bridled then s
      else wakeHandler (s.modTrap fun u => { u with
        service := .intr r, pendIntrs := rest, tcause := tcauseOf r.code true 0 false, taddr := 0, tepc := 0,
        tnpc := 0, tstat := r.stat })
    | _, _, _ => s

/-! Ending a context by a fatal fault (R286, R223) -/

/-- The gang part of the context tag of a core (R290). -/
def Core.tag (c : Core) : Half := (c.gang.getD 0).setWidth 16

/-- The teams that a thread is a member of. -/
def teamsOf (tid : Nat) (gang : Half) (p : Pkg) : List TeamEntry :=
  p.teams.filter fun e => e.members.any fun m => m.tid == tid && m.gang == gang

/-- The departed leaves of a thread are on their way to the homes of its teams (R89). -/
def departTeams (tid : Nat) (gang : Half) (p : Pkg) : Pkg :=
  { p with departs := p.departs ++ (teamsOf tid gang p).map fun e => { slot := e.slot, tid := tid, gang := gang, parked := none } }

/-- A mark request whose context waits for the answer. -/
def MarkMsg.awaited (i : Fin 12) (gang : Half) (m : MarkMsg) : Bool :=
  m.ctx == i && m.gang == gang && (match m.op with
    | .sense .. => true
    | .read .. => true
    | _ => false)

/-- The traps of a context that are being served or wait for their service. -/
def recsOf (i : Fin 12) (u : TrapUnit) : List TrapRec :=
  ((match u.service with | .trap r => [r] | _ => []) ++ u.pendTraps).filter fun r => r.ctx == i

/-- The home that a push waits for the answer of (R257). -/
def Wait.pushHome : Wait → Option Nat
  | .push home .. => some home
  | _ => none

/-- The homes that owe context `i` the answer of a push, which has an entry of PARKED reserved (R257); a trap may have paused the
context meanwhile. -/
def pushHomes (i : Fin 12) (c : Core) : List Nat := (c.ctxs[i].wait :: (recsOf i c.trap).map (·.wait)).filterMap Wait.pushHome

def pushes (i : Fin 12) (c : Core) : Bool := !(pushHomes i c).isEmpty

/-- A push on its way is one of context `i` of the gang on the focused core. -/
def State.pushMine (i : Fin 12) (s : State) (r : PushReq) : Bool := r.core == s.coreId && r.gang == s.core.tag && r.ctx == i

/-- It is on its way no more. -/
def dropPush (i : Fin 12) (s : State) : State :=
  s.modPkg fun p => { p with pushQ := p.pushQ.filter fun r => !s.pushMine i r }

/-- The context's entries are discarded, its copies lose their status, its mark requests their answers. -/
def discardCtx (i : Fin 12) (s : State) : State :=
  let tid := tidOf s.coreId i
  let g := s.core.tag
  let s := if (s.ctxAt i).ord.isSome then s.modCore fun c => { c with ordf := c.ordf - 1 } else s
  let s := if pushes i s.core then dropPush i (s.modCore fun c => { c with parked := c.parked - 1 }) else s
  let s := s.modCtxAt i fun c => { c with buf := [], log := [], ord := none, wait := .ready, live := false, taken := [] }
  let s := s.modDie s.die fun d => { d with replay := d.replay.filter fun r => r.tid != tid || r.gang != g }
  let s := s.modCore fun c =>
    { c.received (c.markQ.filter fun m => m.awaited i g).length with
      copies := mapIf (fun k => k.ctx == i) (fun k => { k with sd := none }) c.copies
      markQ := c.markQ.filter fun m => !m.awaited i g
      trap := { c.trap with pendTraps := c.trap.pendTraps.filter (fun r => r.ctx != i) } }
  let s := s.modPkg fun p => { p with
    markRuns := p.markRuns.map fun r => { r with held := r.held.filter fun h => !(h.1 == s.coreId && h.2.1.awaited i g) }
    teamDone := p.teamDone.filter fun d => d.tid != tid || d.gang != g }
  if i = 0 then
    let off := fun (f : Frame) => if f.ctx = 0 then { f with word := f.word &&& ~~~((1 : W64) <<< 24) } else f
    (s.modRegs fun r => { r with gathers := [], scats := [], gpend := 0, frame := off r.frame }).modTrap fun u => { u with later := u.later.filter fun f => f.ctx != 0 }
  else s

/-- What a control context that ends takes out of its domain: scatter contributions not yet applied and armed transfers
(R223, R238). Entries that it has drained stay in their window (R223). -/
def leaveDomain (s : State) : State :=
  let drop := fun (c : Contribution) => if c.core == s.coreId && c.ctx == 0 then { c with scats := [] } else c
  let gone := fun (a : Arrival) => if some a.gang == s.core.gang then { a with contrib := drop a.contrib } else a
  let mine := fun (x : Superstep) => some x.gang == s.core.gang
  let s := s.modPkg fun p => { p with steps := mapIf mine (fun x => { x with contribs := x.contribs.map drop }) p.steps }
  serveNext (s.modCore fun c => { c with arrivals := c.arrivals.map gone, exch := none, exchLast := none, xmits := [], xsels := [] })

/-- EndFatal for one context, with the fatal record. -/
def endFatalOne (i : Fin 12) (code : Byte) (addr epc stat : W64) (s : State) : State :=
  let tid := tidOf s.coreId i
  let s := discardCtx i ((s.modPkg (departTeams tid s.core.tag)).roundTrips (teamsOf tid s.core.tag s.pkg).length)
  let s := if i = 0 then leaveDomain s else
    s.modCore fun c => { c with hfault := c.hfault ||| ((1 : BitVec 11) <<< i.val) }
  s.modDie s.die (tqPut { seq := 0, tid := BitVec.ofNat 16 tid, tenant := s.core.tenant, kind := 1, code := code,
                          addr := addr, epc := epc, stat := stat })

/-- The live helpers of the focused core. -/
def liveHelpers (c : Core) : List (Fin 12) :=
  ([1, 2, 3, 4, 5, 6, 7, 8, 9, 10] : List (Fin 12)).filter fun i => c.ctxs[i].live

/-- EndFatal(c, code): the control context takes every live helper with it, with cause 0x7E, and its core
leaves its domains and its gang's work (R286); the gang's status is 1 (R254). -/
def endFatal (i : Fin 12) (code : Byte) (addr epc stat : W64) (s : State) : State :=
  let s := match s.core.gang with
    | some g => s.modGang g fun x => { x with status := if x.status = 0 then 1 else x.status }
    | none => s
  let s1 := endFatalOne i code addr epc stat s
  if i = 0 then
    let s2 := (liveHelpers s1.core).foldl (fun t j => endFatalOne j 0x7E 0 (t.ctxAt j).pc 0 t) s1
    match s.core.gang with
    | some g => s2.modGang g fun x => { x with ended := s2.coreId :: x.ended.filter (· != s2.coreId) }
    | none => s2
  else s1

/-! Taking a trap -/

/-- A double fault of the focused core, with the handler's own cause (R287). -/
def doubleFaultOf (cause : Byte) (s : State) : State :=
  let u := s.core.trap
  let s := s.modTrap fun u => { u with shadowCause := u.tcause, shadowAddr := u.taddr, halted := true }
  s.modDie s.die (tqPut { seq := 0, tid := BitVec.ofNat 16 (tidOf s.coreId handlerIx), tenant := s.core.tenant,
                          kind := 2, code := u.tcause.setWidth 8, addr := u.taddr,
                          epc := (s.ctxAt handlerIx).pc, stat := cause.setWidth 64 })

/-- The order of service of synchronous traps: the cycle in which one was raised, then the context number (R279). -/
def TrapRec.rank (r : TrapRec) : Nat := r.cycle * 16 + ctxNum r.ctx

/-- The handler has been woken for a trap that ranks behind `r` and has not issued yet: `r`, raised in the same cycle by
a lower context, is served first (R279). -/
def servedAhead (r : TrapRec) (s : State) : Option TrapRec :=
  match s.core.trap.service with
  | .trap x =>
    if r.cycle = x.cycle && decide (r.rank < x.rank) && s.core.trap.wokeAt == (s.ctxAt handlerIx).instret then some x else none
  | _ => none

/-- A handled trap of a context that is not the handler: the context pauses, and the handler is woken or the trap waits
for its service in the order of R279. Its instruction has blocked no more where the trap is its own. -/
def pauseFor (r : TrapRec) (s : State) : State :=
  let s := s.modCtxAt r.ctx fun c => { c with wait := .trapped, blocked := c.blocked && (r.qhead || r.frame.isSome) }
  match servedAhead r s with
  | some x => serveTrap r (insertBy TrapRec.rank x s.core.trap.pendTraps) s
  | none => serveNext (s.modTrap fun u => { u with pendTraps := insertBy TrapRec.rank r u.pendTraps })

/-- The record of a trap raised at issue by the context at place `i`. -/
def issueRec (i : Fin 12) (t : Trap) (pc : W64) (cycle : W64) : TrapRec :=
  { ctx := i, code := t.code, addr := t.addr, stat := t.stat, epc := pc, npc := pc, qhead := false,
    frame := none, entry := none, wait := .ready, cycle := cycle.toNat }

/-- TAKING A TRAP at issue: the one shared operation (R277–R280, R284, R286, R287). -/
def takeTrap (t : Trap) (s : State) : State :=
  let i := s.core.cur
  let pc := s.ctx.pc
  match trapClass t.code with
  | .replayable =>
    let s := s.modCtx fun c => { c with wait := .pageFault t.addr t.stat }
    s.modDie s.die (noteFault s.tid s.core.tenant t.addr pc t.stat)
  | .fatal => if s.isHandler then doubleFaultOf t.code s else endFatal i t.code t.addr pc t.stat s
  | .handled => if s.isHandler then doubleFaultOf t.code s else pauseFor (issueRec i t pc s.cycle) s

/-- What R289 makes of a wait at a save: an answer that is on its way is waited for, a remaining count is kept, anything
else is issued again. -/
def settleWait (now : Nat) : Wait → Wait
  | .idle till => .idle (till - now)
  | .hold till => .hold (till - now)
  | .sync => .sync
  | .team a b c d => .team a b c d
  | .mark a b => .mark a b
  | .reduction a b => .reduction a b
  | .push a b c d => .push a b c d
  | .trapped => .trapped
  | _ => .ready

/-- The cycle at which the counts of a core stand: a halted core's do not advance (R292). -/
def countCycle (cycle : W64) (c : Core) : Nat := if c.bridled then (c.latched.headD cycle).toNat else cycle.toNat

/-- The wait that a trap away from issue leaves a context, settled (R278, R289). Log entry 57 (DEDUCED). -/
def waitSettled (s : State) (i : Fin 12) : Wait :=
  match (s.ctxAt i).wait with
  | .trapped => .ready
  | w => settleWait (countCycle s.cycle s.core) w

/-- A trap found after its instruction has retired, in data that the core fetched for it later: the context pauses where it stands,
and resumes with its wait, settled, as after a trap at the head of the queue. Log entry 80 (DESIGN CHOICE). -/
def lateTrap (i : Fin 12) (t : Trap) (s : State) : State :=
  pauseFor { issueRec i t (s.ctxAt i).pc s.cycle with qhead := true, wait := waitSettled s i } s

/-- A context waits, and whether its instruction has blocked is kept for its completion (R47). -/
def Ctx.waitOn (w : Wait) (c : Ctx) : Ctx := { c with wait := w, blocked := c.blocked || w.blocks }

/-- The issuing context waits. -/
def State.blockOn (w : Wait) (s : State) : State := s.modCtx (Ctx.waitOn w)

/-- What becomes of a state when an instruction completes, or is stopped by a trap or a wait. -/
def settle (s : State) : Except Stop State → State
  | .ok t => t
  | .error (.trap t) => takeTrap t s
  | .error (.block w) => s.blockOn w

/-- The result of an instruction. -/
def finish (s : State) (r : Except Stop State) : Result := .next (settle s r)

/-- An interrupt reaches the focused core (R279, R282). -/
def takeInterrupt (code : Byte) (stat : W64) (s : State) : State :=
  serveNext (s.modTrap fun u => { u with pendIntrs := u.pendIntrs ++ [{ code := code, stat := stat }] })

/-- An interrupt has stopped contexts 0–10: one is being served, or waits and no exchange phase holds it back (R279, R238). -/
def interrupted (c : Core) : Bool :=
  (match c.trap.service with | .intr _ => true | _ => false) || (!c.trap.pendIntrs.isEmpty && c.exch.isNone)

/-- Nothing stops the context at `cur` but what its own instruction waits for (R279, R287, R292). -/
def mayGo (s : State) : Bool :=
  let c := s.core
  (if c.cur = handlerIx then c.trap.service != .none else c.gang.isSome && s.ctx.live && !interrupted c) &&
    !c.bridled && !c.trap.halted

/-! Returning from a trap -/

/-- The wait of a restored context: a remaining count goes on. -/
def unsettleWait (now : Nat) : Wait → Wait
  | .idle n => .idle (now + n)
  | .hold n => .hold (now + n)
  | w => w

/-- Replace the first element that satisfies `p`. -/
def mapFirst {α : Type} (p : α → Bool) (f : α → α) : List α → List α
  | [] => []
  | x :: xs => if p x then f x :: xs else x :: mapFirst p f xs

/-- The instruction that a trap's context issues next: TNPC, and FRPC of its frame (R278). -/
def TrapRec.resumeAt (pc : W64) (r : TrapRec) : TrapRec :=
  { r with npc := pc, frame := r.frame.map fun x => { x with frame := { x.frame with pc := addrBits pc } } }

/-- Context `i` resumes at `pc`, with the settled wait that its trap left it; with another trap of its own still pending
it stays paused, and that trap's service resumes it there. -/
def resumeCtx (i : Fin 12) (pc : W64) (w : Wait) (s : State) : State :=
  match s.core.trap.pendTraps.find? fun r => r.ctx == i with
  | none => s.modCtxAt i fun c => { c with pc := pc, wait := unsettleWait s.cycle.toNat w }
  | some _ =>
    (s.modCtxAt i fun c => { c with pc := pc }).modTrap fun u =>
      { u with pendTraps := mapFirst (fun x => x.ctx == i) (fun x => { x.resumeAt pc with wait := w }) u.pendTraps }

/-- The held queue entries of context `i`, and the state without them (R278). -/
def takeHeld (i : Fin 12) (s : State) : List VEntry × State :=
  (s.core.trap.held.filter fun e => e.ctx == i, s.modTrap fun u => { u with held := u.held.filter fun e => e.ctx != i })

/-- A trap of context `i` at an earlier entry of the queue, or in a frame, is still to be served. -/
def headPends (i : Fin 12) (u : TrapUnit) : Bool := u.pendTraps.any fun r => r.ctx == i && (r.entry.isSome || r.frame.isSome)

/-- Entries that were taken out come back to the front of the queue in their order, behind the word that is dispatched again (R278,
R298), ahead of the handler's own, whether or not there is room; not while a trap before them is still to be served. Log entry 96 (DESIGN
CHOICE). -/
def requeueHeld (i : Fin 12) (word : Option VEntry) (s : State) : State :=
  let h := if headPends i s.core.trap then ([], s) else takeHeld i s
  h.2.modCore fun c => reissued { c with vq := word.toList ++ h.1 ++ c.vq }

/-- The frame that was dispatching behind a trapped one goes on. -/
def laterFrame (i : Fin 12) (s : State) : State :=
  match s.core.trap.later with
  | some f => if f.ctx = i then (s.modFrame fun _ => f).modTrap fun u => { u with later := none } else s
  | none => s

/-- Entries held behind a frame enter the queue once the frame has no step left, and a later frame goes on behind them (R155, R278). -/
def returnHeld (i : Fin 12) (s : State) : State :=
  if frameActive s.core.regs.frame.word || headPends i s.core.trap then s
  else
    let h := takeHeld i s
    laterFrame i (h.2.modCore fun c => reissued { c with vq := c.vq ++ h.1 })

/-- The trapping word is dispatched again, and counts again as an instruction of its context (R293, R298). -/
def redispatch (r : TrapRec) (s : State) : State :=
  let again := fun (c : Ctx) => { c with instret := if r.entry.isSome then c.instret + 1 else c.instret }
  (requeueHeld r.ctx r.entry s).modCtxAt r.ctx again

/-- The save-area image of the focused core's gang, a new one where SVCTX has written none. -/
def savedHere (s : State) (g : W32) : Saved :=
  (s.pkg.saved.find? fun v => v.core == s.coreId && v.gang == g).getD
    { gang := g, core := s.coreId, ctxs := [], regs := none, spill := [], lent := none, rest := Core.reset }

def State.putSaved (v : Saved) (s : State) : State :=
  s.modPkg fun p => { p with saved := v :: p.saved.filter fun x => !(x.core == v.core && x.gang == v.gang) }

/-- The copies of batch elements, which belong to a core's FIFOs and not to the gang on it (R434), and the others. -/
def Core.batches (c : Core) : List Copy := c.copies.filter fun k => k.batch.isSome
def Core.ownCopies (c : Core) : List Copy := c.copies.filter fun k => k.batch.isNone

/-- What stays with a core that is given up: its units' messages, its FIFOs with their copies, and its handler. -/
def emptyCore (c : Core) : Core :=
  { Core.reset with
      ctxs := c.ctxs, cur := c.cur, tenant := c.tenant, tlb := c.tlb, efifo := c.efifo, copies := c.batches, nextCopy := c.nextCopy, arrivals := c.arrivals,
      markQ := c.markQ, resend := c.resend, bridled := c.bridled, latched := c.latched, lineErrors := c.lineErrors,
      trap := { c.trap with held := [], later := none, pendTraps := [], pendIntrs := [], saved := 0 } }

/-- The core is given up after a pre-empt or lend service: the streamer copies the scratchpad to the save
area and the core is free (R288). Log entry 25 (DEDUCED). Log entry 43 (DEDUCED). -/
def releaseCore (lent : Bool) (s : State) : State :=
  let c := s.core
  match c.gang with
  | none => s
  | some g =>
    let v := savedHere s g
    let traps := c.trap.pendTraps.foldl (fun l r => insertBy TrapRec.rank r l) v.rest.trap.pendTraps
    let rest := { c with
      arrivals := [], markQ := [], resend := [], copies := c.ownCopies
      exch := c.exch.or v.rest.exch, exchLast := c.exchLast.or v.rest.exchLast
      xmits := c.xmits ++ v.rest.xmits, xsels := c.xsels ++ v.rest.xsels
      trap := { c.trap with pendTraps := traps, pendIntrs := [], saved := 0, service := .none } }
    (s.putSaved { v with lent := if lent then some s.cycle.toNat else none, rest := rest }).modCore emptyCore

/-- End the service: the next pending trap or interrupt is served, or the handler sleeps (R281). -/
def endService (s : State) : State := serveNext (s.modTrap fun u => { u with service := .none })

/-- RETURN FROM A TRAP OR INTERRUPT (R281): TACT is read and cleared, the action taken. Log entry 34 (DEDUCED). -/
def returnFromTrap (s : State) : State :=
  let u := s.core.trap
  let act := u.tact
  let s := s.modTrap fun u => { u with tact := 0 }
  match u.service with
  | .none => doubleFaultOf 0x7F s
  | .intr r =>
    if act = 0 then endService s
    else if act = 3 && r.code = 0x01 then endService (releaseCore false s)
    else if act = 4 && r.code = 0x03 then endService (releaseCore true s)
    else doubleFaultOf 0x7F s
  | .trap r =>
    if r.frame.isSome then
      let npc := s.core.regs.frame.pc
      if act = 0 then endService (resumeCtx r.ctx npc r.wait (returnHeld r.ctx s))
      else if act = 1 then
        endService (resumeCtx r.ctx npc r.wait (returnHeld r.ctx (s.modFrame fun f =>
          { f with word := if frameActive f.word then frameAdvance f.word else f.word })))
      else if act = 2 then
        endService (endFatal r.ctx r.code r.addr r.epc r.stat
          ((takeHeld r.ctx s).2.modFrame fun f => { f with word := f.word &&& ~~~((1 : W64) <<< 24) }))
      else doubleFaultOf 0x7F s
    else if act = 0 then
      if r.entry.isSome then endService (resumeCtx r.ctx u.tnpc r.wait (redispatch r s))
      else if r.qhead then endService (resumeCtx r.ctx u.tnpc r.wait (returnHeld r.ctx s))
      else endService (resumeCtx r.ctx u.tepc .ready s)
    else if act = 1 then
      if r.entry.isSome then endService (resumeCtx r.ctx u.tnpc r.wait (requeueHeld r.ctx none s))
      else if r.qhead then endService (resumeCtx r.ctx u.tnpc r.wait (returnHeld r.ctx s))
      else endService (resumeCtx r.ctx (u.tepc + 4) .ready s)
    else if act = 2 then
      endService (endFatal r.ctx r.code r.addr r.epc r.stat (takeHeld r.ctx s).2)
    else doubleFaultOf 0x7F s

end Sys2Proof.Machine
end

