-- ==== Sys2Proof/Machine/Flags.lean ====
section
/-!
DEFINITION. The floating flags of a context and its rounding mode (R122, R123).
-/
namespace Sys2Proof.Machine

/-- OR flags into FSTAT of the context at place `i`; nothing clears a flag here (R122). -/
def State.orFlags (i : Fin 12) (f : FFlags) (s : State) : State :=
  s.modCtxAt i fun c => { c with fstat := c.fstat ||| f }

/-- A write of FSTAT clears the bits it names (R6, R122). -/
def Ctx.clearFlags (v : W64) (c : Ctx) : Ctx := { c with fstat := c.fstat &&& ~~~(v.setWidth 5) }

/-- The mode of an instruction: its suffix ρ, or FRM where none is written (R123, R324). -/
def roundingOf (rho : Nat) (frm : BitVec 2) : BitVec 2 :=
  if rho = 0 then frm else BitVec.ofNat 2 (rho - 1)

def modeOf (rm : BitVec 2) : RMode := RMode.ofCode rm.toNat

end Sys2Proof.Machine
end

