-- ==== Sys2Proof/Machine/Operands.lean ====
section
/-!
DEFINITION. Operand forms: scalar sources and destinations with last use and queue registers
(R42, R43, R322, R339), copy status registers (R351), predicates, and the context classes of R29.
-/
namespace Sys2Proof.Machine

/-- Raise a trap. -/
def raise {α : Type} (code : Byte) (addr stat : W64) : Except Stop α :=
  .error (.trap { code := code, addr := addr, stat := stat })

/-- Wait. -/
def wait {α : Type} (w : Wait) : Except Stop α := .error (.block w)

/-- Go on where a condition holds, else stop. -/
def unlessStop (bad : Bool) (e : Except Stop Unit) : Except Stop Unit := if bad then e else .ok ()

/-! Queue registers (R41, R42) -/

def isQueue (r : SReg) : Bool := decide (56 ≤ r.toNat)
def queueIx (r : SReg) : Fin 8 := ⟨r.toNat % 8, by omega⟩
/-- PROD(i) of a QCFG value. -/
def prodOf (qcfg : W64) (i : Nat) : Nat := bitsOf qcfg.toNat (8 * i + 3) (8 * i)
/-- CONS(i) of a QCFG value. -/
def consOf (qcfg : W64) (i : Nat) : Nat := bitsOf qcfg.toNat (8 * i + 7) (8 * i + 4)
/-- The issuing context is context `n`, one of 0–10. -/
def State.isCtx (s : State) (n : Nat) : Bool := !s.isHandler && ctxNum s.core.cur == n
def State.queue (s : State) (i : Fin 8) : List W64 := s.core.regs.q[i]
def State.setQueue (i : Fin 8) (l : List W64) (s : State) : State := s.modRegs fun r => { r with q := r.q.set i l }

/-! Sources -/

/-- The register of a source is a pending copy status of this context (R351). -/
def State.statusPending (s : State) (r : SReg) : Bool :=
  r != 0 && s.core.copies.any fun k => k.ctx == s.core.cur && k.sd == some r

def isFreed (s : State) (r : SReg) : Bool := !isQueue r && r != 0 && s.ctx.freed.getLsbD r.toNat

/-- Freed-register reads come before every other check of operands (R337). -/
def checkFreed (s : State) : List SReg → Except Stop Unit
  | [] => .ok ()
  | r :: rs =>
    if isFreed s r && !s.core.regs.lumode then raise 0x04 0 (r.setWidth 64) else checkFreed s rs

/-- A queue source names a queue that this context consumes (R42). -/
def checkCons (s : State) : List SReg → Except Stop Unit
  | [] => .ok ()
  | r :: rs =>
    if isQueue r && !s.isCtx (consOf s.core.regs.qcfg (queueIx r)) then
      raise 0x05 0 (BitVec.ofNat 64 (queueIx r).val)
    else checkCons s rs

/-- A queue destination names a queue that this context produces (R42). -/
def checkProd (s : State) : List SReg → Except Stop Unit
  | [] => .ok ()
  | r :: rs =>
    if isQueue r && !s.isCtx (prodOf s.core.regs.qcfg (queueIx r)) then
      raise 0x05 0 (BitVec.ofNat 64 (queueIx r).val)
    else checkProd s rs

/-- What a freed scalar register reads as: one of the values that the context has held, a free choice (R43). Log entry 66 (DEDUCED). -/
def freedValue (s : State) : W64 := s.ctx.past.getD (Config.freedScalar s.fresh % s.ctx.past.length) 0

/-- Read one source: its value, and the state with a pop taken and a free value used. -/
def readOne (s : State) (x : Src) : Except Stop (W64 × State) :=
  if isQueue x.reg then
    match s.queue (queueIx x.reg) with
    | [] => wait (.qRead (queueIx x.reg) 1)
    | v :: rest => .ok (v, if x.last then s.setQueue (queueIx x.reg) rest else s)
  else if s.statusPending x.reg then wait (.copyStatus x.reg)
  else if isFreed s x.reg then .ok (freedValue s, s.useFresh)
  else .ok (s.ctx.getS x.reg, s)

/-- How many entries of a queue the sources need (R42). -/
def needs (q : Fin 8) : List Src → Nat
  | [] => 0
  | x :: xs => if isQueue x.reg && queueIx x.reg == q then Nat.max 1 (boolNat x.last + needs q xs) else needs q xs

/-- A wait for a queue's entries lasts until there are enough for all sources (R42). -/
def waitForAll (srcs : List Src) : Stop → Stop
  | .block (.qRead q _) => .block (.qRead q (needs q srcs))
  | e => e

/-- Read sources in field order (R42, R339). -/
def readAll (s : State) : List Src → Except Stop (List W64 × State)
  | [] => .ok ([], s)
  | x :: xs =>
    match readOne s x with
    | .error e => .error e
    | .ok (v, s1) =>
      match readAll s1 xs with
      | .error e => .error e
      | .ok (vs, s2) => .ok (v :: vs, s2)

/-- Free the last-used registers after all sources are read (R43). -/
def Ctx.freeRegs (c : Ctx) : List Src → Ctx
  | [] => c
  | x :: xs =>
    Ctx.freeRegs (if x.last && !isQueue x.reg && x.reg != 0 then
      { c with freed := c.freed ||| ((1 : BitVec 64) <<< x.reg.toNat) } else c) xs

/-- A destination can take a value: the queue has room, no copy status is pending on it (R42, R351). -/
def destReady (s : State) : List SReg → Except Stop Unit
  | [] => .ok ()
  | r :: rs =>
    if isQueue r then
      if (s.queue (queueIx r)).length < Config.queueDepth then destReady s rs else wait (.qWrite (queueIx r))
    else if s.statusPending r then wait (.copyDest r)
    else destReady s rs

/-- THE OPERANDS of an instruction: its source values, and the state after its pops and last uses, with every
destination ready. `also` lists registers that are read without a last-use bit and come after the sources. Log entry 37 (DEDUCED). -/
def operands (s : State) (srcs : List Src) (dests : List SReg) : Except Stop (List W64 × State) :=
  match checkFreed s (srcs.map (·.reg)) with
  | .error e => .error e
  | .ok _ =>
    match checkCons s (srcs.map (·.reg)) with
    | .error e => .error e
    | .ok _ =>
      match checkProd s dests with
      | .error e => .error e
      | .ok _ =>
        match readAll s srcs with
        | .error e => .error (waitForAll srcs e)
        | .ok (vs, s1) =>
          match destReady s1 dests with
          | .error e => .error e
          | .ok _ => .ok (vs, s1.modCtx fun c => c.freeRegs srcs)

/-- The first and second source value. -/
def val0 (vs : List W64) : W64 := vs.getD 0 0
def val1 (vs : List W64) : W64 := vs.getD 1 0
def val2 (vs : List W64) : W64 := vs.getD 2 0

/-- Write a scalar destination: a queue takes the value at its tail (R42), s0 discards it. -/
def State.writeS (r : SReg) (v : W64) (s : State) : State :=
  if isQueue r then s.setQueue (queueIx r) (s.queue (queueIx r) ++ [v]) else s.modCtx (Ctx.setS r v)

def State.writeP (r : PReg) (b : Bool) (s : State) : State := s.modCtx (Ctx.setP r b)

/-- The state before operands were read, with the free values that reading them used. -/
def State.freshOf (s t : State) : State := { s with fresh := t.fresh }

/-- The entries that the sources pop leave their queues (R42); the context keeps them until its instruction completes. -/
def takeEntries : List Src → State → State
  | [], s => s
  | x :: xs, s =>
    takeEntries xs (match isQueue x.reg && x.last, s.queue (queueIx x.reg) with
      | true, v :: rest => (s.setQueue (queueIx x.reg) rest).modCtx fun c => { c with taken := c.taken ++ [(queueIx x.reg, v)] }
      | _, _ => s)

/-- The state in which an instruction waits for an answer: its entries are taken at issue (R42), `t` being the state after its operands
were read. Log entry 38 (DEDUCED). -/
def taking (srcs : List Src) (s t : State) : State := takeEntries srcs (s.freshOf t)

/-- The last uses of an instruction that waited for an answer, at its completion. -/
def endSources (srcs : List Src) (s : State) : State := s.modCtx fun c => { c.freeRegs srcs with taken := [] }

/-- One entry goes back to the head of a queue that the context still consumes. -/
def untake (x : Fin 8 × W64) (s : State) : State :=
  if s.isCtx (consOf s.core.regs.qcfg x.1) then s.setQueue x.1 (x.2 :: s.queue x.1) else s

/-- An instruction that has had no effect, or is issued again, gives back the entries that it took. Log entry 38 (DEDUCED). -/
def giveBack (s : State) : State :=
  if s.ctx.taken.isEmpty then s
  else (s.ctx.taken.foldr untake s).modCtx fun c => { c with taken := [] }

/-- An instruction that waited for an answer completes with a scalar result. -/
def completeWith (srcs : List Src) (d : SReg) (v : W64) (s : State) : State :=
  ((endSources srcs s).writeS d v).retire

/-! Context classes (R29) -/

/-- The word that a context-class or ordered-task trap reports (R283). -/
def classTrap {α : Type} (w : Option W32) : Except Stop α := raise 0x03 0 ((w.getD 0).setWidth 64)

/-- Issued by the control or handler context. -/
def notHelper (s : State) (w : Option W32) : Except Stop Unit := unlessStop s.isHelper (classTrap w)
/-- Issued by the control context. -/
def controlOnly (s : State) (w : Option W32) : Except Stop Unit := unlessStop (!s.isControl) (classTrap w)
/-- Issued by the control context or a helper. -/
def notHandler (s : State) (w : Option W32) : Except Stop Unit := unlessStop s.isHandler (classTrap w)
/-- Issued by the handler context. -/
def handlerOnly (s : State) (w : Option W32) : Except Stop Unit := unlessStop (!s.isHandler) (classTrap w)

/-- An instruction that no ordered task may issue (R204). -/
def notOrdered (s : State) (w : Option W32) : Except Stop Unit :=
  unlessStop s.ctx.ord.isSome (raise 0x1C 0 ((w.getD 0).setWidth 64))

end Sys2Proof.Machine
end

