-- ==== Sys2Proof/Machine/Memory.lean ====
section
/-!
DEFINITION. Address spaces, translation, the checks on an address, the read cache, loads and
instruction fetch (R158–R173, R184–R189, R196, R340).
-/
namespace Sys2Proof.Machine

/-! Places in the one address space of the device -/

def weightBase : Nat := Config.dies * Config.layerBytes
def farBase : Nat := weightBase + Config.dies * Config.weightBytes

/-- The address of a place (R158, R162). -/
def physOf (l : Loc) : Nat :=
  match l.space with
  | 0 => l.die * Config.layerBytes + l.off
  | 1 => weightBase + l.die * Config.weightBytes + l.off
  | _ => farBase + l.off

/-- The die whose layer or weight store holds an address, where one does. -/
def dieOfPhys (p : Nat) : Option Nat :=
  if p < weightBase then some (p / Config.layerBytes)
  else if p < farBase then some ((p - weightBase) / Config.weightBytes)
  else none

/-- The stack of an address: that of its die, or of its far memory (R162). -/
def stackOfPhys (p : Nat) : Nat :=
  match dieOfPhys p with
  | some d => stackOfDie d
  | none => (p - farBase) / Config.farStackBytes

def isWeight (p : Nat) : Bool := decide (weightBase ≤ p ∧ p < farBase)

/-- Whether a home lies inside a scope of an issuer on die `d` (R200). -/
def homeInside (scope d p : Nat) : Bool :=
  if scope ≤ 2 then dieOfPhys p == some d
  else if scope = 3 then stackOfPhys p == stackOfDie d
  else true

def State.byteAt (s : State) (p : Nat) : Byte := s.mem.get p

/-- Write a byte. An error that stands in its line stays. Log entry 64 (DEDUCED). -/
def State.setPhys (p : Nat) (b : Byte) (s : State) : State := { s with mem := s.mem.set p b }

def State.setPhysBytes (p : Nat) (bs : List Byte) (s : State) : State := { s with mem := s.mem.setBytes p bs }

/-- The 64-byte line of a home. -/
def lineOf (p : Nat) : Nat := p / 64

/-- A line becomes a tenant's; the list stays in ascending order. -/
def ownLine (line : Nat) (t : BitVec 3) : List (Nat × BitVec 3) → List (Nat × BitVec 3)
  | [] => [(line, t)]
  | x :: xs => if line < x.1 then (line, t) :: x :: xs else if line = x.1 then (line, t) :: xs else x :: ownLine line t xs

/-- The lines of `n` bytes are those of a tenant that writes there (R175). Log entry 102 (DEDUCED). -/
def State.claim (t : BitVec 3) (p n : Nat) (s : State) : State :=
  if n = 0 then s
  else { s with owners := (List.range (lineOf (p + n - 1) + 1 - lineOf p)).foldl (fun l k => ownLine (lineOf p + k) t l) s.owners }

/-- A tenant's bytes reach their home. -/
def State.writeFor (t : BitVec 3) (p : Nat) (bs : List Byte) (s : State) : State := (s.setPhysBytes p bs).claim t p bs.length

/-! Paths between dies, stacks and far memory (R15, R23, R25, R27, R241, R242). Log entry 67 (DEDUCED). -/

/-- A stack's slot table has a traffic slot of an owner for a tenant (R241). -/
def trafficSlot (s : State) (stack owner : Nat) (t : BitVec 3) : Bool :=
  (s.stackAt stack).slots.toList.any fun e =>
    !e.getLsbD 6 && e.extractLsb' 3 3 == t && e.setWidth 3 == BitVec.ofNat 3 owner

/-- An awake layer can send on its rein (R23, R27). -/
def layerSends (s : State) (t : BitVec 3) (d : Nat) : Bool :=
  (s.dieAt d).awake && trafficSlot s (stackOfDie d) (d % 6 + 1) t

/-- The base die of a stack can send on its rein (R25). -/
def baseSends (s : State) (t : BitVec 3) (stack : Nat) : Bool := trafficSlot s stack 0 t

/-- The link from one stack to another has a tenant slot (R242). -/
def linkSends (s : State) (t : BitVec 3) (a b : Nat) : Bool :=
  (vget s.pkg.links (linkIx a b) (Vector.replicate 64 0)).toList.any fun e =>
    e.getLsbD 4 && !e.getLsbD 3 && e.setWidth 3 == t

/-- A die's calendar has a tenant slot, so that packets of the tenant cross its crossbar (R230, R231). -/
def calSends (s : State) (t : BitVec 3) (d : Nat) : Bool :=
  (s.dieAt d).cal.toList.any fun e => e.getLsbD 4 && !e.getLsbD 3 && e.setWidth 3 == t

/-- Traffic of a tenant gets from one stack to another, in no time where they are one (R242). -/
def crosses (s : State) (t : BitVec 3) (a b : Nat) : Bool := a == b || linkSends s t a b

/-- A message of a tenant gets from die `d` to a home: over the crossbar of its own die, else over the rein, the links to another
stack and that stack's rein to the crossbar of the home's die (R15, R23, R25). -/
def sendOpen (s : State) (t : BitVec 3) (d p : Nat) : Bool :=
  let a := stackOfDie d
  let b := stackOfPhys p
  calSends s t d && (match dieOfPhys p with
  | some e => e == d || (layerSends s t d && (a == b || (linkSends s t a b && baseSends s t b)) && calSends s t e)
  | none => layerSends s t d && crosses s t a b)

/-- A message of a tenant gets from a home to die `d`. -/
def replyOpen (s : State) (t : BitVec 3) (d p : Nat) : Bool :=
  let a := stackOfDie d
  let b := stackOfPhys p
  calSends s t d && (match dieOfPhys p with
  | some e => e == d || (calSends s t e && layerSends s t e && (a == b || (linkSends s t b a && baseSends s t a)))
  | none => baseSends s t a && crosses s t b a)

/-- A place on die `e`, and one on the base die of a stack: what is sent to a unit there goes as to the memory behind it. -/
def diePlace (e : Nat) : Nat := e * Config.layerBytes
def basePlace (st : Nat) : Nat := farBase + st * Config.farStackBytes

/-- A message of a tenant gets from one place to another. -/
def pathOpen (s : State) (t : BitVec 3) (p q : Nat) : Bool :=
  match dieOfPhys p, dieOfPhys q with
  | some d, _ => sendOpen s t d q
  | none, some e => replyOpen s t e p
  | none, none => crosses s t (stackOfPhys p) (stackOfPhys q)

/-- A read of a home by die `d` gets there and its data back. -/
def readOpen (s : State) (t : BitVec 3) (d p : Nat) : Bool := sendOpen s t d p && replyOpen s t d p

/-- A read of a home by a unit on the base die of a stack gets there and its data back. -/
def baseReads (s : State) (t : BitVec 3) (st p : Nat) : Bool := pathOpen s t (basePlace st) p && pathOpen s t p (basePlace st)

/-! Tenants -/

def State.tenant? (s : State) (t : BitVec 3) : Option Tenant :=
  s.pkg.host.tenants.find? fun x => x.num == t

/-- Whether an address lies in a window register's range (R171). -/
def inWindow (reg va : W64) : Bool :=
  let base := bitsOf reg.toNat 47 21 * 2 ^ 21
  let size := bitsOf reg.toNat 59 48 * 2 ^ 21
  decide (base ≤ va.toNat ∧ va.toNat < base + size)

def windowBase (reg : W64) : Nat := bitsOf reg.toNat 47 21 * 2 ^ 21

/-- SRWIN and RWWIN of a tenant; 0, no window, where there is no tenant (R171). -/
def State.srwin (s : State) (t : BitVec 3) : W64 := match s.tenant? t with | some x => x.spec.srwin | none => 0
def State.rwwin (s : State) (t : BitVec 3) : W64 := match s.tenant? t with | some x => x.spec.rwwin | none => 0

def State.inReplicated (s : State) (t : BitVec 3) (va : W64) : Bool := inWindow (s.srwin t) va
def State.inReduction (s : State) (t : BitVec 3) (va : W64) : Bool := inWindow (s.rwwin t) va

/-- The layer-memory offset of a replicated address on the dies of a stack, where the stack holds a replica (R431). -/
def State.replicaOff (s : State) (t : BitVec 3) (stack : Nat) (va : W64) : Option Nat :=
  match s.tenant? t with
  | none => none
  | some x => (x.spec.replicas.lookup stack).map fun o => o + (va.toNat - windowBase x.spec.srwin)

/-! Weight-store refresh windows (R169) -/

def refreshGroup (p : Nat) : Nat := (p - weightBase) % Config.weightBytes / (96 * 2 ^ 20)
/-- The cycle at which the window of the group of a weight-store address ends, while it refreshes. Log entry 46 (DEDUCED). -/
def refreshing (cycle : W64) (p : Nat) : Option Nat :=
  if isWeight p && cycle.toNat % 65536 / 4096 == refreshGroup p && decide (cycle.toNat % 4096 < 256) then
    some (cycle.toNat - cycle.toNat % 4096 + 256)
  else none

/-- Some of `n` bytes at a place, whole pages, stand in a group that refreshes. -/
def spanRefreshing (cycle : W64) (p n : Nat) : Bool :=
  (List.range (n / 2 ^ 21 + 1)).any fun k => (refreshing cycle (p + Nat.min (k * 2 ^ 21) (n - 1))).isSome

/-! The walk (R163, R164) -/

/-- Why a walk yields no page; `closed` is that no slot of the tenant leads to a table's home, and `refresh` that a table stands in a
refreshing group until a cycle, so that the walk waits (R169). -/
inductive WalkFault where
  | invalid
  | format (level : Nat)
  | closed (home : Nat)
  | refresh (till : Nat)
  deriving DecidableEq, Repr

/-- Bytes of a page mapped by a leaf at a level. -/
def leafBytes (level : Nat) : Nat := if level = 2 then 2 ^ 30 else if level = 3 then 2 ^ 21 else 2 ^ 16
/-- Lowest bit of the index of a level. -/
def levelLow (level : Nat) : Nat := if level = 1 then 39 else if level = 2 then 30 else if level = 3 then 21 else 16
/-- Index of a virtual address at a level. -/
def levelIndex (level va : Nat) : Nat := va / 2 ^ levelLow level % (if level = 4 then 32 else 512)
/-- Bytes of a table of a level. -/
def tableBytes (level : Nat) : Nat := if level = 4 then 256 else 4096

/-- Whether `n` bytes at a place lie inside its space, and inside the far memory found at bring-up (R164, R2). -/
def fitsSpace (s : State) (l : Loc) (n : Nat) : Bool :=
  match l.space with
  | 0 => decide (l.off + n ≤ Config.layerBytes)
  | 1 => decide (l.off + n ≤ Config.weightBytes)
  | _ =>
    let st := l.off / Config.farStackBytes
    decide (st < 4 ∧ l.off % Config.farStackBytes + n ≤ vget s.pkg.host.farBytes st 0)

/-- What the layout of an entry forbids (R163, R164). Log entry 30 (DEDUCED). -/
def badEntry (level e : Nat) : Bool :=
  let leaf := bitOf e 1
  let space := bitsOf e 6 5
  (leaf && level == 1) || (!leaf && level == 4) || space == 3 || (space != 2 && decide (23 < bitsOf e 11 7)) ||
    bitsOf e 63 56 != 0 || (!(!leaf && level == 3) && bitsOf e 55 52 != 0)

/-- Where an entry of a level leads: a page, or the next table (R163). -/
def nextLoc (level e : Nat) : Loc :=
  let low := if !bitOf e 1 && level = 3 then bitsOf e 55 52 * 256 else 0
  { space := bitsOf e 6 5, die := if bitsOf e 6 5 = 2 then 0 else bitsOf e 11 7, off := bitsOf e 51 12 * 4096 + low }

/-- A valid entry of a level has the format that R164 asks for: its layout, the alignment of its page, and that its page or table lies
inside its space. -/
def entryFine (s : State) (level e : Nat) : Bool :=
  let next := nextLoc level e
  !badEntry level e && (if bitOf e 1 then next.off % leafBytes level == 0 && fitsSpace s next (leafBytes level)
    else fitsSpace s next (tableBytes (level + 1)))

/-- Who walks the tables: a die's walkers, a unit on the base die of a stack, or one that no path leads through (the host, and what has
tested its path). -/
inductive Walker where
  | die (d : Nat)
  | base (st : Nat)
  | free
  deriving DecidableEq, Repr

/-- The table at a place cannot be read by a walker (R15, R20, R23, R165). -/
def tableClosed (s : State) (tenant : BitVec 3) (walker : Walker) (table : Loc) : Bool :=
  match walker with
  | .die d => !readOpen s tenant d (physOf table)
  | .base st => !baseReads s tenant st (physOf table)
  | .free => false

/-- Until when a read of an entry stalls, where reads of a refreshing group do (R169). -/
def tableStall (s : State) (stalls : Bool) (p : Nat) : Option Nat := if stalls then refreshing s.cycle p else none

/-- One walk: the levels still to read, from a table at a place; `stalls` says whether a refreshing group holds it up. -/
def walkFrom (s : State) (walker : Walker) (stalls : Bool) (tenant : BitVec 3) (va : Nat) : List Nat → Loc → Except WalkFault TlbEntry
  | [], _ => .error .invalid
  | level :: rest, table =>
    let p := physOf table + 8 * levelIndex level va
    match tableClosed s tenant walker table, tableStall s stalls p with
    | true, _ => .error (.closed (physOf table))
    | _, some till => .error (.refresh till)
    | _, _ =>
      let e := s.mem.num p 8
      if !bitOf e 0 then .error .invalid
      else if !entryFine s level e then .error (.format level)
      else if bitOf e 1 then
        .ok { tenant := tenant, page := va / leafBytes level * (leafBytes level / 65536),
              pages := leafBytes level / 65536, w := bitOf e 2, x := bitOf e 3, nc := bitOf e 4, loc := nextLoc level e }
      else walkFrom s walker stalls tenant va rest (nextLoc level e)

/-- A walk of a tenant's page tables; a tenant that does not exist maps nothing. -/
def walkBy (s : State) (walker : Walker) (stalls : Bool) (tenant : BitVec 3) (va : W64) : Except WalkFault TlbEntry :=
  match s.tenant? tenant with
  | none => .error .invalid
  | some t => walkFrom s walker stalls tenant va.toNat [1, 2, 3, 4] t.spec.root

/-- The walk by a walker that refreshing groups hold up, or by one whose step comes when nothing does. -/
def walk (s : State) (walker : Walker) (tenant : BitVec 3) (va : W64) : Except WalkFault TlbEntry :=
  walkBy s walker (walker != .free) tenant va

def tlbHit (tenant : BitVec 3) (va : W64) (e : TlbEntry) : Bool :=
  e.tenant == tenant && decide (e.page ≤ va.toNat / 65536 ∧ va.toNat / 65536 < e.page + e.pages)

/-- Insert into a bounded table of translations; a full one gives up an entry of the device's choice (R165). -/
def tlbInsert (limit fresh : Nat) (e : TlbEntry) (l : List TlbEntry) : List TlbEntry :=
  let l := l.filter fun x => !(x.tenant == e.tenant && x.page == e.page)
  if l.length < limit then e :: l else e :: l.eraseIdx (Config.evict fresh % limit)

/-- A walk of the focused core's die, where the translation that is cached may be read again: with no path to the tables, or while one
refreshes, it serves. -/
def rewalk (s : State) (tenant : BitVec 3) (va : W64) (cached : TlbEntry) : Except WalkFault TlbEntry :=
  match walk s (.die s.die) tenant va with
  | .error (.closed _) => .ok cached
  | .error (.refresh _) => .ok cached
  | x => x

/-- Translate: the TLB, the die's translation cache, a walk (R165). The device may drop an entry at any time. -/
def translate (s : State) (tenant : BitVec 3) (va : W64) : Except WalkFault (TlbEntry × State) :=
  let s1 := s.useFresh
  let note := fun (e : TlbEntry) =>
    (e, (s1.modCore fun c => { c with tlb := tlbInsert Config.tlbEntries s.fresh e c.tlb }).modDie s.die
      fun d => { d with tcache := tlbInsert Config.tcacheEntries s.fresh e d.tcache })
  match s.core.tlb.find? (tlbHit tenant va), (s.dieAt s.die).tcache.find? (tlbHit tenant va) with
  | some e, _ =>
    if Config.keepTranslation s.fresh then .ok (e, s1) else (rewalk s tenant va e).map note
  | none, some e =>
    if Config.keepTranslation s.fresh then .ok (note e) else (rewalk s tenant va e).map note
  | none, none => (walk s (.die s.die) tenant va).map note

/-- The address of a byte under a translation. -/
def TlbEntry.phys (e : TlbEntry) (va : W64) : Nat := physOf e.loc + (va.toNat - e.page * 65536)

/-! The checks on an address (R340) -/

inductive Access where
  | fetch
  | load
  | store
  | atomic
  | engine (write : Bool)
  deriving DecidableEq, Repr

def Access.code : Access → W64
  | .fetch => 0
  | .load => 1
  | .store => 2
  | .atomic => 3
  | .engine _ => 4

def Access.writes : Access → Bool
  | .store | .atomic => true
  | .engine w => w
  | _ => false

/-- What R172 allows an instruction: reads only (a write traps), only the region, anything outside it. -/
inductive Region where
  | readable
  | outside
  | inside
  deriving DecidableEq, Repr

/-- Where a checked address leads. -/
inductive Place where
  | scratch (a : Nat)
  | replica (off : Nat)
  | home (p : Nat) (nc : Bool)
  deriving DecidableEq, Repr

def raiseWalk {α : Type} (va : W64) (acc : Access) : WalkFault → Except Stop α
  | .invalid => raise 0x14 va acc.code
  | .format level => raise 0x15 va (BitVec.ofNat 64 level)
  | .closed p => wait (.path p false)
  | .refresh till => wait (.refresh till)

/-- A control or helper context's access names a scratchpad address at or above the kernel's request and below the pinned
area (R58, R340). The address of the access decides, not its last byte. Log entry 83 (DEDUCED). -/
def overRequest (s : State) (a : Nat) : Bool :=
  !s.isHandler && decide (s.core.scratchReq ≤ a ∧ a < Config.pinnedBase)

/-- THE MEMORY-ACCESS CHECKS of R340, steps 1–7, in their order. Log entry 29 (DEDUCED). -/
def checkAddress (s : State) (acc : Access) (size : Nat) (scratchOk : Bool) (region : Region) (va : W64) :
    Except Stop (Place × State) :=
  if va.toNat % size ≠ 0 then raise 0x10 va (BitVec.ofNat 64 size)
  else if va.toNat / 2 ^ 48 ≠ 0 then raise 0x11 va 0
  else if va.toNat < Config.scratchBytes then
    if !scratchOk || overRequest s va.toNat then raise 0x12 va 0
    else if !s.isHandler && decide (Config.pinnedBase ≤ va.toNat) then raise 0x13 va 0
    else if region == .inside then raise 0x19 va 0
    else .ok (.scratch va.toNat, s)
  else
    match translate s s.core.tenant va with
    | .error f => raiseWalk va acc f
    | .ok (e, s1) =>
      if acc.writes && e.loc.space == 1 then raise 0x18 va 0
      else if (acc.writes && !e.w) || (acc == .fetch && !e.x) then raise 0x16 va acc.code
      else if s.inReplicated s.core.tenant va then
        match region, s.replicaOff s.core.tenant (stackOfDie s.die) va with
        | .outside, _ => raise 0x19 va 0
        | _, none => raise 0x19 va 0
        | _, some o => .ok (.replica o, s1)
      else if region == .inside then raise 0x19 va 0
      else .ok (.home (e.phys va) e.nc, s1)

/-! The refresh calendar (R170) -/

/-- WSRF (R170). -/
def wsrfOf (cycle : W64) : W64 :=
  let f := cycle.toNat % 65536
  if f % 4096 < 256 then BitVec.ofNat 64 (f / 4096 + 16 + (256 - f % 4096) * 65536)
  else BitVec.ofNat 64 ((f / 4096 + 1) % 16 + (4096 - f % 4096) * 65536)

/-! Held bytes (R180, R184) -/

def SBEntry.byteAt (e : SBEntry) (va : Nat) : Option Byte :=
  if e.word = va / 8 ∧ e.mask.getLsbD (va % 8) then some ((e.data >>> (8 * (va % 8))).setWidth 8) else none

/-- The program-order last held value of a byte. -/
def lastHeld (es : List SBEntry) (va : Nat) : Option Byte :=
  es.foldl (fun acc e => match e.byteAt va with | some b => some b | none => acc) none

/-- The entries of a context in program order: parked, logged, buffered. -/
def heldEntries (s : State) : List SBEntry :=
  (((s.dieAt s.die).replay.filter fun r => r.tid == s.tid && r.gang == s.core.tag).map (·.entry)) ++ s.ctx.log ++ s.ctx.buf

/-! The read cache and committed bytes (R167, R196) -/

/-- Bytes of a home address, `n` of them. -/
def homeBytes (s : State) (p n : Nat) : List Byte := s.mem.bytes p n

def cacheLine (fresh : Nat) (line : RLine) (l : List RLine) : List RLine :=
  let l := l.filter fun x => x.line != line.line
  if l.length < Config.cacheLines then line :: l else line :: l.eraseIdx (Config.evict fresh % Config.cacheLines)

/-- A held line may serve a read: no soft error stands in it, and a fetch does not use a line that is older than an ICFLUSH of
its context (R167, R358). -/
def RLine.serves (l : RLine) (byFetch : Bool) (i : Fin 12) : Bool := !l.bad && !(byFetch && l.flushed.getLsbD i.val)

/-- A read of `n` home bytes by a context of the focused core, with its messages (R293). -/
def fetchHome (s : State) (p n : Nat) : List Byte × State := (homeBytes s p n, s.roundTrips 1)

/-- What a line that the read cache holds answers, where it serves the read; the device may read again instead (R167, R196).
Log entry 9 (DEDUCED). -/
def cacheHit (s : State) (byFetch : Bool) (p n : Nat) : Option (List Byte) :=
  match s.core.rcache.find? fun l => l.line == lineOf p with
  | some l => if l.serves byFetch s.core.cur && Config.keepLine s.fresh then some ((l.bytes.drop (p % 64)).take n) else none
  | none => none

/-- Read home bytes inside one line and keep the line; one held in error is discarded and counted (R167). -/
def fillLine (s : State) (byFetch : Bool) (p n : Nat) : List Byte × State :=
  let errors := (s.core.rcache.filter fun l => l.line == lineOf p && l.bad).length
  (homeBytes s p n, (s.useFresh.roundTrips 1).modCore fun c =>
    { c with rcache := cacheLine s.fresh ⟨lineOf p, homeBytes s (64 * lineOf p) 64, byFetch, 0, false⟩ c.rcache,
             lineErrors := c.lineErrors + errors })

/-- Whether an uncorrectable error stands in bytes of a scratchpad (R159). Log entry 64 (DEDUCED). -/
def badBytes (l : List Nat) (p n : Nat) : Bool := l.any fun x => decide (p ≤ x ∧ x < p + n)

/-- Whether one stands in a 64-byte line that the bytes lie in (R175). -/
def badLines (l : List Nat) (p n : Nat) : Bool := l.any fun x => decide (lineOf p ≤ lineOf x ∧ lineOf x ≤ lineOf (p + n - 1))

/-- Whether one stands in such a line and the context's own held values do not replace every byte (R198, R363): `own` says which
byte of the access, counted from its first, is replaced. -/
def badNeeded (own : Nat → Bool) (l : List Nat) (p n : Nat) : Bool := badLines l p n && !(List.range n).all own

/-- No byte of an access is replaced. -/
def noneOwn : Nat → Bool := fun _ => false

/-- The offset of a replica byte in the device (R172). -/
def replicaPhys (d off : Nat) : Nat := d * Config.layerBytes + off

/-- A line leaves the read cache. -/
def dropLine (p : Nat) (c : Core) : Core := { c with rcache := c.rcache.filter fun l => l.line != lineOf p }

/-- The bytes of one line, kept in the read cache, or read past it, which leaves no older line behind (R167, R186). -/
def lineRead (s : State) (p n : Nat) (cached byFetch : Bool) : List Byte × State :=
  if cached then fillLine s byFetch p n else fetchHome (s.modCore (dropLine p)) p n

/-- A read that a line of the read cache may answer, else the reading itself. -/
def throughCache (s : State) (p n : Nat) (cached byFetch : Bool) (read : Except Stop (List Byte × State)) : Except Stop (List Byte × State) :=
  match cached, cacheHit s byFetch p n with
  | true, some bs => .ok (bs, s.useFresh)
  | _, _ => read

/-- A read of the issuing die's replica (R172): its layer serves reads once it is awake (R209). -/
def replicaRead (s : State) (va : W64) (p n : Nat) (cached byFetch : Bool) (own : Nat → Bool) : Except Stop (List Byte × State) :=
  if !(s.dieAt s.die).awake then wait (.layer s.die)
  else if badNeeded own s.badMem p n then raise 0x17 va 0
  else if !calSends s s.core.tenant s.die then wait (.path p false)
  else .ok (lineRead s p n cached byFetch)

/-- A read at a home stalls while no path to it is open or its refresh group refreshes (R23, R169), and raises *memory data*
on an uncorrectable error. -/
def homeRead (s : State) (va : W64) (p n : Nat) (cached byFetch : Bool) (own : Nat → Bool) : Except Stop (List Byte × State) :=
  if !readOpen s s.core.tenant s.die p then wait (.path p false)
  else match refreshing s.cycle p with
  | some till => wait (.refresh till)
  | none =>
    if badNeeded own s.badMem p n then raise 0x17 va 0
    else .ok (lineRead s p n cached byFetch)

/-- A read of home bytes, through the read cache or past it. -/
def readHome (s : State) (va : W64) (p n : Nat) (cached byFetch : Bool) (own : Nat → Bool) : Except Stop (List Byte × State) :=
  throughCache s p n cached byFetch (homeRead s va p n cached byFetch own)

/-- The committed bytes of a place, as a load of the issuing context reads them (R363). -/
def readPlace (s : State) (va : W64) (n : Nat) (bypass byFetch : Bool) (own : Nat → Bool) : Place → Except Stop (List Byte × State)
  | .scratch a =>
    if badBytes s.core.badScratch a n then raise 0x17 va 0 else .ok (s.core.scratch.bytes a n, s)
  | .replica off =>
    let p := replicaPhys s.die off
    throughCache s p n (!bypass) byFetch (replicaRead s va p n (!bypass) byFetch own)
  | .home p nc => readHome s va p n (!bypass && !nc && !s.inReduction s.core.tenant va) byFetch own

/-- Lay the context's own held bytes over committed ones (R184). -/
def overlayHeld (es : List SBEntry) (va : Nat) : List Byte → List Byte
  | [] => []
  | b :: bs => (match lastHeld es va with | some x => x | none => b) :: overlayHeld es (va + 1) bs

/-- The two bits of a line in a read signature (R203). -/
def sigBits (va : Nat) : Nat × Nat :=
  let line := va / 64
  (line % 2048, Nat.xor (line / 2 ^ 11) (line / 2 ^ 22) % 2048)

def sigSet (va : Nat) (g : BitVec 2048) : BitVec 2048 :=
  g ||| ((1 : BitVec 2048) <<< (sigBits va).1) ||| ((1 : BitVec 2048) <<< (sigBits va).2)

def sigHit (va : Nat) (g : BitVec 2048) : Bool := g.getLsbD (sigBits va).1 && g.getLsbD (sigBits va).2

/-- A global load of an ordered task sets its signature (R203). -/
def noteRead (va : W64) (s : State) : State :=
  if va.toNat < Config.scratchBytes then s
  else s.modCtx fun c => { c with ord := c.ord.map fun o => { o with sig := sigSet va.toNat o.sig } }

/-- THE BYTES A LOAD RETURNS, and the state after it: the context's own held value of a byte, else the byte at its place
(R184, R198, R363). -/
def loadBytes (s : State) (size : Nat) (scratchOk bypass : Bool) (va : W64) : Except Stop (List Byte × State) :=
  match checkAddress s .load size scratchOk .readable va with
  | .error e => .error e
  | .ok (pl, s1) =>
    let own := fun (i : Nat) => match pl with | .scratch _ => false | _ => (lastHeld (heldEntries s) (va.toNat + i)).isSome
    if (List.range size).all own then .ok (overlayHeld (heldEntries s) va.toNat (List.replicate size 0), noteRead va s1)
    else match readPlace s1 va size bypass false own pl with
    | .error e => .error e
    | .ok (bs, s2) =>
      let bs := match pl with | .scratch _ => bs | _ => overlayHeld (heldEntries s) va.toNat bs
      .ok (bs, noteRead va s2)

/-- An acquire point: the read cache of the core is invalidated (R167, R196). -/
def acquire (s : State) : State := s.modCore fun c => { c with rcache := [] }

/-! Scratchpad writes (R159, R189) -/

def State.setScratch (a : Nat) (bs : List Byte) (s : State) : State :=
  s.modCore fun c => { c with scratch := c.scratch.setBytes a bs,
                              badScratch := c.badScratch.filter fun x => decide (x < a ∨ a + bs.length ≤ x) }

/-! Instruction fetch (R158, R188, R320) -/

/-- The contexts that have executed ICFLUSH since the line of a fetched word was filled (R358). -/
def flushedOf (s : State) : Place → BitVec 12
  | .home p _ => match s.core.rcache.find? fun l => l.line == lineOf p with
    | some l => l.flushed
    | none => 0
  | _ => 0

/-- The words the core has fetched, with one replaced. -/
def noteFetched (pc : W64) (w : W32) (flushed : BitVec 12) (s : State) : State :=
  s.modCore fun c => { c with icache := (pc.toNat, w, flushed) :: c.icache.filter fun x => x.1 != pc.toNat }

/-- Fetch one word at an address, from the words fetched earlier or from memory (R188). -/
def fetchWord (s : State) (pc : W64) : Except Stop (W32 × State) :=
  match checkAddress s .fetch 4 true .readable pc with
  | .error e => .error e
  | .ok (pl, s1) =>
    let fresh := fun (_ : Unit) =>
      match readPlace s1 pc 4 false true noneOwn pl with
      | .error e => .error e
      | .ok (bs, s2) =>
        let w := BitVec.ofNat 32 (ofBytesLE bs)
        .ok (w, noteFetched pc w (flushedOf s2 pl) s2)
    match s1.core.icache.lookup pc.toNat with
    | some (w, f) => if !f.getLsbD s.core.cur.val && Config.oldWord s1.fresh then .ok (w, s1.useFresh) else fresh ()
    | none => fresh ()

/-! Host and engine access to virtual addresses of a tenant -/

/-- Translate an address for an agent that is no context: no trap, only the fault. -/
def translateFor (s : State) (tenant : BitVec 3) (va : W64) (write : Bool) : Except Byte Nat :=
  if va.toNat / 2 ^ 48 ≠ 0 || decide (va.toNat < Config.scratchBytes) then .error 0x11
  else match walk s .free tenant va with
    | .error (.format _) => .error 0x15
    | .error _ => .error 0x14
    | .ok e => if write && !e.w then .error 0x16 else .ok (e.phys va)

/-- A closed path or a refreshing group holds up a unit's walk for an address of a tenant (R15, R169). -/
def walkHeld (s : State) (w : Walker) (tenant : BitVec 3) (va : W64) : Bool :=
  match walkBy s w true tenant va with
  | .error (.refresh _) => true
  | .error (.closed _) => true
  | _ => false

/-- One of them holds up a unit that reads an address of a tenant, at a table, or a refreshing group at the address itself. -/
def unitHeld (s : State) (w : Walker) (tenant : BitVec 3) (va : W64) : Bool :=
  match walkBy s w true tenant va with
  | .error (.refresh _) => true
  | .error (.closed _) => true
  | .error _ => false
  | .ok e => (refreshing s.cycle (e.phys va)).isSome

end Sys2Proof.Machine
end

