-- ==== Sys2Proof/Machine/Packets.lean ====
section
/-!
DEFINITION. Packets to a core: the context tag, delivery to the context that waits, and diversion into the
spill buffer of a gang that is not resident (R278, R289–R291).
-/
namespace Sys2Proof.Machine

/-- The record of a trap that the context at place `i` is paused by. -/
def trapRecOf (i : Fin 12) (u : TrapUnit) : Option TrapRec :=
  match u.service with
  | .trap r => if r.ctx = i then some r else u.pendTraps.find? fun x => x.ctx == i
  | _ => u.pendTraps.find? fun x => x.ctx == i

/-- A trap of the context is being served. -/
def trapServed (i : Fin 12) (u : TrapUnit) : Bool :=
  match u.service with
  | .trap r => r.ctx == i
  | _ => false

/-- Replace that record of a paused context, and no later one; TNPC follows when it is being served. -/
def setTrapRec (i : Fin 12) (r : TrapRec) (u : TrapUnit) : TrapUnit :=
  match u.service with
  | .trap x => if x.ctx = i then { u with service := .trap r, tnpc := r.npc }
      else { u with pendTraps := mapFirst (fun y => y.ctx == i) (fun _ => r) u.pendTraps }
  | _ => { u with pendTraps := mapFirst (fun y => y.ctx == i) (fun _ => r) u.pendTraps }

/-- Act on the focused context with the wait it had before a trap paused it (R278): an instruction that completes
meanwhile leaves the context paused, and it resumes behind that instruction; a fault in its place is one more trap. -/
def onWaiting (f : State → State) (s : State) : State :=
  if s.ctx.wait = .trapped then
    match trapRecOf s.core.cur s.core.trap with
    | none => s
    | some r =>
      let t := f (s.modCtx fun c => { c with wait := r.wait })
      let npc := if t.ctx.pc = s.ctx.pc then r.npc else t.ctx.pc
      let wait := if t.ctx.wait = .trapped then .ready else t.ctx.wait
      let t1 := if r.frame.isSome && trapServed s.core.cur t.core.trap then t.modFrame fun x => { x with pc := addrBits npc } else t
      (t1.modTrap (setTrapRec s.core.cur { r.resumeAt npc with wait := wait })).modCtx fun c => { c with wait := .trapped }
  else f s

/-- The value that a stalled instruction waits for. -/
def takeValue (v : W64) (flags : BitVec 5) (swapped : Option Bool) (s : State) : State :=
  let note := fun (t : State) => match swapped with
    | none => t
    | some ok => t.modCtx fun c => { c with spin := if ok then 0 else c.spin + 1 }
  let go := fun (sd : SReg) (srcs : List Src) =>
    completeWith srcs sd v (note (s.orFlags s.core.cur flags))
  match s.ctx.wait with
  | .mark sd srcs => go sd srcs
  | .reduction sd srcs => go sd srcs
  | _ => s

/-- A fault in the place of a value. -/
def takeFault (t : Trap) (s : State) : State :=
  match s.ctx.wait with
  | .mark .. => takeTrap t (giveBack s)
  | .reduction .. => takeTrap t (giveBack s)
  | .sync => takeTrap t s
  | _ => s

/-- Clear a harness register. -/
def Ctx.clearH (h : BitVec 4) (c : Ctx) : Ctx := { c with h := c.h.set h.toNat 0 }

/-- A team completion: read cache, result, status, flags, a dissolved team's register (R79, R80, R83, R84, R87). -/
def takeTeam (status : W64) (result : Option W64) (flags : BitVec 5) (s : State) : State :=
  match s.ctx.wait with
  | .team _ h sd srcs =>
    let s := (acquire (endSources srcs s)).orFlags s.core.cur flags
    let s := if status.getLsbD 16 then s.modCtx (Ctx.clearH h) else s
    (match result with
      | none => s.writeS sd status
      | some v => (s.writeS sd v).writeS (sd + 1) status).retire
  | _ => s

/-- Element `e` of a vector register with 8-byte or 4-byte elements (R420). -/
def setElem (wide : Bool) (e : Nat) (v : W64) (r : Vector W32 32) : Vector W32 32 :=
  if wide then (r.setIfInBounds (2 * e) (v.setWidth 32)).setIfInBounds (2 * e + 1) ((v >>> 32).setWidth 32)
  else r.setIfInBounds e (v.setWidth 32)

/-- The values of a served gather enter its register, which is pending no longer (R219, R220). -/
def landGather (r : CoreRegs) (g : Gather) : CoreRegs :=
  let row := g.values.foldl (fun w x => setElem g.wide x.1 x.2 w) r.vec.v[g.vd.toNat]
  { r with vec := { r.vec.setRow g.vd row with vgone := r.vec.vgone &&& ~~~((1 : BitVec 32) <<< g.vd.toNat) },
           gpend := r.gpend &&& ~~~((1 : BitVec 32) <<< g.vd.toNat) }

/-- Gathers that have been served become visible; those of the phase that ends now are sent (R219). -/
def landGathers (r : CoreRegs) : CoreRegs :=
  (r.gathers.filter fun g => g.served).foldl landGather
    { r with gathers := (r.gathers.filter fun g => !g.served).map fun g => { g with sent := true } }

/-- SYNC retires, and the exchange phase that began at cycle R goes on: read cache, gathers of the last phase (R39, R219, R233). -/
def takeRelease (r : Nat) (s : State) : State :=
  match s.ctx.wait with
  | .sync => (((acquire s).modRegs landGathers).modCore fun c => { c with exch := some r, exchLast := none }).retire
  | _ => s

/-- A tile of a multicast waits at the core until it lands (R245). -/
def takeTile (t : Tile) (s : State) : State := s.modCore fun c => { c with tiles := c.tiles ++ [t] }

def applyBody (b : PacketBody) (s : State) : State :=
  match b with
  | .value v f o => onWaiting (takeValue v f o) s
  | .fault code addr stat => onWaiting (takeFault { code := code, addr := addr, stat := stat }) s
  | .team status result flags => onWaiting (takeTeam status result flags) s
  | .release r => onWaiting (takeRelease r) s
  | .tile tag bytes sender copy port => takeTile { tag := tag, bytes := bytes, sender := sender, copy := copy, port := port } s

/-- The packet's tag matches a context that is resident on the core and not saved (R290). -/
def Core.resident (c : Core) (p : Packet) : Bool :=
  p.ctx == handlerIx || (c.gang.isSome && c.tenant == p.tenant && c.tag == p.gang && !c.trap.saved.getLsbD p.ctx.val)

/-- The save-area image of a packet's gang on a core. -/
def savedFor (core : Nat) (p : Packet) (v : Saved) : Bool := v.core == core && v.gang.setWidth 16 == p.gang

/-- The messages of a packet at its core: a tile is received; what a home sends of itself is received and acknowledged (R293).
Log entry 28 (DEDUCED). -/
def packetCount (p : Packet) (c : Core) : Core :=
  match p.body with
  | .tile .. => c.received 1
  | _ => (c.received 1).sent 1

/-- A packet as a resident core receives it. -/
def deliver (core : Nat) (p : Packet) (s : State) : State :=
  (s.onCtx core p.ctx (applyBody p.body)).modCoreAt core (packetCount p)

/-- The core state that a saved thread ends in: what was given up with the core, or the live core where the gang holds it,
with the contexts and registers of the image in their places. Its handler serves nothing meanwhile. -/
def imageCore (v : Saved) (live : Core) : Core :=
  let base := if live.gang = some v.gang then live
    else { v.rest with gang := some v.gang, arrivals := live.arrivals, markQ := live.markQ, rcache := live.rcache }
  { base with
      ctxs := v.ctxs.foldl (fun l c => l.set c.1 { c.2 with live := true }) base.ctxs
      regs := v.regs.getD base.regs
      trap := { base.trap with pendTraps := v.rest.trap.pendTraps ++ base.trap.pendTraps, halted := true } }

/-- The image once contexts of it have ended, `k` being the state of `imageCore` then. -/
def imageAfter (v : Saved) (live k : Core) : Saved :=
  let inImage := fun (i : Fin 12) => v.ctxs.any fun c => c.1 == i
  let rest := if live.gang = some v.gang then v.rest else { k with ctxs := v.rest.ctxs, regs := v.rest.regs, arrivals := [], markQ := [], rcache := [] }
  let own := fun (r : TrapRec) => if live.gang = some v.gang then inImage r.ctx else true
  { v with
      ctxs := (v.ctxs.filter fun c => k.ctxs[c.1].live).map fun c => (c.1, k.ctxs[c.1])
      regs := v.regs.map fun _ => k.regs
      rest := { rest with
        ctxs := if live.gang = some v.gang then v.rest.ctxs else v.ctxs.foldl (fun l c => l.set c.1 v.rest.ctxs[c.1]) k.ctxs
        regs := if live.gang = some v.gang || v.regs.isSome then v.rest.regs else k.regs
        trap := { v.rest.trap with pendTraps := k.trap.pendTraps.filter own } } }

/-- The live core once contexts of an image have ended; the read cache is one, whichever gang's copies write (R218). -/
def liveAfter (v : Saved) (live k : Core) : Core :=
  let inImage := fun (r : TrapRec) => v.ctxs.any fun c => c.1 == r.ctx
  if live.gang = some v.gang then
    { k with
        ctxs := v.ctxs.foldl (fun l c => l.set c.1 live.ctxs[c.1]) k.ctxs
        regs := if v.regs.isSome then live.regs else k.regs
        trap := { live.trap with pendTraps := k.trap.pendTraps.filter fun r => !inImage r } }
  else { live with arrivals := k.arrivals, markQ := k.markQ, rcache := k.rcache }

/-- A saved thread ends by a fatal fault, as it would on the core (R286, R223): its helpers with a control context, its parked
entries, scatters and copies, its teams; what is left of the image stays. -/
def endSaved (core : Nat) (gang : Half) (i : Fin 12) (code : Byte) (addr epc stat : W64) (s : State) : State :=
  match s.pkg.saved.find? fun v => v.core == core && v.gang.setWidth 16 == gang with
  | none => s
  | some v =>
    s.onCore core fun t =>
      let u := endFatal i code addr epc stat (t.modCore fun live => imageCore v live)
      serveNext ((u.putSaved (imageAfter v t.core u.core)).modCore fun k => liveAfter v t.core k)

/-- The focused core as a gang's image on it, whose handler serves nothing; its contexts and registers stand on the core meanwhile. -/
def imageState (v : Saved) (s : State) : State :=
  (s.modCore fun live => imageCore v live).putSaved { v with ctxs := [], regs := none }

/-- What the units of a gang that is not on its core do in its image: act on that image (R223, R289). -/
def onImage (v : Saved) (f : State → State) (s : State) : State :=
  s.onCore v.core fun t =>
    let u := f (imageState v t)
    (u.putSaved (imageAfter v t.core u.core)).modCore fun k => liveAfter v t.core k

/-- Where a thread's context stands: in a save-area image, or on its core. -/
def threadCtx (s : State) (core : Nat) (gang : Half) (i : Fin 12) : Option Ctx :=
  let c := s.coreAt core
  match s.pkg.saved.find? fun v => v.core == core && v.gang.setWidth 16 == gang with
  | some v => match v.ctxs.find? fun x => x.1 == i with
    | some x => some { x.2 with live := true }
    | none => if c.tag == gang then some c.ctxs[i] else some v.rest.ctxs[i]
  | none => if i == handlerIx || c.tag == gang then some c.ctxs[i] else none

def threadLive (s : State) (core : Nat) (gang : Half) (i : Fin 12) : Bool := (threadCtx s core gang i).any (·.live)

/-- The program counter that a thread's record names. -/
def threadPc (s : State) (core : Nat) (gang : Half) (i : Fin 12) : W64 := ((threadCtx s core gang i).map (·.pc)).getD 0

/-- A thread, resident or saved, ends by a fatal fault; one that has ended already does not end again, and the handler's is a
double fault (R286, R287). -/
def endThread (core : Nat) (gang : Half) (i : Fin 12) (code : Byte) (addr stat : W64) (s : State) : State :=
  let c := s.coreAt core
  let epc := threadPc s core gang i
  if i = handlerIx then s.onCore core (doubleFaultOf code)
  else if !threadLive s core gang i then s
  else if c.tag == gang && !(s.pkg.saved.any fun v => v.core == core && v.gang.setWidth 16 == gang && v.ctxs.any fun x => x.1 == i || i == 0) then
    s.onCtx core i fun t => endFatal i code addr epc stat t
  else endSaved core gang i code addr epc stat s

/-- Packets that the spill buffer of a gang holds. Log entry 26 (DEDUCED). -/
def spillRoom : Nat := Config.spillBytes / 64

/-- Messages of a gang on a core are counted where its registers MSGSENT and MSGRECV stand (R293). -/
def countAt (core : Nat) (g : W32) (f : Core → Core) (s : State) : State :=
  if (s.coreAt core).gang = some g then s.modCoreAt core f else modImage core g (fun v => { v with rest := f v.rest }) s

/-- DIVERSION of a packet into the spill buffer of its gang; a full one refuses it (R290). -/
def divert (core : Nat) (p : Packet) (s : State) : State :=
  match s.pkg.saved.find? (savedFor core p) with
  | none => s
  | some v =>
    if v.spill.length < spillRoom then
      (s.modPkg fun g => { g with saved := mapIf (savedFor core p) (fun x => { x with spill := x.spill ++ [p] }) g.saved }) |> countAt core v.gang (packetCount p)
    else s.modCoreAt core fun c => { c with resend := c.resend ++ [p] }

/-- A packet arrives at a core: it is delivered, diverted, or discarded where no context waits for it. -/
def sendPacket (core : Nat) (p : Packet) (s : State) : State :=
  if (s.coreAt core).resident p then deliver core p s else divert core p s

/-- SPILL_DIVERT: a packet whose tag matches no resident context (R290). -/
def execSpillDivert (core : Nat) (p : Packet) (s : State) : Result :=
  .next (if (s.coreAt core).resident p then s else divert core p s)

/-- PACKET_RESEND: the oldest refused packet of a core is sent again (R290). -/
def execPacketResend (core : Nat) (s : State) : Result :=
  .next (match (s.coreAt core).resend with
    | [] => s
    | p :: rest => sendPacket core p (s.modCoreAt core fun c => { c with resend := rest }))

end Sys2Proof.Machine
end

