-- ==== Sys2Proof/Machine/Reds.lean ====
section
/-!
DEFINITION. The operations of atomics, and REDs on their way to their homes: what one core sends to one word arrives in the order in which
it was sent (R202, R232, R326, R343, R344, R388).
-/
namespace Sys2Proof.Machine

/-- Lowest `w` bits. -/
def lowBits (w x : Nat) : Nat := x % 2 ^ w
/-- A `w`-bit number as a signed integer. -/
def signedOf (w x : Nat) : Int := if 2 ^ (w - 1) ≤ x then (x : Int) - 2 ^ w else x

/-- The integer operations of AMO on `w`-bit values (R343). -/
def intAtomic (w op old v cmp : Nat) : Nat :=
  match op with
  | 0 => lowBits w (old + v)
  | 1 => Nat.land old v
  | 2 => Nat.lor old v
  | 3 => Nat.xor old v
  | 4 => if signedOf w v < signedOf w old then v else old
  | 5 => if signedOf w old < signedOf w v then v else old
  | 6 => Nat.min old v
  | 7 => Nat.max old v
  | 8 => v
  | _ => if old = cmp then v else old

/-- The floating operations of AMOF, to nearest even, the memory value first (R344). -/
def floatAtomic (wide : Bool) (op old v : Nat) : FRes :=
  let f := if wide then f64 else f32
  match op with
  | 0 => fAdd f .rne old v
  | 1 => fMin f old v
  | _ => fMax f old v

/-- One application of an operation, with its flags. -/
def atomicOp (float wide : Bool) (op old v cmp : Nat) : FRes :=
  if float then floatAtomic wide op old v else (intAtomic (if wide then 64 else 32) op old v cmp, 0)

/-- The gangs that a core knows: the resident one and those with an image. -/
def gangsOn (s : State) (core : Nat) : List W32 :=
  ((s.coreAt core).gang.toList ++ (s.pkg.saved.filter fun v => v.core == core).map (·.gang)).eraseDups

/-- The gang that a thread's tag stands for. -/
def gangOfTag (s : State) (core : Nat) (tag : Half) : W32 :=
  match (gangsOn s core).find? fun g => g.setWidth 16 == tag with
  | some g => g
  | none => 0

/-- A message of a gang's core has been taken, counted where the gang's registers stand, though the gang may be saved meanwhile (R292,
R293). -/
def messageTaken (core : Nat) (g : W32) (s : State) : State := countAt core g (Core.received 1) s

/-- One that carries the gang's tag. -/
def tagTaken (core : Nat) (tag : Half) (s : State) : State := messageTaken core (gangOfTag s core tag) s

/-- Lowest 64 or 32 bits of an operand. -/
def operandBits (wide : Bool) (v : W64) : Nat := if wide then v.toNat else v.toNat % 2 ^ 32

/-- Two requests of a tenant's core go to one word: they are applied in the order in which they were sent (R202, R232). -/
def sameWord (a b : RedReq) : Bool := a.core == b.core && a.tenant == b.tenant && a.phys / 8 == b.phys / 8

/-- A RED acts at its home (R388). -/
def applyRed (r : RedReq) (s : State) : State :=
  let n := if r.wide then 8 else 4
  let old := s.mem.num r.phys n
  tagTaken r.core r.gang
    (s.writeFor r.tenant r.phys (toBytesLE n (atomicOp r.float r.wide r.op.toNat old (operandBits r.wide r.operand) 0).1))

/-- It is one of a tenant's core to the aligned word of a home. -/
def RedReq.goesTo (core : Nat) (t : BitVec 3) (p : Nat) (r : RedReq) : Bool := r.core == core && r.tenant == t && r.phys / 8 == p / 8

/-- The REDs on their way that satisfy `ahead` have reached their homes, in order. -/
def landReds (ahead : RedReq → Bool) (s : State) : State :=
  let due := s.pkg.reds.filter ahead
  if due.isEmpty then s
  else due.foldl (fun t r => applyRed r t) (s.modPkg fun g => { g with reds := g.reds.filter fun r => !ahead r })

/-- The REDs that the issuing core has sent to a word have reached it (R202, R232). -/
def flushReds (p : Nat) (s : State) : State := landReds (RedReq.goesTo s.coreId s.core.tenant p) s

/-- And those to the words of entries that it drains (R232). -/
def flushAhead (es : List WinEntry) (s : State) : State :=
  es.foldl (fun t e => if e.entry.kind == .plain then flushReds e.phys t else t) s

end Sys2Proof.Machine
end

