-- ==== Sys2Proof/Machine/Order.lean ====
section
/-!
DEFINITION. Store buffers, drains, commit windows, parked stores, releases and the rein
(R178–R187, R192–R209, R221–R223).
-/
namespace Sys2Proof.Machine

/-! The store buffer of a context (R180, R181) -/

/-- Put bytes into an entry, at an offset in its word. -/
def SBEntry.put (off : Nat) (bs : List Byte) (e : SBEntry) : SBEntry :=
  bs.zipIdx.foldl (fun (x : SBEntry) b =>
    let i := off + b.2
    let clear : W64 := ~~~((0xFF : W64) <<< (8 * i))
    let new : W64 := BitVec.shiftLeft (b.1.setWidth 64) (8 * i)
    { x with mask := x.mask ||| ((1 : Byte) <<< i), data := (x.data &&& clear) ||| new }) e

/-- Change the last element that satisfies `p`, where there is one. -/
def changeLast {α : Type} (p : α → Bool) (f : α → α) : List α → Option (List α)
  | [] => none
  | x :: xs =>
    match changeLast p f xs with
    | some ys => some (x :: ys)
    | none => if p x then some (f x :: xs) else none

/-- The last element that satisfies `p`. -/
def findLast {α : Type} (p : α → Bool) (l : List α) : Option α := l.reverse.find? p

/-- Take a new entry; the oldest one moves to the log when the buffer is full (R180). `parked` counts the context's
parked entries, which stand in the log (R221); `none` is *store overflow* (R181): the buffer is full and the log has no entry for
stores, or buffer and log together hold all that the log's area can take at a save. Log entry 78 (DEDUCED). -/
def newEntry (parked : Nat) (e : SBEntry) (c : Ctx) : Option Ctx :=
  if Config.logEntries ≤ c.buf.length + c.log.length + parked then none
  else if c.buf.length < Config.bufEntries then some { c with buf := c.buf ++ [e] }
  else if c.log.length + parked < Config.logStoreEntries then
    match c.buf with
    | [] => none
    | b :: bs => some { c with log := c.log ++ [b], buf := bs ++ [e] }
  else none

/-- A global store of bytes inside one word: merge into the word's most recent entry of the same kind, or take a
new entry (R180, R393). -/
def storeEntry (parked va : Nat) (bs : List Byte) (kind : StKind) (c : Ctx) : Option Ctx :=
  let here := fun (e : SBEntry) => e.word == va / 8
  let fresh := SBEntry.put (va % 8) bs { word := va / 8, mask := 0, data := 0, kind := kind }
  match findLast here (c.log ++ c.buf) with
  | some e =>
    if e.kind == kind then
      match changeLast here (SBEntry.put (va % 8) bs) c.buf with
      | some b => some { c with buf := b }
      | none => (changeLast here (SBEntry.put (va % 8) bs) c.log).map fun l => { c with log := l }
    else newEntry parked fresh c
  | none => newEntry parked fresh c

/-- Parked entries of the issuing context. -/
def parkedHere (s : State) : List Replay := (s.dieAt s.die).replay.filter fun r => r.tid == s.tid && r.gang == s.core.tag

/-- Whether a held entry of the context stands on an aligned word (R185). -/
def wordHeld (s : State) (va : W64) : Bool := (heldEntries s).any fun e => e.word == va.toNat / 8

/-- SBSTAT: parked entries stay in the log (R182, R221). -/
def sbstatOf (s : State) : W64 :=
  BitVec.ofNat 64 (s.ctx.buf.length + 256 * (s.ctx.log.length + (parkedHere s).length))

/-! Drains (R183, R221) -/

/-- A fault that ends the context at its drain: cause, address, detail. -/
abbrev DrainFault := Byte × W64 × W64

def State.commitKey (s : State) : CommitKey := { stamp := s.ctx.tstamp, tid := s.tid }

def wordVA (e : SBEntry) : W64 := BitVec.ofNat 64 (8 * e.word)

/-- Why a drain stops: a fault that ends its context, or a wait: no path, or a page table in a refreshing group. -/
inductive DrainStop where
  | fault (f : DrainFault)
  | hold (w : Wait)

/-- A drain of the issuing context: its window, its number, its key. -/
structure DrainTo where
  win : Nat
  drain : Nat
  key : CommitKey

/-- An entry of the issuing context as it is parked. -/
def parkedEntry (w : DrainTo) (n : Nat) (e : SBEntry) (resolved : Bool) (s : State) : Replay :=
  { core := s.coreId, gang := s.core.tag, ctx := s.core.cur, tid := s.tid, tenant := s.core.tenant, win := w.win, drain := w.drain,
    seq := n, key := w.key, entry := e, page := pageOf (wordVA e), resolved := resolved }

def addParked (r : Replay) (s : State) : State := s.modDie s.die fun d => { d with replay := d.replay ++ [r] }

/-- Park an entry whose page is invalid, with its record (R221). -/
def parkEntry (w : DrainTo) (n : Nat) (e : SBEntry) (s : State) : State :=
  addParked (parkedEntry w n e false s) (s.modDie s.die (noteFault s.tid s.core.tenant (wordVA e) s.ctx.pc 2))

/-- Park an entry behind `r`, on whose record it waits (R221, R284). -/
def parkBehind (w : DrainTo) (n : Nat) (e : SBEntry) (r : Replay) (s : State) : State :=
  addParked (parkedEntry w n e r.resolved s) s

/-- Translate an entry again at its drain: its place, or that it parks, or what stops the drain. -/
inductive Drained where
  | place (p : Nat) (s : State)
  | park
  | stop (x : DrainStop)

def drainPlace (tenant : BitVec 3) (e : SBEntry) (s : State) : Drained :=
  let va := wordVA e
  let fatal := fun (code : Byte) (stat : W64) => Drained.stop (.fault (code, va, stat))
  match translate s tenant va with
  | .error .invalid => .park
  | .error (.format level) => fatal 0x15 (BitVec.ofNat 64 level)
  | .error (.closed p) => .stop (.hold (.path p false))
  | .error (.refresh till) => .stop (.hold (.refresh till))
  | .ok (t, s1) =>
    if t.loc.space == 1 then fatal 0x18 0
    else if !t.w then fatal 0x16 2
    else if s.inReplicated tenant va then
      match e.kind, s.replicaOff tenant (stackOfDie s.die) va with
      | .plain, _ => fatal 0x19 0
      | _, some o => .place o s1
      | _, none => fatal 0x19 0
    else if e.kind != .plain then fatal 0x19 0
    else .place (t.phys va) s1

/-- Drain entries in program order, the next one being number `n`; a fatal one discards itself and all after it (R221, R223). -/
def drainEntries (w : DrainTo) : Nat → List SBEntry → State → List WinEntry × Option DrainStop × State
  | _, [], s => ([], none, s)
  | n, e :: es, s =>
    match (parkedHere s).find? fun r => r.page == pageOf (wordVA e) with
    | some r => drainEntries w (n + 1) es (parkBehind w n e r s)
    | none =>
      match drainPlace s.core.tenant e s with
      | .park => drainEntries w (n + 1) es (parkEntry w n e s)
      | .stop x => ([], some x, s)
      | .place p s1 =>
        let r := drainEntries w (n + 1) es s1
        ({ entry := e, phys := p, seq := n } :: r.1, r.2)

/-- A new number of a window or drain. -/
def newWindow (s : State) : Nat × State := (s.pkg.nextId, s.modPkg fun p => { p with nextId := p.nextId + 1 })

/-- The place whose path a drained entry of an issuer on die `d` needs, where none is open: for the replicated region its own replica,
and for ST.STK its own rein (R15, R23, R25). -/
def closedPath (s : State) (t : BitVec 3) (d : Nat) (e : WinEntry) : Option Nat :=
  let p := match e.entry.kind with
    | .plain => e.phys
    | .own => diePlace d
    | .stk => basePlace (stackOfDie d)
  if sendOpen s t d p then none else some p

/-- A DRAIN of the issuing context into window `win`: its contribution, and the state with buffer and log empty. Behind earlier REDs of the
core its bytes reach their words (R232). -/
def drainInto (win : Nat) (s : State) : Contribution × Option DrainStop × State :=
  let d := newWindow s
  let es := s.ctx.log ++ s.ctx.buf
  let r := drainEntries { win := win, drain := d.1, key := s.commitKey } 0 es (d.2.modCtx fun c => { c with buf := [], log := [] })
  let opened := r.1.filter fun e => (closedPath s s.core.tenant s.die e).isNone
  ({ win := win, drain := d.1, key := s.commitKey, core := s.coreId, gang := s.core.gang.getD 0, ctx := s.core.cur,
     tenant := s.core.tenant, scats := [], entries := r.1, ord := s.ctx.ord }, r.2.1, flushAhead opened r.2.2)

/-- Drained entries with their numbers. -/
abbrev Numbered := List (Nat × SBEntry)

/-- What a drain has parked, and the state with none of it in the replay queues. -/
def unpark (drain : Nat) (s : State) : Numbered × State :=
  (s.pkg.dies.toList.flatMap fun d => (d.replay.filter fun r => r.drain == drain).map fun r => (r.seq, r.entry),
   s.modPkg fun p => { p with dies := p.dies.map fun d => { d with replay := d.replay.filter fun r => r.drain != drain } })

/-- What a drain took goes back to the head of a log, in its order (R398, R399). -/
def relog (es : Numbered) (c : Ctx) : Ctx := { c with log := (sortBy (·.1) es).map (·.2) ++ c.log }

/-! Applying bytes at their homes (R194, R206, R207) -/

/-- The masked bytes of an entry with their offsets. -/
def maskedBytes (e : SBEntry) : List (Nat × Byte) :=
  (List.range 8).filterMap fun i =>
    if e.mask.getLsbD i then some (i, (e.data >>> (8 * i)).setWidth 8) else none

/-- A write on the rein: it takes a SEQ, every awake replica applies it, the rein log keeps it (R206, R209). `takes` says whether the
replica of a die takes the byte at an offset, of which a write that comes late may have a newer value (R222). -/
def reinWriteWhere (takes : Nat → Nat → Bool) (st : Nat) (cells : List (Nat × Byte)) (s : State) : State :=
  let kept := cells.filter fun c => (diesOfStack st).any fun d => takes d c.1
  let s := s.modStack st fun k => { k with seq := k.seq + 1, log := ((k.seq + 1, kept) :: k.log).take Config.reinLogSlots }
  let seq := (s.stackAt st).seq
  (diesOfStack st).foldl (fun t d =>
    if (t.dieAt d).awake then
      ((cells.filter fun c => takes d c.1).foldl (fun u c => u.setPhys (replicaPhys d c.1) c.2) t).modDie d fun x => { x with lastSeq := seq }
    else t) s

def reinWrite (st : Nat) (cells : List (Nat × Byte)) (s : State) : State := reinWriteWhere (fun _ _ => true) st cells s

/-- The home that an entry of an issuer on die `d` writes on that die, or elsewhere. -/
def entryPhys (d : Nat) (e : WinEntry) : Nat :=
  match e.entry.kind with
  | .plain => e.phys
  | _ => replicaPhys d e.phys

/-- Every home that it writes: ST.STK writes the replicas of its stack (R172). -/
def entryHomes (d : Nat) (e : WinEntry) : List Nat :=
  match e.entry.kind with
  | .stk => (diesOfStack (stackOfDie d)).map fun x => replicaPhys x e.phys
  | _ => [entryPhys d e]

/-- Apply one entry of a tenant's issuer on die `d`. -/
def applyEntry (owner : BitVec 3) (d : Nat) (e : WinEntry) (s : State) : State :=
  match e.entry.kind with
  | .stk => reinWrite (stackOfDie d) ((maskedBytes e.entry).map fun b => (e.phys + b.1, b.2)) s
  | _ => ((maskedBytes e.entry).foldl (fun t b => t.setPhys (entryPhys d e + b.1) b.2) s).claim owner (entryPhys d e) 8

/-- Invalidate in a core's read cache the lines of some addresses (R167). -/
def dropLines (ps : List Nat) (c : Core) : Core :=
  { c with rcache := c.rcache.filter fun l => !(ps.any fun p => lineOf p == l.line) }

/-- What a contribution writes, in order. -/
def Contribution.all (c : Contribution) : List WinEntry := c.scats ++ c.entries

/-- `n` packets of a gang's core have reached their homes, which acknowledge them (R293). Log entry 28 (DEDUCED). -/
def countFor (core : Nat) (gang : W32) (n : Nat) (s : State) : State :=
  countAt core gang (fun c => (c.sent n).received n) s

/-- Apply one contribution: its entries in program order, then the lines leave its core's read cache. -/
def applyContribution (c : Contribution) (s : State) : State :=
  let d := dieOfCore c.core
  let s := c.all.foldl (fun t e => applyEntry c.tenant d e t) s
  (countFor c.core c.gang c.all.length s).modCoreAt c.core (dropLines (c.all.flatMap (entryHomes d)))

/-- A key as a number: (STAMP, TID) in lexicographic order (R192). -/
def CommitKey.rank (k : CommitKey) : Nat := k.stamp.toNat * 65536 + k.tid

/-- Bytes of a window are parked, or in flight with no path to their homes (R200, R222). -/
def windowHeld (p : Pkg) (id : Nat) : Bool :=
  (p.dies.toList.any fun d => d.replay.any fun r => r.win == id) || p.inFlight.any fun c => c.win == id

/-- The homes that masked bytes of an entry have, each with what is noted of it. -/
def notesOf (d : Nat) (e : WinEntry) (bs : List (Nat × Byte)) (l : Landed) : List (Nat × Landed) :=
  (entryHomes d e).flatMap fun p => bs.map fun b => (p + b.1, l)

/-- The keys of the values a window has applied, kept while bytes of it are held back (R222). -/
def openWindow (id : Nat) (cs : List Contribution) (s : State) : State :=
  if windowHeld s.pkg id then
    let keys := cs.flatMap fun (c : Contribution) =>
      (c.scats.flatMap fun e => notesOf (dieOfCore c.core) e (maskedBytes e.entry) { key := c.key, drain := c.drain, place := 0 }) ++
        c.entries.flatMap fun e =>
          notesOf (dieOfCore c.core) e (maskedBytes e.entry) { key := c.key, drain := c.drain, place := e.seq + 1 }
    s.modPkg fun p => { p with openWins := { id := id, keys := keys.reverse } :: p.openWins }
  else s

/-- APPLY A COMMIT WINDOW: contributions in ascending CommitKey, so that each byte takes the value of the largest
key, the program-order last inside one contribution (R194). -/
def applyWindow (id : Nat) (cs : List Contribution) (s : State) : State :=
  let cs := sortBy (fun c => c.key.rank) cs
  openWindow id cs (cs.foldl (fun t c => applyContribution c t) s)

/-- The entries of a drain that no path has led to their homes yet. -/
def inFlightOf (drain : Nat) (s : State) : List WinEntry := (s.pkg.inFlight.filter fun c => c.drain == drain).flatMap (·.entries)

/-- The lines, by virtual address, that a contribution writes, its parked entries and those in flight among them (R204, R222). -/
def linesWritten (s : State) (c : Contribution) : List Nat :=
  (c.entries ++ inFlightOf c.drain s).map (fun e => e.entry.word / 8) ++ (unpark c.drain s).1.map fun e => e.2.word / 8

/-- An aborted ordered task: its entries go, those parked or in flight too, and its descriptor returns to the head of the work queue of the
core that ran it, which stands in the gang's image while another gang holds the core (R204, R205, R222). A task whose context has ended by
a fault is discarded (R428). -/
def requeue (c : Contribution) (o : OrdTask) (s : State) : State :=
  let back := fun (k : Core) => { k with work := o.desc :: k.work }
  let s := (unpark c.drain s).2.modPkg fun p => { p with inFlight := p.inFlight.filter fun x => x.drain != c.drain }
  if o.ended then s
  else if (s.coreAt c.core).gang = some c.gang then s.modCoreAt c.core back
  else modImage c.core c.gang (fun v => { v with rest := back v.rest }) s

/-- THE SUPERSTEP WINDOW with ordered tasks (R204): written lines so far, contributions in ascending key. -/
def applyOrdered : List Nat → List Contribution → State → List Contribution × State
  | _, [], s => ([], s)
  | w, c :: cs, s =>
    match c.ord with
    | none =>
      let r := applyOrdered w cs (applyContribution c s)
      (c :: r.1, r.2)
    | some o =>
      if w.any fun l => sigHit (l * 64) o.sig then applyOrdered w cs (requeue c o s)
      else
        let r := applyOrdered (w ++ linesWritten s c) cs (applyContribution c s)
        (c :: r.1, r.2)

/-- Apply the window of a superstep. -/
def applySuperstep (id : Nat) (cs : List Contribution) (s : State) : State :=
  let r := applyOrdered [] (sortBy (fun c => c.key.rank) cs) s
  openWindow id r.1 r.2

/-! Releases (R197, R199, R200, R214, R248) -/

/-- How a release ends: it goes on, waits, or its context has ended by a fault of its drain. -/
inductive Release where
  | done (s : State)
  | hold (w : Wait) (s : State)
  | dead (s : State)

/-- The issuing context ends by a fault of its drain; in the handler that is a double fault (R221, R29). -/
def drainDeath (f : DrainFault) (s : State) : State :=
  if s.isHandler then doubleFaultOf f.1 s
  else endFatal s.core.cur f.1 f.2.1 s.ctx.pc f.2.2 s

/-- The home of a drained entry lies inside a scope; that of the replicated region is the die's own replica (R200). -/
def entryInside (scope d : Nat) (e : WinEntry) : Bool := homeInside scope d (entryPhys d e)

/-- The place of a closed path that the issuing context's drained bytes inside a scope need. -/
def stuckAt (scope : Nat) (c : Contribution) (s : State) : Option Nat :=
  (c.all.filter (entryInside scope (dieOfCore c.core))).findSome? (closedPath s c.tenant (dieOfCore c.core))

/-- What a drain waits for or ends by: the drain itself stops, or a byte inside its scope has no path. -/
def drainStop (scope : Nat) (c : Contribution) (x : Option DrainStop) (s : State) : Option DrainStop :=
  match x with
  | some y => some y
  | none => (stuckAt scope c s).map fun p => .hold (.path p true)

/-- Entries with no path leave a contribution and stay in flight; the release does not wait for them (R200). -/
def splitPath (c : Contribution) (s : State) : Contribution × State :=
  let closed := fun (e : WinEntry) => (closedPath s c.tenant (dieOfCore c.core) e).isSome
  let lost := c.entries.filter closed
  ({ c with entries := c.entries.filter fun e => !closed e },
   if lost.isEmpty then s else s.modPkg fun p => { p with inFlight := p.inFlight ++ [{ c with scats := [], entries := lost }] })

/-- A drain into a window of the context's own, which applies, or what its bytes inside the scope wait for. -/
inductive Commit where
  | fault (f : DrainFault) (s : State)
  | hold (w : Wait)
  | done (s : State)

/-- Drain into a window of the context's own and apply it (R193, R197, R200). -/
def drainNow (scope : Nat) (s : State) : Commit :=
  let w := newWindow s
  let r := drainInto w.1 w.2
  let x := splitPath r.1 r.2.2
  let t := applyWindow w.1 [x.1] x.2
  match drainStop scope r.1 r.2.1 s with
  | none => .done t
  | some (.hold w) => .hold w
  | some (.fault f) => .fault f t

/-- A RED of this context is on its way, or at a switch, and its home lies inside the scope (R388). -/
def redPending (scope : Nat) (s : State) : Bool :=
  let mine := fun (r : RedReq) =>
    r.core == s.coreId && r.ctx == s.core.cur && r.gang == s.core.tag && !r.answer && homeInside scope s.die r.phys
  s.pkg.reds.any mine || s.pkg.stackUnits.toList.any fun k => k.switch.any mine

/-- A remote write of this context is not acknowledged (R200, R211). -/
def remotePending (s : State) : Bool := s.pkg.host.unacked.any fun u => u.1 == s.tid && u.2 != 0

/-- THE RELEASE STEPS: drain, with paths to the homes inside the scope, then wait for the replay queue, for earlier REDs inside the scope and, at .SYS, for
remote writes. Log entry 8 (DESIGN CHOICE). -/
def release (scope : Nat) (s : State) : Release :=
  match drainNow scope s with
  | .fault f s1 => .dead (drainDeath f s1)
  | .hold w => .hold w s.useFresh
  | .done s1 =>
    if !(parkedHere s1).isEmpty then .hold .replay s1
    else if redPending scope s1 then .hold (.red (BitVec.ofNat 3 scope)) s1
    else if scope = 5 && remotePending s1 then .hold .remote s1
    else .done s1

/-- The result of a release followed by more: a release that waits keeps its drain and is issued again. -/
def Release.result (r : Release) (k : State → State) : State :=
  match r with
  | .done s => k s
  | .hold w s => s.blockOn w
  | .dead s => s

/-- The drain of a release is the issue of its instruction: where it waits from then on, the entries of its sources have left their queues
(R42). Log entry 38 (DEDUCED). -/
def Release.taking (srcs : List Src) : Release → Release
  | .hold w s => .hold w (takeEntries srcs s)
  | r => r

/-- What becomes of an instruction behind its release: where it waits, it keeps the entries of its sources. -/
def settleTaking (srcs : List Src) (s : State) : Except Stop State → State
  | .error (.block w) => (takeEntries srcs s).blockOn w
  | r => settle s r

/-- A release, then more that may wait or trap, of an instruction with sources. -/
def Release.before (r : Release) (srcs : List Src) (k : State → Except Stop State) : State :=
  (r.taking srcs).result fun t => settleTaking srcs t (k t)

/-! Replay of parked stores (R222) -/

/-- What a window has applied to a byte, where it applied one. -/
def appliedAt (s : State) (win p : Nat) : Option Landed :=
  match s.pkg.openWins.find? fun w => w.id == win with
  | some w => w.keys.lookup p
  | none => none

/-- A value of a window comes behind another: its key is larger, or it is a later one of the same thread (R194, R219). -/
def Landed.after (a b : Landed) : Bool :=
  decide (b.key.rank < a.key.rank) || (a.key == b.key && (decide (b.drain < a.drain) || (a.drain == b.drain && decide (b.place < a.place))))

/-- A held byte comes behind the value that its window has applied to a home: R222 asks for a larger key, and as if nothing had been
parked, of one thread's bytes, which have one key, the program-order last stays. Log entry 92 (DEDUCED). -/
def passes (s : State) (win : Nat) (l : Landed) (p : Nat) : Bool :=
  match appliedAt s win p with
  | some x => l.after x
  | none => true

/-- Apply the bytes of a held entry, at each home where they come behind what the window has applied there (R222). -/
def landBytes (owner : BitVec 3) (win : Nat) (l : Landed) (d : Nat) (w : WinEntry) (s : State) : State :=
  let bs : List (Nat × Byte) := maskedBytes w.entry
  let noted := (notesOf d w bs l).filter fun x => passes s win l x.1
  let cells := bs.map fun (b : Nat × Byte) => (w.phys + b.1, b.2)
  let taken := bs.filter fun (b : Nat × Byte) => passes s win l (entryPhys d w + b.1)
  let t : State := match w.entry.kind with
    | .stk => reinWriteWhere (fun e off => passes s win l (replicaPhys e off)) (stackOfDie d) cells s
    | _ => (taken.foldl (fun u b => u.setPhys (entryPhys d w + b.1) b.2) s).claim owner (entryPhys d w) (if taken.isEmpty then 0 else 8)
  t.modPkg fun p => { p with openWins := mapIf (fun x => x.id == win) (fun x => { x with keys := noted ++ x.keys }) p.openWins }

/-- Remove the first element equal to a value. -/
def removeOne {α : Type} [DecidableEq α] (x : α) : List α → List α
  | [] => []
  | y :: ys => if y = x then ys else y :: removeOne x ys

/-- Forget the keys of windows of which nothing is held back any more. -/
def closeWindows (s : State) : State :=
  s.modPkg fun p => { p with openWins := p.openWins.filter fun w => windowHeld p w.id }

/-- Put an entry among the others of its drain, in program order. -/
def addEntry (drain : Nat) (w : WinEntry) (cs : List Contribution) : List Contribution :=
  mapIf (fun c => c.drain == drain) (fun c => { c with entries := insertBy (·.seq) w c.entries }) cs

/-- The window of a held entry of a core has not applied yet: the entry joins it as if it had not been held. -/
def joinPending (core win drain : Nat) (w : WinEntry) (s : State) : State :=
  let put := fun (a : Arrival) => { a with contrib := (addEntry drain w [a.contrib]).headD a.contrib }
  let s := s.modCoreAt core fun c => { c with arrivals := c.arrivals.map put }
  s.modPkg fun p => { p with
    steps := mapIf (fun x => x.id == win) (fun x => { x with contribs := addEntry drain w x.contribs }) p.steps
    teams := p.teams.map fun e => { e with win := addEntry drain w e.win, winNext := addEntry drain w e.winNext } }

/-- A window of a superstep or team that has not applied yet. -/
def winPending (s : State) (id : Nat) : Bool :=
  (s.pkg.steps.any fun x => x.id == id && !x.applied) || s.pkg.teams.any fun e => e.winId == id || e.winNextId == id

/-- A held entry reaches its home: it joins its window, or, the window having applied, takes the bytes whose keys it passes (R222). -/
def landEntry (owner : BitVec 3) (core : Nat) (gang : W32) (win drain : Nat) (key : CommitKey) (w : WinEntry) (s : State) : State :=
  if winPending s win then joinPending core win drain w s
  else
    let d := dieOfCore core
    (countFor core gang 1 (landBytes owner win { key := key, drain := drain, place := w.seq + 1 } d w s)).modCoreAt core (dropLines (entryHomes d w))

/-- Bytes in flight whose path has opened reach their homes, behind the REDs that their core had sent to their words before (R232). -/
def landInFlight (s : State) : State :=
  let d := fun (c : Contribution) => dieOfCore c.core
  let opened := fun (c : Contribution) (e : WinEntry) => (closedPath s c.tenant (d c) e).isNone
  let rest := (s.pkg.inFlight.map fun c => { c with entries := c.entries.filter fun e => !opened c e }).filter fun c => !c.entries.isEmpty
  closeWindows (s.pkg.inFlight.foldl (fun t c => (c.entries.filter (opened c)).foldl (fun u e =>
    landEntry c.tenant c.core c.gang c.win c.drain c.key e
      (landReds (fun r => e.entry.kind == .plain && r.goesTo c.core c.tenant e.phys && decide (r.seq ≤ c.drain)) u)) t) (s.modPkg fun p => { p with inFlight := rest }))

/-- The replay of an entry cannot go on: no path leads to its home, or its walk is held up. -/
def replayHeld (d : Nat) (r : Replay) (s : State) : Bool :=
  match drainPlace r.tenant r.entry (s.focus r.core) with
  | .park => false
  | .stop (.hold _) => true
  | .stop (.fault _) => false
  | .place p t => (closedPath t r.tenant d { entry := r.entry, phys := p, seq := r.seq }).isSome

/-- The next resolved entry of a die to be replayed: each context has its own queue, in which one that is held holds the later ones back
(R221, R222). -/
def nextReplay (d : Nat) (s : State) : List (Nat × Half) → List Replay → Option Replay
  | _, [] => none
  | stuck, r :: rs =>
    if !r.resolved || stuck.contains (r.tid, r.gang) then nextReplay d s stuck rs
    else if replayHeld d r s then nextReplay d s ((r.tid, r.gang) :: stuck) rs
    else some r

/-- Replay one parked entry of a die, on its own core; a page that is invalid again holds all its entries back, in order. -/
def replayEntry (d : Nat) (r : Replay) (s : State) : State :=
  let gone := fun (t : State) => t.modDie d fun x => { x with replay := removeOne r x.replay }
  s.onCore r.core fun t =>
    match drainPlace r.tenant r.entry t with
    | .park =>
      let same := fun (y : Replay) => y.tenant == r.tenant && y.page == r.page
      (t.modDie d fun x => { x with replay := mapIf same (fun y => { y with resolved := false }) x.replay }).modDie d
        (noteFault r.tid r.tenant (wordVA r.entry) (threadPc t r.core r.gang r.ctx) 2)
    | .stop (.hold _) => t
    | .stop (.fault f) => closeWindows (endThread r.core r.gang r.ctx f.1 f.2.1 f.2.2 (gone t))
    | .place p t1 =>
      let w : WinEntry := { entry := r.entry, phys := p, seq := r.seq }
      if (closedPath t1 r.tenant d w).isSome then t
      else closeWindows (gone (landEntry r.tenant r.core (gangOfTag t1 r.core r.gang) r.win r.drain r.key w (flushAhead [w] t1)))

end Sys2Proof.Machine
end

