-- ==== Sys2Proof/Machine/Rings.lean ====
section
/-!
DEFINITION. Ring registers (R145, R146), the format word (R143) and the scratchpad bytes that queued
vector, matrix and tile entries touch (R138).
-/
namespace Sys2Proof.Machine

/-! Rings (R145, R146) -/

def Ring.slots (r : Ring) : Nat := 2 ^ r.slog.toNat
def Ring.slotBytes (r : Ring) : Nat := 64 * r.size.toNat
def Ring.slotAddr (r : Ring) (n : Nat) : Nat := r.base.toNat + r.slotBytes * n
/-- The slot `k` places after the head. -/
def Ring.fromHead (r : Ring) (k : Nat) : Nat := (r.head.toNat + k) % r.slots

/-- Bits 63:0 and 127:64 as MFS reads them. -/
def Ring.lo (r : Ring) : W64 := BitVec.ofNat 64 (r.base.toNat + r.slog.toNat * 2 ^ 18 + r.size.toNat * 2 ^ 22)
def Ring.hi (r : Ring) : W64 :=
  BitVec.ofNat 64 (r.head.toNat + r.tail.toNat * 2 ^ 8 + r.filled.toNat * 2 ^ 16 + r.free.toNat * 2 ^ 25)

/-- Reserve the tail slot; there is a free one. -/
def Ring.reserve (owner : Nat) (r : Ring) : Ring :=
  { r with tail := BitVec.ofNat 8 ((r.tail.toNat + 1) % r.slots), free := r.free - 1,
           resv := r.resv ++ [{ owner := owner, slot := r.tail.toNat, done := false }] }

/-- Reserved slots at the front that are complete count as filled, in reservation order. -/
def Ring.fill : List Resv → Ring → Ring
  | [], r => { r with resv := [] }
  | v :: vs, r => if v.done then Ring.fill vs { r with filled := r.filled + 1 } else { r with resv := v :: vs }

/-- Complete the slot that an owner reserved first. -/
def Ring.complete (owner : Nat) (r : Ring) : Ring :=
  match r.resv.find? fun v => v.owner == owner && !v.done with
  | none => r
  | some v => Ring.fill (mapIf (fun x => x == v) (fun x => { x with done := true }) r.resv) r

/-- Consume the head slot: HEAD advances, FILLED falls, FREE rises when the read is complete. -/
def Ring.pop (r : Ring) : Ring :=
  { r with head := BitVec.ofNat 8 ((r.head.toNat + 1) % r.slots), filled := r.filled - 1, free := r.free + 1 }

def Ring.popN : Nat → Ring → Ring
  | 0, r => r
  | n + 1, r => Ring.popN n r.pop

def State.ring (s : State) (g : BitVec 3) : Ring := s.core.regs.vec.rings[g.toNat]
def VecRegs.modRing (g : BitVec 3) (f : Ring → Ring) (v : VecRegs) : VecRegs :=
  { v with rings := v.rings.set g.toNat (f v.rings[g.toNat]) }
def State.modRing (g : BitVec 3) (f : Ring → Ring) (s : State) : State := s.modVec (VecRegs.modRing g f)

/-- A ring as the units of the core find it, in the image once SVCTX of context 0 has written it (R245, R289). -/
def State.gangRing (s : State) (g : BitVec 3) : Ring := s.gangRegs.vec.rings[g.toNat]
def State.modGangRing (g : BitVec 3) (f : Ring → Ring) (s : State) : State :=
  s.modGangRegs fun r => { r with vec := VecRegs.modRing g f r.vec }

/-! The format word (R143) -/

def fmtAFMT (w : W64) : Nat := bitsOf w.toNat 1 0
def fmtBFMT (w : W64) : Nat := bitsOf w.toNat 3 2
def fmtATAB (w : W64) : Nat := bitsOf w.toNat 5 4
def fmtBTAB (w : W64) : Nat := bitsOf w.toNat 7 6
def fmtOTYPE (w : W64) : Nat := bitsOf w.toNat 9 8
def fmtOTAB (w : W64) : Nat := bitsOf w.toNat 11 10
def fmtSA (w : W64) : Int := (w.extractLsb' 12 8).toInt
def fmtSB (w : W64) : Int := (w.extractLsb' 20 8).toInt
def fmtCLRS (w : W64) : Bool := w.getLsbD 28
/-- Element bytes of operand A and of operand B. -/
def elemBytesA (w : W64) : Nat := if fmtAFMT w = 2 then 1 else 2
def elemBytesB (w : W64) : Nat := if fmtBFMT w = 2 then 1 else 2
/-- Bytes that MST writes (R373). -/
def mstBytes (w : W64) : Nat := if fmtOTYPE w = 0 then 4096 else if fmtOTYPE w = 3 then 1024 else 2048

/-- The ring operands of a request in the order they are taken: ring, bytes of the operand (R150), whether it pops. -/
def ringNeeds (fmt : W64) : Instr → List (BitVec 3 × Nat × Bool)
  | .mma _ a b _ _ _ _ p q => [(a, 2048 * elemBytesA fmt, p), (b, 2048 * elemBytesB fmt, q)]
  | .mmas _ a b _ _ _ g p q => [(a, 1024 * elemBytesA fmt, p), (b, 2048 * elemBytesB fmt, q), (g, 512, p)]
  | _ => []

/-- Element bytes of the block that MSM writes (R380). -/
def msmBytes (w : W64) : Nat := if fmtOTYPE w = 3 then 1 else 2

/-- The bytes of its half of a slot: 32 elements of every row (R380). -/
def msmSpans (fmt : W64) (half : Bool) (slot : Nat) : List (Nat × Nat) :=
  (List.range 32).map fun r => (slot + (64 * r + if half then 32 else 0) * msmBytes fmt, 32 * msmBytes fmt)

/-! What queued entries touch (R138) -/

/-- The format word in force, pops taken and MSM slots completed per ring, and bytes touched so far, while entries are read in
order. -/
structure QueueWalk where
  fmt : W64
  pops : Nat → Nat
  msms : Nat → Nat
  bytes : List (Nat × Nat)

/-- The slots that ring operands take, in order; each names its ring and whether it pops (R148). -/
def takeSlots (rings : Vector Ring 8) (w : QueueWalk) (ops : List (BitVec 3 × Bool)) : List Nat :=
  (ops.foldl (fun (acc : List Nat × (Nat → Nat)) o =>
    let g := o.1.toNat
    (acc.1 ++ [(rings[o.1.toNat]).slotAddr ((rings[o.1.toNat]).fromHead (acc.2 g))],
     fun k => if k = g then acc.2 k + 1 else acc.2 k)) ([], w.pops)).1

def addPops (w : QueueWalk) (ops : List (BitVec 3 × Bool)) : QueueWalk :=
  ops.foldl (fun w o => if o.2 then { w with pops := fun k => if k = o.1.toNat then w.pops k + 1 else w.pops k } else w) w

/-- A request with ring operands: of each slot it touches the bytes of the operand. -/
def ringOperands (rings : Vector Ring 8) (w : QueueWalk) (i : Instr) : QueueWalk :=
  let needs := ringNeeds w.fmt i
  let ops := needs.map fun n => (n.1, n.2.2)
  addPops { w with bytes := w.bytes ++ (takeSlots rings w ops).zip (needs.map fun n => n.2.1) } ops

/-- The tail slot that an MSM writes: the one an earlier MSM reserved, or the tail (R380). -/
def msmSlot (r : Ring) : Nat :=
  match r.resv.find? fun v => v.owner == 0 && !v.done with
  | some v => v.slot
  | none => r.tail.toNat

/-- The slot of an MSM that comes after `k` completed ones: the reserved one first, then those from the tail on (R380). -/
def msmSlotAfter (r : Ring) (k : Nat) : Nat :=
  match r.resv.find? fun v => v.owner == 0 && !v.done with
  | some v => if k = 0 then v.slot else (r.tail.toNat + k - 1) % r.slots
  | none => (r.tail.toNat + k) % r.slots

/-- One entry of the queue. -/
def walkEntry (rings : Vector Ring 8) (w : QueueWalk) (e : VEntry) : QueueWalk :=
  let at_ := e.sval.toNat
  match decode e.word with
  | .ok (.mfmt _) => { w with fmt := e.sval }
  | .ok (.vld _ _ _ i) => { w with bytes := w.bytes ++ [((e.sval + 128 * i.signExtend 64).toNat, 128)] }
  | .ok (.vst _ _ _ i) => { w with bytes := w.bytes ++ [((e.sval + 128 * i.signExtend 64).toNat, 128)] }
  | .ok (.mld _ _ _ _ _ m) => { w with bytes := w.bytes ++ [(at_ + 64 * m.toNat, 4096)] }
  | .ok (.mst _ _ _ _ m) => { w with bytes := w.bytes ++ [(at_ + 64 * m.toNat, mstBytes w.fmt)] }
  | .ok (.mma d a b k n x r p q) => ringOperands rings w (.mma d a b k n x r p q)
  | .ok (.mmas d a b k n y g p q) => ringOperands rings w (.mmas d a b k n y g p q)
  | .ok (.msm _ g _ _ h) =>
    { w with bytes := w.bytes ++ msmSpans w.fmt h ((rings[g.toNat]).slotAddr (msmSlotAfter rings[g.toNat] (w.msms g.toNat)))
             msms := fun k => if k = g.toNat ∧ h then w.msms k + 1 else w.msms k }
  | _ => w

/-- The uncompleted entries of a core, as context `i` counts them: those in the queue, and behind them its own that are held behind a
frame of which a step has trapped (R138, R155, R278). -/
def Core.uncompleted (c : Core) (i : Fin 12) : List VEntry := c.entries ++ c.trap.held.filter fun e => e.ctx == i

/-- The spans of the scratchpad that the uncompleted entries of a context touch. -/
def touchedBy (c : Core) (i : Fin 12) : List (Nat × Nat) :=
  let start : QueueWalk := { fmt := c.regs.vec.fmt, pops := fun _ => 0, msms := fun _ => 0, bytes := [] }
  ((c.uncompleted i).foldl (fun (acc : QueueWalk × List (Nat × Nat)) e =>
    let w := walkEntry c.regs.vec.rings acc.1 e
    (w, if e.ctx = i then acc.2 ++ w.bytes.drop acc.1.bytes.length else acc.2)) (start, [])).2

/-- Whether an uncompleted entry of the issuing context touches `n` scratchpad bytes at `a` (R138). -/
def queueTouches (s : State) (a n : Nat) : Bool :=
  (touchedBy s.core s.core.cur).any fun b => decide (b.1 < a + n ∧ a < b.1 + b.2)

/-- A scalar scratchpad access waits for its context's queued entries that overlap it (R138). -/
def scratchClear (s : State) (n : Nat) : Place → Except Stop Unit
  | .scratch a => unlessStop (queueTouches s a n) (wait (.scratch a n))
  | _ => .ok ()

/-- The format word in force for a word issued now: the last MFMT ahead of it in queue order (R368). -/
def fmtInForce (s : State) : W64 := s.core.regs.vec.fmtIssued

end Sys2Proof.Machine
end

