-- ==== Sys2Proof/Machine/Control.lean ====
section
/-!
DEFINITION. Helpers, waiting and the spin governor: START, HWAIT, YIELD, IDLE and the ends of their
counts (R32, R33, R35, R45–R47, R357, R359, R394, R430).
-/
namespace Sys2Proof.Machine

/-- HelperInit (R33): what R33 does not name keeps the slot's value. Log entry 33 (DEDUCED). -/
def helperInit (slot : Nat) (target arg tstamp : W64) (c : Ctx) : Ctx :=
  { c with pc := target,
           s := ((Vector.replicate 56 (0 : W64)).set 1 arg).set 2 (BitVec.ofNat 64 slot),
           past := [BitVec.ofNat 64 slot, arg, 0],
           freed := 0, p := 0, h := Vector.replicate 16 0, tstamp := tstamp, buf := [], log := [],
           live := true, wait := .ready, spin := 0, ord := none, taken := [], blocked := false }

/-- The lowest free slot in 1..H (R32). -/
def freeSlot (c : Core) : Option (Fin 12) :=
  ([1, 2, 3, 4, 5, 6, 7, 8, 9, 10] : List (Fin 12)).find? fun i => decide (i.val ≤ c.helpers) && !(c.ctxs[i]).live

/-- START never blocks on a slot (R32, R394). -/
def execStart (d : SReg) (l : Bool) (a : SReg) (m : Bool) (b : SReg) (p : PReg) (s : State) : Result :=
  finish s (match controlOnly s (encode (.start d l a m b p)) with
    | .error e => .error e
    | .ok _ =>
      match operands s [⟨a, l⟩, ⟨b, m⟩] [d] with
      | .error e => .error e
      | .ok (vs, s1) =>
        if (val0 vs).toNat % 4 ≠ 0 then raise 0x02 (val0 vs) 0
        else match freeSlot s1.core with
          | none => .ok ((s1.writeS d 0).writeP p false).retire
          | some i =>
            let s2 := s1.modCtxAt i (helperInit i.val (val0 vs) (val1 vs) s1.ctx.tstamp)
            .ok ((s2.writeS d (BitVec.ofNat 64 i.val)).writeP p true).retire)

/-- The live helpers that bits 10:1 of a mask name (R35). -/
def namedLive (mask : W64) (c : Core) : BitVec 11 :=
  (liveHelpers c).foldl (fun acc i => if mask.getLsbD i.val then acc ||| ((1 : BitVec 11) <<< i.val) else acc) 0

/-- HWAIT (R35, R357). -/
def execHwait (l : Bool) (a : SReg) (m : Bool) (s : State) : Result :=
  finish s (match controlOnly s (encode (.hwait l a m)) with
    | .error e => .error e
    | .ok _ =>
      match operands s [⟨a, l⟩] [] with
      | .error e => .error e
      | .ok (vs, s1) =>
        if namedLive (val0 vs) s1.core = 0 then .ok s1.retire
        else .ok ((taking [⟨a, l⟩] s s1).blockOn (.hwait (namedLive (val0 vs) s1.core) [⟨a, l⟩])))

/-- The control context waits for helpers, all of which have ended, and may go on. -/
def hwaitOver (s : State) : Bool :=
  mayGo s && (match s.ctx.wait with
    | .hwait m _ => (liveHelpers s.core).all fun i => !m.getLsbD i.val
    | _ => false)


/-- Move the issuing context to the end of the round-robin order (R46). -/
def yieldOrder (s : State) : State :=
  if s.isHandler then s
  else s.modCore fun c => { c with order := c.order.filter (· != c.cur) ++ [c.cur] }

/-- YIELD (R46, R430). -/
def execYield (_ : Bool) (_ : Bool) (s : State) : Result := .next (yieldOrder s).retire

/-- IDLE: not ready for min(sa, 65535) cycles counted from its retirement; with 0 it is YIELD (R46, R359). Log entry 32 (DEDUCED). -/
def execIdle (l : Bool) (a : SReg) (_ : Bool) (s : State) : Result :=
  finish s (match operands s [⟨a, l⟩] [] with
    | .error e => .error e
    | .ok (vs, s1) =>
      let n := Nat.min (val0 vs).toNat 65535
      if n = 0 then .ok (yieldOrder s1).retire
      else .ok (s1.retire.blockOn (.idle (s1.cycle.toNat + n))))

/-! The spin governor (R47) -/

/-- Count a failed operation of the issuing context, or clear the count after one that succeeds. Log entry 31 (DEDUCED). -/
def spinNote (ok : Bool) (s : State) : State :=
  s.modCtx fun c => { c with spin := if ok then 0 else c.spin + 1 }

/-- A context has reached COUNT and waits for nothing else (R47, R278). Log entry 57 (DEDUCED). -/
def spinTripped (c : Core) (i : Fin 12) : Bool :=
  (c.ctxs[i]).wait == .ready && decide (c.regs.spinCount ≠ 0 ∧ c.regs.spinCount.toNat ≤ (c.ctxs[i]).spin)

/-- Saved contexts of a pre-empted gang, or of a lower-priority gang, wait on a core (R47). -/
def coreHasSaved (s : State) (core : Nat) : Bool := s.pkg.saved.any fun v => v.core == core

/-- SPIN_GOVERNOR_TRIP: the context is held for HOLD cycles and the count clears; a spin yield is raised when
saved work waits on the core (R47, R282). -/
def execSpinGovernorTrip (core : Nat) (ctx : Fin 12) (s : State) : Result :=
  .next (s.onCore core fun t =>
    if spinTripped t.core ctx then
      let hold := if t.core.regs.spinHold = 0 then 1 else t.core.regs.spinHold.toNat
      let t := t.modCtxAt ctx fun c => { c with spin := 0, wait := .hold (t.cycle.toNat + hold) }
      if coreHasSaved t t.coreId then takeInterrupt 0x03 (BitVec.ofNat 64 (ctxNum ctx)) t else t
    else t)

/-- SPIN_HOLD_EXPIRY: the HOLD count ends (R47). -/
def execSpinHoldExpiry (core : Nat) (ctx : Fin 12) (s : State) : Result :=
  .next (s.onCore core fun t =>
    match (t.ctxAt ctx).wait with
    | .hold till => if till ≤ t.cycle.toNat then t.modCtxAt ctx fun c => { c with wait := .ready } else t
    | _ => t)

/-- IDLE_EXPIRY: the IDLE count ends (R46). -/
def execIdleExpiry (core : Nat) (ctx : Fin 12) (s : State) : Result :=
  .next (s.onCore core fun t =>
    match (t.ctxAt ctx).wait with
    | .idle till => if till ≤ t.cycle.toNat then t.modCtxAt ctx fun c => { c with wait := .ready } else t
    | _ => t)

end Sys2Proof.Machine
end

