-- ==== Sys2Proof/Machine/LoadStore.lean ====
section
/-!
DEFINITION. Loads, stores, release stores and fences (R197–R199, R355, R363, R364, R392, R393, R395).
-/
namespace Sys2Proof.Machine

/-- Bytes of a size code (R324). -/
def sizeBytes (z : BitVec 2) : Nat := 2 ^ z.toNat

/-- Address with a signed displacement in units of the size. -/
def dispAddr {n : Nat} (base : W64) (i : BitVec n) (size : Nat) : W64 := base + BitVec.ofNat 64 size * i.signExtend 64

/-- Bytes as a register value, sign- or zero-extended. -/
def extendBytes (sign : Bool) (bs : List Byte) : W64 :=
  let v := ofBytesLE bs
  if sign && bs.length < 8 && decide (2 ^ (8 * bs.length) ≤ 2 * v) then
    BitVec.ofNat 64 (v + 2 ^ 64 - 2 ^ (8 * bs.length))
  else BitVec.ofNat 64 v

/-- A load, with or without the read cache: the value to write and the state to write it in. -/
def loadValue (s1 s : State) (size : Nat) (bypass sign : Bool) (va : W64) : Except Stop (W64 × State) :=
  match checkAddress s .load size true .readable va with
  | .error e => .error e
  | .ok (pl, _) =>
    match scratchClear s size pl with
    | .error e => .error e
    | .ok _ =>
      match loadBytes s1 size true bypass va with
      | .error e => .error e
      | .ok (bs, s2) => .ok (extendBytes sign bs, s2)

/-- LD (R363). -/
def execLd (d : SReg) (l : Bool) (a : SReg) (z : BitVec 2) (g : Bool) (i : BitVec 10) (s : State) : Result :=
  finish s (match operands s [⟨a, l⟩] [d] with
    | .error e => .error e
    | .ok (vs, s1) =>
      match loadValue s1 s1 (sizeBytes z) false g (dispAddr (val0 vs) i (sizeBytes z)) with
      | .error e => .error e
      | .ok (v, s2) => .ok (s2.writeS d v).retire)

/-- LDA is an acquire point on every address it accepts (R198, R364). -/
def execLda (d : SReg) (l : Bool) (a : SReg) (z : BitVec 2) (g : Bool) (i : BitVec 10) (s : State) : Result :=
  finish s (match operands s [⟨a, l⟩] [d] with
    | .error e => .error e
    | .ok (vs, s1) =>
      match loadValue s1 s1 (sizeBytes z) true g (dispAddr (val0 vs) i (sizeBytes z)) with
      | .error e => .error e
      | .ok (v, s2) => .ok ((acquire s2).writeS d v).retire)

/-- The store of bytes at a checked place: into the scratchpad at once, or into the store buffer (R392). -/
def storeAt (va : W64) (bs : List Byte) (kind : StKind) (pl : Place) (s : State) : Except Stop State :=
  match pl with
  | .scratch a => .ok (s.setScratch a bs)
  | _ =>
    match storeEntry (parkedHere s).length va.toNat bs kind s.ctx with
    | some c => .ok (s.modCtx fun _ => c)
    | none => raise 0x1A va 0

/-- The shared form of ST, ST.OWN and ST.STK. -/
def storeOp (region : Region) (kind : StKind) (srcs : List Src) (size : Nat) (addr : W64 → W64) (s : State) : Result :=
  finish s (match operands s srcs [] with
    | .error e => .error e
    | .ok (vs, s1) =>
      let va := addr (val0 vs)
      match checkAddress s1 .store size true region va with
      | .error e => .error e
      | .ok (pl, s2) =>
        match scratchClear s1 size pl with
        | .error e => .error e
        | .ok _ =>
          match storeAt va (toBytesLE size (val1 vs).toNat) kind pl s2 with
          | .error e => .error e
          | .ok s3 => .ok s3.retire)

/-- ST (R392). -/
def execSt (z : BitVec 2) (l : Bool) (a : SReg) (m : Bool) (b : SReg) (i : BitVec 10) : State → Result :=
  storeOp .outside .plain [⟨a, l⟩, ⟨b, m⟩] (sizeBytes z) fun x => dispAddr x i (sizeBytes z)

/-- ST.OWN (R393). -/
def execStOwn (z : BitVec 2) (l : Bool) (a : SReg) (m : Bool) (b : SReg) (i : BitVec 7) : State → Result :=
  storeOp .inside .own [⟨a, l⟩, ⟨b, m⟩] (sizeBytes z) fun x => dispAddr x i (sizeBytes z)

/-- ST.STK (R393). -/
def execStStk (z : BitVec 2) (l : Bool) (a : SReg) (m : Bool) (b : SReg) (i : BitVec 7) : State → Result :=
  storeOp .inside .stk [⟨a, l⟩, ⟨b, m⟩] (sizeBytes z) fun x => dispAddr x i (sizeBytes z)

/-- Write bytes at their home, dropping the lines from the issuing core's read cache (R167). -/
def writeHome (p : Nat) (bs : List Byte) (s : State) : State := (s.writeFor s.core.tenant p bs).modCore (dropLines [p])

/-- A flag store at its place: the scratchpad, or its home, one aligned access (R197). -/
def writePlace (bs : List Byte) (pl : Place) (s : State) : State :=
  match pl with
  | .scratch a => s.setScratch a bs
  | .home p _ => writeHome p bs s
  | .replica _ => s

/-- An instruction that releases first: its checks, the release steps, then its operands read and its effect, which may wait. A
release that waits keeps what it drained, and the instruction is issued again. -/
def releaseThen {α : Type} (scope : Nat) (srcs : List Src) (check : State → Except Stop (α × State))
    (go : α → State → Except Stop State) (s : State) : Except Stop State :=
  match check s with
  | .error e => .error e
  | .ok _ =>
    .ok ((release scope s).before srcs fun t => match check t with
      | .error e => .error e
      | .ok (x, t1) => go x t1)

/-- The operands and checks of STL in the order of R337 and R395: the bytes and place of the flag. -/
def stlCheck (z : BitVec 2) (l : Bool) (a : SReg) (m : Bool) (b : SReg) (c : BitVec 3) (i : BitVec 7) (s : State) :
    Except Stop ((List Byte × Place) × State) :=
  match operands s [⟨a, l⟩, ⟨b, m⟩] [] with
  | .error e => .error e
  | .ok (vs, s1) =>
    match checkAddress s1 .store (sizeBytes z) true .outside (dispAddr (val0 vs) i (sizeBytes z)) with
    | .error e => .error e
    | .ok (pl, s2) =>
      match notOrdered s (encode (.stl z l a m b c i)) with
      | .error e => .error e
      | .ok _ =>
        match scratchClear s (sizeBytes z) pl with
        | .error e => .error e
        | .ok _ => .ok ((toBytesLE (sizeBytes z) (val1 vs).toNat, pl), s2)

/-- A home write of the issuing context waits for an open path (R23, R25). -/
def pathTo (s : State) : Place → Except Stop Unit
  | .home p _ => unlessStop (!sendOpen s s.core.tenant s.die p) (wait (.path p true))
  | _ => .ok ()

/-- STL (R197, R395): checks, release steps, then the flag store. -/
def execStl (z : BitVec 2) (l : Bool) (a : SReg) (m : Bool) (b : SReg) (c : BitVec 3) (i : BitVec 7) (s : State) : Result :=
  finish s (releaseThen c.toNat [⟨a, l⟩, ⟨b, m⟩] (stlCheck z l a m b c i) (fun x t => match pathTo t x.2 with
    | .error e => .error e
    | .ok _ => .ok (writePlace x.1 x.2 t).retire) s)

/-- The shared form of FENCE.REL and FENCE.FULL (R199, R355). -/
def fenceRelease (scope : BitVec 3) (w : Option W32) (after : State → State) (s : State) : Result :=
  finish s (match notOrdered s w with
    | .error e => .error e
    | .ok _ => .ok ((release scope.toNat s).result fun t => (after t).retire))

/-- FENCE.REL. -/
def execFenceRel (l : Bool) (m : Bool) (c : BitVec 3) : State → Result :=
  fenceRelease c (encode (.fenceRel l m c)) id

/-- FENCE.ACQ: every earlier load and atomic has returned in this model, so only the acquire point is left (R199). -/
def execFenceAcq (_ : Bool) (_ : Bool) (_ : BitVec 3) (s : State) : Result := .next (acquire s).retire

/-- FENCE.FULL: the release, then the acquire point. -/
def execFenceFull (l : Bool) (m : Bool) (c : BitVec 3) : State → Result :=
  fenceRelease c (encode (.fenceFull l m c)) acquire

/-- ICFLUSH: the fetched words and the read-cache lines that fetches filled are discarded; later fetches of the context use none
of the remaining lines, which loads have filled (R188, R358). -/
def execIcflush (s : State) : Result :=
  let old := fun (l : RLine) => { l with flushed := l.flushed ||| ((1 : BitVec 12) <<< s.core.cur.val) }
  .next (s.modCore fun c => { c with icache := [], rcache := (c.rcache.filter fun l => !l.byFetch).map old }).retire

end Sys2Proof.Machine
end

