-- ==== Sys2Proof/Machine/Atomics.lean ====
section
/-!
DEFINITION. Atomics at their homes, reductions at the base-die switches, and sums over replicas
(R202, R208, R210, R263, R343, R344, R366, R388).
-/
namespace Sys2Proof.Machine

/-- What an atomic returns: .W MIN and MAX sign-extended, else zero-extended (R326). -/
def atomicReturn (float wide : Bool) (op old : Nat) : W64 :=
  if !wide && !float && (op == 4 || op == 5) then (BitVec.ofNat 32 old).signExtend 64 else BitVec.ofNat 64 old

/-! Waiters of a dependence counter (R257, R263, R249) -/

/-- The die whose homes keep the waiter list of an address; far memory counts with the first die of its stack. Log entry 22 (DEDUCED). -/
def homeDie (p : Nat) : Nat := match dieOfPhys p with | some d => d | none => 6 * stackOfPhys p

/-- The wake of a launch record by a counter at a place reaches the launch unit on base die 0: the record is eligible (R15, R20, R249).
Without a path it stays on its way. -/
def wakeRecord (s : State) (p : Nat) (r : LaunchRec) : LaunchRec :=
  if pathOpen s r.tenant p (basePlace 0) then { r with since := some s.cycle.toNat, registered := false, woken := none }
  else { r with woken := some p }

/-- A wake on its way that may arrive now. -/
def wakeArrives (s : State) (r : LaunchRec) : Bool := r.woken.any fun p => pathOpen s r.tenant p (basePlace 0)

/-- Every wake whose path is open arrives. -/
def landWakes (s : State) : State :=
  s.modPkg fun g => { g with launches := g.launches.map fun r => match r.woken with
    | some p => wakeRecord s p r
    | none => r }

/-- Release the waiters on a word: descriptors travel to their cores, the wakes of launch records to the launch unit. -/
def releaseWaiters (p : Nat) (s : State) : State :=
  let ws := ((s.dieAt (homeDie p)).waiters.filter fun w => w.1 == p).map (·.2)
  let s := s.modDie (homeDie p) fun d => { d with waiters := d.waiters.filter fun w => w.1 != p }
  ws.foldl (fun t w => match w with
    | .desc core gang d => t.modPkg fun g => { g with wakes := g.wakes ++ [(p, core, gang, d)] }
    | .launch gang => t.modPkg fun g =>
      { g with launches := mapIf (fun r => r.gang == gang) (wakeRecord s p) g.launches }) s

/-- The word of a tenant's atomic at its home, as one indivisible step: the old value, the flags, the new state (R202). A .WAKE
that takes it to zero releases the waiters on the 8-byte counter that it is or lies in (R263, R343). Log entry 106 (DESIGN CHOICE). -/
def atHome (owner : BitVec 3) (float wide wake : Bool) (op p v cmp : Nat) (s : State) : Nat × FFlags × State :=
  let n := if wide then 8 else 4
  let old := s.mem.num p n
  let r := atomicOp float wide op old v cmp
  let s := s.writeFor owner p (toBytesLE n r.1)
  (old, r.2, if wake && old != 0 && r.1 == 0 then releaseWaiters (p - p % 8) s else s)

/-- The checks of an atomic: R340 with no scratchpad and not in the replicated region, then the held word, then .WAKE in the
reduction window (R343). -/
def atomicCheck (s : State) (wide wake : Bool) (va : W64) : Except Stop (Nat × State) :=
  match checkAddress s .atomic (if wide then 8 else 4) false .outside va with
  | .error e => .error e
  | .ok (pl, s1) =>
    if wordHeld s va then raise 0x1B va 0
    else if wake && s.inReduction s.core.tenant va then raise 0x46 va 0
    else match pl with
      | .home p _ => .ok (p, s1)
      | _ => raise 0x12 va 0

/-- A push of the issuing core to a word has not reached it (R232). -/
def pushTo (s : State) (p : Nat) : Bool := s.pkg.pushQ.any fun q => q.core == s.coreId && q.home / 8 == p / 8

/-- What an atomic that returns a value waits for, or its trap: a path to the home where no switch takes it, with no push of its core ahead
of it, and no error in the word's line (R23, R25, R175, R232). -/
def atomicPath (s : State) (wide window : Bool) (va : W64) (p : Nat) : Except Stop Unit :=
  if !window && (!readOpen s s.core.tenant s.die p || pushTo s p) then wait (.path p false)
  else unlessStop (badLines s.badMem p (if wide then 8 else 4)) (raise 0x17 va 0)

/-- A request of the issuing context. -/
def redReq (s : State) (va : W64) (p : Nat) (float wide : Bool) (op : BitVec 4) (v cmp : W64) (answer : Bool) : RedReq :=
  { die := s.die, core := s.coreId, ctx := s.core.cur, tenant := s.core.tenant, gang := s.core.tag, va := va, phys := p,
    wide := wide, float := float, op := op, operand := v, cmp := cmp, answer := answer, seq := s.pkg.nextId }

/-- Send a request to the switch of the issuer's own stack (R210). -/
def sendReduction (r : RedReq) (s : State) : State :=
  (s.modStack (stackOfDie s.die) fun k => { k with switch := k.switch ++ [r] }).modCore (Core.sent 1)

/-- Send a RED to its home (R388). -/
def sendRed (r : RedReq) (s : State) : State :=
  (s.modPkg fun p => { p with reds := p.reds ++ [r], nextId := p.nextId + 1 }).modCore (Core.sent 1)

/-- The `n`-th RED on its way may reach its home: a path is open, and no RED or push of its core is ahead of it (R202, R232). -/
def redDue (s : State) (n : Nat) : Bool :=
  match s.pkg.reds[n]? with
  | none => false
  | some r => sendOpen s r.tenant r.die r.phys && !(s.pkg.reds.take n).any (sameWord r) &&
    !s.pkg.pushQ.any fun q => q.core == r.core && q.home / 8 == r.phys / 8 && decide (q.seq < r.seq)

/-- It reaches it. -/
def arriveRed (n : Nat) (s : State) : State :=
  match s.pkg.reds[n]? with
  | none => s
  | some r => if redDue s n then applyRed r (s.modPkg fun p => { p with reds := p.reds.eraseIdx n }) else s

/-- An atomic that returns a value. -/
def atomicOpInstr (float wide wake : Bool) (op : BitVec 4) (d : SReg) (srcs : List Src) (s : State) : Result :=
  finish s (match operands s srcs [d] with
    | .error e => .error e
    | .ok (vs, s1) =>
      let va := val0 vs
      match atomicCheck s1 wide wake va with
      | .error e => .error e
      | .ok (p, s2) =>
        match atomicPath s1 wide (s.inReduction s.core.tenant va) va p with
        | .error e => .error e
        | .ok _ =>
        if s.inReduction s.core.tenant va then
          .ok ((sendReduction (redReq s va p float wide op (val1 vs) (val2 vs) true) (taking srcs s s2)).blockOn (.reduction d srcs))
        else
          let r := atHome s2.core.tenant float wide wake op.toNat p (operandBits wide (val1 vs)) (operandBits wide (val2 vs)) (flushReds p s2)
          let s3 := (r.2.2.roundTrips 1).orFlags s.core.cur r.2.1
          let s4 := if !float && op == 9 then spinNote (r.1 == operandBits wide (val2 vs)) s3 else s3
          .ok (s4.writeS d (atomicReturn float wide op.toNat r.1)).retire)

/-- AMO; CAS also reads sd, its comparand (R343). -/
def execAmo (d : SReg) (l : Bool) (a : SReg) (m : Bool) (b : SReg) (w : Bool) (z : Bool) (o : BitVec 4) : State → Result :=
  atomicOpInstr false z w o d ([⟨a, l⟩, ⟨b, m⟩] ++ if o = 9 then [⟨d, false⟩] else [])

/-- AMOF (R344). -/
def execAmof (d : SReg) (l : Bool) (a : SReg) (m : Bool) (b : SReg) (t : Bool) (o : BitVec 2) : State → Result :=
  atomicOpInstr true t false (o.setWidth 4) d [⟨a, l⟩, ⟨b, m⟩]

/-- An atomic that returns nothing: it is sent, and the instruction retires; it reaches its home, or the switch, later (R388). -/
def reductionInstr (float wide : Bool) (op : BitVec 4) (srcs : List Src) (s : State) : Result :=
  finish s (match operands s srcs [] with
    | .error e => .error e
    | .ok (vs, s1) =>
      let va := val0 vs
      match atomicCheck s1 wide false va with
      | .error e => .error e
      | .ok (p, s2) =>
        let r := redReq s va p float wide op (val1 vs) 0 false
        .ok (if s.inReduction s.core.tenant va then sendReduction r s2 else sendRed r s2).retire)

/-- RED, integer form. -/
def execRedInt (l : Bool) (a : SReg) (m : Bool) (b : SReg) (z : Bool) (o : BitVec 4) : State → Result :=
  reductionInstr false z o [⟨a, l⟩, ⟨b, m⟩]

/-- RED, floating form. -/
def execRedFloat (l : Bool) (a : SReg) (m : Bool) (b : SReg) (t : Bool) (o : BitVec 2) : State → Result :=
  reductionInstr true t (o.setWidth 4) [⟨a, l⟩, ⟨b, m⟩]

/-! Batches of the reduction window (R210) -/

/-- Requests of one kind on one word combine. -/
def sameBatch (a b : RedReq) : Bool :=
  a.phys == b.phys && a.wide == b.wide && a.float == b.float && a.op == b.op && (a.float || decide (a.op.toNat < 8))

/-- Paths of a request: to its own stack's switch, to the switch of the home's stack, to the word at its home, and, where it is
answered, back (R23, R25, R27). Log entry 67 (DEDUCED). -/
def reductionOpen (s : State) (r : RedReq) : Bool :=
  let a := stackOfDie r.die
  let b := stackOfPhys r.phys
  sendOpen s r.tenant r.die (basePlace a) && crosses s r.tenant a b &&
    (match dieOfPhys r.phys with
      | some e => baseSends s r.tenant b && calSends s r.tenant e && (!r.answer || layerSends s r.tenant e)
      | none => true) &&
    (!r.answer || (crosses s r.tenant b a && replyOpen s r.tenant r.die (basePlace a)))

/-- The requests on a word that a switch takes in one frame: in arrival order, as far as the frame reaches (a free choice). Log
entry 14 (DEDUCED). -/
def wordBatch (fresh : Nat) : Nat → List RedReq → List RedReq
  | _, [] => []
  | i, r :: rs => if i ≠ 0 && Config.closeBatch (fresh + i) then [] else r :: wordBatch fresh (i + 1) rs

/-- Two requests go to one aligned word, and they share a byte (R210). -/
def RedReq.onWord (a b : RedReq) : Bool := a.phys == b.phys && a.wide == b.wide
def RedReq.meets (a b : RedReq) : Bool := a.phys / 8 == b.phys / 8 && (a.wide || b.wide || a.phys == b.phys)

/-- The batch of a stack on the word of a request, in merge order: die by die, and within one die in arrival order (R210). A request of
another width on its bytes ends it; another stack may have none yet. -/
def stackBatch (s : State) (k : RedReq) (stack st : Nat) : List RedReq :=
  let q := ((s.stackAt st).switch.filter fun r => k.meets r && reductionOpen s r).takeWhile k.onWord
  sortBy (·.die) (wordBatch (s.fresh + 64 * st) (if st = stack then 0 else 1) q)

/-- Requests in merge order, cut into runs of one kind: what does not combine is applied in its place (R210). -/
def runsOf : List RedReq → List (List RedReq)
  | [] => []
  | r :: rs =>
    match runsOf rs with
    | (k :: ks) :: rest => if sameBatch r k then (r :: k :: ks) :: rest else [r] :: (k :: ks) :: rest
    | _ => [[r]]

/-- Combine an operand into an optional partial, with the flags so far. -/
def combine (k : RedReq) (acc : Option (Nat × FFlags)) (v : Nat) : Option (Nat × FFlags) :=
  match acc with
  | none => some (v, 0)
  | some (x, f) => let r := atomicOp k.float k.wide k.op.toNat x v 0; some (r.1, f ||| r.2)

/-- A partial ahead combined with a stack's own prefix. -/
def joinPartials (k : RedReq) : Option (Nat × FFlags) → Option (Nat × FFlags) → Option (Nat × FFlags)
  | none, b => b
  | a, none => a
  | some (x, f), some (y, g) => let r := atomicOp k.float k.wide k.op.toNat x y 0; some (r.1, f ||| g ||| r.2)

/-- The requests of one stack in merge order, each with the partial ahead of it; and the partial of all. -/
def stackMerge (k : RedReq) (ahead : Option (Nat × FFlags)) :
    List RedReq → Option (Nat × FFlags) → List (RedReq × Option Nat) × Option (Nat × FFlags)
  | [], own => ([], joinPartials k ahead own)
  | r :: rs, own =>
    let rest := stackMerge k ahead rs (combine k own (operandBits k.wide r.operand))
    ((r, (joinPartials k ahead own).map (·.1)) :: rest.1, rest.2)

/-- All stacks in ascending order (R210). -/
def mergeStacks (k : RedReq) : List (List RedReq) → Option (Nat × FFlags) →
    List (RedReq × Option Nat) × Option (Nat × FFlags)
  | [], acc => ([], acc)
  | q :: qs, acc =>
    let r := stackMerge k acc (sortBy (·.die) q) none
    let rest := mergeStacks k qs r.2
    (r.1 ++ rest.1, rest.2)

/-- A request has been taken by the switch; its answer goes to the context that waits for it (R293). -/
def answerReduction (r : RedReq) (v : W64) (f : FFlags) (s : State) : State :=
  let s := tagTaken r.core r.gang s
  if r.answer then
    let swapped := if !r.float && r.op == 9 then some (v.toNat == operandBits r.wide r.cmp) else none
    sendPacket r.core { tenant := r.tenant, gang := r.gang, ctx := r.ctx, body := .value v f swapped } s
  else s

/-- A run is combined, stack by stack, and applied to the word at its home; each request takes its answer (R210, R388). -/
def applyRun (run : List RedReq) (s : State) : State :=
  match run with
  | [] => s
  | k :: _ =>
    let m := mergeStacks k ((List.range 4).map fun st => run.filter fun r => stackOfDie r.die == st) none
    let old := s.mem.num k.phys (if k.wide then 8 else 4)
    let total := match m.2 with
      | none => (old, 0)
      | some (x, f) => let r := atomicOp k.float k.wide k.op.toNat old x (operandBits k.wide k.cmp); (r.1, f ||| r.2)
    m.1.foldl (fun t a =>
      let before := match a.2 with
        | none => old
        | some x => (atomicOp k.float k.wide k.op.toNat old x 0).1
      answerReduction a.1 (atomicReturn k.float k.wide k.op.toNat before) (if k.float then total.2 else 0) t)
      (s.writeFor k.tenant k.phys (toBytesLE (if k.wide then 8 else 4) total.1))

/-- The first request of a switch that a path leads on: its word is batched next. Log entry 104 (DESIGN CHOICE). -/
def nextReduction (s : State) (stack : Nat) : Option RedReq := (s.stackAt stack).switch.find? (reductionOpen s)

/-- The requests that are batched now for the word of the next request of a switch, in merge order: stacks ascending (R210). -/
def batchOf (s : State) (stack : Nat) : List RedReq :=
  match nextReduction s stack with
  | none => []
  | some k => (List.range 4).flatMap (stackBatch s k stack)

/-- REDUCTION_BATCH: one batch on a word, of the switch of a stack and of the other stacks' switches, is combined and applied; operations
that do not combine, and runs of different ones, are applied one after another in merge order (R210, R388). -/
def execReductionBatch (stack : Nat) (s : State) : Result :=
  let batch := batchOf s stack
  let take := fun (k : Stack) => { k with switch := batch.foldl (fun l r => removeOne r l) k.switch }
  .next ((runsOf batch).foldl (fun t run => applyRun run t)
    ((List.range 4).foldl (fun t st => t.modStack st take) s.useFresh))

/-! LDSUM (R208, R366) -/

/-- The held entries of the issuer laid over the word of one die of its stack (R208). -/
def sumHeld (own : Bool) (va : Nat) (es : List SBEntry) (bs : List Byte) : List Byte :=
  overlayHeld (es.filter fun e => own || e.kind == .stk) va bs

/-- One step of the sum over layers. -/
def sumStep (float wide : Bool) (acc : FRes) (x : Nat) : FRes :=
  if float then let r := fAdd (if wide then f64 else f32) .rne acc.1 x; (r.1, acc.2 ||| r.2)
  else (lowBits 64 (acc.1 + x), 0)

/-- The words of the six layers summed from layer 1 upward. -/
def sumLayers (float wide : Bool) : List Nat → FRes
  | [] => (0, 0)
  | x :: xs => xs.foldl (sumStep float wide) (x, 0)

/-- The place that no path of an LDSUM leads to: the switch of its stack, or the word of a layer, which that layer sends to the switch (R15,
R25, R208). -/
def sumClosed (s : State) (off : Nat) : Option Nat :=
  (basePlace (stackOfDie s.die) :: (diesOfStack (stackOfDie s.die)).map fun k => replicaPhys k off).find? fun p =>
    !readOpen s s.core.tenant s.die p

/-- LDSUM with a type: its slot takes a SEQ, each layer's word is read, the switch sums them. Log entry 35 (DEDUCED). -/
def ldsumOp (float wide : Bool) (d : SReg) (l : Bool) (a : SReg) (i : BitVec 10) (s : State) : Result :=
  finish s (match operands s [⟨a, l⟩] [d] with
    | .error e => .error e
    | .ok (vs, s1) =>
      let n := if wide then 8 else 4
      let va := dispAddr (val0 vs) i n
      match checkAddress s1 .load n false .inside va with
      | .error e => .error e
      | .ok (pl, s2) =>
        match pl with
        | .replica off =>
          let ds := diesOfStack (stackOfDie s.die)
          match ds.find? fun k => !(s2.dieAt k).awake with
          | some k => wait (.layer k)
          | none =>
            let held := fun (k i : Nat) => (lastHeld ((heldEntries s).filter fun e => k == s.die || e.kind == .stk) (va.toNat + i)).isSome
            match sumClosed s off with
            | some p => wait (.path p false)
            | none =>
            if ds.any fun k => badNeeded (held k) s2.badMem (replicaPhys k off) n then raise 0x17 va 0
            else
              let word := fun k => ofBytesLE (sumHeld (k == s.die) va.toNat (heldEntries s)
                (homeBytes s2 (replicaPhys k off) n))
              let sum := sumLayers float wide (ds.map word)
              let r : FRes := if float && (if wide then f64 else f32).isNaN sum.1 then
                ((if wide then f64 else f32).quiet sum.1, sum.2) else sum
              let s3 := ((s2.modStack (stackOfDie s.die) fun q => { q with seq := q.seq + 1 }).roundTrips 1).orFlags s.core.cur r.2
              .ok ((noteRead va s3).writeS d (BitVec.ofNat 64 r.1)).retire
        | _ => raise 0x19 va 0)

/-- LDSUM.F32. -/
def execLdsumF32 (d : SReg) (l : Bool) (a : SReg) (i : BitVec 10) : State → Result := ldsumOp true false d l a i
/-- LDSUM.F64. -/
def execLdsumF64 (d : SReg) (l : Bool) (a : SReg) (i : BitVec 10) : State → Result := ldsumOp true true d l a i
/-- LDSUM.I64. -/
def execLdsumI64 (d : SReg) (l : Bool) (a : SReg) (i : BitVec 10) : State → Result := ldsumOp false true d l a i

end Sys2Proof.Machine
end

