-- ==== Sys2Proof/Machine/Marks.lean ====
section
/-!
DEFINITION. Marks: region descriptors, cells, deposits, senses, ticks and their intervals (R91–R108).
-/
namespace Sys2Proof.Machine

/-! Region descriptors (R92) -/

def rdBase (d : BitVec 128) : Nat := bitsOf d.toNat 23 0
def rdWidth (d : BitVec 128) : Nat := 2 ^ bitsOf d.toNat 27 24
def rdFade (d : BitVec 128) : Nat := bitsOf d.toNat 31 28
def rdGait (d : BitVec 128) : Nat := bitsOf d.toNat 39 32
def rdPackage (d : BitVec 128) : Bool := bitOf d.toNat 40
def rdLevel (d : BitVec 128) : Nat := bitsOf d.toNat 43 41
def rdRot (d : BitVec 128) : Bool := bitOf d.toNat 44
def rdValid (d : BitVec 128) : Bool := bitOf d.toNat 45
def rdHome (d : BitVec 128) : Nat := bitsOf d.toNat 50 46
def rdAnchor (d : BitVec 128) : Nat := bitsOf d.toNat 61 51
def rdHeight (d : BitVec 128) : Nat := bitsOf d.toNat 87 64
def rdCells (d : BitVec 128) : Nat := rdWidth d * rdHeight d

/-- A tenant's descriptor; it reads as zero where none is installed (R92). -/
def State.region (s : State) (t : BitVec 3) (r : Byte) : BitVec 128 :=
  match s.tenant? t with
  | some x => (x.regions.lookup r).getD 0
  | none => 0

/-! Cells: (V, D) at die × 2^23 + half the byte offset (R91) -/

abbrev Cells := List (Nat × BitVec 16 × BitVec 16)

def cellKey (d : BitVec 128) (c : Nat) : Nat := rdHome d * 2 ^ 23 + rdBase d / 2 + c

def cellGet (m : Cells) (k : Nat) : BitVec 16 × BitVec 16 := (m.lookup k).getD (0, 0)

/-- Replace a cell; cells with V = D = 0 are not listed. -/
def cellSet (k : Nat) (v : BitVec 16 × BitVec 16) (m : Cells) : Cells :=
  let rest := m.filter fun c => c.1 != k
  if v.1 = 0 ∧ v.2 = 0 then rest else insertBy (·.1) (k, v.1, v.2) rest

def State.modCells (f : Cells → Cells) (s : State) : State := s.modPkg fun p => { p with marks := f p.marks }

def sat16 (n : Nat) : BitVec 16 := BitVec.ofNat 16 (Nat.min n 65535)
/-- Fade(m, k) (R12). -/
def fade (m k : Nat) : Nat := m * (16 - k) / 16

/-- The run state of a region. -/
def State.markRun (s : State) (t : BitVec 3) (r : Byte) : MarkRun :=
  (s.pkg.markRuns.find? fun x => x.tenant == t && x.region == r).getD
    { tenant := t, region := r, tick := 0, trigs := [], held := [] }

def State.setMarkRun (x : MarkRun) (s : State) : State :=
  s.modPkg fun p => { p with markRuns := x :: p.markRuns.filter fun y => !(y.tenant == x.tenant && y.region == x.region) }

/-! Mark addresses (R95) -/

def maRegion (a : W64) : Byte := BitVec.ofNat 8 (bitsOf a.toNat 31 24)
def maCell (a : W64) : Nat := bitsOf a.toNat 23 0

/-- The checks of R95 against the descriptor table; `cell` says whether the index is checked. -/
def markCheck (s : State) (a : W64) (cell : Bool) : Except Stop (BitVec 128) :=
  let d := s.region s.core.tenant (maRegion a)
  let at_ : W64 := BitVec.ofNat 64 (bitsOf a.toNat 31 0)
  if !rdValid d then raise 0x28 at_ 0
  else if cell && decide (rdCells d ≤ maCell a) then raise 0x29 at_ 0
  else if !rdPackage d && rdHome d != s.die then raise 0x2A at_ 0
  else .ok d

/-- A request leaves the core, behind its earlier ones (R98). Log entry 13 (DEDUCED). -/
def sendMark (op : MarkOp) (s : State) : State :=
  s.modCore fun c => { c.sent 1 with markQ := c.markQ ++ [{ tenant := c.tenant, gang := c.tag, ctx := c.cur, op := op }] }

/-! The instructions -/

/-- MDEP: saturate, check, send, retire (R104, R369). -/
def execMdep (l : Bool) (a : SReg) (m : Bool) (b : SReg) (s : State) : Result :=
  finish s (match operands s [⟨a, l⟩, ⟨b, m⟩] [] with
    | .error e => .error e
    | .ok (vs, s1) =>
      match markCheck s1 (val0 vs) true with
      | .error e => .error e
      | .ok _ => .ok (sendMark (.deposit (val0 vs) (Nat.min (val1 vs).toNat 65535)) s1).retire)

/-- A mark instruction that stalls until it is served: its request is sent, and its entries are taken (R42). -/
def markStall (d : SReg) (x : Src) (op : W64 → MarkOp) (s : State) : Result :=
  finish s (match operands s [x] [d] with
    | .error e => .error e
    | .ok (vs, s1) =>
      match markCheck s (val0 vs) true with
      | .error e => .error e
      | .ok _ => .ok ((sendMark (op (val0 vs)) (taking [x] s s1)).blockOn (.mark d [x])))

/-- MSENSE.MAX (R105, R379). -/
def execMsenseMax (d : SReg) (l : Bool) (a : SReg) (k : BitVec 12) : State → Result :=
  markStall d ⟨a, l⟩ fun va => .sense va k false

/-- MSENSE.MIN (R105, R379). -/
def execMsenseMin (d : SReg) (l : Bool) (a : SReg) (k : BitVec 12) : State → Result :=
  markStall d ⟨a, l⟩ fun va => .sense va k true

/-- MREAD (R106, R377). -/
def execMread (d : SReg) (l : Bool) (a : SReg) (_ : Bool) : State → Result :=
  markStall d ⟨a, l⟩ fun va => .read va

/-- MTICK: only the region and its scope are checked (R107, R382). -/
def execMtick (l : Bool) (a : SReg) (_ : Bool) (s : State) : Result :=
  finish s (match operands s [⟨a, l⟩] [] with
    | .error e => .error e
    | .ok (vs, s1) =>
      match markCheck s1 (val0 vs) false with
      | .error e => .error e
      | .ok _ => .ok (sendMark (.tick (val0 vs)) s1).retire)

/-! Senses (R101, R102, R105) -/

/-- The cell of an offset, where it is not excluded (R101). -/
def neighbour (w h c n : Nat) : Option Nat :=
  let y := c / w
  let x := c % w
  let up := y != 0
  let down := decide (y + 1 < h)
  let left := x != 0
  let right := decide (x + 1 < w)
  match n with
  | 0 => if up then some (c - w) else none
  | 1 => if right then some (c + 1) else none
  | 2 => if down then some (c + w) else none
  | 3 => if left then some (c - 1) else none
  | 4 => if up && right then some (c - w + 1) else none
  | 5 => if down && right then some (c + w + 1) else none
  | 6 => if down && left then some (c + w - 1) else none
  | 7 => if up && left then some (c - w - 1) else none
  | 8 => if c + 1 < w * h then some (c + 1) else none
  | 9 => if 1 ≤ c then some (c - 1) else none
  | 10 => if c + 2 < w * h then some (c + 2) else none
  | 11 => if 2 ≤ c then some (c - 2) else none
  | _ => none

/-- The candidates of a mask: offset and cell, by ascending offset. -/
def candidates (d : BitVec 128) (c : Nat) (mask : BitVec 12) : List (Nat × Nat) :=
  (List.range 12).filterMap fun n =>
    if mask.getLsbD n then (neighbour (rdWidth d) (rdHeight d) c n).map fun k => (n, k) else none

/-- Rotate a list. -/
def rotate {α : Type} (k : Nat) (l : List α) : List α := l.drop k ++ l.take k

/-- The result of a sense over (offset, value) pairs (R102, R105). -/
def senseResult (rot wantMin : Bool) (tid : Nat) (cs : List (Nat × Nat)) : W64 :=
  match cs with
  | [] => 0
  | x :: xs =>
    let best := xs.foldl (fun b y => if wantMin then Nat.min b y.2 else Nat.max b y.2) x.2
    let order := if rot then rotate (tid % cs.length) cs else cs
    match order.find? fun y => y.2 == best with
    | some p => BitVec.ofNat 64 (2 ^ 20 + p.1 * 2 ^ 16 + p.2)
    | none => 0

/-- The mark address of a request, bits 31:0 of its register (R95). -/
def MarkOp.addr (op : MarkOp) : W64 :=
  let low := fun (a : W64) => BitVec.ofNat 64 (bitsOf a.toNat 31 0)
  match op with
  | .deposit a _ => low a
  | .sense a _ _ => low a
  | .read a => low a
  | .tick a => low a
  | .notice r _ => BitVec.ofNat 64 (r.toNat * 2 ^ 24)

/-- The cells a request reads. -/
def cellsRead (d : BitVec 128) (op : MarkOp) : List Nat :=
  match op with
  | .sense a mask _ => (candidates d (maCell a) mask).map (·.2)
  | .read a => [maCell a]
  | _ => []

/-- The value of a sense or read by thread `tid` (R105, R106). -/
def cellsValue (d : BitVec 128) (tid : Nat) (m : Cells) (op : MarkOp) : W64 :=
  let value := fun c => (cellGet m (cellKey d c)).1.toNat
  match op with
  | .sense a mask wantMin => senseResult (rdRot d) wantMin tid ((candidates d (maCell a) mask).map fun x => (x.1, value x.2))
  | .read a => BitVec.ofNat 64 (value (maCell a))
  | _ => 0

/-- Serve one request of core `core` at its home (R96, R100, R105, R106). Ticks and notices are no requests of cells. Of several
candidate cells in error the one with the lowest offset number is reported. Log entry 71 (DESIGN CHOICE). A request that arrives when its region has been removed or
rewritten goes by the descriptor then found. Log entry 72 (DESIGN CHOICE). -/
def serveMark (core : Nat) (m : MarkMsg) (s : State) : State :=
  let d := s.region m.tenant (maRegion m.op.addr)
  match m.op with
  | .deposit a n =>
    let k := cellKey d (maCell a)
    let c := cellGet s.pkg.marks k
    s.modCells (cellSet k (c.1, sat16 (c.2.toNat + n)))
  | .tick _ => s
  | .notice .. => s
  | op =>
    let body := match (cellsRead d op).find? fun c => s.pkg.badMarks.contains (cellKey d c) with
      | some c => PacketBody.fault 0x2B (BitVec.ofNat 64 (bitsOf op.addr.toNat 31 24 * 2 ^ 24 + c)) 0
      | none => .value (cellsValue d (tidOf core m.ctx) s.pkg.marks op) 0 none
    sendPacket core { tenant := m.tenant, gang := m.gang, ctx := m.ctx, body := body } s

/-- The request is answered with a value or a fault. -/
def MarkOp.answered : MarkOp → Bool
  | .sense .. => true
  | .read .. => true
  | _ => false

def MarkOp.regionOf : MarkOp → Byte
  | .deposit a _ => maRegion a
  | .sense a _ _ => maRegion a
  | .read a => maRegion a
  | .tick a => maRegion a
  | .notice r _ => r

/-! Ticks (R94, R96–R98, R100) -/

/-- Fade one listed cell of a region and add its sum; a cell in error takes its sum alone (R96, R100). -/
def tickCell (s : State) (d : BitVec 128) (c : Nat × BitVec 16 × BitVec 16) : Nat × BitVec 16 × BitVec 16 :=
  if cellKey d 0 ≤ c.1 && decide (c.1 < cellKey d (rdCells d)) then
    let kept := if s.pkg.badMarks.contains c.1 then 0 else fade c.2.1.toNat (rdFade d)
    (c.1, sat16 (kept + c.2.2.toNat), 0)
  else c

/-- Apply one tick to every cell of a region; the cells found in error are reported to the management processor, and what the tick
writes to them is without error (R100). Log entry 64 (DEDUCED). -/
def tickCells (t : BitVec 3) (r : Byte) (s : State) : State :=
  let d := s.region t r
  let inside := fun (k : Nat) => cellKey d 0 ≤ k && decide (k < cellKey d (rdCells d))
  let s := s.modHost fun h => { h with markErrors := h.markErrors ++ s.pkg.badMarks.filter inside }
  let s := s.modPkg fun p => { p with
    marks := (p.marks.map (tickCell s d)).filter (fun c => !(c.2.1 == 0 && c.2.2 == 0))
    badMarks := p.badMarks.filter fun k => !inside k }
  s.setMarkRun { s.markRun t r with tick := (s.markRun t r).tick + 1 }

/-- A member of a superstep has departed, with no end notice of it on its way (R97). -/
def MarkTrig.departed (s : State) (r : Byte) (x : MarkTrig) (core : Nat) : Bool :=
  (match s.gangOf x.gang with
    | some g => g.ended.contains core || !g.cores.contains core
    | none => true) &&
  !((s.coreAt core).markQ.any fun m => m.op == .notice r x.id)

/-- The notices of every present member have arrived (R97). -/
def MarkTrig.complete (s : State) (r : Byte) (x : MarkTrig) : Bool :=
  x.members.all fun k => x.notices.contains k || x.departed s r k

/-- The domain tick of a region that falls next: the first whose notices have arrived (R98). -/
def nextTick (s : State) (t : BitVec 3) (r : Byte) : Option MarkTrig := (s.markRun t r).trigs.find? fun x => x.complete s r

def domainTickDue (s : State) (t : BitVec 3) (r : Byte) : Bool := (nextTick s t r).isSome

def MarkOp.isTick : MarkOp → Bool
  | .tick _ => true
  | _ => false

/-- The domain tick that falls next, with the release of what was held for it: requests of cells into the new interval, then held
ticks, before any later tick (R98). A superstep whose members have all departed before its end triggers none (R97). -/
def applyDomainTick (t : BitVec 3) (r : Byte) (s : State) : State :=
  let run := s.markRun t r
  match nextTick s t r with
  | none => s
  | some x =>
    let s := if x.notices.isEmpty then s else tickCells t r s
    let held := run.held.map fun h => (h.1, h.2.1, h.2.2.filter fun y => y != x.id)
    let mine := held.filter fun h => h.2.2.isEmpty
    let s := s.setMarkRun { s.markRun t r with
      trigs := run.trigs.filter fun y => y.id != x.id, held := held.filter fun h => !h.2.2.isEmpty }
    let s := (mine.filter fun h => !h.2.1.op.isTick).foldl (fun u h => serveMark h.1 h.2.1 u) s
    (mine.filter fun h => h.2.1.op.isTick).foldl (fun u _ => tickCells t r u) s

/-- The triggers that a gang's requests from a core wait for: each of that gang whose exchange phase the core has ended (R98).
Log entry 85 (DEDUCED). -/
def MarkRun.waitsFor (run : MarkRun) (core : Nat) (gang : Half) : List Nat :=
  (run.trigs.filter fun x => x.gang.setWidth 16 == gang && x.notices.contains core).map (·.id)

/-- A request of a core reaches the home mark unit of its region, and what it asks for comes back (R15, R23, R95). -/
def markOpen (s : State) (core : Nat) (m : MarkMsg) : Bool :=
  let home := diePlace (rdHome (s.region m.tenant m.op.regionOf))
  sendOpen s m.tenant (dieOfCore core) home && (!m.op.answered || replyOpen s m.tenant (dieOfCore core) home)

/-- The next request of a core reaches its home, where a path is open: it is held for a tick, or `act` takes it (R98). -/
def arriveMark (core : Nat) (act : MarkMsg → State → State) (s : State) : State :=
  match (s.coreAt core).markQ with
  | [] => s
  | m :: rest =>
    if markOpen s core m then
      let s := tagTaken core m.gang (s.modCoreAt core fun c => { c with markQ := rest })
      let run := s.markRun m.tenant m.op.regionOf
      match run.waitsFor core m.gang with
      | [] => act m s
      | ids => s.setMarkRun { run with held := run.held ++ [(core, m, ids)] }
    else s

/-- MARK_DEPOSIT_APPLY: the next request of a core, a deposit, arrives (R96, R98). -/
def execMarkDepositApply (core : Nat) (s : State) : Result :=
  .next (match (s.coreAt core).markQ with
    | { op := .deposit .., .. } :: _ => arriveMark core (serveMark core) s
    | _ => s)

/-- MARK_SENSE_SERVE: the next request of a core, a sense or read, is served or held (R98, R105, R106). -/
def execMarkSenseServe (core : Nat) (s : State) : Result :=
  .next (match (s.coreAt core).markQ with
    | { op := .sense .., .. } :: _ => arriveMark core (serveMark core) s
    | { op := .read .., .. } :: _ => arriveMark core (serveMark core) s
    | _ => s)

/-- A trigger that has just become complete stands behind those that were complete before it, and ahead of the others (R98). -/
def MarkRun.completed (s : State) (id : Nat) (run : MarkRun) : MarkRun :=
  match run.trigs.find? fun x => x.id == id with
  | none => run
  | some x =>
    if x.complete s run.region then
      let rest := run.trigs.filter fun y => y.id != id
      { run with trigs := (rest.filter fun y => y.complete s run.region) ++ x :: rest.filter fun y => !y.complete s run.region }
    else run

/-- MARK_END_NOTICE: a member's end notice of a superstep arrives at the home mark unit, behind its earlier requests (R97). -/
def execMarkEndNotice (core : Nat) (s : State) : Result :=
  .next (match (s.coreAt core).markQ with
    | { tenant := t, gang := g, ctx := i, op := .notice r id } :: rest =>
      if markOpen s core { tenant := t, gang := g, ctx := i, op := .notice r id } then
        let s := tagTaken core g (s.modCoreAt core fun c => { c with markQ := rest })
        let note := fun (x : MarkTrig) => { x with notices := core :: x.notices }
        let run := s.markRun t r
        s.setMarkRun (({ run with trigs := mapIf (fun x => x.id == id) note run.trigs } : MarkRun).completed s id)
      else s
    | _ => s)

/-- The cores of a tenant whose next mark request is a tick of a region that reaches its home. -/
def tickRequesters (s : State) (t : BitVec 3) (r : Byte) : List Nat :=
  (s.cores.filter fun c => match c.2.markQ with
    | m :: _ => m.op.isTick && m.op.regionOf == r && m.tenant == t && markOpen s c.1 m
    | [] => false).map (·.1)

/-- MARK_TICK: a domain tick whose notices are complete, or an MTICK that arrives; of several cores' any may be the first
(R96–R98, R107). -/
def execMarkTick (t : BitVec 3) (r : Byte) (s : State) : Result :=
  let cs := tickRequesters s t r
  .next (if domainTickDue s t r then applyDomainTick t r s
    else match cs[Config.pick s.fresh % cs.length]? with
      | some core => arriveMark core (fun _ u => tickCells t r u) s.useFresh
      | none => s)

/-- A released superstep triggers some regions (R97). -/
def triggerAll (t : BitVec 3) (x : MarkTrig) (rs : List Byte) (s : State) : State :=
  rs.foldl (fun u r => u.setMarkRun { u.markRun t r with trigs := (u.markRun t r).trigs ++ [x] }) s

end Sys2Proof.Machine
end

