-- ==== Sys2Proof/Machine/Teams.lean ====
section
/-!
DEFINITION. Teams and harness registers: the team table, generations and their completion, joining and
leaving, barriers, votes, reductions, dissolving and departures (R68–R90, R356, R399–R408). A home handles the
request of an instruction in the step that issues it.
-/
namespace Sys2Proof.Machine

/-! Handles (R68) -/

def handleValid (w : W32) : Bool := w.getLsbD 31
def handleSlot (w : W32) : BitVec 14 := w.setWidth 14
def handleInc (w : W32) : Half := (w >>> 14).setWidth 16
def handleOf (slot : BitVec 14) (inc : Half) : W32 :=
  BitVec.ofNat 32 (slot.toNat + inc.toNat * 2 ^ 14 + 2 ^ 31)

/-- HomeStack(name) (R69). -/
def homeStack (name : W32) : BitVec 2 :=
  name.setWidth 2 ^^^ (name >>> 8).setWidth 2 ^^^ (name >>> 16).setWidth 2 ^^^ (name >>> 24).setWidth 2

/-- The quarter of a slot. -/
def quarterOf (slot : BitVec 14) : Nat := slot.toNat / Config.quarterEntries

/-! The table (R69) -/

def State.team? (s : State) (slot : BitVec 14) : Option TeamEntry := s.pkg.teams.find? fun e => e.slot == slot

def State.setTeam (e : TeamEntry) (s : State) : State :=
  s.modPkg fun p => { p with teams := mapIf (fun x => x.slot == e.slot) (fun _ => e) p.teams }

def State.incOf (s : State) (slot : BitVec 14) : Half := (s.pkg.incs.lookup slot).getD 0

/-- Free an entry: INC rises by 1 (R76). -/
def freeTeam (slot : BitVec 14) (s : State) : State :=
  let inc := s.incOf slot + 1
  s.modPkg fun p => { p with teams := p.teams.filter (fun e => e.slot != slot)
                             incs := (slot, inc) :: p.incs.filter fun x => x.1 != slot }

/-- A handle is stale (R88). -/
def stale (s : State) (h : W32) : Bool :=
  (s.team? (handleSlot h)).isNone || s.incOf (handleSlot h) != handleInc h

/-- The member that is a thread. Log entry 15 (DEDUCED). -/
def TeamEntry.member (e : TeamEntry) (tid : Nat) (gang : Half) : Option Member :=
  e.members.find? fun m => m.tid == tid && m.gang == gang

def TeamEntry.modMember (tid : Nat) (gang : Half) (f : Member → Member) (e : TeamEntry) : TeamEntry :=
  { e with members := mapIf (fun m => m.tid == tid && m.gang == gang) f e.members }

def TeamEntry.dropMember (tid : Nat) (gang : Half) (e : TeamEntry) : TeamEntry :=
  { e with members := e.members.filter fun m => !(m.tid == tid && m.gang == gang) }

/-! Votes and reductions (R83–R85) -/

/-- The kind of an arrival as a number; plain is 0. -/
def kindCode : TeamKind → Nat
  | .plain => 0
  | .vote op _ => 1 + op.toNat
  | .red op ty _ _ => 8 + op.toNat + 4 * ty.toNat

/-- The value of a vote. -/
def voteResult (op : BitVec 2) (cs : List Bool) : Nat :=
  match op.toNat with
  | 0 => boolNat (cs.any id)
  | 1 => boolNat (cs.all id)
  | _ => (cs.filter id).length

/-- Identity(op, type) (R84). -/
def redIdentity (op ty : BitVec 2) : W64 :=
  match ty.toNat, op.toNat with
  | 0, 0 => 0
  | 0, 1 => 0x7FFFFFFFFFFFFFFF
  | 0, _ => 0x8000000000000000
  | _, 0 => 0
  | 1, 1 => 0x7F800000
  | 1, _ => 0xFF800000
  | _, 1 => 0x7FF0000000000000
  | _, _ => 0xFFF0000000000000

/-- Step(op, type, acc, v) (R84). -/
def redStep (op ty : BitVec 2) (acc v : W64) : W64 × FFlags :=
  if ty.toNat = 0 then
    (match op.toNat with
      | 0 => acc + v
      | 1 => if v.slt acc then v else acc
      | _ => if acc.slt v then v else acc, 0)
  else
    let f := if ty.toNat = 1 then f32 else f64
    let r := match op.toNat with
      | 0 => fAdd f .rne acc.toNat v.toNat
      | 1 => fMin f acc.toNat v.toNat
      | _ => fMax f acc.toNat v.toNat
    (BitVec.ofNat 64 r.1, r.2)

/-- The merge of the contributions in order. -/
def redMerge (op ty : BitVec 2) : List W64 → W64 × FFlags
  | [] => (redIdentity op ty, 0)
  | v :: vs => vs.foldl (fun a x => let r := redStep op ty a.1 x; (r.1, a.2 ||| r.2)) (v, 0)

/-- The votes of a generation, and its keyed values in ascending (key, TID); of two with one key and one TID, threads of two gangs that
share a core, the one that joined first comes first. Log entry 84 (DESIGN CHOICE). -/
def votesOf (ms : List Member) : List Bool :=
  ms.filterMap fun m => match m.arrived with
    | some { kind := .vote _ b, .. } => some b
    | _ => none

def valuesOf (ms : List Member) : List W64 :=
  (sortBy (fun x : Nat × W64 => x.1) (ms.filterMap fun m => match m.arrived with
    | some { kind := .red _ _ v k, .. } => some (k.toNat * 65536 + m.tid, v)
    | _ => none)).map (·.2)

/-- What a generation yields: the common result, the flags, and status bits MISMATCH and EMPTY. -/
structure Merge where
  result : W64
  flags : FFlags
  mismatch : Bool
  empty : Bool
  deriving DecidableEq, Repr

/-- The kinds other than plain among the arrivals of a generation that stand. -/
def kindsOf (ms : List Member) : List TeamKind :=
  ms.filterMap fun m => match m.arrived with
    | some a => if kindCode a.kind = 0 then none else some a.kind
    | none => none

/-- The merge of a generation. Where every contributor has departed, the kind is that of the arrivals withdrawn and no
contribution is left (R83, R84, R89). Log entry 17 (DEDUCED). -/
def mergeOf (withdrawn : List TeamKind) (ms : List Member) : Merge :=
  match if (kindsOf ms).isEmpty then withdrawn.take 1 else kindsOf ms with
  | [] => { result := 0, flags := 0, mismatch := false, empty := false }
  | k :: ks =>
    if ks.any fun x => kindCode x != kindCode k then { result := 0, flags := 0, mismatch := true, empty := false }
    else match k with
      | .vote op _ => { result := BitVec.ofNat 64 (voteResult op (votesOf ms)), flags := 0, mismatch := false,
                        empty := (votesOf ms).isEmpty }
      | .red op ty _ _ =>
        let r := redMerge op ty (valuesOf ms)
        { result := r.1, flags := r.2, mismatch := false, empty := (valuesOf ms).isEmpty }
      | .plain => { result := 0, flags := 0, mismatch := false, empty := false }

/-! Status words (R80) -/

def statusWord (departed : Nat) (dissolved mismatch empty : Bool) (gen : Nat) : W64 :=
  BitVec.ofNat 64 (Nat.min departed 65535 + boolNat dissolved * 2 ^ 16 + boolNat mismatch * 2 ^ 17 +
    boolNat empty * 2 ^ 18 + gen % 2 ^ 32 * 2 ^ 32)

def departedOf (e : TeamEntry) (m : Member) : Nat := (e.dep - m.dlast).toNat

/-! Completions (R77, R79, R222) -/

/-- A window has parked entries. -/
def windowParked (s : State) (win : Nat) : Bool := s.pkg.dies.toList.any fun d => d.replay.any fun r => r.win == win

/-- A thread's core can be reached from the team homes of a stack (R15, R232). -/
def memberOpen (s : State) (d : TeamDone) : Bool := replyOpen s d.tenant (dieOfCore (coreOfTid d.tid)) (basePlace d.stack)

/-- The packet of a completion. -/
def sendTeamDone (d : TeamDone) (s : State) : State :=
  match ctxIx (d.tid % 16) with
  | none => s
  | some i =>
    sendPacket (coreOfTid d.tid) { tenant := d.tenant, gang := d.gang, ctx := i,
                                   body := .team d.status d.result d.flags } s

/-- A completion waits: for the parked entries of its window (R222), for bytes inside its release scope that have not reached
their homes, at .SYS for the remote writes of its contributors (R200, R399), and for a path to its member (R15). -/
def doneWaits (s : State) (d : TeamDone) : Bool :=
  windowParked s d.win || !memberOpen s d ||
  (s.pkg.inFlight.any fun c => d.keys.contains c.key &&
    c.entries.any (entryInside d.scope.toNat (dieOfCore c.core))) ||
  (d.scope == 5 && d.keys.any fun k => s.pkg.host.unacked.any fun u => u.1 == k.tid && u.2 != 0)

/-- Send a completion, or keep it while it waits. -/
def complete (d : TeamDone) (s : State) : State :=
  if doneWaits s d then s.modPkg fun p => { p with teamDone := p.teamDone ++ [d] } else sendTeamDone d s

/-- Send every kept completion that waits no longer. -/
def sendReady (s : State) : State :=
  let ready := s.pkg.teamDone.filter fun d => !doneWaits s d
  ready.foldl (fun t d => sendTeamDone d t)
    (s.modPkg fun p => { p with teamDone := p.teamDone.filter fun d => doneWaits s d })

/-- The result that an arrival of a kind receives. -/
def resultFor (a : TeamArr) (v : W64) : Option W64 := if kindCode a.kind = 0 then none else some v

/-- The status of one arrived member at the completion of the open generation. -/
def formedFor (e : TeamEntry) (g : Merge) (m : Member) : Formed :=
  { win := e.winId, scope := e.scope, keys := e.win.map (·.key), status := statusWord (departedOf e m) false g.mismatch g.empty e.gen, flags := g.flags }

/-- A member after the completion of the open generation: a blocked one is released, a TARR keeps its status. -/
def afterCompletion (e : TeamEntry) (g : Merge) (m : Member) : Member :=
  if m.first ≤ e.gen then
    { m with arrived := none, waiting := false, dlast := e.dep
             tarr := if m.waiting then none else m.tarr.map fun x => (x.1, some (formedFor e g m)) }
  else m

/-- The completions that a generation sends. -/
def completionsOf (e : TeamEntry) (g : Merge) : List TeamDone :=
  e.members.filterMap fun m =>
    match m.arrived with
    | some a =>
      if m.first ≤ e.gen && m.waiting then
        some { stack := quarterOf e.slot, win := e.winId, scope := e.scope, keys := e.win.map (·.key), tenant := e.tenant, tid := m.tid,
               gang := m.gang, status := (formedFor e g m).status,
               result := resultFor a g.result, flags := g.flags }
      else none
    | none => none

/-- Every member of the open generation has arrived (R77). -/
def genComplete (e : TeamEntry) : Bool := e.members.all fun m => decide (e.gen < m.first) || m.arrived.isSome

/-- THE FIVE STEPS OF A COMPLETION (R77); the entry is freed when no member remains (R76). -/
def completeGen (e : TeamEntry) (s : State) : State :=
  let g := mergeOf e.withdrawn (e.members.filter fun m => decide (m.first ≤ e.gen))
  let s := applyWindow e.winId e.win s
  let w := newWindow s
  let e1 := { e with gen := e.gen + 1, winId := e.winNextId, win := e.winNext, winNextId := w.1, winNext := [],
                     withdrawn := [], scope := e.scopeNext, scopeNext := 0, members := e.members.map (afterCompletion e g) }
  let s := w.2.setTeam e1
  let s := if e1.members.isEmpty then freeTeam e.slot (applyWindow e1.winId e1.win s) else s
  (completionsOf e g).foldl (fun t d => complete d t) s

/-- The members still missing from the open generation. -/
def missingOf (e : TeamEntry) : List Member := e.members.filter fun m => decide (m.first ≤ e.gen) && m.arrived.isNone

/-- Every member still missing from the open generation is parked, and one is missing (R90). -/
def wantsResume (e : TeamEntry) : Bool := !(missingOf e).isEmpty && (missingOf e).all fun m => m.parked

/-- A resume request gets from its home to the launch unit (R15, R20). -/
def resumeOpen (s : State) (r : ResumeReq) : Bool := pathOpen s r.tenant (basePlace r.stack) (basePlace 0)

/-- The launch unit takes it: it is to restore the gangs of the members that it names (R90, R253). -/
def takeResume (r : ResumeReq) (s : State) : State :=
  let named (g : Gang) : Bool := g.tenant == r.tenant && r.gangs.contains (g.num.setWidth 16)
  s.modPkg fun p => { p with gangs := mapIf named (fun g => { g with wanted := true }) p.gangs }

/-- Send one, or keep it while no path leads to the launch unit. -/
def sendResume (r : ResumeReq) (s : State) : State :=
  if resumeOpen s r then takeResume r s else s.modPkg fun p => { p with resumes := p.resumes ++ [r] }

/-- Send every kept request whose path is open. -/
def landResumes (s : State) : State :=
  (s.pkg.resumes.filter (resumeOpen s)).foldl (fun t r => takeResume r t)
    (s.modPkg fun p => { p with resumes := p.resumes.filter fun r => !resumeOpen s r })

/-- TEAM-RESUME REQUEST: the home names the missing members to the launch unit (R90). Log entry 65 (DEDUCED). -/
def askResume (e : TeamEntry) (s : State) : State :=
  if wantsResume e then sendResume { stack := quarterOf e.slot, tenant := e.tenant, gangs := (missingOf e).map (·.gang) } s else s

/-- Complete generations as far as their members have arrived; early arrivals can complete the next one at once. Where the
open generation then waits for parked members alone, the home asks for them. -/
def completeGens : Nat → BitVec 14 → State → State
  | 0, _, s => s
  | n + 1, slot, s =>
    match s.team? slot with
    | none => s
    | some e => if genComplete e then completeGens n slot (completeGen e s) else askResume e s

/-! The home's requests (R73, R74, R77, R89) -/

/-- The lowest number that a list does not hold. -/
def lowestFree (used : List Nat) : Nat :=
  ((List.range (used.length + 1)).find? fun k => !used.contains k).getD used.length

/-- How a home answers a HITCH. -/
inductive Joined where
  | no
  | already
  | yes (slot : BitVec 14) (s : State)

def newMember (tid : Nat) (gang : Half) (first : Nat) (dlast : W32) : Member :=
  { tid := tid, gang := gang, first := first, arrived := none, waiting := false, tarr := none, dlast := dlast, parked := false }

/-- A departed leave (R89): arrival and contribution are withdrawn, DEP rises. The scope of the arrival stays in the widest scope of its
generation. Log entry 95 (DESIGN CHOICE). -/
def departMember (slot : BitVec 14) (tid : Nat) (gang : Half) (s : State) : State :=
  match s.team? slot with
  | none => s
  | some e =>
    match e.member tid gang with
    | none => s
    | some m =>
      let gone := if m.first ≤ e.gen then kindsOf [m] else []
      completeGens (e.members.length + 2) slot
        (s.setTeam { e.dropMember tid gang with dep := e.dep + 1, withdrawn := e.withdrawn ++ gone })

/-- A member's parked flag; where all that are missing are now parked, the home asks for them (R90). -/
def parkMember (slot : BitVec 14) (tid : Nat) (gang : Half) (parked : Bool) (s : State) : State :=
  match s.team? slot with
  | none => s
  | some e =>
    let e1 := e.modMember tid gang fun m => { m with parked := parked }
    if parked then askResume e1 (s.setTeam e1) else s.setTeam e1

/-- A message without an answer acts at its home. -/
def TeamNote.act (n : TeamNote) (s : State) : State :=
  match n.parked with
  | none => departMember n.slot n.tid n.gang s
  | some b => parkMember n.slot n.tid n.gang b s

/-- One on its way from a core to the homes of a quarter. -/
def TeamNote.goesTo (core q : Nat) (n : TeamNote) : Bool := coreOfTid n.tid == core && quarterOf n.slot == q

/-- A core's messages reach the homes of a quarter (R15, R23). -/
def quarterOpen (s : State) (core q : Nat) : Bool := sendOpen s (s.coreAt core).tenant (dieOfCore core) (basePlace q)

/-- What a core has sent to the homes of a quarter comes before its next request there (R232). -/
def flushDeparts (core q : Nat) (s : State) : State :=
  let due := s.pkg.departs.filter (TeamNote.goesTo core q)
  if due.isEmpty || !quarterOpen s core q then s
  else due.foldl (fun t n => n.act t) (s.modPkg fun p => { p with departs := p.departs.filter fun n => !n.goesTo core q })

/-- The quarter of the home that a harness register names. -/
def quarterAt (h : BitVec 4) (s : State) : Nat := quarterOf (handleSlot s.ctx.h[h.toNat])

/-- A request of the focused core comes to the home that a harness register names, behind its earlier ones (R232). -/
def atHomeOf (h : BitVec 4) (s : State) : State := flushDeparts s.coreId (quarterAt h s) s

/-- A request of the focused core to the homes of a quarter is answered, or waits for a path there and back (R15, R23). -/
def toQuarter (s : State) (q : Nat) : Except Stop Unit :=
  unlessStop (!readOpen s s.core.tenant s.die (basePlace q)) (wait (.path (basePlace q) false))

/-- The home's part of HITCH (R73). -/
def homeHitch (tenant : BitVec 3) (tid : Nat) (gang : Half) (name : W32) (old new : Bool) (s : State) : Joined :=
  match s.pkg.teams.find? fun e => e.tenant == tenant && e.name == name with
  | none =>
    let q := (homeStack name).toNat
    let here := s.pkg.teams.filter fun e => quarterOf e.slot == q
    let quota := match s.tenant? tenant with | some t => t.spec.teamQuota | none => 0
    let k := lowestFree (here.map fun e => e.slot.toNat % Config.quarterEntries)
    if old || decide (quota ≤ (here.filter fun e => e.tenant == tenant).length) || decide (Config.quarterEntries ≤ k) then .no
    else
      let slot := BitVec.ofNat 14 (q * Config.quarterEntries + k)
      let w0 := newWindow s
      let w1 := newWindow w0.2
      .yes slot (w1.2.modPkg fun p => { p with teams := p.teams ++
        [{ slot := slot, tenant := tenant, name := name, gen := 0, dep := 0, members := [newMember tid gang 0 0], withdrawn := [],
           scope := 0, scopeNext := 0,
           winId := w0.1, win := [], winNextId := w1.1, winNext := [] }] })
  | some e =>
    if new then .no
    else if (e.member tid gang).isSome then .already
    else .yes e.slot (s.setTeam { e with members := e.members ++ [newMember tid gang (e.gen + 1) e.dep] })

/-- The wider of two scopes. -/
def wider (a b : BitVec 3) : BitVec 3 := if a.toNat < b.toNat then b else a

/-- A scope widens the release scope of the open generation, or of the next one (R399). -/
def TeamEntry.widen (next : Bool) (c : BitVec 3) (e : TeamEntry) : TeamEntry :=
  if next then { e with scopeNext := wider e.scopeNext c } else { e with scope := wider e.scope c }

/-- An arrival is counted, and with it generations complete (R77). -/
def homeArrive (slot : BitVec 14) (tid : Nat) (gang : Half) (a : TeamArr) (waits : Bool) (s : State) : State :=
  match s.team? slot with
  | none => s
  | some e =>
    let mark := fun (m : Member) =>
      let g := if m.first ≤ e.gen then e.gen else e.gen + 1
      { m with arrived := some a, waiting := waits, tarr := if waits then m.tarr else some (g, none) }
    let next := match e.member tid gang with | some m => decide (e.gen < m.first) | none => false
    completeGens (e.members.length + 2) slot (s.setTeam ((e.widen next a.scope).modMember tid gang mark))

/-- A leave: the leaver is gone from this generation and the next (R74). -/
def homeLeave (slot : BitVec 14) (tid : Nat) (gang : Half) (s : State) : State :=
  match s.team? slot with
  | none => s
  | some e => completeGens (e.members.length + 2) slot (s.setTeam (e.dropMember tid gang))

/-- Drained entries enter a window of the team: the open generation's, or the next one's (R79). -/
def addToWindow (slot : BitVec 14) (next : Bool) (c : Contribution) (s : State) : State :=
  match s.team? slot with
  | none => s
  | some e => s.setTeam (if next then { e with winNext := e.winNext ++ [c] } else { e with win := e.win ++ [c] })

/-- Drain the issuing context into a window of a team, then go on; a fault of the drain ends the context. Log entry 16 (DEDUCED). Where
a byte inside the arrival's scope, or a page table, has no path, the context waits in `hold`, the state before the instruction. -/
def drainToTeam (slot : BitVec 14) (next : Bool) (scope : BitVec 3) (hold : State) (k : State → State) (s : State) : State :=
  match s.team? slot with
  | none => k s
  | some e =>
    let r := drainInto (if next then e.winNextId else e.winId) s
    let x := splitPath r.1 r.2.2
    let t := addToWindow slot next x.1 x.2
    match drainStop scope.toNat r.1 r.2.1 s with
    | none => k t
    | some (.hold w) => hold.useFresh.blockOn w
    | some (.fault f) => drainDeath f t

/-! The instructions -/

def State.me (s : State) (e : TeamEntry) : Option Member := e.member s.tid s.core.tag

/-- Whether the issuer has an outstanding TARR in a team. -/
def hasTarr (s : State) (e : TeamEntry) : Bool :=
  match s.me e with
  | some m => m.tarr.isSome
  | none => false

/-- Whether the issuer is a member from the next generation only. -/
def isPending (s : State) (e : TeamEntry) : Bool :=
  match s.me e with
  | some m => decide (e.gen < m.first)
  | none => false

/-- What the home of a valid handle finds: the handle's team, or that it is stale (R88, R399). -/
def teamAt (s : State) (h : BitVec 4) : Except Stop (Option TeamEntry) :=
  let w := s.ctx.h[h.toNat]
  if !handleValid w then raise 0x23 0 (h.setWidth 64)
  else match toQuarter s (quarterAt h s) with
    | .error e => .error e
    | .ok _ => .ok (if stale s w then none else s.team? (handleSlot w))

/-- The trap of a refused request: *stale team handle*. -/
def staleTrap (s : State) (h : BitVec 4) : Trap := { code := 0x24, addr := 0, stat := (s.ctx.h[h.toNat]).setWidth 64 }

/-- TeamEntry(h) of R399: the handle's team. -/
def teamEntry (s : State) (h : BitVec 4) : Except Stop TeamEntry :=
  match teamAt s h with
  | .error e => .error e
  | .ok none => .error (.trap (staleTrap s h))
  | .ok (some e) => .ok e

/-- An arrival that its home refuses: the drained entries go back to the overflow log in their order, parked ones among them, and the
instruction traps; a fault of the drain ends the context (R399). Log entry 16 (DEDUCED). -/
def refuseArrival (h : BitVec 4) (s : State) : Except Stop State :=
  let w := newWindow s
  let r := drainInto w.1 w.2
  match r.2.1 with
  | some (.hold w) => wait w
  | some (.fault f) => .ok (drainDeath f r.2.2)
  | none =>
    let back := unpark r.1.drain r.2.2
    .ok (takeTrap (staleTrap s h) (back.2.modCtx (relog (back.1 ++ r.1.entries.map fun e => (e.seq, e.entry)))))

/-- An arrival at the handle's team, or its refusal. -/
def arriveAt (h : BitVec 4) (s : State) (go : TeamEntry → Except Stop State) : Except Stop State :=
  match teamAt s h with
  | .error e => .error e
  | .ok none => refuseArrival h s
  | .ok (some e) => if hasTarr s e then raise 0x25 0 0 else go e

/-- Control or helper, then the sources, then no ordered task (R71, R337, R399). -/
def teamClass (s : State) (w : Option W32) (srcs : List Src) : Except Stop Unit :=
  match notHandler s w with
  | .error e => .error e
  | .ok _ =>
    match checkFreed s (srcs.map (·.reg)) with
    | .error e => .error e
    | .ok _ => notOrdered s w

/-- HITCH (R73, R356). It waits for an entry of a queue source before its own checks. Log entry 70 (DEDUCED). -/
def execHitch (h : BitVec 4) (p : PReg) (l : Bool) (a : SReg) (f : BitVec 2) (s : State) : Result :=
  finish s (match teamClass s (encode (.hitch h p l a f)) [⟨a, l⟩] with
    | .error e => .error e
    | .ok _ =>
      match operands s [⟨a, l⟩] [] with
      | .error e => .error e
      | .ok (vs, s0) =>
        let name : W32 := (val0 vs).setWidth 32
        let s1 := (flushDeparts s0.coreId (homeStack name).toNat s0).roundTrips 1
        if handleValid s1.ctx.h[h.toNat] then raise 0x20 0 0
        else if name = 0 then raise 0x21 0 0
        else match toQuarter s (homeStack name).toNat with
        | .error e => .error e
        | .ok _ =>
        match homeHitch s1.core.tenant s1.tid s1.core.tag name (f.getLsbD 0) (f.getLsbD 1) s1 with
          | .no => .ok (s1.writeP p false).retire
          | .already => raise 0x22 0 0
          | .yes slot s2 =>
            let s3 := s2.modCtx fun c => { c with h := c.h.set h.toNat (handleOf slot (s2.incOf slot)) }
            .ok (s3.writeP p true).retire)

/-- The membership held by a harness register ends (R74, R408): what UNHITCH and QUIT do with one register. -/
def leaveTeam (h : BitVec 4) (scope : BitVec 3) (k : State → State) (s0 : State) : State :=
  let s := (atHomeOf h s0).roundTrips 1
  let w := s.ctx.h[h.toNat]
  let done := fun (t : State) => k (t.modCtx (Ctx.clearH h))
  match toQuarter s0 (quarterAt h s0), s.team? (handleSlot w) with
  | .error e, _ => settle s0.useFresh (.error e)
  | _, none => done s
  | _, some e =>
    if stale s w then done s
    else
      let go := fun (t : State) => done (homeLeave e.slot t.tid t.core.tag t)
      match s.me e with
      | none => done s
      | some m =>
        if m.first ≤ e.gen then
          if m.arrived.isSome then go s
          else drainToTeam e.slot false scope (atHomeOf h s0) go (s.setTeam (e.widen false scope))
        else drainToTeam e.slot false scope (atHomeOf h s0) go s

/-- UNHITCH (R74, R408). -/
def execUnhitch (h : BitVec 4) (l : Bool) (c : BitVec 3) (s : State) : Result :=
  finish s (match teamClass s (encode (.unhitch h l c)) [] with
    | .error e => .error e
    | .ok _ =>
      if !handleValid s.ctx.h[h.toNat] then raise 0x23 0 (h.setWidth 64)
      else .ok (leaveTeam h c State.retire s))

/-- A team instruction takes effect at the home of its handle, behind the earlier requests of its core (R232). -/
def atTeam (h : BitVec 4) (go : State → Except Stop State) (s : State) : Result :=
  let t := atHomeOf h s
  finish t (go t)

/-- An arrival that blocks until its generation completes: its entries are taken at issue (R42). -/
def arriveAndBlock (h : BitVec 4) (sd : SReg) (dests : List SReg) (srcs : List Src) (scope : BitVec 3)
    (kind : List W64 → TeamKind) (w : Option W32) : State → Result :=
  atTeam h fun s => match teamClass s w srcs with
    | .error e => .error e
    | .ok _ =>
      match operands s srcs dests with
      | .error e => .error e
      | .ok (vs, s1) =>
        arriveAt h s fun e => .ok (drainToTeam e.slot (isPending s e) scope s (fun t =>
          homeArrive e.slot t.tid t.core.tag { kind := kind vs, scope := scope } true
            ((t.roundTrips 1).blockOn (.team e.slot h sd srcs))) (taking srcs s s1))

/-- TBAR (R81, R401). -/
def execTbar (h : BitVec 4) (d : SReg) (l : Bool) (c : BitVec 3) : State → Result :=
  arriveAndBlock h d [d] [] c (fun _ => .plain) (encode (.tbar h d l c))

/-- TVOTE (R83, R406). -/
def execTvote (h : BitVec 4) (d : SReg) (l : Bool) (a : SReg) (o : BitVec 2) (c : BitVec 3) : State → Result :=
  arriveAndBlock h d [d, d + 1] [⟨a, l⟩] c (fun vs => .vote o (val0 vs != 0)) (encode (.tvote h d l a o c))

/-- TRED (R84, R405). -/
def execTred (h : BitVec 4) (d : SReg) (l : Bool) (a : SReg) (t : BitVec 2) (o : BitVec 2) (c : BitVec 3) : State → Result :=
  arriveAndBlock h d [d, d + 1] [⟨a, l⟩, ⟨a + 1, l⟩] c
    (fun vs => .red o t (if t = 1 then (val0 vs).setWidth 32 |>.setWidth 64 else val0 vs) ((val1 vs).setWidth 32))
    (encode (.tred h d l a t o c))

/-- TARR (R82, R400). -/
def execTarr (h : BitVec 4) (l : Bool) (c : BitVec 3) : State → Result :=
  atTeam h fun s => match teamClass s (encode (.tarr h l c)) [] with
    | .error e => .error e
    | .ok _ =>
      arriveAt h s fun e => .ok (drainToTeam e.slot (isPending s e) c s (fun t =>
        homeArrive e.slot t.tid t.core.tag { kind := .plain, scope := c } false (t.roundTrips 1).retire) s)

/-- TWAIT (R82, R407): the outstanding TARR is consumed; a completed generation's status is returned at once. -/
def execTwait (h : BitVec 4) (d : SReg) (l : Bool) : State → Result :=
  atTeam h fun s => match teamClass s (encode (.twait h d l)) [] with
    | .error e => .error e
    | .ok _ =>
      match operands s [] [d] with
      | .error e => .error e
      | .ok (_, s0) =>
        let s1 := s0.roundTrips 1
        match teamEntry s h with
        | .error e => .error e
        | .ok e =>
          match (s.me e).bind (·.tarr) with
          | none => raise 0x25 0 0
          | some (_, none) =>
            .ok ((s1.setTeam (e.modMember s.tid s.core.tag fun m => { m with waiting := true, tarr := none })).blockOn
              (.team e.slot h d []))
          | some (_, some f) =>
            let s2 := s1.setTeam (e.modMember s.tid s.core.tag fun m => { m with tarr := none })
            .ok (complete { stack := quarterOf e.slot, win := f.win, scope := f.scope, keys := f.keys, tenant := e.tenant, tid := s.tid, gang := s.core.tag,
                            status := f.status, result := none, flags := f.flags } (s2.blockOn (.team e.slot h d [])))

/-- The word of TINFO (R86). -/
def infoWord (e : TeamEntry) : W64 :=
  let n := (e.members.filter fun m => decide (m.first ≤ e.gen)).length
  BitVec.ofNat 64 (n + (e.members.length - n) * 2 ^ 15 + Nat.min e.dep.toNat 65535 * 2 ^ 32 + e.gen % 2 ^ 16 * 2 ^ 48)

/-- TINFO (R86, R403). -/
def execTinfo (h : BitVec 4) (d : SReg) (l : Bool) : State → Result :=
  atTeam h fun s => match teamClass s (encode (.tinfo h d l)) [] with
    | .error e => .error e
    | .ok _ =>
      match operands s [] [d] with
      | .error e => .error e
      | .ok (_, s1) =>
        match teamEntry s1 h with
        | .error e => .error e
        | .ok e => .ok ((s1.roundTrips 1).writeS d (infoWord e)).retire

/-- The releases of a dissolved team (R87): DISSOLVED, a result of 0, and the generation each member waited for. -/
def dissolvedOf (e : TeamEntry) : List TeamDone :=
  e.members.filterMap fun m =>
    match m.arrived with
    | some a =>
      if m.waiting then
        let pending := decide (e.gen < m.first)
        some { stack := quarterOf e.slot, win := if pending then e.winNextId else e.winId, scope := if pending then e.scopeNext else e.scope,
               keys := (if pending then e.winNext else e.win).map (·.key), tenant := e.tenant, tid := m.tid, gang := m.gang,
               status := statusWord (departedOf e m) true false false (if pending then e.gen + 1 else e.gen),
               result := resultFor a 0, flags := 0 }
      else none
    | none => none

/-- The home dissolves a team (R87). -/
def dissolve (e : TeamEntry) (s : State) : State :=
  let s := applyWindow e.winNextId e.winNext (applyWindow e.winId e.win s)
  (dissolvedOf e).foldl (fun t d => complete d t) (freeTeam e.slot s)

/-- TDROP (R87, R402). -/
def execTdrop (h : BitVec 4) (l : Bool) : State → Result :=
  atTeam h fun s => match teamClass s (encode (.tdrop h l)) [] with
    | .error e => .error e
    | .ok _ =>
      match teamEntry s h with
      | .error e => .error e
      | .ok e => .ok ((dissolve e (s.roundTrips 1)).modCtx (Ctx.clearH h)).retire

/-! Events of a home -/

/-- The parked or resumed notices of the valid harness registers of a context of the focused core (R90). -/
def parkNotices (i : Fin 12) (parked : Bool) (s : State) : State :=
  let send := fun (t : State) (w : W32) =>
    let n : TeamNote := { slot := handleSlot w, tid := tidOf s.coreId i, gang := s.core.tag, parked := some parked }
    flushDeparts s.coreId (quarterOf (handleSlot w)) (t.modPkg fun p => { p with departs := p.departs ++ [n] })
  (s.ctxAt i).h.toList.foldl (fun t w => if handleValid w && !stale t w then (send t w).roundTrips 1 else t) s

/-- The gang tag that the resident core of a thread carries. -/
def tagOfTid (s : State) (tid : Nat) : Half := (s.coreAt (coreOfTid tid)).tag

/-- A TID names a thread that is resident (R9). -/
def isResident (s : State) (t : Nat) : Bool :=
  match ctxIx (t % 16) with
  | some i => decide (t / 16 < Config.cores) && ((s.coreAt (t / 16)).ctxs[i]).live
  | none => false

/-- TEAM_ARRIVAL: the home handles a request of a resident thread that brings no drained entries (R73, R74, R77), behind the
earlier requests of its core (R232). One that names no resident thread has no effect. Log entry 15 (DEDUCED). -/
def execTeamArrival (tenant : BitVec 3) (tid : BitVec 15) (req : TeamReq) (s : State) : Result :=
  let t := tid.toNat
  let behind := fun (q : Nat) => flushDeparts (coreOfTid t) q s
  .next (if !isResident s t then s else match req with
    | .hitch name old new =>
      let u := behind (homeStack name).toNat
      (match homeHitch tenant t (tagOfTid s t) name old new u with
        | .yes _ s1 => s1
        | _ => u)
    | .arrive slot kind scope => homeArrive slot t (tagOfTid s t) { kind := kind, scope := scope } false (behind (quarterOf slot))
    | .leave slot => homeLeave slot t (tagOfTid s t) (behind (quarterOf slot)))

/-- The next message without an answer that a core has sent to the homes of a quarter (R232). -/
def nextNote (s : State) (core q : Nat) : Option TeamNote := s.pkg.departs.find? (TeamNote.goesTo core q)

/-- One reaches its home, where it is the next of its core there. -/
def landNote (slot : BitVec 14) (tid : Nat) (parked : Option Bool) (s : State) : Option State :=
  match nextNote s (coreOfTid tid) (quarterOf slot) with
  | none => none
  | some n =>
    if n.slot = slot ∧ n.tid = tid ∧ n.parked = parked then
      some (n.act (s.modPkg fun p => { p with departs := removeOne n p.departs }))
    else none

/-- TEAM_DEPARTURE: the home performs a departed leave (R89, R232). -/
def execTeamDeparture (slot : BitVec 14) (tid : BitVec 15) (s : State) : Result :=
  .next ((landNote slot tid.toNat none s).getD s)

/-- TEAM_PARKED_NOTICE: a parked or resumed notice reaches the home: one on its way, or one of a resident thread (R90). -/
def execTeamParkedNotice (slot : BitVec 14) (tid : BitVec 15) (parked : Bool) (s : State) : Result :=
  .next ((landNote slot tid.toNat (some parked) s).getD
    (if isResident s tid.toNat then parkMember slot tid.toNat (tagOfTid s tid.toNat) parked s else s))

/-- STORE_REPLAY: the next resolved parked entry of a die is replayed (R222). -/
def execStoreReplay (die : Nat) (s : State) : Result :=
  .next (match nextReplay die s [] (s.dieAt die).replay with
    | none => s
    | some r => replayEntry die r s)

end Sys2Proof.Machine
end

