-- ==== Sys2Proof/Machine/Domains.lean ====
section
/-!
DEFINITION. Synchronisation domains: SYNC, the superstep windows, the release, the exchange phase with XMIT
and XSEL, gathers, and QUIT (R34, R37–R40, R203, R219, R233–R239, R387, R398, R429).
-/
namespace Sys2Proof.Machine

/-! Supersteps (R39) -/

def Core.level (c : Core) : Nat := c.regs.level.toNat

/-- The window of the focused core's superstep has applied, and the core's exchange phase in it has not ended. -/
def windowBehind (s : State) : Bool :=
  s.pkg.steps.any fun x => x.applied && some x.gang == s.core.gang && (x.arrived.map (·.1)).contains s.coreId && !x.ended.contains s.coreId

/-- The level of the superstep whose window the focused core's entries now go to: the one in force, and behind an applied window the
one that the next superstep begins with (R37, R193, R203). -/
def openLevel (s : State) : BitVec 3 := if windowBehind s then s.core.regs.levelNext else s.core.regs.level

/-- The unit of the focused core's domain at a level. -/
def State.unitAt (s : State) (level : BitVec 3) : Nat := s.coreId / unitSize level.toNat

/-- The superstep of the focused core's domain whose window has not applied (R193, R203). -/
def isOpenStep (s : State) (x : Superstep) : Bool :=
  some x.gang == s.core.gang && x.level == openLevel s && x.unit == s.unitAt (openLevel s) && !x.applied

/-- The open superstep of the focused core's domain, a new one where there is none. -/
def openStep (s : State) : Nat × State :=
  match s.pkg.steps.find? (isOpenStep s) with
  | some x => (x.id, s)
  | none =>
    let w := newWindow s
    (w.1, w.2.modPkg fun p => { p with steps := p.steps ++
      [{ id := w.1, gang := s.core.gang.getD 0, level := openLevel s, unit := s.unitAt (openLevel s), arrived := [], contribs := [],
         applied := false, released := false, ended := [], ticks := [] }] })

def State.step? (s : State) (id : Nat) : Option Superstep := s.pkg.steps.find? fun x => x.id == id

def State.setStep (x : Superstep) (s : State) : State :=
  s.modPkg fun p => { p with steps := mapIf (fun y => y.id == x.id) (fun _ => x) p.steps }

/-- The members of a superstep's domain that have not quit or departed (R37, R39). -/
def stepMembers (s : State) (x : Superstep) : List Nat :=
  match s.gangOf x.gang with
  | none => []
  | some g => g.cores.filter fun c => c / unitSize x.level.toNat == x.unit && !g.ended.contains c

def addContrib (id : Nat) (c : Contribution) (s : State) : State :=
  match s.step? id with
  | none => s
  | some x => s.setStep { x with contribs := x.contribs ++ [c] }

/-- The entry of a scatter lane. -/
def laneEntry (wide : Bool) (l : Lane) : WinEntry :=
  let n := if wide then 8 else 4
  { entry := SBEntry.put (l.va.toNat % 8) (toBytesLE n l.data.toNat) { word := l.va.toNat / 8, mask := 0, data := 0, kind := .plain }
    phys := l.home - l.va.toNat % 8, seq := 0 }

/-- A scatter that was sent in the last exchange phase and is not served yet. -/
def Gather.dueScatter (g : Gather) : Bool := g.scat && g.sent && !g.served

/-- Scatters sent in the last exchange phase become entries of the next window, in issue order (R219). -/
def serveScatters (r : CoreRegs) : CoreRegs :=
  { r with scats := r.scats ++ (r.gathers.filter Gather.dueScatter).flatMap fun g => g.lanes.map (laneEntry g.wide)
           gathers := r.gathers.filter fun g => !g.dueScatter }

/-- SYNC (R39, R398): the drain, scatters of the last phase first (R219), then the arrival is sent. It waits where a byte has no
path to its home. -/
def execSync (l : Bool) (m : Bool) (s : State) : Result :=
  finish s (match controlOnly s (encode (.sync l m)) with
    | .error e => .error e
    | .ok _ =>
      if frameActive s.core.regs.frame.word then wait .frameActive
      else if !s.core.entries.isEmpty then wait .vqEmpty
      else
        let w := openStep (s.modRegs serveScatters)
        let r := drainInto w.1 w.2
        let c := { r.1 with scats := w.2.core.regs.scats }
        let s1 := flushAhead c.scats (r.2.2.modRegs fun x => { x with scats := [] })
        match drainStop 5 c r.2.1 s with
        | some (.fault f) =>
          let x := splitPath c s1
          .ok (drainDeath f (addContrib w.1 x.1 x.2))
        | some (.hold w) => wait w
        | none =>
          let a : Arrival := { gang := s.core.gang.getD 0, level := s.core.regs.level, contrib := c }
          .ok ((s1.modCore fun k => { k.sent 1 with arrivals := k.arrivals ++ [a] }).blockOn .sync))

/-- Two units overlap: one holds a core of the other. -/
def overlaps (a : Superstep) (level : BitVec 3) (core : Nat) : Bool :=
  core / unitSize a.level.toNat == a.unit ||
    a.arrived.any fun m => m.1 / unitSize level.toNat == core / unitSize level.toNat

/-- Entries that a failed superstep had drained go back to a context's overflow log in their order, parked ones among them (R40,
R398). -/
def returnEntries (c : Contribution) (gang : W32) (s : State) : State :=
  let back := unpark c.drain s
  modCtxOf c.core gang 0 (relog (back.1 ++ c.entries.map fun e => (e.seq, e.entry)))
    (modRegsOf c.core gang (fun r => { r with scats := c.scats ++ r.scats }) back.2)

/-- The place of a domain's home: a unit of the die that holds the domain, the base die of its stack, or that of the stack of the gang's
first core. Log entry 67 (DESIGN CHOICE). -/
def domainPlace (s : State) (gang : W32) (level core : Nat) : Nat :=
  if level ≤ 2 then diePlace (dieOfCore core)
  else if level = 3 then basePlace (stackOfDie (dieOfCore core))
  else basePlace (stackOfDie (dieOfCore ((s.gangOf gang).bind (·.cores.head?) |>.getD core)))

/-- DOMAIN_MISMATCH: every arriving member traps at its SYNC, nothing applies; what ordered tasks handed over stays (R40). -/
def failStep (x : Superstep) (s : State) : State :=
  let mine := x.contribs.filter fun c => c.ord.isNone
  let s := s.setStep { x with arrived := [], contribs := x.contribs.filter fun c => c.ord.isSome }
  let s := mine.foldl (fun t c => returnEntries c x.gang t) s
  x.arrived.foldl (fun t m => sendPacket m.1
    { tenant := (t.coreAt m.1).tenant, gang := x.gang.setWidth 16, ctx := 0,
      body := .fault 0x07 0 (m.2.setWidth 64) } t) s

/-- What a superstep's home sends reaches every member that has arrived: the release, or a mismatch (R15, R23). -/
def releaseOpen (s : State) (x : Superstep) : Bool :=
  x.arrived.all fun m => replyOpen s (s.coreAt m.1).tenant (dieOfCore m.1) (domainPlace s x.gang x.level.toNat m.1)

/-- The superstep of its gang that an arrival joins. -/
def joins (core : Nat) (a : Arrival) (x : Superstep) : Bool :=
  x.gang == a.gang && !x.applied && x.level == a.level && x.unit == core / unitSize a.level.toNat

/-- The supersteps at another level that an arrival clashes with (R40). -/
def clashes (s : State) (core : Nat) (a : Arrival) : List Superstep :=
  s.pkg.steps.filter fun x => x.gang == a.gang && !x.applied && x.level != a.level && !x.arrived.isEmpty && overlaps x a.level core

/-- The control context of an arrival's core has ended since. -/
def hasLeft (s : State) (core : Nat) (a : Arrival) : Bool :=
  match s.gangOf a.gang with | some g => g.ended.contains core | none => false

/-- An arrival is counted at the domain home (R39 step 3), or fails the superstep (R40). Log entry 18 (DEDUCED). -/
def arriveStep (core : Nat) (a : Arrival) (s : State) : State :=
  let s := s.onCore core fun t => (openStep (t.modCore fun c =>
    { c with gang := some a.gang, regs := { c.regs with level := a.level, levelNext := a.level } })).2.modCore fun _ => t.core
  let left := hasLeft s core a
  let add := fun (x : Superstep) =>
    { x with arrived := x.arrived ++ (if left then [] else [(core, a.level)]), contribs := x.contribs ++ [a.contrib] }
  let s := s.modPkg fun p => { p with steps := mapIf (joins core a) add p.steps }
  let clash := clashes s core a
  if left || clash.isEmpty then s
  else ((s.pkg.steps.filter (joins core a)) ++ clash).foldl (fun t x => failStep x t) s

/-- A path leads an arrival of a core to its domain home (R15, R23), and, where it clashes, the mismatch to every arriving member. -/
def arrivalOpen (s : State) (core : Nat) (a : Arrival) : Bool :=
  let home := domainPlace s a.gang a.level.toNat core
  let clash := clashes s core a
  sendOpen s a.contrib.tenant (dieOfCore core) home && (hasLeft s core a || clash.isEmpty ||
    (replyOpen s a.contrib.tenant (dieOfCore core) home && (s.pkg.steps.filter (joins core a) ++ clash).all (releaseOpen s)))

/-- DOMAIN_ARRIVAL: the oldest arrival of a core reaches its domain home (R39, R40). -/
def execDomainArrival (core : Nat) (s : State) : Result :=
  .next (match (s.coreAt core).arrivals with
    | [] => s
    | a :: rest =>
      if arrivalOpen s core a then arriveStep core a (messageTaken core a.gang (s.modCoreAt core fun c => { c with arrivals := rest })) else s)

/-- Every member has arrived; a domain without members left is complete (R39). -/
def allArrived (s : State) (x : Superstep) : Bool :=
  (stepMembers s x).all fun m => (x.arrived.map (·.1)).contains m

/-- Every member's gathers of the last exchange phase have been served, those in save-area images among them (R219). -/
def gathersServed (s : State) (x : Superstep) : Bool :=
  (stepMembers s x).all fun m => (regsOf s m x.gang).gathers.all fun g => !g.sent || g.served

/-- The window of a superstep may apply. -/
def windowDue (s : State) (x : Superstep) : Bool := !x.applied && allArrived s x && gathersServed s x

/-- COMMIT_WINDOW_APPLY (R39 step 4, R194, R204). -/
def execCommitWindowApply (dom : Nat) (s : State) : Result :=
  .next (match s.step? dom with
    | none => s
    | some x =>
      if windowDue s x then (applySuperstep x.id x.contribs s).setStep { x with applied := true, contribs := [] } else s)

/-- The release may go out: the window has applied with no parked entry left, at a cycle R with R mod 64 = 0, and the
members' last exchange phase is closed (R39, R222, R233). -/
def releaseDue (s : State) (x : Superstep) : Bool :=
  x.applied && !x.released && !windowParked s x.id && s.cycle.toNat % 64 == 0 && releaseOpen s x &&
    !(s.pkg.steps.any fun y => y.released && y.gang == x.gang && y.arrived.any fun m => (x.arrived.map (·.1)).contains m.1)

/-- The regions that the domain of a superstep owns (R94): ANCHOR lies in the domain, at the region's LEVEL. An ANCHOR whose control
context has ended keeps its last LEVEL. A gang that is pre-empted on ANCHOR still owns the region for a superstep of its own that
goes on meanwhile, beside the gang that runs there. Log entry 86 (DESIGN CHOICE). -/
def ownedBy (s : State) (x : Superstep) (g : Gang) (d : BitVec 128) : Bool :=
  rdValid d && g.cores.contains (rdAnchor d) && rdAnchor d / unitSize x.level.toNat == x.unit && rdLevel d == x.level.toNat &&
    ((x.arrived.map (·.1)).contains (rdAnchor d) || (regsOf s (rdAnchor d) x.gang).level == x.level)

/-- The regions that a superstep triggers: those its domain owns with GAIT ≠ 0 and SSTEP mod GAIT = 0 after it (R97). Only regions of
the gang's own tenant are looked at. Log entry 86 (DESIGN CHOICE). -/
def ticksOf (s : State) (x : Superstep) : List Byte :=
  match s.gangOf x.gang with
  | none => []
  | some g =>
    let rs := match s.tenant? g.tenant with | some t => t.regions | none => []
    (rs.filter fun r => ownedBy s x g r.2 && rdGait r.2 != 0 &&
      ((regsOf s (rdAnchor r.2) x.gang).sstep.toNat + 1) % 2 ^ 32 % rdGait r.2 == 0).map (·.1)

/-- SUPERSTEP_RELEASE: every member in the same cycle (R39 step 5), which is R (R233). Log entry 81 (DEDUCED). -/
def execSuperstepRelease (dom : Nat) (s : State) : Result :=
  .next (match s.step? dom with
    | none => s
    | some x =>
      if releaseDue s x then
        let t := match s.gangOf x.gang with | some g => g.tenant | none => 0
        let rs := ticksOf s x
        let trig : MarkTrig := { id := x.id, gang := x.gang, members := x.arrived.map (·.1), notices := [] }
        x.arrived.foldl (fun u m => sendPacket m.1
          { tenant := t, gang := x.gang.setWidth 16, ctx := 0, body := .release s.cycle.toNat } u)
          (triggerAll t trig rs (s.setStep { x with released := true, ticks := rs }))
      else s)

/-- Every member has ended its exchange phase. -/
def stepOver (s : State) (x : Superstep) : Bool :=
  x.released && (x.arrived.map (·.1)).all fun m => x.ended.contains m || !(stepMembers s x).contains m

/-- SSTEP of a gang's core increments, live and in its image (R38). -/
def bumpStep (gang : W32) (core : Nat) (s : State) : State :=
  let up := fun (r : CoreRegs) => { r with sstep := r.sstep + 1 }
  let s := modImage core gang (fun v => { v with regs := v.regs.map up, rest := { v.rest with regs := up v.rest.regs } }) s
  if (s.coreAt core).gang = some gang then s.modCoreAt core fun c => { c with regs := up c.regs } else s

/-- The cores whose SSTEP a superstep raises: its members, and the cores of the domain whose control context has ended. -/
def stepCores (s : State) (x : Superstep) : List Nat :=
  match s.gangOf x.gang with
  | none => []
  | some g => (g.cores.filter fun c => c / unitSize x.level.toNat == x.unit).filter fun c =>
      (x.arrived.map (·.1)).contains c || (g.ended.contains c && (regsOf s c x.gang).level == x.level)

/-- The end of a superstep: SSTEP increments (R38, R39 step 7). -/
def endStep (x : Superstep) (s : State) : State :=
  (stepCores s x).foldl (fun t c => bumpStep x.gang c t)
    (s.modPkg fun p => { p with steps := p.steps.filter fun y => y.id != x.id })

/-- SUPERSTEP_END, where a departure has ended the exchange phase of a domain (R38, R39 step 7). -/
def execSuperstepEnd (dom : Nat) (s : State) : Result :=
  .next (match s.step? dom with
    | none => s
    | some x => if stepOver s x then endStep x s else s)

/-- The superstep whose exchange phase the focused core is in. -/
def phaseOf (s : State) : Option Superstep :=
  s.pkg.steps.find? fun x => x.released && some x.gang == s.core.gang && (x.arrived.map (·.1)).contains s.coreId

/-- The exchange phase of the focused core ends: end notices leave behind its earlier requests, the level written last takes effect,
and with the last member's the superstep ends (R37, R39, R97). Log entry 36 (DEDUCED). -/
def endPhase (s : State) : State :=
  let idle := fun (t : State) => serveNext ((t.modRegs fun r => { r with level := r.levelNext }).modCore fun c =>
    { c with exch := none, exchLast := none, xmits := [], xsels := [] })
  match phaseOf s with
  | none => idle s
  | some x =>
    let y := { x with ended := s.coreId :: x.ended }
    let t := (x.ticks.foldl (fun u r => sendMark (.notice r x.id) u) s).setStep y
    idle (if stepOver t y then endStep y t else t)

/-- Every missing member of a superstep that waits is pre-empted (R40). -/
def stepWants (s : State) (x : Superstep) : Bool :=
  let missing := (stepMembers s x).filter fun m => !(x.arrived.map (·.1)).contains m
  !x.applied && !x.arrived.isEmpty && !missing.isEmpty && missing.all fun m => s.pkg.saved.any fun v => v.core == m && v.gang == x.gang

/-- A resume request of a superstep's home gets to the launch unit (R15, R20). -/
def stepResumes (s : State) (x : Superstep) : Bool :=
  (s.gangOf x.gang).any fun g => pathOpen s g.tenant (domainPlace s x.gang x.level.toNat (x.unit * unitSize x.level.toNat)) (basePlace 0)

/-- DOMAIN_RESUME_REQUEST: the launch unit is asked to restore the missing members (R40, R253). -/
def execDomainResumeRequest (dom : Nat) (s : State) : Result :=
  .next (match s.step? dom with
    | none => s
    | some x => if stepWants s x && stepResumes s x then s.modGang x.gang fun g => { g with wanted := true } else s)

/-! Gathers at their homes (R219, R420) -/

/-- The value of a lane at its home. -/
def laneValue (s : State) (wide : Bool) (l : Lane) : W64 := BitVec.ofNat 64 (s.mem.num l.home (if wide then 8 else 4))

/-- The home of a lane can answer now: its layer is awake, a path is open there and back, its refresh group is not refreshing. -/
def laneReady (s : State) (core : Nat) (l : Lane) : Bool :=
  (refreshing s.cycle l.home).isNone && readOpen s (s.coreAt core).tenant (dieOfCore core) l.home && (match dieOfPhys l.home with
    | some d => (s.dieAt d).awake
    | none => true)

/-- The gathers of a gang's core that have been sent and not served; all of their homes can answer. -/
def gatherReady (s : State) (core : Nat) (gang : W32) : Bool :=
  let gs := (regsOf s core gang).gathers.filter fun g => g.sent && !g.served
  !gs.isEmpty && gs.all fun g => g.scat || g.lanes.all fun l => laneReady s core l

/-- A core's sent gathers can be served. -/
def gatherDue (s : State) (core : Nat) : Bool := (gangsOn s core).any (gatherReady s core)

/-- A lane's line holds an uncorrectable error (R175). -/
def laneBad (s : State) (wide : Bool) (l : Lane) : Bool := badLines s.badMem l.home (if wide then 8 else 4)

/-- Read the lanes of a gather; one in error leaves its element as it is. -/
def readLanes (s : State) (g : Gather) : Gather :=
  let vs := (g.lanes.filter fun l => !laneBad s g.wide l).map fun l => (l.elem, laneValue s g.wide l)
  if g.sent && !g.served then { g with served := true, values := vs } else g

/-- The address of the first lane in error. -/
def badLane (s : State) (gs : List Gather) : Option W64 :=
  gs.findSome? fun g => if g.sent && !g.served && !g.scat then (g.lanes.find? (laneBad s g.wide)).map (·.va) else none

/-- A pending trap of a saved context. -/
def Saved.addTrap (r : TrapRec) (v : Saved) : Saved :=
  let u := v.rest.trap
  { v with rest := { v.rest with trap := { u with pendTraps := insertBy TrapRec.rank r u.pendTraps } } }

/-- A trap of the control context of a gang on a core, live or in its image. -/
def lateTrapOf (core : Nat) (gang : W32) (t : Trap) (s : State) : State :=
  match (imageOf s core gang).bind fun v => (v.ctxs.find? fun c => c.1 == 0) with
  | some c =>
    let r := { issueRec 0 t c.2.pc s.cycle with qhead := true, wait := if c.2.wait = .trapped then .ready else c.2.wait }
    let s := modCtxOf core gang 0 (fun x => { x with wait := .trapped }) s
    modImage core gang (Saved.addTrap r) s
  | none => if (s.coreAt core).gang = some gang then s.onCore core (lateTrap 0 t) else s

/-- The lanes whose requests a gang's gathers have sent and whose values have not come back. -/
def lanesOut (gs : List Gather) : Nat := ((gs.filter fun g => g.sent && !g.served && !g.scat).map fun g => g.lanes.length).sum

/-- The gathers and scatters of one gang's core are served, a gather with one request and one answer for each lane (R219, R220, R293). -/
def serveGathers (core : Nat) (gang : W32) (s : State) : State :=
  let gs := (regsOf s core gang).gathers
  let t := countFor core gang (lanesOut gs) (modRegsOf core gang (fun r =>
    let r := serveScatters r
    { r with gathers := r.gathers.map (readLanes s) }) s)
  match badLane s gs with
  | none => t
  | some va => lateTrapOf core gang { code := 0x17, addr := va, stat := 0 } t

/-- GATHER_SERVE: sent gathers read their homes, sent scatters become entries of the next window (R219). Log entry 12 (DESIGN CHOICE). -/
def execGatherServe (core : Nat) (s : State) : Result :=
  .next (((gangsOn s core).filter (gatherReady s core)).foldl (fun t g => serveGathers core g t) s)

/-! Exchange transfers (R233–R239) -/

/-- occurrence(f, n) of a phase that began at `r`. -/
def occurrence (r f n : Nat) : Nat := r + 64 * (f + 1) + n

/-- The calendar slot of the focused die is an exchange slot of a tenant (R230). -/
def isExchSlot (e : Byte) (t : BitVec 3) : Bool := e.getLsbD 4 && e.getLsbD 3 && e.setWidth 3 == t

/-- The checks of R235 that XMIT and XSEL share, the phase's first cycle being `r`. -/
def exchChecks (s : State) (n f : Nat) (clash full : Bool) : Except Stop Nat :=
  match s.core.exch with
  | none => raise 0x38 0 (BitVec.ofNat 64 n)
  | some r =>
    if !isExchSlot (vget (s.dieAt s.die).cal n 0) s.core.tenant then raise 0x39 0 (BitVec.ofNat 64 n)
    else if occurrence r f n < s.cycle.toNat + 4 then raise 0x3A 0 (BitVec.ofNat 64 n)
    else if clash then raise 0x3B 0 (BitVec.ofNat 64 n)
    else if full then raise 0x3C 0 (BitVec.ofNat 64 n)
    else .ok r

/-- XMIT (R58, R234–R236, R429). -/
def execXmit (n : BitVec 6) (l : Bool) (a : SReg) (m : Bool) (b : SReg) (s : State) : Result :=
  finish s (match controlOnly s (encode (.xmit n l a m b)) with
    | .error e => .error e
    | .ok _ =>
      match operands s [⟨a, l⟩, ⟨b, m⟩] [] with
      | .error e => .error e
      | .ok (vs, s1) =>
        let w := bitsOf (val1 vs).toNat 4 0 + 1
        let f : Byte := (val1 vs >>> 8).setWidth 8
        let armed := s.core.xmits.filter fun x => !x.sent
        match exchChecks s n.toNat f.toNat (s.core.xmits.any fun x => x.slot == n && x.frame == f)
            (decide (Config.exchangeMax ≤ armed.length)) with
        | .error e => .error e
        | .ok _ =>
          let at_ := val0 vs
          if at_.toNat % 8 ≠ 0 then raise 0x10 at_ 8
          else if Nat.min s.core.scratchReq Config.pinnedBase < at_.toNat + 8 * w then raise 0x12 at_ 0
          else
            let x : Xmit := { slot := n, frame := f, addr := at_, words := w, stk := (val1 vs).getLsbD 16 || (val1 vs).getLsbD 17,
                              pkg := (val1 vs).getLsbD 17, sent := false }
            .ok (s1.modCore fun c => { c with xmits := c.xmits ++ [x] }).retire)

/-- XSEL (R58, R234, R235, R237, R429). -/
def execXsel (n : BitVec 6) (l : Bool) (a : SReg) (m : Bool) (b : SReg) (s : State) : Result :=
  finish s (match controlOnly s (encode (.xsel n l a m b)) with
    | .error e => .error e
    | .ok _ =>
      match operands s [⟨a, l⟩, ⟨b, m⟩] [] with
      | .error e => .error e
      | .ok (vs, s1) =>
        let src := bitsOf (val0 vs).toNat 10 0
        let f : Byte := (val0 vs >>> 16).setWidth 8
        let armed := s.core.xsels.filter fun x => !x.done
        match exchChecks s n.toNat f.toNat (s.core.xsels.any fun x => x.slot == n && x.frame == f)
            (decide (Config.exchangeMax ≤ armed.length)) with
        | .error e => .error e
        | .ok _ =>
          let at_ := val1 vs
          if at_.toNat % 8 ≠ 0 then raise 0x10 at_ 8
          else if Nat.min s.core.scratchReq Config.pinnedBase < at_.toNat + 256 then raise 0x12 at_ 0
          else if Config.cores ≤ src then raise 0x3D 0 (n.setWidth 64)
          else .ok (s1.modCore fun c => { c with xsels := c.xsels ++
            [{ slot := n, frame := f, src := src, addr := at_, done := false }] }).retire)

/-- The first cycle at or after `c` that `ok` allows with fewer than `cap` earlier transfers, within `fuel` cycles. -/
def firstSlot (ok : Nat → Bool) (cap : Nat) (used : List Nat) : Nat → Nat → Option Nat
  | 0, _ => none
  | fuel + 1, c =>
    if ok c && decide (used.count c < cap) then some c else firstSlot ok cap used fuel (c + 1)

/-- Give transfers their cycles in order: each takes the first eligible cycle with room at or after its own (R239). -/
def giveSlots {α : Type} (ok : Nat → Bool) (cap : Nat) (start : α → Option Nat) : List Nat → List α → List (α × Option Nat)
  | _, [] => []
  | used, x :: xs =>
    let c := (start x).bind fun k => firstSlot ok cap used (64 * (used.length + 2)) k
    (x, c) :: giveSlots ok cap start (used ++ c.toList) xs

/-- A rein slot of a stack at a cycle is an exchange slot of a tenant with a given owner (R241). -/
def reinExch (s : State) (stack owner : Nat) (t : BitVec 3) (c : Nat) : Bool :=
  let e : Half := vget (s.stackAt stack).slots (c % 64) 7
  e.getLsbD 6 && (e >>> 3).setWidth 3 == t && e.setWidth 3 == BitVec.ofNat 3 owner

def linkExch (s : State) (a b : Nat) (t : BitVec 3) (c : Nat) : Bool :=
  isExchSlot (vget (vget s.pkg.links (linkIx a b) (Vector.replicate 64 0)) (c % 64) 0) t

/-- The transfers of a tenant in order of (c0, source). -/
def transfersOf (s : State) (t : BitVec 3) : List Transfer :=
  sortBy (fun x => x.c0 * 2048 + x.src) (s.pkg.transfers.filter fun x => x.tenant == t)

/-- c1 of R239 for the transfers that one layer puts on its rein. -/
def reinTimes (s : State) (t : BitVec 3) (die : Nat) (ts : List Transfer) : List (Transfer × Option Nat) :=
  giveSlots (reinExch s (stackOfDie die) (die % 6 + 1) t) 16 (fun x => some (x.c0 + 3)) []
    (ts.filter fun x => x.stk && dieOfCore x.src == die)

/-- The layers of a package. -/
def allDies : List Nat := List.range Config.dies

/-- c1 of every transfer that goes to a rein, in order of (c0, source). -/
def allReinTimes (s : State) (t : BitVec 3) (ts : List Transfer) : List (Transfer × Option Nat) :=
  sortBy (fun x => x.1.c0 * 2048 + x.1.src) (allDies.flatMap fun d => reinTimes s t d ts)

/-- c3 of R239 for the transfers that reach a stack over its links. -/
def linkTimes (s : State) (t : BitVec 3) (dest : Nat) (ts : List Transfer) : List (Transfer × Option Nat) :=
  let rs := (allReinTimes s t ts).filter fun x => x.1.pkg && stackOfDie (dieOfCore x.1.src) != dest
  let c2 := ((List.range 4).filter (· != dest)).flatMap fun a =>
    giveSlots (linkExch s a dest t) 4 (fun x : Transfer × Option Nat => x.2.map (· + 2)) []
      (rs.filter fun x => stackOfDie (dieOfCore x.1.src) == a)
  (giveSlots (reinExch s dest 0 t) 16 (fun x : (Transfer × Option Nat) × Option Nat => x.2.map (· + 22)) []
    (sortBy (fun x => x.1.1.c0 * 2048 + x.1.1.src) c2)).map fun x => (x.1.1.1, x.2)

/-- The transfers with the one that a receiver awaits, which stands among them as one that goes as far as the receiver, whether its source
has sent it there or not (R237, R239). -/
def awaited (s : State) (t : BitVec 3) (src c0 : Nat) (slot : BitVec 6) (far : Bool) : List Transfer :=
  let same := fun (x : Transfer) => x.src == src && x.c0 == c0
  if (transfersOf s t).any fun x => same x && (if far then x.pkg else x.stk) then transfersOf s t
  else sortBy (fun x => x.c0 * 2048 + x.src)
    ({ tenant := t, src := src, slot := slot, frame := 0, c0 := c0, words := [], stk := true, pkg := far } ::
      (transfersOf s t).filter fun x => !same x)

/-- The arrival cycle of occurrence cycle `c0` of a source at a receiver; with no eligible slot of the tenant there is none, and
nothing arrives (R15, R25, R239). -/
def arrivalCycle (s : State) (t : BitVec 3) (src dst c0 : Nat) (slot : BitVec 6) : Option Nat :=
  let mine := fun (x : Transfer × Option Nat) => x.1.src == src && x.1.c0 == c0
  let dest := stackOfDie (dieOfCore dst)
  if dieOfCore src = dieOfCore dst then some (c0 + 6)
  else
    let times := if stackOfDie (dieOfCore src) = dest then reinTimes s t (dieOfCore src) (awaited s t src c0 slot false)
      else linkTimes s t dest (awaited s t src c0 slot true)
    ((times.find? mine).bind (·.2)).map (· + 3)

/-- The source of a reception is a member of the receiver's domain in this superstep (R237). -/
def sameDomain (s : State) (src dst : Nat) : Bool :=
  s.pkg.steps.any fun x => x.released && some x.gang == (s.coreAt dst).gang &&
    (x.arrived.map (·.1)).contains src && (x.arrived.map (·.1)).contains dst

/-- The transfer that a reception receives, where a member of its domain has sent one that reaches it. -/
def received (s : State) (x : Xsel) (dst c0 : Nat) : Option Transfer :=
  let t := (s.coreAt dst).tenant
  if (arrivalCycle s t x.src dst c0 x.slot).isSome && sameDomain s x.src dst then
    s.pkg.transfers.find? fun y => y.src == x.src && y.c0 == c0 && y.slot == x.slot && y.tenant == t &&
      (dieOfCore y.src == dieOfCore dst ||
        (if stackOfDie (dieOfCore y.src) = stackOfDie (dieOfCore dst) then y.stk else y.pkg))
  else none

/-- The occurrence cycle of an armed transfer of a core. -/
def c0Of (c : Core) (frame : Byte) (slot : BitVec 6) : Nat := occurrence (c.exch.getD 0) frame.toNat slot.toNat

/-- A cycle of the exchange phase has been reached by a transfer. -/
def Core.reached (cycle : Nat) (c : Core) : Core := { c with exchLast := some (Nat.max cycle (c.exchLast.getD 0)) }

/-- The address of the first word of a transmission that holds an error. -/
def badXmit (c : Core) (x : Xmit) : Option W64 :=
  ((List.range x.words).find? fun i => badBytes c.badScratch (x.addr.toNat + 8 * i) 8).map fun i => x.addr + BitVec.ofNat 64 (8 * i)

/-- The armed receptions that a transfer reaches. -/
def listeners (s : State) (t : Transfer) : Nat :=
  ((s.cores.map fun c => (c.2.xsels.filter fun x => !x.done && received s x c.1 (c0Of c.2 x.frame x.slot) == some t).length)).sum

/-- EXCHANGE_TRANSMIT: at its occurrence the port reads the words and sends them (R236); an error in one is reported to the
control context, and nothing is sent (R159). Each reception that it reaches counts as a packet, and one that reaches none is received
where it is discarded. Log entry 28 (DEDUCED). -/
def execExchangeTransmit (core : Nat) (frame : Byte) (slot : BitVec 6) (s : State) : Result :=
  let c := s.coreAt core
  .next (match c.xmits.find? fun x => x.frame == frame && x.slot == slot && !x.sent with
    | none => s
    | some x =>
      let c0 := c0Of c frame slot
      let words := (List.range x.words).map fun i => BitVec.ofNat 64 (c.scratch.num (x.addr.toNat + 8 * i) 8)
      let t : Transfer := { tenant := c.tenant, src := core, slot := slot, frame := frame, c0 := c0, words := words,
                            stk := x.stk, pkg := x.pkg }
      let old := fun (y : Transfer) => decide (s.cycle.toNat ≤ y.c0 + 65536)
      let gone := fun (k : Core) => { k.reached c0 with xmits := mapIf (fun y => y == x) (fun y => { y with sent := true }) k.xmits }
      match badXmit c x with
      | some va => (s.modCoreAt core gone).onCore core (lateTrap 0 { code := 0x17, addr := va, stat := 0 })
      | none =>
        let s := s.modPkg fun p => { p with transfers := p.transfers.filter old ++ [t] }
        let n := listeners s t
        s.modCoreAt core fun k => ((gone k).sent (Nat.max 1 n)).received (if n = 0 then 1 else 0))

/-- Words written from an address upward, but for those inside some spans. -/
def writeWords (spans : List (Nat × Nat)) : Nat → List W64 → State → State
  | _, [], s => s
  | a, w :: ws, s =>
    writeWords spans (a + 8) ws
      (if spans.any fun b => decide (b.1 ≤ a ∧ a < b.1 + b.2) then s else s.setScratch a (toBytesLE 8 w.toNat))

/-- The spans that receptions with a later occurrence have already written in this phase (R429). -/
def laterSpans (s : State) (core : Nat) (c : Core) (c0 : Nat) : List (Nat × Nat) :=
  c.xsels.filterMap fun y =>
    let d0 := c0Of c y.frame y.slot
    if y.done && decide (c0 < d0) then (received s y core d0).map fun t => (y.addr.toNat, 8 * t.words.length) else none

/-- EXCHANGE_ARRIVAL: at its arrival cycle a reception's words are written, where a transfer came; a word that a later occurrence
has written stays (R237, R429). -/
def execExchangeArrival (core : Nat) (frame : Byte) (slot : BitVec 6) (s : State) : Result :=
  let c := s.coreAt core
  .next (match c.xsels.find? fun x => x.frame == frame && x.slot == slot && !x.done with
    | none => s
    | some x =>
      let c0 := c0Of c frame slot
      let end_ := (arrivalCycle s c.tenant x.src core c0 slot).getD c0
      let gone := fun (k : Core) => { k.reached end_ with xsels := mapIf (fun y => y == x) (fun y => { y with done := true }) k.xsels }
      match received s x core c0 with
      | none => s.modCoreAt core gone
      | some t => (s.onCore core (writeWords (laterSpans s core c c0) x.addr.toNat t.words)).modCoreAt core fun k => (gone k).received 1)

/-- Armed transfers are still to come, or the last of their cycles has not passed (R238). -/
def exchangePending (cycle : Nat) (c : Core) : Bool :=
  (c.xmits.any fun x => !x.sent) || (c.xsels.any fun x => !x.done) || c.exchLast.any fun t => decide (cycle ≤ t)

/-! QUIT (R34, R75, R387) -/

/-- The issuing context ends after its commit. Of a control context the gathers and scatters go, those sent in its exchange phase
too (R219, R387). Log entry 105 (DESIGN CHOICE). -/
def endCtx (s : State) : State :=
  let i := s.core.cur
  let s := s.modCore fun c => { c with copies := mapIf (fun k => k.ctx == i) (fun k => { k with sd := none }) c.copies }
  let s := s.modCtx fun c => { c with ord := none, live := false, instret := c.instret + 1, wait := .ready }
  if i = 0 then
    let s := s.modRegs fun r => { r with
      pacer := { r.pacer with active := false, permits := 0, stream := none }
      role := { stage := 0, en := false, lock := false, pend := false, next := 0 }
      gathers := [], scats := [], gpend := 0 }
    let s := s.modCore fun c => { c with matchTab := [] }
    match s.core.gang with
    | none => s
    | some g => s.modGang g fun x => { x with ended := s.coreId :: x.ended.filter (· != s.coreId) }
  else s

/-- The commit of QUIT, where every byte has a path to its home: an ordered task hands its entries to the open superstep window (R203), any other context
applies its quit window (R193); then the replay queue must be empty. -/
def quitCommit (s : State) : State :=
  let finishUp := fun (t : State) => if (parkedHere t).isEmpty then endCtx t else t.blockOn .replay
  if s.ctx.ord.isSome then
    let w := openStep s
    let r := drainInto w.1 w.2
    match drainStop 5 r.1 r.2.1 s with
    | some (.fault f) =>
      let x := splitPath r.1 r.2.2
      drainDeath f (addContrib w.1 { x.1 with ord := x.1.ord.map fun o => { o with ended := true } } x.2)
    | some (.hold w) => s.useFresh.blockOn w
    | none => finishUp (((addContrib w.1 r.1 r.2.2).modCore fun c => { c with ordf := c.ordf - 1 }).modCtx fun c =>
        { c with ord := none })
  else
    match drainNow 5 s with
    | .fault f s1 => drainDeath f s1
    | .hold w => s.useFresh.blockOn w
    | .done s1 => finishUp s1

/-- UNHITCH.PKG on each valid harness register, in register order, then the rest of QUIT (R75). -/
def leaveAll : List (BitVec 4) → (State → State) → State → State
  | [], k, s => k s
  | h :: hs, k, s =>
    if handleValid s.ctx.h[h.toNat] then leaveTeam h 4 (leaveAll hs k) s else leaveAll hs k s

def allHarness : List (BitVec 4) := (List.range 16).map (BitVec.ofNat 4)

/-- QUIT (R34, R387). -/
def execQuit (l : Bool) (m : Bool) (s : State) : Result :=
  finish s (match notHandler s (encode (.quit l m)) with
    | .error e => .error e
    | .ok _ =>
      if s.isControl && !(liveHelpers s.core).isEmpty then wait .helpers
      else .ok (leaveAll allHarness quitCommit s))

end Sys2Proof.Machine
end

