-- ==== Sys2Proof/Machine/Work.lean ====
section
/-!
DEFINITION. Work queues, dependence counters, channels, stage rings, stage roles and the Wrangler
(R255–R268, R347, R428).
-/
namespace Sys2Proof.Machine

/-! Task descriptors (R255) -/

def descPC (d : BitVec 256) : W64 := d.setWidth 64
def descSTAMP (d : BitVec 256) : W64 := (d >>> 128).setWidth 64
def descWord (d : BitVec 256) : W64 := (d >>> 192).setWidth 64
def descORD (d : BitVec 256) : Bool := (descWord d).getLsbD 0
def descWAIT (d : BitVec 256) : Bool := (descWord d).getLsbD 1
/-- The address of the counter. -/
def descCTR (d : BitVec 256) : W64 := BitVec.ofNat 64 (bitsOf (descWord d).toNat 47 3 * 8)

/-- The first bad byte of a descriptor (R257, R283). Log entry 20 (DEDUCED). -/
def descBad (d : BitVec 256) : Option Nat :=
  let w := descWord d
  if w.getLsbD 2 || (descWAIT d && descCTR d == 0) then some 24
  else if bitsOf w.toNat 55 48 ≠ 0 then some 30
  else if bitsOf w.toNat 63 56 ≠ 0 then some 31
  else none

/-- The address checks of R256, with a size to be aligned to; the first byte decides. Log entry 83 (DEDUCED). -/
def scratchOnly (s : State) (size : Nat) (va : W64) : Except Stop Unit :=
  if va.toNat % size ≠ 0 then raise 0x10 va (BitVec.ofNat 64 size)
  else if Config.scratchBytes ≤ va.toNat || overRequest s va.toNat then raise 0x12 va 0
  else if !s.isHandler && decide (Config.pinnedBase ≤ va.toNat) then raise 0x13 va 0
  else .ok ()

/-- Checked scratchpad bytes of an instruction that reads or writes `n` of them there. -/
def scratchArea (s : State) (size n : Nat) (reads : Bool) (va : W64) : Except Stop Unit :=
  match scratchOnly s size va with
  | .error e => .error e
  | .ok _ =>
    match scratchClear s n (.scratch va.toNat) with
    | .error e => .error e
    | .ok _ => unlessStop (reads && badBytes s.core.badScratch va.toNat n) (raise 0x17 va 0)

/-! Work queues (R257–R261) -/

def Core.ready (c : Core) : Nat := c.work.length

/-- Entries neither held nor reserved. -/
def Core.workFree (c : Core) : Nat := Config.workEntries - c.work.length - c.parked

/-- The answer of a counter's home to a push with WAIT (R257): at the head, refused, or registered. The entry reserved for the
round trip is given back unless the descriptor is registered. -/
def pushAnswer (p : Nat) (d : BitVec 256) (s : State) : Bool × State :=
  if s.mem.num p 8 = 0 then (true, s.modCore fun c => { c with work := d :: c.work, parked := c.parked - 1 })
  else if Config.waiterEntries ≤ (s.dieAt (homeDie p)).waiters.length then (false, s.modCore fun c => { c with parked := c.parked - 1 })
  else (true, s.modDie (homeDie p) fun x => { x with waiters := x.waiters ++ [(p, .desc s.coreId (s.core.gang.getD 0) d)] })

/-- A WPUSH whose descriptor waits for a counter completes with the home's answer (R257), and an HWAIT once its helpers have ended
(R35). -/
def takeAnswer (s : State) : State :=
  match s.ctx.wait with
  | .hwait _ srcs => (endSources srcs s).retire
  | .push w d p x =>
    let r := pushAnswer w d (dropPush s.core.cur ((endSources [x] s).modCore (Core.received 1)))
    ((spinNote r.1 r.2).writeP p r.1).retire
  | _ => s

/-- An earlier push or RED of the core to the same counter has not reached its home (R232). -/
def pushAhead (i : Fin 12) (home : Nat) (s : State) : Bool :=
  ((s.pkg.pushQ.takeWhile fun r => !s.pushMine i r).any fun r => r.core == s.coreId && r.home == home) ||
    (s.pkg.pushQ.find? (s.pushMine i)).any fun q =>
      s.pkg.reds.any fun r => r.goesTo s.coreId s.core.tenant home && decide (r.seq < q.seq)

/-- A push of context `i` of the focused core waits for an answer, it is the next of its core to that counter, and a path leads to the counter's home and back (R15, R23). -/
def pushOpen (i : Fin 12) (s : State) : Bool :=
  (pushHomes i s.core).any fun home => readOpen s s.core.tenant s.die home && !pushAhead i home s

/-- The image on a core of a gang whose context `i` has a push under way. -/
def pushImage (core : Nat) (i : Fin 12) (s : State) : Option Saved :=
  s.pkg.saved.find? fun v => v.core == core && pushes i (imageCore v (s.coreAt core))

/-- The answer reaches the context at place `i` of a core, or its image where it has been saved (R289). -/
def answerPush (core : Nat) (i : Fin 12) (s : State) : State :=
  let take := fun (t : State) => t.onCtx core i (onWaiting takeAnswer)
  match pushes i (s.coreAt core), pushImage core i s with
  | false, some v => onImage v take s
  | _, _ => take s

/-- An answer is due to context `i` of a core, resident or saved. -/
def answerDue (s : State) (core : Nat) (i : Fin 12) : Bool :=
  let t := s.focus core
  ((s.coreAt core).ctxs[i].live && pushOpen i t) || hwaitOver (t.modCore fun c => { c with cur := i }) ||
    (!pushes i (s.coreAt core) && (pushImage core i s).any fun v => pushOpen i (imageState v t))

/-- A request to a counter's home leaves: its entry is reserved, and the context stalls for the answer (R257). -/
def sendPush (w : Nat) (d : BitVec 256) (p : PReg) (x : Src) (s : State) : State :=
  let r : PushReq := { core := s.coreId, gang := s.core.tag, ctx := s.core.cur, home := w, seq := s.pkg.nextId }
  ((s.modCore fun c => ({ c with parked := c.parked + 1 } : Core).sent 1).modPkg fun g => { g with pushQ := g.pushQ ++ [r], nextId := g.nextId + 1 }).blockOn (.push w d p x)

/-- The word of a counter, checked as an atomic of the issuer that is not in the stack-replicated region. -/
def counterPlace (s : State) (d : BitVec 256) : Except Stop (Option Nat × State) :=
  if descWAIT d then
    if wordHeld s (descCTR d) then raise 0x1B (descCTR d) 0
    else match checkAddress s .load 8 false .outside (descCTR d) with
      | .error e => .error e
      | .ok (.home p _, s1) => match readHome s1 (descCTR d) p 8 false false noneOwn with
        | .error e => .error e
        | .ok _ => .ok (some p, s1)
      | .ok _ => raise 0x12 (descCTR d) 0
  else .ok (none, s)

/-- WPUSH and WPUSH.ORD (R257): one whose descriptor waits sends a request, and its answer completes it. Log entry 19 (DEDUCED). -/
def wpushOp (ord : Bool) (p : PReg) (x : Src) (s : State) : Result :=
  finish s (match operands s [x] [] with
    | .error e => .error e
    | .ok (vs, s1) =>
      match scratchArea s1 32 32 true (val0 vs) with
      | .error e => .error e
      | .ok _ =>
        let read := BitVec.ofNat 256 (s1.core.scratch.num (val0 vs).toNat 32)
        let d := if ord then read ||| ((1 : BitVec 256) <<< 192) else read
        match descBad d with
        | some b => raise 0x42 (val0 vs) (BitVec.ofNat 64 b)
        | none =>
          match counterPlace s1 d with
          | .error e => .error e
          | .ok (place, s2) =>
            if s2.core.workFree < s2.core.ordf + 1 then .ok ((spinNote false s2).writeP p false).retire
            else match place with
              | none => .ok ((spinNote true (s2.modCore fun c => { c with work := d :: c.work })).writeP p true).retire
              | some w => .ok (sendPush w d p x (taking [x] s s2)))

/-- WPUSH. -/
def execWpush (p : PReg) (l : Bool) (a : SReg) (_ : Bool) : State → Result := wpushOp false p ⟨a, l⟩
/-- WPUSH.ORD. -/
def execWpushOrd (p : PReg) (l : Bool) (a : SReg) (_ : Bool) : State → Result := wpushOp true p ⟨a, l⟩

/-- The neighbours of a core (R259). -/
def neighbourCore (core n : Nat) : Nat :=
  let d := dieOfCore core
  let c := core % 64
  let here := fun k => d * 64 + k
  match n with
  | 0 => here (Nat.xor c 1)
  | 1 => here (Nat.xor c 2)
  | 2 => here (Nat.xor c 3)
  | 3 => here ((c + 4) % 64)
  | 4 => here ((c + 60) % 64)
  | 5 => here ((c + 16) % 64)
  | 6 => here ((c + 48) % 64)
  | _ => (stackOfDie d * 6 + (d % 6 + 1) % 6) * 64 + c

/-- Another core runs the issuer's gang. -/
def sameGang (s : State) (core : Nat) : Bool := s.core.gang.isSome && (s.coreAt core).gang == s.core.gang

/-- The issuing context may not take an ordered descriptor (R258, R428). -/
def ordBarred (s : State) : Bool :=
  !s.isHelper || !(heldEntries s).isEmpty || (s.ctx.h.toList.any handleValid) || s.ctx.ord.isSome

/-- A taken descriptor makes the issuing context an ordered task where it is marked so (R258). -/
def startOrdered (d : BitVec 256) (s : State) : State :=
  if descORD d then
    (s.modCtx fun c => { c with ord := some { desc := d, sig := 0, ended := false }, tstamp := descSTAMP d }).modCore
      fun c => { c with ordf := c.ordf + 1 }
  else s

/-- ROLE of a core changes, in what SVCTX of its gang's context 0 has written too (R268, R288). -/
def modRole (core : Nat) (f : Role → Role) (s : State) : State :=
  let act := fun (r : CoreRegs) => { r with role := f r.role }
  let t := s.modCoreAt core fun c => { c with regs := act c.regs }
  match (s.coreAt core).gang with
  | some g => if (imageOf s core g).isSome then modImage core g (fun v => { v with regs := v.regs.map act }) t else t
  | none => t

/-- A failing CHGET or WPOP carries out a pending move (R268). -/
def roleMove (s : State) : State :=
  modRole s.coreId (fun r => if r.pend then { r with stage := r.next, pend := false } else r) s

/-- A request of the focused core to a unit of a die is answered, or waits for a path there and back (R15, R23). -/
def toDie (s : State) (die : Nat) : Except Stop Unit :=
  unlessStop (!readOpen s s.core.tenant s.die (diePlace die)) (wait (.path (diePlace die) false))

/-- The shared form of WPOP and WSTEAL: `path` is what the request waits for, `take` gives a descriptor and the state without it. -/
def takeOp (w : Option W32) (d : SReg) (x : Src) (p : PReg) (path : Except Stop Unit) (take : State → Option (BitVec 256 × State))
    (failed : State → State) (s : State) : Result :=
  finish s (match operands s [x] [d] with
    | .error e => .error e
    | .ok (vs, s1) =>
      match scratchArea s1 32 32 false (val0 vs) with
      | .error e => .error e
      | .ok _ =>
        match path with
        | .error e => .error e
        | .ok _ =>
        match take s1 with
        | none => .ok (((spinNote false (failed s1)).writeS d 0).writeP p false).retire
        | some (desc, s2) =>
          if descORD desc && ordBarred s then raise 0x1C 0 ((w.getD 0).setWidth 64)
          else
            let s3 := (startOrdered desc s2).setScratch (val0 vs).toNat (toBytesLE 32 desc.toNat)
            .ok (((spinNote true s3).writeS d (descPC desc)).writeP p true).retire)

/-- The head of the own queue. -/
def takeHead (s : State) : Option (BitVec 256 × State) :=
  match s.core.work with
  | [] => none
  | d :: rest => some (d, s.modCore fun c => { c with work := rest })

/-- The tail of another core's queue, where it runs the issuer's gang. -/
def takeTail (core : Nat) (s : State) : Option (BitVec 256 × State) :=
  if sameGang s core then
    match (s.coreAt core).work.getLast? with
    | none => none
    | some d => some (d, s.modCoreAt core fun c => { c with work := c.work.dropLast })
  else none

/-- WPOP (R258, R268). -/
def execWpop (d : SReg) (l : Bool) (a : SReg) (m : Bool) (p : PReg) : State → Result :=
  takeOp (encode (.wpop d l a m p)) d ⟨a, l⟩ p (.ok ()) takeHead roleMove

/-- WSTEAL (R258). -/
def execWsteal (d : SReg) (l : Bool) (a : SReg) (m : Bool) (p : PReg) (n : BitVec 3) (s : State) : Result :=
  let k := neighbourCore s.coreId n.toNat
  takeOp (encode (.wsteal d l a m p n)) d ⟨a, l⟩ p (toDie s (dieOfCore k)) (fun t => (takeTail k t).map fun x => (x.1, x.2.roundTrips 1))
    (State.roundTrips 1) s

/-- The word of WCNT (R261). -/
def countWord (c : Core) : W64 := BitVec.ofNat 64 (c.ready + c.parked * 2 ^ 16 + c.ordf * 2 ^ 32)

/-- WCNT (R261). -/
def execWcnt (d : SReg) (_ : Bool) (_ : Bool) (n : BitVec 4) (s : State) : Result :=
  finish s (match operands s [] [d] with
    | .error e => .error e
    | .ok (_, s1) =>
      let k := neighbourCore s1.coreId n.toNat
      match if n = 8 then .ok () else toDie s (dieOfCore k) with
      | .error e => .error e
      | .ok _ =>
      let v := if n = 8 then countWord s1.core else if sameGang s1 k then countWord (s1.coreAt k) else 0
      .ok ((if n = 8 then s1 else s1.roundTrips 1).writeS d v).retire)

/-- A released descriptor enters a work queue, into the entry it reserved. -/
def Core.wake (d : BitVec 256) (c : Core) : Core := { c with work := d :: c.work, parked := c.parked - 1 }

/-- A released descriptor reaches its core from the counter's home (R15, R23). -/
def wakeOpen (s : State) (w : Nat × Nat × W32 × BitVec 256) : Bool :=
  let t := match s.gangOf w.2.2.1 with | some g => g.tenant | none => (s.coreAt w.2.1).tenant
  replyOpen s t (dieOfCore w.2.1) w.1

/-- DESCRIPTOR_WAKE: a released descriptor reaches its pusher's queue (R263), which is kept with a pre-empted gang. -/
def execDescriptorWake (core : Nat) (s : State) : Result :=
  .next (match s.pkg.wakes.find? fun w => w.2.1 == core && wakeOpen s w with
    | none => s
    | some w =>
      let d := w.2.2.2
      let s := s.modPkg fun p => { p with wakes := removeOne w p.wakes }
      if (s.coreAt core).gang = some w.2.2.1 then s.modCoreAt core (Core.wake d)
      else
        let mine := fun (v : Saved) => v.core == core && v.gang == w.2.2.1
        s.modPkg fun p => { p with saved := mapIf mine (fun v => { v with rest := v.rest.wake d }) p.saved })

/-! Channels (R264, R347) -/

/-- The rings that a queued word names. -/
def entryRings (w : W32) : List (BitVec 3) :=
  match decode w with
  | .ok (.mma _ a b _ _ _ _ _ _) => [a, b]
  | .ok (.mmas _ a b _ _ _ g _ _) => [a, b, g]
  | .ok (.msm _ g _ _ _) => [g]
  | _ => []

/-- The vector queue names a ring. -/
def queueNames (c : Core) (g : BitVec 3) : Bool := c.entries.any fun e => (entryRings e.word).contains g

/-- A ring register as a channel: idle in the queue, and configured. -/
def ringReady (s : State) (g : BitVec 3) : Except Stop Unit :=
  if queueNames s.core g then wait (.ring g false)
  else if (s.ring g).size = 0 then raise 0x31 0 (g.setWidth 64)
  else .ok ()

/-- Put a complete slot at the tail. -/
def Ring.put (r : Ring) : Ring :=
  let r1 := { r with tail := BitVec.ofNat 8 ((r.tail.toNat + 1) % r.slots), free := r.free - 1 }
  Ring.fill (r.resv ++ [{ owner := 0, slot := r.tail.toNat, done := true }]) r1

/-- A stage ring of the issuer's die, valid for its tenant, once its request gets there (R231, R264). -/
def stageOf (s : State) (n : Nat) : Except Stop Stage :=
  let g := vget (s.dieAt s.die).stages n { valid := false, tenant := 0, dlog := 0, hi := 0, elems := [] }
  if !calSends s s.core.tenant s.die then wait (.path (diePlace s.die) false)
  else if g.valid && g.tenant == s.core.tenant then .ok g else raise 0x43 0 (BitVec.ofNat 64 n)

def State.setStage (die n : Nat) (elems : List W64) (s : State) : State :=
  s.modDie die fun d => { d with stages :=
    match d.stages[n]? with
    | some g => d.stages.setIfInBounds n { g with elems := elems }
    | none => d.stages }

/-- CHPUT (R264). -/
def execChput (p : PReg) (l : Bool) (a : SReg) (_ : Bool) (c : BitVec 6) (s : State) : Result :=
  finish s (match operands s [⟨a, l⟩] [] with
    | .error e => .error e
    | .ok (vs, s1) =>
      if c.toNat < 8 then
        let g : BitVec 3 := c.setWidth 3
        match ringReady s1 g with
        | .error e => .error e
        | .ok _ =>
          let r := s1.ring g
          if r.free = 0 then .ok ((spinNote false s1).writeP p false).retire
          else match scratchClear s1 8 (.scratch (r.slotAddr r.tail.toNat)) with
          | .error e => .error e
          | .ok _ =>
            let s2 := (s1.setScratch (r.slotAddr r.tail.toNat) (toBytesLE 8 (val0 vs).toNat)).modRing g Ring.put
            .ok ((spinNote true s2).writeP p true).retire
      else
        let n := c.toNat - 8
        match stageOf s1 n with
        | .error e => .error e
        | .ok g =>
          if 2 ^ g.dlog.toNat ≤ g.elems.length then .ok ((spinNote false (s1.roundTrips 1)).writeP p false).retire
          else .ok ((spinNote true ((s1.roundTrips 1).setStage s1.die n (g.elems ++ [val0 vs]))).writeP p true).retire)

/-- CHGET (R264, R268). -/
def execChget (d : SReg) (p : PReg) (_ : Bool) (c : BitVec 6) (s : State) : Result :=
  finish s (match operands s [] [d] with
    | .error e => .error e
    | .ok (_, s1) =>
      let fail := fun (t : State) => (((spinNote false (roleMove t)).writeS d 0).writeP p false).retire
      let got := fun (v : W64) (t : State) => (((spinNote true t).writeS d v).writeP p true).retire
      if c.toNat < 8 then
        let g : BitVec 3 := c.setWidth 3
        match ringReady s1 g with
        | .error e => .error e
        | .ok _ =>
          let r := s1.ring g
          let at_ := r.slotAddr r.head.toNat
          if r.filled = 0 then .ok (fail s1)
          else match scratchClear s1 8 (.scratch at_) with
          | .error e => .error e
          | .ok _ =>
          if badBytes s1.core.badScratch at_ 8 then raise 0x17 (BitVec.ofNat 64 at_) 0
          else .ok (got (BitVec.ofNat 64 (s1.core.scratch.num at_ 8)) (s1.modRing g Ring.pop))
      else
        let n := c.toNat - 8
        match stageOf s1 n with
        | .error e => .error e
        | .ok g =>
          match g.elems with
          | [] => .ok (fail (s1.roundTrips 1))
          | v :: rest => .ok (got v ((s1.roundTrips 1).setStage s1.die n rest)))

/-! Roles and the Wrangler (R266–R268) -/

/-- The cores of a die that a tenant's gangs run on and whose ROLE has EN = 1. -/
def roleCores (s : State) (die : Nat) (t : BitVec 3) : List (Nat × Core) :=
  s.cores.filter fun c => dieOfCore c.1 == die && c.2.gang.isSome && c.2.tenant == t && c.2.regs.role.en

/-- occ(s) of a stage ring. -/
def stageOcc (g : Stage) : Nat := g.elems.length * 256 / 2 ^ g.dlog.toNat

/-- The stages a sample counts, with their occupations and thresholds. -/
def sampledStages (s : State) (die : Nat) (t : BitVec 3) : List (Nat × Nat × Nat) :=
  (List.range 16).filterMap fun n =>
    match (s.dieAt die).stages[n]? with
    | some g =>
      if g.valid && g.tenant == t && (roleCores s die t).any fun c => c.2.regs.role.stage.toNat == n then
        some (n, stageOcc g, g.hi.toNat)
      else none
    | none => none

/-- The first element with the largest key. -/
def argMax {α : Type} (key : α → Nat) : List α → Option α
  | [] => none
  | x :: xs => some (xs.foldl (fun b y => if key b < key y then y else b) x)

/-- The first element with the least key. -/
def argMin {α : Type} (key : α → Nat) : List α → Option α
  | [] => none
  | x :: xs => some (xs.foldl (fun b y => if key y < key b then y else b) x)

/-- The move that a sample makes (R267): core, receiving stage and giving stage. -/
def wranglerMove (s : State) (die : Nat) (t : BitVec 3) (sample : Nat) : Option (Nat × Nat × Nat) :=
  let moved := fun (n : Nat) => (s.dieAt die).moves.any fun m => m.1 == n && decide (sample < m.2 + 9)
  let occs := sampledStages s die t
  let cores := roleCores s die t
  match argMax (fun x => x.2.1 - x.2.2) (occs.filter fun x => decide (x.2.2 < x.2.1) && !moved x.1) with
  | none => none
  | some r =>
    let free := fun (n : Nat) => cores.filter fun c => c.2.regs.role.stage.toNat == n && !c.2.regs.role.pend
    match argMin (fun x : Nat × Nat × Nat => x.2.1) (occs.filter fun x => x.1 != r.1 && decide (x.2.1 < r.2.1) && !moved x.1 &&
        decide (2 ≤ (free x.1).length)) with
    | none => none
    | some d =>
      (argMax (fun x : Nat × Core => x.1) ((free d.1).filter fun c => !c.2.regs.role.lock)).map fun c => (c.1, r.1, d.1)

/-- The sample number of the present cycle. -/
def sampleOf (s : State) : Nat := s.cycle.toNat / 1024

/-- A sample of a tenant on a die is due: CYCLE mod 1,024 is 0 (R267). Log entry 23 (DEDUCED). -/
def sampleDue (s : State) (die : Nat) (t : BitVec 3) : Bool :=
  s.cycle.toNat % 1024 == 0 && decide ((((s.dieAt die).sampled.lookup t).getD 0) < sampleOf s) && !(sampledStages s die t).isEmpty

/-- WRANGLER_SAMPLE: one sample of a tenant's stage rings, and at most one move (R267). -/
def execWranglerSample (die : Nat) (t : BitVec 3) (s : State) : Result :=
  let n := sampleOf s
  let s1 := s.modDie die fun d => { d with sampled := (t, n) :: d.sampled.filter fun x => x.1 != t }
  .next (match wranglerMove s die t n with
    | none => s1
    | some (core, r, g) =>
      modRole core (fun x => { x with next := BitVec.ofNat 4 r, pend := true })
        (s1.modDie die fun d => { d with moves := (r, n) :: (g, n) :: d.moves.filter fun m => decide (n < m.2 + 9) }))

end Sys2Proof.Machine
end

