-- ==== Sys2Proof/Machine/Engines.lean ====
section
/-!
DEFINITION. Copies and their status words, conversions, multicast, engine FIFOs and the network engines
(R136, R176, R177, R211, R213–R218, R243–R245, R349–R353, R396, R409, R434).
-/
namespace Sys2Proof.Machine

/-! Descriptors (R176, R350) -/

/-- Bytes `hi:lo` of a descriptor. -/
def descBytes (d hi lo : Nat) : Nat := bitsOf d (8 * hi + 7) (8 * lo)

/-- The rules of R350 that do not ask where an address leads; the reserved bytes are none of its conditions (R6). -/
def copyShape (d : Nat) : Bool :=
  descBytes d 7 0 % 8 == 0 && descBytes d 15 8 % 8 == 0 && descBytes d 19 16 % 8 == 0 && decide (8 ≤ descBytes d 19 16)

/-- A conversion descriptor (R176). -/
structure Csr where
  src : W64
  rows : Nat
  cols : Nat
  stride : Nat
  val : W64
  colidx : W64
  rowptr : W64
  elem : Nat
  first : Nat
  baseidx : Nat
  rest : Nat
  deriving DecidableEq, Repr

def csrOf (d : Nat) : Csr :=
  { src := BitVec.ofNat 64 (descBytes d 7 0), rows := descBytes d 11 8, cols := descBytes d 15 12, stride := descBytes d 23 16,
    val := BitVec.ofNat 64 (descBytes d 31 24), colidx := BitVec.ofNat 64 (descBytes d 39 32),
    rowptr := BitVec.ofNat 64 (descBytes d 47 40), elem := descBytes d 48 48,
    first := descBytes d 59 56, baseidx := descBytes d 63 60, rest := descBytes d 55 49 }

/-- Element bytes of a conversion. -/
def Csr.size (c : Csr) : Nat := if c.elem = 1 then 8 else 4

/-- R176, its reserved bytes zero, with the alignment of the arrays (R177), the source among them. Log entry 103 (DESIGN CHOICE). -/
def Csr.fine (c : Csr) : Bool :=
  decide (1 ≤ c.rows ∧ c.rows < 2 ^ 31) && decide (1 ≤ c.cols) && decide (c.elem ≤ 1) &&
    c.stride % c.size == 0 && decide (c.cols * c.size ≤ c.stride) && c.src.toNat % c.size == 0 &&
    c.val.toNat % c.size == 0 && c.colidx.toNat % 4 == 0 && c.rowptr.toNat % 4 == 0 && decide (c.first < c.rows) && c.rest == 0

/-! Issue (R351, R352) -/

/-- Copies of the issuing context whose status is not written. -/
def outstanding (s : State) : Nat := (s.core.copies.filter fun k => k.ctx == s.core.cur && k.batch.isNone).length

/-- A copy destination register; a status directed at s0 is discarded. -/
def statusReg (d : SReg) : Option SReg := if d = 0 then none else some d

/-- A new copy of the issuing context is sent, and the instruction retires. Its status register, which the status will write, is freed no
more: a read of it blocks (R43, R351). -/
def sendCopy (d : SReg) (mode : BitVec 2) (scope : BitVec 3) (form : CopyForm) (src : W64) (len : Nat) (bad : Bool) (s : State) :
    State :=
  let s := s.modCtx fun c => { c with freed := c.freed &&& ~~~((1 : BitVec 64) <<< d.toNat) }
  (s.modCore fun c => { c with
    nextCopy := c.nextCopy + 1
    copies := c.copies ++ [{ id := c.nextCopy, ctx := c.cur, sd := statusReg d, mode := mode, scope := scope, form := form,
                             src := src, len := len, bad := bad, slot := none, batch := none, sent := false, result := none,
                             moved := [] }] }).retire

/-- The check of the first byte of a source or destination; whether it lies in far memory. -/
def firstByte (s : State) (write : Bool) (va : W64) : Except Stop (Bool × State) :=
  match checkAddress s (.engine write) 1 true .outside va with
  | .error e => .error e
  | .ok (.home p _, s1) => .ok (decide (farBase ≤ p), s1)
  | .ok (_, s1) => .ok (false, s1)

/-- Bytes that a copy of the issuing context will touch: none of them may lie in the scratchpad past the kernel's request and below the
pinned area (R58). Log entry 68 (DEDUCED). -/
def insideRequest (s : State) (va n : Nat) : Except Stop Unit :=
  let first := Nat.max va s.core.scratchReq
  unlessStop (!s.isHandler && decide (first < Config.pinnedBase ∧ first < va + n)) (raise 0x12 (BitVec.ofNat 64 first) 0)

/-- The same of the rows of a conversion's source that it reads. -/
def rowsInside (s : State) (c : Csr) : Except Stop Unit :=
  let width := c.cols * c.size
  let i := Nat.max c.first ((s.core.scratchReq + c.stride - width - c.src.toNat) / c.stride)
  if i < c.rows then insideRequest s (c.src.toNat + i * c.stride) width else .ok ()

/-- The source bytes of a copy of `n` bytes, in a mode. -/
def sourceBytes (n16 far : Bool) (n : Nat) : Nat := if n16 && far then n / 2 else n

/-- A descriptor in the scratchpad below 0x2C000 (R340, R350). -/
def descriptorAt (s : State) (size : Nat) (va : W64) : Except Stop Nat :=
  if va.toNat % size = 0 && decide (va.toNat / 2 ^ 48 ≠ 0) then raise 0x11 va 0
  else if va.toNat % size = 0 && decide (Config.pinnedBase ≤ va.toNat ∧ va.toNat < Config.scratchBytes) && s.isHandler then raise 0x12 va 0
  else match scratchArea s size size true va with
    | .error e => .error e
    | .ok _ => .ok (s.core.scratch.num va.toNat size)

/-- The issue of a copy to a ring (R349–R351). -/
def cpyRing (d : SReg) (n16 : Bool) (scope g : BitVec 3) (va : W64) (s : State) : Except Stop State :=
  if (s.ring g).size = 0 then raise 0x31 0 (g.setWidth 64)
  else if va.toNat % 64 ≠ 0 then raise 0x10 va 64
  else match firstByte s false va with
    | .error e => .error e
    | .ok (far, s1) =>
      match if n16 then .ok () else insideRequest s va.toNat (s.ring g).slotBytes with
      | .error e => .error e
      | .ok _ =>
      if Config.copyMax ≤ outstanding s then wait .copySlots
      else .ok (sendCopy d (if n16 then 1 else 0) scope (.ring g) va (s.ring g).slotBytes (n16 && !far) s1)

/-- The issue of a copy under a descriptor (R350, R351). -/
def cpyPlain (d : SReg) (n16 : Bool) (scope : BitVec 3) (va : W64) (s : State) : Except Stop State :=
  match descriptorAt s 32 va with
  | .error e => .error e
  | .ok desc =>
    let src : W64 := BitVec.ofNat 64 (descBytes desc 7 0)
    let dst : W64 := BitVec.ofNat 64 (descBytes desc 15 8)
    match firstByte s false src with
    | .error e => .error e
    | .ok (farS, s1) =>
      match firstByte s1 true dst with
      | .error e => .error e
      | .ok (farD, s2) =>
        let n := descBytes desc 19 16
        let bad := !copyShape desc || (n16 && farS == farD)
        match if bad then .ok () else insideRequest s src.toNat (sourceBytes n16 farS n),
            if bad then .ok () else insideRequest s dst.toNat (sourceBytes n16 farD n) with
        | .error e, _ => .error e
        | _, .error e => .error e
        | _, _ =>
        if Config.copyMax ≤ outstanding s then wait .copySlots
        else .ok (sendCopy d (if n16 then 1 else 0) scope (.plain dst) src n bad s2)

/-- CPY, plain and .N16 (R349–R351). -/
def execCpy (d : SReg) (l : Bool) (a : SReg) (_ : Bool) (b : BitVec 6) (n : Bool) (c : BitVec 3) (s : State) : Result :=
  finish s (match operands s [⟨a, l⟩] [d] with
    | .error e => .error e
    | .ok (vs, s1) =>
      if b.toNat < 8 then cpyRing d n c (b.setWidth 3) (val0 vs) s1 else cpyPlain d n c (val0 vs) s1)

/-- The bits of an element of a source as they stand, where a conversion could read it. -/
def elementNow (s : State) (va : W64) (n : Nat) : Option Nat :=
  if va.toNat < Config.scratchBytes then
    if badBytes s.core.badScratch va.toNat n then none else some (ofBytesLE (s.core.scratch.bytes va.toNat n))
  else if s.inReplicated s.core.tenant va then none
  else match translateFor s s.core.tenant va false with
    | .error _ => none
    | .ok p => if badLines s.badMem p n then none else some (ofBytesLE (homeBytes s p n))

/-- How many elements a conversion keeps, by its source as it stands: those before the first that it could not read. -/
def keptNow (s : State) (c : Csr) : Nat :=
  let at_ := fun (i j : Nat) => c.src + BitVec.ofNat 64 (i * c.stride + j * c.size)
  let all := (List.range (c.rows - c.first)).flatMap fun i => (List.range c.cols).map fun j => elementNow s (at_ (c.first + i) j) c.size
  Nat.min ((all.takeWhile Option.isSome).countP fun x => x != some 0) (2 ^ 32 - c.baseidx)

/-- The bytes of the three arrays that a conversion writes, by its source as it stands: none of them lies past the request (R58).
Log entry 68 (DEDUCED). -/
def arraysInside (s : State) (c : Csr) : Except Stop Unit :=
  let near := fun (va : W64) => decide (va.toNat < Config.pinnedBase)
  let n := if near c.val || near c.colidx then keptNow s c else 0
  match insideRequest s (c.rowptr.toNat + 4 * c.first) (4 * (c.rows - c.first) + 4),
      insideRequest s (c.val.toNat + c.size * c.baseidx) (c.size * n), insideRequest s (c.colidx.toNat + 4 * c.baseidx) (4 * n) with
  | .error e, _, _ => .error e
  | _, .error e, _ => .error e
  | _, _, r => r

/-- CPY.CSR (R58, R176, R177, R351): of the three arrays, VAL is the destination whose first byte is checked. Log entry 76 (DESIGN CHOICE). -/
def execCpyCsr (d : SReg) (l : Bool) (a : SReg) (_ : Bool) (c : BitVec 3) (s : State) : Result :=
  finish s (match operands s [⟨a, l⟩] [d] with
    | .error e => .error e
    | .ok (vs, s1) =>
      match descriptorAt s1 64 (val0 vs) with
      | .error e => .error e
      | .ok desc =>
        let k := csrOf desc
        match firstByte s1 false k.src with
        | .error e => .error e
        | .ok (_, s2) =>
          match firstByte s2 true k.val with
          | .error e => .error e
          | .ok (_, s3) =>
            match if k.fine then rowsInside s1 k else .ok (),
                if k.fine then arraysInside s1 k else .ok () with
            | .error e, _ => .error e
            | _, .error e => .error e
            | _, _ =>
            if Config.copyMax ≤ outstanding s1 then wait .copySlots
            else .ok (sendCopy d 2 c (.csr (BitVec.ofNat 512 desc)) k.src 0 (!k.fine) s3))

/-- CPYM (R352). -/
def execCpym (d : SReg) (l : Bool) (a : SReg) (m : Bool) (b : SReg) (c : BitVec 3) (s : State) : Result :=
  finish s (match operands s [⟨a, l⟩, ⟨b, m⟩] [d] with
    | .error e => .error e
    | .ok (vs, s1) =>
      let va := val0 vs
      let tag : Half := (val1 vs).setWidth 16
      let len := bitsOf (val1 vs).toNat 51 32
      if tag = 0 then raise 0x3E 0 0
      else if va.toNat % 64 ≠ 0 then raise 0x10 va 64
      else match firstByte s1 false va with
        | .error e => .error e
        | .ok (_, s2) =>
          let bad := len == 0 || len % 64 != 0
          match if bad then .ok () else insideRequest s1 va.toNat len with
          | .error e => .error e
          | .ok _ =>
          if Config.copyMax ≤ outstanding s1 then wait .copySlots
          else .ok (sendCopy d 0 c (.multi tag) va len bad s2))

/-! At the streamer: places and bytes (R217, R351) -/

/-- Why bytes of a copy do not move: an error with its ERR, or a refresh window or a closed path that they wait for (R23, R169). -/
inductive Held where
  | err (n : Nat)
  | later
  deriving DecidableEq, Repr

/-- Where `n` bytes of a copy lead for a context of the focused core, or what holds them there: a write to a weight-store page
is ERR 5 whatever the W bit (R168), a later byte that the copy may not touch ERR 3. Log entry 68 (DEDUCED). -/
def streamPlace (s : State) (handler write : Bool) (n : Nat) (va : W64) : Except Held Place :=
  let t := s.core.tenant
  if va.toNat / 2 ^ 48 ≠ 0 then .error (.err 3)
  else if va.toNat < Config.scratchBytes then
    if handler || va.toNat + n ≤ s.core.scratchReq then .ok (.scratch va.toNat) else .error (.err 3)
  else if s.inReplicated t va then .error (.err 6)
  else match walk s (.die s.die) t va with
    | .error (.closed _) => .error .later
    | .error (.refresh _) => .error .later
    | .error _ => .error (.err 3)
    | .ok e =>
      if write && e.loc.space == 1 then .error (.err 5)
      else if write && !e.w then .error (.err 3)
      else .ok (.home (e.phys va) e.nc)

/-- `n` home bytes that an engine reads for the focused core: once the core's message gets there and no refresh window stands in the
way, and without an uncorrectable error in their line (R24, R169, R175). -/
def engineRead (s : State) (p n : Nat) : Except Held (List Byte) :=
  if !sendOpen s s.core.tenant s.die p || (refreshing s.cycle p).isSome then .error .later
  else if badLines s.badMem p n then .error (.err 4)
  else .ok (homeBytes s p n)

/-- `n` bytes of a source, inside one aligned 8-byte word. -/
def streamRead (s : State) (handler : Bool) (va : W64) (n : Nat) : Except Held (List Byte) :=
  match streamPlace s handler false n va with
  | .error e => .error e
  | .ok (.scratch a) => if badBytes s.core.badScratch a n then .error (.err 4) else .ok (s.core.scratch.bytes a n)
  | .ok (.home p _) => engineRead s p n
  | .ok (.replica _) => .error (.err 6)

/-- Write bytes of a destination, inside one aligned 8-byte word, unbuffered (R217). -/
def streamWrite (handler : Bool) (va : W64) (bs : List Byte) (s : State) : Except Held State :=
  match streamPlace s handler true bs.length va with
  | .error e => .error e
  | .ok (.scratch a) => .ok (s.setScratch a bs)
  | .ok (.home p _) => .ok (s.writeFor s.core.tenant p bs)
  | .ok (.replica _) => .error (.err 6)

/-- The data of a copy gets from its source, where the streamer stands, to its destination (R15, R20, R24). -/
def carries (s : State) (handler : Bool) (src : W64) (dst : Place) : Bool :=
  let t := s.core.tenant
  match streamPlace s handler false 1 src, dst with
  | .ok (.home p _), .home q _ => pathOpen s t p q
  | .ok (.home p _), _ => replyOpen s t s.die p
  | .ok (.scratch _), .home q _ => sendOpen s t s.die q
  | _, _ => true

/-- Bytes that come from a source are written, once their path is open. -/
def streamCarry (handler : Bool) (src va : W64) (bs : List Byte) (s : State) : Except Held State :=
  match streamPlace s handler true bs.length va with
  | .error e => .error e
  | .ok q => if carries s handler src q then streamWrite handler va bs s else .error .later

/-- Whether an address leads to far memory; none while a closed path or a refreshing group holds up its walk. -/
def leadsFar? (s : State) (handler : Bool) (va : W64) : Option Bool :=
  match streamPlace s handler false 1 va with
  | .ok (.home p _) => some (decide (farBase ≤ p))
  | .error .later => none
  | _ => some false

/-- N16 of an FP32 word (R136). -/
def n16Of (x : Nat) : Nat :=
  if f32.isNaN x then Nat.lor (x / 65536) 64
  else if bitsOf x 30 23 = 0 then x / 2 ^ 31 * 32768
  else (convFF f32 bf16 .rne x).1

/-- How source bytes of a copy become destination bytes: as they are, narrowed, or widened. -/
inductive Shape where
  | same
  | narrow
  | widen
  deriving DecidableEq, Repr

/-- Destination bytes of a copy whose FP32 side has `len` bytes. A unit is one aligned 8-byte word of them (R217). -/
def Shape.total (h : Shape) (len : Nat) : Nat := if h = .narrow then len / 2 else len
def Shape.units (h : Shape) (len : Nat) : Nat := (h.total len + 7) / 8

/-- Consecutive 8-byte words of a source. -/
def streamWords (s : State) (handler : Bool) (va : W64) : Nat → Except Held (List Byte)
  | 0 => .ok []
  | n + 1 =>
    match streamRead s handler va 8, streamWords s handler (va + 8) n with
    | .error e, _ => .error e
    | _, .error e => .error e
    | .ok bs, .ok cs => .ok (bs ++ cs)

/-- The first source byte of unit `i`. -/
def unitSrc (h : Shape) (src : W64) (i : Nat) : W64 :=
  match h with
  | .same => src + BitVec.ofNat 64 (8 * i)
  | .widen => src + BitVec.ofNat 64 (4 * i)
  | .narrow => src + BitVec.ofNat 64 (16 * i)

/-- The source bytes of unit `i`. -/
def readUnit (s : State) (handler : Bool) (h : Shape) (src : W64) (len i : Nat) : Except Held (List Byte) :=
  match h with
  | .same => streamRead s handler (unitSrc h src i) 8
  | .widen => streamRead s handler (unitSrc h src i) 4
  | .narrow => streamWords s handler (unitSrc h src i) (Nat.min 2 ((len - 16 * i) / 8))

/-- FP32 words narrowed, and BF16 values widened (R136). -/
def narrowBytes : List Byte → List Byte
  | a :: b :: c :: d :: rest => toBytesLE 2 (n16Of (ofBytesLE [a, b, c, d])) ++ narrowBytes rest
  | _ => []
def widenBytes : List Byte → List Byte
  | a :: b :: rest => 0 :: 0 :: a :: b :: widenBytes rest
  | _ => []

def Shape.apply (h : Shape) (bs : List Byte) : List Byte :=
  match h with
  | .same => bs
  | .narrow => narrowBytes bs
  | .widen => widenBytes bs

/-- Where the units of a copy go. -/
inductive Sink where
  | scratch (a : Nat)
  | va (a : W64)
  deriving DecidableEq, Repr

/-- The bytes of a unit that come from a source go to their sink. -/
def putUnit (handler : Bool) (src : W64) (k : Sink) (off : Nat) (bs : List Byte) (s : State) : Except Held State :=
  match k with
  | .scratch a => if carries s handler src (.scratch a) then .ok (s.setScratch (a + off) bs) else .error .later
  | .va a => streamCarry handler src (a + BitVec.ofNat 64 off) bs s

/-- How a copy moves: its shape, where it goes, and the bytes of its FP32 side. -/
structure Course where
  shape : Shape
  sink : Sink
  len : Nat
  deriving DecidableEq, Repr

/-- Move unit `i` of a copy, or what holds it there. -/
def copyUnit (handler : Bool) (w : Course) (src : W64) (i : Nat) (s : State) : Except Held State :=
  match readUnit s handler w.shape src w.len i with
  | .error e => .error e
  | .ok bs => putUnit handler (unitSrc w.shape src i) w.sink (8 * i) (w.shape.apply bs) s

/-- Copy the units that have not moved, upward until one stops: the destination bytes written, ERR, the state; none where one
cannot move yet. -/
def copyUnits (handler : Bool) (w : Course) (src : W64) (moved : List Nat) : Nat → Nat → State → Option (Nat × Nat × State)
  | 0, i, s => some (Nat.min (8 * i) (w.shape.total w.len), 0, s)
  | n + 1, i, s =>
    if moved.contains i then copyUnits handler w src moved n (i + 1) s
    else match copyUnit handler w src i s with
      | .error .later => none
      | .error (.err e) => some (8 * i, e, s)
      | .ok s1 => copyUnits handler w src moved n (i + 1) s1

/-- The status word of a copy (R218). -/
def copyStatusWord (count err : Nat) : W64 :=
  BitVec.ofNat 64 (count + err * 2 ^ 48 + (if err = 0 then 2 ^ 63 else 0))

/-- The shape of a .N16 copy: narrowing when its destination lies in far memory (R350); none while that is not known. -/
def n16Shape (s : State) (handler : Bool) (dst : W64) : Option Shape :=
  (leadsFar? s handler dst).map fun far => if far then .narrow else .widen

/-- The lines of the homes that `n` destination bytes have (R218). -/
def destLines (s : State) (handler : Bool) (va : W64) (n : Nat) : List Nat :=
  (List.range (n / 64 + 2)).filterMap fun j =>
    match streamPlace s handler true 1 (va + BitVec.ofNat 64 (Nat.min (64 * j) (n - 1))) with
    | .ok (.home p _) => some p
    | _ => none

/-! Conversion (R177) -/

/-- How a conversion goes on: the value index and the state, or a stop. -/
inductive CsrRun where
  | go (n : Nat) (s : State)
  | stop (h : Held) (s : State)

/-- The ERR of a conversion: 4 for data in error, 3 for any address it may not use. Log entry 77 (DESIGN CHOICE). -/
def csrErr : Held → Held
  | .err 4 => .err 4
  | .err _ => .err 3
  | .later => .later

/-- NEXT, ERR and the state of a conversion that stops; none where it cannot go on yet. -/
def csrStop (next : Nat) (s : State) : Held → Option (Nat × Nat × State)
  | .err e => some (next, e, s)
  | .later => none

/-- Write bytes of an array that come from a place of the source; the status comes in the same step, and the line leaves the core's read
cache (R218). -/
def csrWrite (h : Bool) (src va : W64) (bs : List Byte) (s : State) : Except Held State :=
  (streamCarry h src va bs s).map fun t => t.modCore (dropLines (destLines s h va 1))

/-- One element: kept when not all zero. -/
def csrElem (h : Bool) (c : Csr) (i j n : Nat) (s : State) : CsrRun :=
  let src := c.src + BitVec.ofNat 64 (i * c.stride + j * c.size)
  match streamRead s h src c.size with
  | .error e => .stop (csrErr e) s
  | .ok bs =>
    if ofBytesLE bs = 0 then .go n s
    else if n = 2 ^ 32 then .stop (.err 2) s
    else match csrWrite h src (c.val + BitVec.ofNat 64 (n * c.size)) bs s with
      | .error e => .stop (csrErr e) s
      | .ok s1 => match csrWrite h src (c.colidx + BitVec.ofNat 64 (4 * n)) (toBytesLE 4 j) s1 with
        | .error e => .stop (csrErr e) s1
        | .ok s2 => .go (n + 1) s2

/-- The remaining columns of a row. -/
def csrCols (h : Bool) (c : Csr) (i : Nat) : Nat → Nat → State → CsrRun
  | 0, n, s => .go n s
  | k + 1, n, s =>
    match csrElem h c i (c.cols - (k + 1)) n s with
    | .go m t => csrCols h c i k m t
    | .stop e t => .stop e t

/-- Rows of a block, with the row pointers they give. -/
def csrRows (h : Bool) (c : Csr) : List Nat → Nat → State → List Nat × CsrRun
  | [], n, s => ([], .go n s)
  | i :: is, n, s =>
    match csrCols h c i c.cols n s with
    | .go m t => let r := csrRows h c is m t; (m :: r.1, r.2)
    | .stop e t => ([], .stop e t)

/-- Write row pointers from an index upward. -/
def putPtrs (h : Bool) (c : Csr) : Nat → List Nat → State → Except (Held × State) State
  | _, [], s => .ok s
  | i, p :: ps, s =>
    match csrWrite h c.src (c.rowptr + BitVec.ofNat 64 (4 * i)) (toBytesLE 4 p) s with
    | .error e => .error (csrErr e, s)
    | .ok t => putPtrs h c (i + 1) ps t

/-- Row pointers from an index upward, once every one of them can be written: those of a block that stops are not written (R177). -/
def csrPtrs (h : Bool) (c : Csr) (i : Nat) (ps : List Nat) (s : State) : Except (Held × State) State :=
  let held := fun (k : Nat) => match csrWrite h c.src (c.rowptr + BitVec.ofNat 64 (4 * (i + k))) (toBytesLE 4 0) s with
    | .error e => some e
    | .ok _ => none
  match (List.range ps.length).findSome? held with
  | some e => .error (csrErr e, s)
  | none => putPtrs h c i ps s

/-- Blocks of 32 rows: NEXT, ERR and the state. -/
def csrBlocks (h : Bool) (c : Csr) : Nat → Nat → Nat → State → Option (Nat × Nat × State)
  | 0, b, _, s => some (b, 0, s)
  | k + 1, b, n, s =>
    if c.rows ≤ b then some (c.rows, 0, s)
    else
      let rows := (List.range (Nat.min 32 (c.rows - b))).map (b + ·)
      match csrRows h c rows n s with
      | (_, .stop e t) => csrStop b t e
      | (ps, .go m t) =>
        match csrPtrs h c (b + 1) ps t with
        | .error (e, u) => csrStop b u e
        | .ok u => csrBlocks h c k (b + 32) m u

/-- A whole conversion (R177); none where it cannot be made yet. -/
def csrRun (h : Bool) (c : Csr) (s : State) : Option (Nat × Nat × State) :=
  match csrPtrs h c c.first [c.baseidx] s with
  | .error (e, t) => csrStop c.first t e
  | .ok t => csrBlocks h c ((c.rows - c.first) / 32 + 2) c.first c.baseidx t

/-! Steps of a copy -/

def Core.copy? (c : Core) (id : Nat) : Option Copy := c.copies.find? fun k => k.id == id

def setCopy (k : Copy) (c : Core) : Core := { c with copies := mapIf (fun x => x.id == k.id) (fun _ => k) c.copies }

/-- The owner number of a copy's ring slot. -/
def Copy.owner (k : Copy) : Nat := k.id + 1

/-- A ring-form copy may reserve now: earlier producers of that ring have their slots, and one is free (R146, R351). -/
def reserveDue (s : State) (k : Copy) : Bool :=
  match k.form with
  | .ring g =>
    !k.bad && k.slot.isNone && (s.gangRing g).free != 0 &&
      !(s.core.copies.any fun x => decide (x.id < k.id) && x.form == .ring g && !x.bad && x.slot.isNone)
  | _ => false

/-- The copy takes the tail slot of its ring. -/
def reserveSlot (k : Copy) (s : State) : State :=
  match k.form with
  | .ring g =>
    let slot := (s.gangRing g).tail.toNat
    (s.modGangRing g (Ring.reserve k.owner)).modCore (setCopy { k with slot := some slot })
  | _ => s

/-- The image of a gang that is not on a core, with a copy that the gang has started there. -/
def copyImage (s : State) (core id : Nat) : Option Saved :=
  s.pkg.saved.find? fun v => v.core == core && (s.coreAt core).gang != some v.gang && (v.rest.copy? id).isSome

/-- A copy of a core goes on: of the gang that runs there, or, with that gang's image in its place, of one that does not (R223, R289). -/
def onCopy (core id : Nat) (f : Copy → State → State) (s : State) : State :=
  let act := fun (t : State) => match t.core.copy? id with
    | none => t
    | some k => f k t
  if ((s.coreAt core).copy? id).isSome then s.onCore core act
  else match copyImage s core id with
    | none => s
    | some v => onImage v act s

/-- COPY_SLOT_RESERVE (R146, R351). -/
def execCopySlotReserve (core : Nat) (id : Nat) (s : State) : Result :=
  .next (onCopy core id (fun k t => if reserveDue t k then reserveSlot k t else t) s)

/-- A tile of a copy of a core. -/
def Tile.of (core id : Nat) (x : Tile) : Bool := x.sender == core && x.copy == id
def tilePacket (core id : Nat) (p : Packet) : Bool := match p.body with | .tile _ _ a b _ => a == core && b == id | _ => false

/-- The tiles of a multicast that have not landed, on the cores, in images and in spill buffers (R218, R245). -/
def tilesOut (s : State) (core id : Nat) : Bool :=
  (s.cores.any fun c => c.2.tiles.any (Tile.of core id) || c.2.resend.any (tilePacket core id)) ||
  s.pkg.saved.any fun v => v.rest.tiles.any (Tile.of core id) || v.spill.any (tilePacket core id)

/-- The cores of a tenant that subscribe to a tag, resident or saved, each once with its gang (R244, R245). -/
def subscribers (s : State) (t : BitVec 3) (tag : Half) : List (Nat × Half) :=
  let has := fun (c : Core) => c.tenant == t && c.matchTab.any fun m => m.1 == tag
  (((s.cores.filter fun c => c.2.gang.isSome && has c.2).map fun c => (c.1, c.2.tag)) ++
    ((s.pkg.saved.filter fun v => has v.rest).map fun v => (v.core, v.gang.setWidth 16))).eraseDups

/-- Bytes of the prefix of a source, and ERR; none where a byte cannot be read yet. -/
def fetchPrefix (s : State) (handler : Bool) (src : W64) : Nat → Nat → Option (List Byte × Nat)
  | 0, _ => some ([], 0)
  | n + 1, i =>
    match streamRead s handler (src + BitVec.ofNat 64 (8 * i)) 8 with
    | .error .later => none
    | .error (.err e) => some ([], e)
    | .ok bs => (fetchPrefix s handler src n (i + 1)).map fun r => (bs ++ r.1, r.2)

/-- A copy ends with its status, into its register, discarded, or kept for its completion FIFO. In the same step the lines of its
destination leave the core's read cache (R218). -/
def endCopy (k : Copy) (status : W64) (s : State) : State :=
  let lines := match k.form with
    | .plain dst => destLines s (k.ctx == handlerIx) dst k.len
    | _ => []
  let s := s.modCore (dropLines lines)
  match k.batch with
  | some _ => s.modCore (setCopy { k with result := some status, sd := none })
  | none =>
    let s := s.modCore fun c => { c with copies := c.copies.filter fun x => x.id != k.id }
    match k.sd with
    | none => s
    | some d => s.modGangCtx k.ctx (Ctx.setS d status)

/-- The slot of a ring-form copy is complete; beyond what was copied it holds unspecified bytes (R351). -/
def finishSlot (g : BitVec 3) (k : Copy) (slot count : Nat) (err : Nat) (s : State) : State :=
  let r := s.gangRing g
  let s := if err = 0 then s else
    (s.setScratch (r.slotAddr slot + count)
      ((List.range (Nat.min k.len r.slotBytes - count)).map (Config.tailByte s.fresh))).useFresh
  s.modGangRing g (Ring.complete k.owner)

/-- How the bytes of a plain or ring-form copy move. -/
def courseOf (k : Copy) (s : State) : Option Course :=
  if k.bad then none
  else match k.form, k.slot with
    | .ring g, some slot =>
      let r := s.gangRing g
      some { shape := if k.mode = 1 then .widen else .same, sink := .scratch (r.slotAddr slot), len := Nat.min k.len r.slotBytes }
    | .plain dst, _ =>
      (if k.mode = 1 then n16Shape s (k.ctx == handlerIx) dst else some .same).map fun h => { shape := h, sink := .va dst, len := k.len }
    | _, _ => none

/-- The remaining units of a copy move, and what `go` makes of the bytes written and the ERR follows; nothing happens while one
cannot move. -/
def runUnits (k : Copy) (go : Nat → Nat → State → State) (s : State) : State :=
  match courseOf k s with
  | none => s
  | some w =>
    match copyUnits (k.ctx == handlerIx) w k.src k.moved (w.shape.units w.len) 0 s with
    | none => s
    | some r => go r.1 r.2.1 r.2.2

/-- A place behind the source port of a home address: the bank group of a die, the channel of a stack, the 4 KiB block of a weight store,
whose ports the manual does not map (R18, R162). Log entry 7 (DESIGN CHOICE). -/
def portOf (p : Nat) : Nat :=
  if p < weightBase then diePlace (p / Config.layerBytes) + p % Config.layerBytes / 4096 % 48 * 4096
  else if p < farBase then p / 4096 * 4096
  else basePlace (stackOfPhys p) + (p - farBase) % Config.farStackBytes / 4096 % 12 * 4096

/-- The source port of a copy: that of the streamer beside the bank that owns the source, or the core's own for its scratchpad (R24). -/
def sourcePort (s : State) (k : Copy) : Nat :=
  match streamPlace s (k.ctx == handlerIx) false 8 k.src with
  | .ok (.home p _) => portOf p
  | _ => diePlace s.die + 1 + s.coreId % 64

/-- A multicast is sent to every subscriber (R245). -/
def sendTiles (k : Copy) (tag : Half) (bytes : List Byte) (s : State) : State :=
  let to_ := subscribers s s.core.tenant tag
  to_.foldl (fun t x => sendPacket x.1
    { tenant := s.core.tenant, gang := x.2, ctx := 0, body := .tile tag bytes s.coreId k.id (sourcePort s k) } t)
    (s.modCore fun c => setCopy { k with sent := true } (c.sent to_.length))

/-- The streamer beside the source hears of the copy and can write its status, for which a multicast waits only once it has been sent (R24). -/
def statusOpen (s : State) (k : Copy) : Bool :=
  (match k.form with | .multi _ => !k.bad && !k.sent | _ => false) ||
  match streamPlace s (k.ctx == handlerIx) false 8 k.src with
  | .ok (.home p _) => readOpen s s.core.tenant s.die p
  | _ => true

/-- The bytes of a copy that have not moved yet move, and its status is written, on its own core (R136, R177, R218, R351, R352). A CPYM
whose fetch stops with an error sends nothing. Log entry 11 (DESIGN CHOICE). Log entry 111 (DESIGN CHOICE). -/
def runCopy (k : Copy) (s : State) : State :=
  let h := k.ctx == handlerIx
  if !statusOpen s k then s
  else match k.bad, k.form with
  | true, .csr d => endCopy k (copyStatusWord (csrOf d.toNat).first 1) s
  | true, _ => endCopy k (copyStatusWord 0 1) s
  | false, .ring g =>
    match k.slot with
    | none => s
    | some slot => runUnits k (fun n e t => endCopy k (copyStatusWord n e) (finishSlot g k slot n e t)) s
  | false, .plain _ => runUnits k (fun n e t => endCopy k (copyStatusWord n e) t) s
  | false, .csr d =>
    match csrRun h (csrOf d.toNat) s with
    | none => s
    | some r => endCopy k (copyStatusWord r.1 r.2.1) r.2.2
  | false, .multi tag =>
    if k.sent then
      if tilesOut s s.coreId k.id then s else endCopy k (copyStatusWord k.len 0) s
    else
      match fetchPrefix s h k.src (k.len / 8) 0 with
      | none => s
      | some r => if r.2 ≠ 0 then endCopy k (copyStatusWord r.1.length r.2) s else sendTiles k tag r.1 s

/-- A copy can go on: its ring slot is reserved, its multicast can be sent or has landed. -/
def copyDue (s : State) (core : Nat) (k : Copy) : Bool :=
  k.result.isNone && (k.bad || (match k.form with
    | .ring _ => k.slot.isSome
    | .multi _ => !k.sent || !tilesOut s core k.id
    | _ => true))

/-- COPY_STATUS (R177, R218). -/
def execCopyStatus (core : Nat) (id : Nat) (s : State) : Result :=
  .next (onCopy core id (fun k t => if copyDue t core k then runCopy k t else t) s)

/-- A copy has units that may move before its status (R217). -/
def moveDue (s : State) (k : Copy) : Bool :=
  k.result.isNone && (match courseOf k s with
    | some w => decide (k.moved.length < w.shape.units w.len)
    | none => false)

/-- One unit of a copy, a free choice, is read at its home and written to its destination ahead of the others (R217);
where it cannot be moved nothing happens, and the status finds the error. Log entry 11 (DESIGN CHOICE). -/
def moveUnit (k : Copy) (s : State) : State :=
  match courseOf k s with
  | none => s
  | some w =>
    let i := Config.pick s.fresh % w.shape.units w.len
    if k.moved.contains i then s.useFresh
    else match copyUnit (k.ctx == handlerIx) w k.src i s with
      | .error _ => s.useFresh
      | .ok s1 => (s1.modCore (setCopy { k with moved := i :: k.moved })).useFresh

/-- Some bytes of a copy of a core move. -/
def moveCopy (core id : Nat) (s : State) : State := onCopy core id (fun k t => if moveDue t k then moveUnit k t else t) s

/-! Multicast (R243–R245, R396, R409) -/

/-- Every tag in the match tables of some cores, live or in images, with its tenant, once. -/
def joinedTags (s : State) (on : Nat → Bool) : List (BitVec 3 × Half) :=
  (((s.cores.filter fun c => on c.1).flatMap fun c => c.2.matchTab.map fun m => (c.2.tenant, m.1)) ++
    (s.pkg.saved.filter fun v => on v.core).flatMap fun v => v.rest.matchTab.map fun m => (v.rest.tenant, m.1)).eraseDups

/-- A table of `room` bitmaps that holds these tags has no room for one more (R244). -/
def bitmapsFull (s : State) (tag : Half) (room : Nat) (tags : List (BitVec 3 × Half)) : Bool :=
  !tags.contains (s.core.tenant, tag) && decide (room ≤ tags.length)

/-- A bitmap table on the join path is full: that of the die's crossbar, or of the base-die switches (R244). -/
def joinFull (s : State) (tag : Half) : Bool :=
  bitmapsFull s tag Config.crossbarTags (joinedTags s fun c => dieOfCore c == s.die) ||
    bitmapsFull s tag Config.switchTags (joinedTags s fun _ => true)

/-- The joins or leaves of a tag go to the die's crossbar and to every base-die switch, and are acknowledged (R244). -/
def toSwitches (s : State) : Except Stop State :=
  match ((List.range 4).map basePlace).find? fun p => !readOpen s s.core.tenant s.die p with
  | some p => wait (.path p false)
  | none => .ok (s.roundTrips 5)

/-- SUBS (R244, R396). A tag of 0 is found before a ring of SIZE 0. Log entry 89 (DESIGN CHOICE). -/
def execSubs (p : PReg) (l : Bool) (a : SReg) (g : BitVec 3) (s : State) : Result :=
  finish s (match notHandler s (encode (.subs p l a g)) with
    | .error e => .error e
    | .ok _ =>
      match operands s [⟨a, l⟩] [] with
      | .error e => .error e
      | .ok (vs, s1) =>
        let tag : Half := (val0 vs).setWidth 16
        if tag = 0 then raise 0x3E 0 0
        else if (s1.ring g).size = 0 then raise 0x31 0 (g.setWidth 64)
        else if s1.core.matchTab.any fun m => m.1 == tag then
          let s2 := s1.modCore fun c => { c with matchTab := mapIf (fun m => m.1 == tag) (fun _ => (tag, g)) c.matchTab }
          .ok (s2.writeP p true).retire
        else if Config.matchEntries ≤ s1.core.matchTab.length || joinFull s1 tag then .ok (s1.writeP p false).retire
        else match toSwitches s1 with
          | .error e => .error e
          | .ok s2 => .ok ((s2.modCore fun c => { c with matchTab := c.matchTab ++ [(tag, g)] }).writeP p true).retire)

/-- UNSUBS (R244, R409). -/
def execUnsubs (l : Bool) (a : SReg) (s : State) : Result :=
  finish s (match notHandler s (encode (.unsubs l a)) with
    | .error e => .error e
    | .ok _ =>
      match operands s [⟨a, l⟩] [] with
      | .error e => .error e
      | .ok (vs, s1) =>
        let tag : Half := (val0 vs).setWidth 16
        if tag = 0 then raise 0x3E 0 0
        else if s1.core.matchTab.any fun m => m.1 == tag then
          match toSwitches s1 with
          | .error e => .error e
          | .ok s2 => .ok (s2.modCore fun c => { c with matchTab := c.matchTab.filter fun m => m.1 != tag }).retire
        else .ok s1.retire)

/-- A tile can land, or is discarded: a path leads from its source, and its tag's ring has a slot free, or the tag is gone (R245). -/
def tileOpen (s : State) (t : Tile) : Bool :=
  replyOpen s s.core.tenant s.die t.port && (match s.core.matchTab.lookup t.tag with
    | none => true
    | some g => (s.gangRing g).free != 0)

/-- The tiles that may land next at the focused core: the first of each source port, for they land in the order in which they were sent
from there (R232, R245). -/
def tilesDue (s : State) : List Tile :=
  ((s.core.tiles.map (·.port)).eraseDups.filterMap fun c => s.core.tiles.find? fun t => t.port == c).filter (tileOpen s)

/-- A tile lands in the tail slot of its tag's ring, or is discarded. -/
def landTile (t : Tile) (s : State) : State :=
  let s := s.modCore fun c => { c with tiles := removeOne t c.tiles }
  match s.core.matchTab.lookup t.tag with
  | none => s
  | some g =>
    let r := s.gangRing g
    (s.setScratch (r.slotAddr r.tail.toNat) (t.bytes.take r.slotBytes)).modGangRing g fun r =>
      let r1 := { r with tail := BitVec.ofNat 8 ((r.tail.toNat + 1) % r.slots), free := r.free - 1 }
      Ring.fill (r.resv ++ [{ owner := 0, slot := r.tail.toNat, done := true }]) r1

/-- MULTICAST_ARRIVAL: one of the tiles that can land, which one being a free choice (R146, R245). -/
def execMulticastArrival (core : Nat) (s : State) : Result :=
  .next (s.onCore core fun t =>
    match (tilesDue t)[Config.pick t.fresh % (tilesDue t).length]? with
    | none => t
    | some x => landTile x t.useFresh)

/-! Engine FIFOs (R213–R216, R353, R434) -/

def emptyFifo : Fifo := { kind := 0, scope := 0, depth := 0, completion := 0, elems := [] }
def Core.fifo (c : Core) (n : Nat) : Fifo := vget c.efifo n emptyFifo
def Core.setFifo (n : Nat) (f : Fifo) (c : Core) : Core := { c with efifo := c.efifo.setIfInBounds n f }

/-- DIR: 1 where the program pops. -/
def Fifo.pops (f : Fifo) : Bool := f.kind == 2 || f.kind == 4 || f.kind == 5

/-- EFIFOn (R213). -/
def efifoWord (f : Fifo) : W64 :=
  BitVec.ofNat 64 (f.kind.toNat + boolNat f.pops * 16 + f.scope.toNat * 32 + f.elems.length * 2 ^ 16 + f.depth * 2 ^ 32)

/-- One more remote write of a thread is unacknowledged (R211). -/
def noteRemote (tid : Nat) (h : HostSide) : HostSide :=
  match h.unacked.lookup tid with
  | some n => { h with unacked := (tid, n + 1) :: h.unacked.filter fun x => x.1 != tid }
  | none => { h with unacked := (tid, 1) :: h.unacked }

/-- The push itself, behind the release (R214). -/
def pushFifo (n : Nat) (p : PReg) (v : W64) (s : State) : State :=
  let f := s.core.fifo n
  if f.elems.length < f.depth then
    let s := s.modCore (Core.setFifo n { f with elems := f.elems ++ [v] })
    let s := if f.kind = 3 then s.modHost (noteRemote s.tid) else s
    (s.writeP p true).retire
  else (s.writeP p false).retire

/-- The operands and checks of EPUSH in the order of R337 and R353: the element. -/
def epushCheck (p : PReg) (l : Bool) (m : Bool) (b : SReg) (n : BitVec 4) (s : State) : Except Stop (W64 × State) :=
  let w := encode (.epush p l m b n)
  match notHandler s w with
  | .error e => .error e
  | .ok _ =>
    match operands s [⟨b, m⟩] [] with
    | .error e => .error e
    | .ok (vs, s1) =>
      let f := s.core.fifo n.toNat
      if f.kind = 0 || f.pops then raise 0x40 0 (n.setWidth 64)
      else match notOrdered s w with
        | .error e => .error e
        | .ok _ => .ok (val0 vs, s1)

/-- EPUSH (R214, R353). -/
def execEpush (p : PReg) (l : Bool) (m : Bool) (b : SReg) (n : BitVec 4) (s : State) : Result :=
  finish s (releaseThen (s.core.fifo n.toNat).scope.toNat [⟨b, m⟩] (epushCheck p l m b n) (fun v t => .ok (pushFifo n.toNat p v t)) s)

/-- EPOP (R215, R353). -/
def execEpop (d : SReg) (_ : Bool) (p : PReg) (_ : Bool) (n : BitVec 4) (s : State) : Result :=
  finish s (match operands s [] [d] with
    | .error e => .error e
    | .ok (_, s1) =>
      let f := s1.core.fifo n.toNat
      if !f.pops then raise 0x40 0 (n.setWidth 64)
      else match f.elems with
        | [] => .ok ((s1.writeS d 0).writeP p false).retire
        | v :: rest => .ok (((acquire (s1.modCore (Core.setFifo n.toNat { f with elems := rest }))).writeS d v).writeP p true).retire)

/-- The copy of a batch element under the descriptor it has read (R434); none while it is not known whether its sides are far. -/
def batchUnder (s : State) (base : Copy) (d : Nat) : Option Copy :=
  if base.mode = 2 then some { base with form := .csr (BitVec.ofNat 512 d), src := (csrOf d).src, bad := !(csrOf d).fine }
  else
    let src : W64 := BitVec.ofNat 64 (descBytes d 7 0)
    let dst : W64 := BitVec.ofNat 64 (descBytes d 15 8)
    let k := { base with form := .plain dst, src := src, len := descBytes d 19 16, bad := !copyShape d }
    if k.bad || base.mode != 1 then some k
    else match leadsFar? s false src, leadsFar? s false dst with
      | some a, some b => some { k with bad := a == b }
      | _, _ => none

/-- The copy that a batch element names (R434): ERR 1 without a usable descriptor, ERR 4 where its data is in error (R175); none
while the descriptor cannot be read. -/
def batchCopy (s : State) (f : Fifo) (e : W64) : Option Copy :=
  let va : W64 := BitVec.ofNat 64 (bitsOf e.toNat 47 5 * 32)
  let mode := bitsOf e.toNat 4 3
  let size := if mode = 2 then 64 else 32
  let base : Copy := { id := s.core.nextCopy, ctx := 0, sd := none, mode := BitVec.ofNat 2 mode, scope := f.scope, form := .plain 0,
                       src := 0, len := 0, bad := true, slot := none,
                       batch := some (BitVec.ofNat 4 f.completion, BitVec.ofNat 16 (bitsOf e.toNat 63 48)), sent := false, result := none,
                       moved := [] }
  if bitsOf e.toNat 2 0 ≠ 0 || mode = 3 || va.toNat % size ≠ 0 then some base
  else match streamPlace s false false size va with
    | .ok (.home p _) =>
      if !replyOpen s s.core.tenant s.die p then none
      else match engineRead s p size with
      | .error .later => none
      | .error (.err n) => some { base with result := some (copyStatusWord 0 n) }
      | .ok bs => batchUnder s base (ofBytesLE bs)
    | .error .later => none
    | _ => some base

/-- STREAMER_BATCH_ELEMENT (R216, R434). -/
def execStreamerBatchElement (core : Nat) (fifo : BitVec 4) (s : State) : Result :=
  .next (s.onCore core fun t =>
    let f := t.core.fifo fifo.toNat
    match f.kind == 1, f.elems with
    | true, e :: rest =>
      match batchCopy t f e with
      | none => t
      | some k => t.modCore fun c =>
        { Core.setFifo fifo.toNat { f with elems := rest } c with copies := c.copies ++ [k], nextCopy := c.nextCopy + 1 }
    | _, _ => t)

/-- The first finished batch copy for a completion FIFO. -/
def batchDone (c : Core) (fifo : BitVec 4) : Option (Copy × W64) :=
  c.copies.findSome? fun k => match k.batch, k.result with
    | some b, some v => if b.1 = fifo then some (k, v ||| ((b.2.setWidth 64 : W64) <<< 32)) else none
    | _, _ => none

/-- STREAMER_COMPLETION_PUSH (R215, R434). -/
def execStreamerCompletionPush (core : Nat) (fifo : BitVec 4) (s : State) : Result :=
  .next (s.modCoreAt core fun c =>
    let f := c.fifo fifo.toNat
    match batchDone c fifo with
    | some (k, v) =>
      if f.elems.length < f.depth then
        { Core.setFifo fifo.toNat { f with elems := f.elems ++ [v] } c with copies := c.copies.filter fun x => x.id != k.id }
      else c
    | none => c)

/-! Network engines (R211, R215, R216, R294) -/

/-- A core's elements get to the network engines of its stack's base die (R15, R25). -/
def networkOpen (s : State) (core : Nat) : Bool :=
  sendOpen s (s.coreAt core).tenant (dieOfCore core) (basePlace (stackOfDie (dieOfCore core)))

/-- The home of a byte that a peer writes for a tenant: none where it has no writable home, and in the stack-replicated region, where an
engine's write has no effect (R172). -/
def peerPlace (s : State) (t : BitVec 3) (va : W64) : Option Nat :=
  match translateFor s t va true with
  | .error _ => none
  | .ok p => if isWeight p || s.inReplicated t va then none else some p

/-- What comes from a peer waits while no path leads from the network engines to its core, or to the home of a byte that it writes. -/
def inboundHeld (s : State) : Instr → Bool
  | .networkInbound core _ _ writes _ =>
    let t := (s.coreAt core).tenant
    let base := basePlace (stackOfDie (dieOfCore core))
    !replyOpen s t (dieOfCore core) base || writes.any fun w => match peerPlace s t w.1 with
      | none => false
      | some p => !pathOpen s t base p
  | _ => false

/-- NETWORK_SEND_ELEMENT: a network engine takes the next element of a send FIFO, once a path leads there (R15, R216). -/
def execNetworkSendElement (core : Nat) (fifo : BitVec 4) (s : State) : Result :=
  let f := (s.coreAt core).fifo fifo.toNat
  .next (match f.kind == 3 && networkOpen s core, f.elems with
    | true, e :: rest =>
      (s.modCoreAt core (Core.setFifo fifo.toNat { f with elems := rest })).modHost fun h => { h with netOut := h.netOut ++ [(core, e)] }
    | _, _ => s)

/-- Bytes that a peer writes for a tenant, at their homes; a byte with none is dropped. -/
def applyPeer (t : BitVec 3) (ws : List (W64 × Byte)) (s : State) : State :=
  ws.foldl (fun u w => match peerPlace u t w.1 with
    | none => u
    | some p => u.writeFor t p [w.2]) s

/-- NETWORK_INBOUND: a peer's bytes become visible, then the element is pushed; an acknowledgement counts for its
thread (R211, R215). An element for a full FIFO is lost after its bytes. Log entry 88 (DESIGN CHOICE). -/
def execNetworkInbound (core : Nat) (fifo : BitVec 4) (elem : W64) (writes : List (W64 × Byte)) (ack : Option (BitVec 15))
    (s : State) : Result :=
  let s1 := applyPeer (s.coreAt core).tenant writes s
  let f := (s1.coreAt core).fifo fifo.toNat
  let s2 := if (f.kind == 4 || f.kind == 5) && decide (f.elems.length < f.depth) then
    s1.modCoreAt core (Core.setFifo fifo.toNat { f with elems := f.elems ++ [elem] }) else s1
  .next (match ack with
    | none => s2
    | some t => s2.modHost fun h => { h with unacked := mapIf (fun x => x.1 == t.toNat) (fun x => (x.1, x.2 - 1)) h.unacked })

/-- TENANT_FIELD_ERROR: a packet is dropped, and its link counts the error (R294). -/
def execTenantFieldError (link : Nat) (s : State) : Result :=
  .next (s.modHost fun h => match h.linkErrors.lookup link with
    | some n => { h with linkErrors := (link, n + 1) :: h.linkErrors.filter fun x => x.1 != link }
    | none => { h with linkErrors := (link, 1) :: h.linkErrors })

end Sys2Proof.Machine
end

