-- ==== Sys2Proof/Machine/Crypto.lean ====
section
/-!
DEFINITION. The signatures of images and of the attestation report: SHA-512, MGF1 with SHA-512, and RSASSA-PSS with
RSA-4096 and a salt of 64 bytes (R315, R316). The rule names these schemes; their steps and constants are those of their
published standards. Log entry 82 (PRESUMED).
-/
namespace Sys2Proof.Machine

/-! SHA-512 -/

def shaK0 : List W64 :=
  [0x428A2F98D728AE22, 0x7137449123EF65CD, 0xB5C0FBCFEC4D3B2F, 0xE9B5DBA58189DBBC, 0x3956C25BF348B538,
   0x59F111F1B605D019, 0x923F82A4AF194F9B, 0xAB1C5ED5DA6D8118, 0xD807AA98A3030242, 0x12835B0145706FBE]

def shaK1 : List W64 :=
  [0x243185BE4EE4B28C, 0x550C7DC3D5FFB4E2, 0x72BE5D74F27B896F, 0x80DEB1FE3B1696B1, 0x9BDC06A725C71235,
   0xC19BF174CF692694, 0xE49B69C19EF14AD2, 0xEFBE4786384F25E3, 0x0FC19DC68B8CD5B5, 0x240CA1CC77AC9C65]

def shaK2 : List W64 :=
  [0x2DE92C6F592B0275, 0x4A7484AA6EA6E483, 0x5CB0A9DCBD41FBD4, 0x76F988DA831153B5, 0x983E5152EE66DFAB,
   0xA831C66D2DB43210, 0xB00327C898FB213F, 0xBF597FC7BEEF0EE4, 0xC6E00BF33DA88FC2, 0xD5A79147930AA725]

def shaK3 : List W64 :=
  [0x06CA6351E003826F, 0x142929670A0E6E70, 0x27B70A8546D22FFC, 0x2E1B21385C26C926, 0x4D2C6DFC5AC42AED,
   0x53380D139D95B3DF, 0x650A73548BAF63DE, 0x766A0ABB3C77B2A8, 0x81C2C92E47EDAEE6, 0x92722C851482353B]

def shaK4 : List W64 :=
  [0xA2BFE8A14CF10364, 0xA81A664BBC423001, 0xC24B8B70D0F89791, 0xC76C51A30654BE30, 0xD192E819D6EF5218,
   0xD69906245565A910, 0xF40E35855771202A, 0x106AA07032BBD1B8, 0x19A4C116B8D2D0C8, 0x1E376C085141AB53]

def shaK5 : List W64 :=
  [0x2748774CDF8EEB99, 0x34B0BCB5E19B48A8, 0x391C0CB3C5C95A63, 0x4ED8AA4AE3418ACB, 0x5B9CCA4F7763E373,
   0x682E6FF3D6B2B8A3, 0x748F82EE5DEFB2FC, 0x78A5636F43172F60, 0x84C87814A1F0AB72, 0x8CC702081A6439EC]

def shaK6 : List W64 :=
  [0x90BEFFFA23631E28, 0xA4506CEBDE82BDE9, 0xBEF9A3F7B2C67915, 0xC67178F2E372532B, 0xCA273ECEEA26619C,
   0xD186B8C721C0C207, 0xEADA7DD6CDE0EB1E, 0xF57D4F7FEE6ED178, 0x06F067AA72176FBA, 0x0A637DC5A2C898A6]

def shaK7 : List W64 :=
  [0x113F9804BEF90DAE, 0x1B710B35131C471B, 0x28DB77F523047D84, 0x32CAAB7B40C72493, 0x3C9EBE0A15C9BEBC,
   0x431D67C49C100D4C, 0x4CC5D4BECB3E42B6, 0x597F299CFC657E2A, 0x5FCB6FAB3AD6FAEC, 0x6C44198C4A475817]

/-- The eighty round constants. -/
def shaRounds : List W64 := shaK0 ++ shaK1 ++ shaK2 ++ shaK3 ++ shaK4 ++ shaK5 ++ shaK6 ++ shaK7

/-- The initial hash value. -/
def shaStart : List W64 :=
  [0x6A09E667F3BCC908, 0xBB67AE8584CAA73B, 0x3C6EF372FE94F82B, 0xA54FF53A5F1D36F1,
   0x510E527FADE682D1, 0x9B05688C2B3E6C1F, 0x1F83D9ABFB41BD6B, 0x5BE0CD19137E2179]


def sha0 (x : W64) : W64 := x.rotateRight 1 ^^^ x.rotateRight 8 ^^^ (x >>> 7)
def sha1 (x : W64) : W64 := x.rotateRight 19 ^^^ x.rotateRight 61 ^^^ (x >>> 6)
def shaBig0 (x : W64) : W64 := x.rotateRight 28 ^^^ x.rotateRight 34 ^^^ x.rotateRight 39
def shaBig1 (x : W64) : W64 := x.rotateRight 14 ^^^ x.rotateRight 18 ^^^ x.rotateRight 41
def shaCh (x y z : W64) : W64 := (x &&& y) ^^^ (~~~x &&& z)
def shaMaj (x y z : W64) : W64 := (x &&& y) ^^^ (x &&& z) ^^^ (y &&& z)

/-- The working variables. -/
structure ShaVars where
  a : W64
  b : W64
  c : W64
  d : W64
  e : W64
  f : W64
  g : W64
  h : W64
  deriving DecidableEq, Repr

def ShaVars.add (x y : ShaVars) : ShaVars :=
  { a := x.a + y.a, b := x.b + y.b, c := x.c + y.c, d := x.d + y.d, e := x.e + y.e, f := x.f + y.f, g := x.g + y.g, h := x.h + y.h }

def ShaVars.words (x : ShaVars) : List W64 := [x.a, x.b, x.c, x.d, x.e, x.f, x.g, x.h]

def ShaVars.start : ShaVars :=
  let w := fun n => shaStart.getD n 0
  { a := w 0, b := w 1, c := w 2, d := w 3, e := w 4, f := w 5, g := w 6, h := w 7 }

/-- The rounds of a block. The window holds the sixteen words of the schedule from the present one on. -/
def shaBlock : List W64 → List W64 → ShaVars → ShaVars
  | [], _, v => v
  | k :: ks, win, v =>
    let w := win.headD 0
    let t1 := v.h + shaBig1 v.e + shaCh v.e v.f v.g + k + w
    let t2 := shaBig0 v.a + shaMaj v.a v.b v.c
    let next := sha1 (win.getD 14 0) + win.getD 9 0 + sha0 (win.getD 1 0) + w
    shaBlock ks (win.tail ++ [next]) { a := t1 + t2, b := v.a, c := v.b, d := v.c, e := v.d + t1, f := v.e, g := v.f, h := v.g }

/-- The number that big-endian bytes denote, and the bytes of a number. -/
def ofBytesBE (bs : List Byte) : Nat := ofBytesLE bs.reverse
def toBytesBE (n x : Nat) : List Byte := (toBytesLE n x).reverse

/-- Sixteen words of a block of 128 bytes. -/
def blockWords : Nat → List Byte → List W64
  | 0, _ => []
  | n + 1, bs => BitVec.ofNat 64 (ofBytesBE (bs.take 8)) :: blockWords n (bs.drop 8)

/-- The blocks of a padded message, one after another. -/
def shaBlocks : Nat → List Byte → ShaVars → ShaVars
  | 0, _, v => v
  | n + 1, bs, v => shaBlocks n (bs.drop 128) (v.add (shaBlock shaRounds (blockWords 16 bs) v))

/-- A message with its padding: a one bit, zeros, and the length in bits in 16 bytes. -/
def shaPad (m : List Byte) : List Byte :=
  m ++ [0x80] ++ List.replicate ((239 - m.length % 128) % 128) 0 ++ toBytesBE 16 (8 * m.length)

/-- SHA-512: 64 bytes. -/
def sha512 (m : List Byte) : List Byte :=
  let p := shaPad m
  (shaBlocks (p.length / 128) p ShaVars.start).words.flatMap fun w => toBytesBE 8 w.toNat

/-! RSASSA-PSS -/

/-- `n` bytes of the mask that MGF1 with SHA-512 makes from a seed. -/
def mgf1 (seed : List Byte) (n : Nat) : List Byte :=
  ((List.range ((n + 63) / 64)).flatMap fun i => sha512 (seed ++ toBytesBE 4 i)).take n

def xorBytes (a b : List Byte) : List Byte := (a.zip b).map fun x => x.1 ^^^ x.2

/-- The hash that an encoded message carries. -/
def pssHash (m salt : List Byte) : List Byte := sha512 (List.replicate 8 0 ++ sha512 m ++ salt)

/-- Clear the leftmost bit of the first byte: the encoded message has 4,095 bits. -/
def clearTop : List Byte → List Byte
  | [] => []
  | b :: bs => (b &&& 0x7F) :: bs

/-- The encoded message of 512 bytes for a salt of 64 bytes. -/
def pssEncode (m salt : List Byte) : List Byte :=
  let h := pssHash m salt
  clearTop (xorBytes (List.replicate 382 0 ++ [0x01] ++ salt) (mgf1 h 447)) ++ h ++ [0xBC]

/-- An encoded message of 512 bytes fits the message. -/
def pssFits (m em : List Byte) : Bool :=
  let h := (em.drop 447).take 64
  let db := clearTop (xorBytes (em.take 447) (mgf1 h 447))
  em.getLast? == some 0xBC && (em.headD 0).toNat < 128 && db.take 383 == List.replicate 382 0 ++ [0x01] &&
    pssHash m (db.drop 383) == h

/-- `b` to the power of `e` modulo `n`; `e` has at most `bits` bits. -/
def powMod (n : Nat) : Nat → Nat → Nat → Nat
  | 0, _, _ => 1 % n
  | bits + 1, b, e =>
    let r := powMod n bits (b * b % n) (e / 2)
    if e % 2 = 1 then r * b % n else r

/-- The signature of a message under a secret exponent (R316). -/
def rsaSign (n d : Nat) (salt m : List Byte) : Nat := powMod n 4096 (ofBytesBE (pssEncode m salt)) d

/-- A signature of RSA-4096 holds for a message under a public key (R315). -/
def rsaVerify (n e : Nat) (m : List Byte) (sig : Nat) : Bool :=
  decide (2 ^ 4095 ≤ n ∧ n < 2 ^ 4096) && decide (sig < n) && pssFits m (toBytesBE 512 (powMod n 4096 sig e))

end Sys2Proof.Machine
end

