-- ==== Sys2Proof/Machine/Launch.lean ====
section
/-!
DEFINITION. Launch records, the launch unit (placement, priority, pre-emption, completion) and the Pacer
(R93, R246–R254, R269–R272, R362, R384, R433).
-/
namespace Sys2Proof.Machine

/-! Launch records (R246) -/

/-- Bytes `hi:lo` of a record. -/
def recBytes (r : BitVec 512) (hi lo : Nat) : Nat := bitsOf r.toNat (8 * hi + 7) (8 * lo)

def recPC (r : BitVec 512) : W64 := BitVec.ofNat 64 (recBytes r 7 0)
def recARG (r : BitVec 512) : W64 := BitVec.ofNat 64 (recBytes r 15 8)
def recGROUPS (r : BitVec 512) : Nat := recBytes r 19 16
def recCPG (r : BitVec 512) : Nat := recBytes r 23 20
def recPLACE (r : BitVec 512) : Nat := recBytes r 24 24 % 4
def recPRIO (r : BitVec 512) : Nat := recBytes r 24 24 / 4 % 4
def recDOM (r : BitVec 512) : Nat := recBytes r 24 24 / 16 % 8
def recMCOUNT (r : BitVec 512) : Nat := recBytes r 26 26
def recMREG (r : BitVec 512) (i : Nat) : Byte := BitVec.ofNat 8 (recBytes r (27 + i) (27 + i))
def recWAIT (r : BitVec 512) : W64 := BitVec.ofNat 64 (recBytes r 39 32)
def recCOMPL (r : BitVec 512) : W64 := BitVec.ofNat 64 (recBytes r 47 40)
def recPRODUCER (r : BitVec 512) : W32 := BitVec.ofNat 32 (recBytes r 51 48)

/-- The largest CPG of a PLACE. -/
def placeMax (p : Nat) : Nat := if p = 0 then 4 else if p = 1 then 64 else if p = 2 then 384 else 1536

/-- The rule of WAIT. -/
def waitFine (s : State) (t : BitVec 3) (va : W64) : Bool :=
  va.toNat % 8 == 0 && (match translateFor s t va false with
    | .error _ => false
    | .ok p => !isWeight p && !s.inReplicated t va && !s.inReduction t va)

/-- The rule of COMPL. -/
def complFine (s : State) (t : BitVec 3) (va : W64) : Bool :=
  va.toNat % 16 == 0 && (match translateFor s t va true with
    | .error _ => false
    | .ok p => !isWeight p && !s.inReplicated t va)

/-- The partition of a tenant. -/
def partition (s : State) (t : BitVec 3) : List Nat := match s.tenant? t with | some x => x.spec.cores | none => []

/-- The rules of a record with the byte that a failure names, by rising byte (R246, R248). -/
def recRules (s : State) (t : BitVec 3) (r : BitVec 512) : List (Nat × Bool) :=
  [(0, recBytes r 0 0 % 4 == 0),
   (16, decide (1 ≤ recGROUPS r ∧ recGROUPS r ≤ 1536) && decide (recGROUPS r * recCPG r ≤ (partition s t).length)),
   (20, decide (1 ≤ recCPG r ∧ recCPG r ≤ placeMax (recPLACE r))),
   (24, (decide (recDOM r ≤ 4) || recDOM r == 7) && recBytes r 24 24 / 128 == 0),
   (25, recBytes r 25 25 == t.toNat),
   (26, decide (recMCOUNT r ≤ 4))] ++
  ((List.range 4).map fun i =>
    (27 + i, if i < recMCOUNT r then rdValid (s.region t (recMREG r i)) else recMREG r i == 0)) ++
  [(31, recBytes r 31 31 == 0),
   (32, recWAIT r == 0 || waitFine s t (recWAIT r)),
   (40, recCOMPL r == 0 || complFine s t (recCOMPL r)),
   (52, recBytes r 63 52 == 0)]

/-- The first bad byte of a record for a tenant. -/
def recBad (s : State) (t : BitVec 3) (r : BitVec 512) : Option Nat := ((recRules s t r).find? fun x => !x.2).map (·.1)

/-! Acceptance and eligibility (R248, R249) -/

def nextGangAfter (g : W32) : W32 := if g + 1 = 0 then 1 else g + 1

/-- The launch unit on base die 0 reads or writes an address of a tenant now: no refreshing group holds it up, and the paths to the
tables, to the home and back are open. What translates to no home is no access (R15, R20, R169). -/
def unitReaches (s : State) (t : BitVec 3) (va : W64) : Bool :=
  !unitHeld s (.base 0) t va && (match translateFor s t va false with
    | .error _ => true
    | .ok p => baseReads s t 0 p)

/-- The address of a record that the launch unit cannot translate yet for its check, WAIT and then COMPL; none where an earlier rule
fails (R15, R20, R169). -/
def recHeld (s : State) (t : BitVec 3) (r : BitVec 512) : Option W64 :=
  let bad := (recBad s t r).getD 64
  ([(32, recWAIT r), (40, recCOMPL r)].find? fun x => decide (x.1 ≤ bad) && x.2 != 0 && walkHeld s (.base 0) t x.2).map (·.2)

/-- The launch unit can read a record's wait counter. -/
def pollOpen (s : State) (r : LaunchRec) : Bool := recWAIT r.record = 0 || unitReaches s r.tenant (recWAIT r.record)

/-- The launch unit reads a record's wait counter: eligible from now on, registered, or neither, with no effect where WAIT no longer
translates, which leaves the next poll. Log entry 94 (DESIGN CHOICE). -/
def pollWait (r : LaunchRec) (s : State) : LaunchRec × State :=
  let now := some s.cycle.toNat
  if recWAIT r.record = 0 then ({ r with since := now }, s)
  else if !pollOpen s r then (r, s)
  else match translateFor s r.tenant (recWAIT r.record) false with
    | .error _ => (r, s)
    | .ok p =>
      if s.mem.num p 8 = 0 then ({ r with since := now }, s)
      else if Config.waiterEntries ≤ (s.dieAt (homeDie p)).waiters.length then (r, s)
      else ({ r with registered := true }, s.modDie (homeDie p) fun d => { d with waiters := d.waiters ++ [(p, .launch r.gang)] })

/-- The launch unit answers a record: its gang number, or 0 when the tenant's pending quota is full. -/
def submit (t : BitVec 3) (r : BitVec 512) (caddr : Option W64) (s : State) : W32 × State :=
  let quota := match s.tenant? t with | some x => x.spec.launchQuota | none => 0
  if quota ≤ (s.pkg.launches.filter fun x => x.tenant == t).length || Config.launchRecords ≤ s.pkg.launches.length then (0, s)
  else
    let g := s.pkg.nextGang
    let x := pollWait { gang := g, tenant := t, record := r, since := none, registered := false, woken := none, caddr := caddr } s
    (g, x.2.modPkg fun p => { p with launches := p.launches ++ [x.1], nextGang := nextGangAfter g })

/-- A core of a tenant can be reached from the launch unit on base die 0, and back (R15, R20). -/
def coreReached (s : State) (t : BitVec 3) (core : Nat) : Bool := readOpen s t (dieOfCore core) (basePlace 0)

/-- The issuing context's request gets to the launch unit, and the answer back (R15, R20). -/
def toLaunchUnit (s : State) : Except Stop Unit :=
  unlessStop (!coreReached s s.core.tenant s.coreId) (wait (.path (basePlace 0) false))

/-- The record of LAUNCH, read at its homes behind the release; its answer (R248). -/
def launchAfter (d : SReg) (x : Src) (p : PReg) (s : State) : Except Stop State :=
  match operands s [x] [d] with
  | .error e => .error e
  | .ok (vs, s1) =>
    match checkAddress s1 .load 64 false .readable (val0 vs) with
    | .error e => .error e
    | .ok (pl, s2) =>
      match readPlace s2 (val0 vs) 64 true false noneOwn pl with
      | .error e => .error e
      | .ok (bs, s3) =>
        let r := BitVec.ofNat 512 (ofBytesLE bs)
        match toLaunchUnit s3, recHeld s3 s3.core.tenant r with
        | .error e, _ => .error e
        | _, some va => wait (.unit va)
        | _, none =>
        match recBad s3 s3.core.tenant r with
        | some b => raise 0x41 (val0 vs) (BitVec.ofNat 64 b)
        | none =>
          let a := submit s3.core.tenant r none s3
          .ok ((a.2.writeS d (a.1.setWidth 64)).writeP p (a.1 != 0)).retire

/-- LAUNCH (R248, R362). -/
def execLaunch (d : SReg) (l : Bool) (a : SReg) (m : Bool) (p : PReg) (s : State) : Result :=
  let w := encode (.launch d l a m p)
  finish s (match notHelper s w with
    | .error e => .error e
    | .ok _ =>
      match operands s [⟨a, l⟩] [d] with
      | .error e => .error e
      | .ok (vs, _) =>
        match notOrdered s w with
        | .error e => .error e
        | .ok _ =>
          if (val0 vs).toNat % 64 ≠ 0 || decide ((val0 vs).toNat < Config.scratchBytes) then raise 0x41 (val0 vs) 0
          else .ok ((release 4 s).before [⟨a, l⟩] (launchAfter d ⟨a, l⟩ p)))

/-- WAIT_COUNTER_POLL: a record that could not register reads its counter again (R249). -/
def execWaitCounterPoll (g : W32) (s : State) : Result :=
  .next (match s.pkg.launches.find? fun r => r.gang == g && r.since.isNone && !r.registered with
    | none => s
    | some r =>
      let x := pollWait r s
      x.2.modPkg fun p => { p with launches := mapIf (fun y => y.gang == g) (fun _ => x.1) p.launches })

/-! Placement (R250–R252) -/

/-- EP of an eligible record. -/
def effPrio (now : Nat) (r : LaunchRec) : Nat :=
  match r.since with
  | some t => Nat.min 3 (recPRIO r.record + (now - t) / 2 ^ 20)
  | none => recPRIO r.record

/-- A core may be taken for a record of a tenant with priority `ep`; cores in `also` count as giving up their gang. A lent core runs its
lender until that completes (R250, R290). -/
def coreFree (s : State) (t : BitVec 3) (ep : Nat) (also : List Nat) (core : Nat) : Bool :=
  (partition s t).contains core && ((s.coreAt core).gang.isNone || also.contains core) &&
    !(s.pkg.saved.any fun v => v.core == core && (match s.gangOf v.gang with
      | some x => decide (ep ≤ x.prio.toNat) || (x.state == .running && !also.contains core)
      | none => false))

/-- The free cores for a record, by rising number. -/
def freeCores (s : State) (t : BitVec 3) (ep : Nat) (also : List Nat) : List Nat :=
  (List.range Config.cores).filter (coreFree s t ep also)

/-- One group: cores of one unit, or consecutive cores (R250). -/
def takeGroup (place cpg : Nat) (free : List Nat) : Option (List Nat) :=
  if place = 3 then
    (free.find? fun c => (List.range cpg).all fun i => free.contains (c + i)).map fun c => (List.range cpg).map (c + ·)
  else
    let inUnit := fun (c : Nat) => free.filter fun k => k / placeMax place == c / placeMax place
    (free.find? fun c => decide (cpg ≤ (inUnit c).length)).map fun c => (inUnit c).take cpg

/-- All groups in ascending index. -/
def takeGroups (place cpg : Nat) : Nat → List Nat → Option (List (List Nat))
  | 0, _ => some []
  | n + 1, free =>
    match takeGroup place cpg free with
    | none => none
    | some g => (takeGroups place cpg n (free.filter fun c => !g.contains c)).map fun gs => g :: gs

/-- The groups of a record on the cores free for it. -/
def fit (s : State) (now : Nat) (also taken : List Nat) (r : LaunchRec) : Option (List (List Nat)) :=
  takeGroups (recPLACE r.record) (recCPG r.record) (recGROUPS r.record)
    ((freeCores s r.tenant (effPrio now r) also).filter fun c => !taken.contains c)

/-- The eligible records in descending EP and ascending acceptance (R251). -/
def placeOrder (s : State) (now : Nat) : List LaunchRec :=
  sortBy (fun r => 3 - effPrio now r) (s.pkg.launches.filter fun r => r.since.isSome)

/-- The producer that a record names, accepted and not yet placed (R252). -/
def producerOf (s : State) (r : LaunchRec) : Option LaunchRec :=
  if recPRODUCER r.record = 0 then none
  else s.pkg.launches.find? fun x => x.gang == recPRODUCER r.record

/-- The placement of a record, where it fits and leaves room for its producer. -/
def placement (s : State) (now : Nat) (r : LaunchRec) : Option (List (List Nat)) :=
  match fit s now [] [] r with
  | none => none
  | some gs =>
    match producerOf s r with
    | none => some gs
    | some p => if (fit s now [] gs.flatten p).isSome then some gs else none

/-- The records that may be placed now: all, or the first alone once it has EP 3 and has waited 2^22 cycles. -/
def placeCands (s : State) (now : Nat) : List LaunchRec :=
  match placeOrder s now with
  | [] => []
  | r :: rest =>
    if effPrio now r = 3 && (match r.since with | some t => decide (2 ^ 22 ≤ now - t) | none => false) then [r] else r :: rest

/-! The kernel table (R58, R433) -/

/-- H, the default level and the scratchpad request of a kernel. -/
structure Kernel where
  helpers : Nat
  level : Nat
  scratch : Nat
  deriving DecidableEq, Repr

/-- Look an entry address up in a kernel table, record by record. Log entry 24 (DESIGN CHOICE). What a record holds outside the ranges of
R58 is log entry 90 (DESIGN CHOICE). -/
def kernelLookup (s : State) (t : BitVec 3) (pc : W64) : Nat → W64 → Option Kernel
  | 0, _ => none
  | n + 1, va =>
    match translateFor s t va false with
    | .error _ => none
    | .ok p =>
      let entry := s.mem.num p 8
      if entry = 0 then none
      else if entry = pc.toNat then
        some { helpers := s.mem.num (p + 8) 1, level := s.mem.num (p + 9) 1,
               scratch := Nat.min (s.mem.num (p + 12) 4) Config.pinnedBase }
      else kernelLookup s t pc n (va + 32)

/-- The look-up waits at one of the records that it reads. -/
def kernelHeld (s : State) (t : BitVec 3) (pc : W64) : Nat → W64 → Bool
  | 0, _ => false
  | n + 1, va =>
    !unitReaches s t va || (match translateFor s t va false with
      | .error _ => false
      | .ok p => s.mem.num p 8 != 0 && s.mem.num p 8 != pc.toNat && kernelHeld s t pc n (va + 32))

/-- Where the launch unit finds the tenant's kernel table (R433). -/
def kernelTableOf (s : State) (t : BitVec 3) : W64 := match s.tenant? t with | some x => x.spec.kernelTable | none => 0

/-- The first core of a placement. -/
def firstCore (gs : List (List Nat)) : Nat := (gs.flatten).headD 0

/-- The regions that a record names. -/
def namedRegions (x : LaunchRec) : List Byte := (List.range (recMCOUNT x.record)).map (recMREG x.record)

/-- The cells of a region that a placement on a core binds get from its old home to its new one (R15, R93). -/
def bindOpen (s : State) (t : BitVec 3) (core : Nat) (r : Byte) : Bool :=
  let d := s.region t r
  !rdValid d || rdAnchor d != 0x7FF || rdHome d == dieOfCore core || pathOpen s t (diePlace (rdHome d)) (diePlace (dieOfCore core))

/-- The launch unit can place a record on its groups now: its cores are reached, the regions that it binds can move, and no closed path or
refreshing group holds up the kernel table (R15, R20, R169). -/
def placeOpen (s : State) (x : LaunchRec) (gs : List (List Nat)) : Bool :=
  gs.flatten.all (coreReached s x.tenant) && (namedRegions x).all (bindOpen s x.tenant (firstCore gs)) && !kernelHeld s x.tenant (recPC x.record) 65536 (kernelTableOf s x.tenant)

/-- The first record that is placed now, with its groups. -/
def nextPlaced (s : State) : Option (LaunchRec × List (List Nat)) :=
  (placeCands s s.cycle.toNat).findSome? fun r => ((placement s s.cycle.toNat r).filter (placeOpen s r)).map fun gs => (r, gs)

/-- The record of an entry address in the tenant's kernel table, where it has one. -/
def kernelRec (s : State) (t : BitVec 3) (pc : W64) : Option Kernel :=
  kernelLookup s t pc 65536 (kernelTableOf s t)

/-- What the launch unit takes from it, or what R433 gives without one. -/
def kernelOf (s : State) (t : BitVec 3) (pc : W64) : Kernel :=
  (kernelRec s t pc).getD { helpers := 0, level := 0, scratch := Config.pinnedBase }

/-- Bytes placed at an address, in canonical form. -/
def imageAt (base : Nat) (bs : List Byte) : Memory :=
  (bs.zipIdx.map fun x => (base + x.2, x.1)).filter fun c => c.2 != 0

/-- The scratchpad at kernel entry: the `.scratch` image below the request, none without a record, and the handler area (R36, R58,
R161, R433); the bytes between, and those of the pinned area past its image or without one, hold zeros. Log entry 69 (DESIGN CHOICE). -/
def entryScratch (s : State) (t : BitVec 3) (pc : W64) : Memory :=
  let images := match s.tenant? t with | some x => x.spec.images | none => []
  let request := match kernelRec s t pc with | some k => k.scratch | none => 0
  match images.find? fun i => i.entry == pc with
  | none => []
  | some i => imageAt 0 (i.scratch.take request) ++ imageAt Config.pinnedBase (i.handler.take (Config.scratchBytes - Config.pinnedBase))

/-! Kernel entry (R36) -/

/-- The control context at kernel entry, with the values that it has held by then. -/
def entryCtx (r : BitVec 512) (group rank : Nat) : Ctx :=
  let args := [recARG r, BitVec.ofNat 64 group, BitVec.ofNat 64 rank, BitVec.ofNat 64 (recCPG r), BitVec.ofNat 64 (recGROUPS r)]
  let c := Ctx.reset true
  { c with pc := recPC r, past := 0 :: args,
           s := args.zipIdx.foldl (fun v x => v.setIfInBounds (x.2 + 1) x.1) c.s }

/-- A core at kernel entry: nothing of an earlier gang stays but its units' messages, FIFOs and translations. -/
def enterCore (s : State) (x : LaunchRec) (group rank : Nat) (c : Core) : Core :=
  let k := kernelOf s x.tenant (recPC x.record)
  let level := BitVec.ofNat 3 (if recDOM x.record = 7 then k.level else recDOM x.record)
  { Core.reset with
      regs := { CoreRegs.reset with level := level, levelNext := level }
      ctxs := Core.resetCtxs.set 0 (entryCtx x.record group rank)
      gang := some x.gang, tenant := x.tenant, helpers := k.helpers, scratchReq := k.scratch,
      scratch := entryScratch s x.tenant (recPC x.record),
      badScratch := c.badScratch.filter fun a => decide (k.scratch ≤ a ∧ a < Config.pinnedBase),
      tlb := c.tlb, efifo := c.efifo, copies := c.batches, nextCopy := c.nextCopy, arrivals := c.arrivals, markQ := c.markQ,
      resend := c.resend, cur := c.cur, bridled := c.bridled, latched := c.latched, lineErrors := c.lineErrors }

/-- Every core of the groups enters, with its group index and rank. -/
def enterAll (x : LaunchRec) (gs : List (List Nat)) (s : State) : State :=
  gs.zipIdx.foldl (fun t g =>
    g.1.zipIdx.foldl (fun u c => u.modCoreAt c.1 (enterCore s x g.2 c.2)) t) s

/-- REGION_BIND: a valid region with ANCHOR 0x7FF is bound to a core, and every cell of it is copied to that core's die, a 0 too (R93). -/
def bindRegion (t : BitVec 3) (core : Nat) (s : State) (r : Byte) : State :=
  let d := s.region t r
  if !rdValid d || rdAnchor d ≠ 0x7FF then s
  else
    let moved : BitVec 128 := BitVec.ofNat 128
      (d.toNat - rdHome d * 2 ^ 46 - rdAnchor d * 2 ^ 51 + dieOfCore core * 2 ^ 46 + core * 2 ^ 51)
    let inside := fun (k : Nat) => decide (cellKey d 0 ≤ k ∧ k < cellKey d (rdCells d))
    let move := fun (k : Nat) => k - rdHome d * 2 ^ 23 + dieOfCore core * 2 ^ 23
    let onto := fun (k : Nat) => decide (move (cellKey d 0) ≤ k ∧ k < move (cellKey d (rdCells d)))
    let rest := s.pkg.marks.filter fun c => !(inside c.1 || onto c.1)
    let cells := (s.pkg.marks.filter fun c => inside c.1).map fun c => (move c.1, c.2)
    let bad := (s.pkg.badMarks.filter fun k => inside k || !onto k).map fun k => if inside k then move k else k
    let s := s.modPkg fun p => { p with marks := cells.foldl (fun m c => cellSet c.1 c.2 m) rest, badMarks := bad }
    s.modHost fun h => { h with tenants := mapIf (fun x => x.num == t) (fun x =>
      { x with regions := mapIf (fun y => y.1 == r) (fun y => (y.1, moved)) x.regions }) h.tenants }

/-- PLACE a record on its groups (R93, R250). -/
def placeGang (x : LaunchRec) (gs : List (List Nat)) (s : State) : State :=
  let s := s.modPkg fun p => { p with launches := p.launches.filter fun r => r.gang != x.gang }
  let s := (namedRegions x).foldl (bindRegion x.tenant (firstCore gs)) s
  let s := enterAll x gs s
  s.modPkg fun p => { p with gangs := p.gangs ++
    [{ num := x.gang, tenant := x.tenant, prio := BitVec.ofNat 2 (recPRIO x.record), cores := gs.flatten,
       compl := recCOMPL x.record, placed := s.cycle.toNat, status := 0, state := .running, ended := [],
       caddr := x.caddr, wanted := false }] }

/-! Pre-emption by the launch unit (R253) -/

/-- Cores that pre-empting a gang frees: those whose control context has not ended (R34). Log entry 27 (DEDUCED). -/
def freedBy (g : Gang) : List Nat := g.cores.filter fun c => !g.ended.contains c

/-- Gangs that may be pre-empted for a record, lowest priority first, latest placed first among equals; not one whose cores hold the
image of another (R253). -/
def victims (s : State) (t : BitVec 3) (ep : Nat) : List Gang :=
  let may := s.pkg.gangs.filter fun g => g.tenant == t && g.state == .running && decide (g.prio.toNat < ep) &&
    !(s.pkg.saved.any fun v => g.cores.contains v.core && v.gang != g.num)
  sortBy (fun g => g.prio.toNat * 2 ^ 64 + (2 ^ 64 - 1 - g.placed % 2 ^ 64)) may.reverse

/-- Pre-empt gangs in order until the record fits. -/
def victimSet (s : State) (r : LaunchRec) : List Gang → List Gang → Option (List Gang)
  | _, [] => none
  | acc, g :: rest =>
    let acc := acc ++ [g]
    if (fit s s.cycle.toNat (acc.flatMap freedBy) [] r).isSome then some acc else victimSet s r acc rest

/-- Every core of a gang that has not ended has been given up with its image, whoever runs there since. -/
def gaveUp (s : State) (g : Gang) : Bool :=
  (freedBy g).all fun c => (imageOf s c g.num).isSome && (s.coreAt c).gang != some g.num

/-- Every core of a gang that has not ended holds its image and is free. -/
def allSaved (s : State) (g : Gang) : Bool :=
  (freedBy g).all fun c => (imageOf s c g.num).isSome && (s.coreAt c).gang.isNone

/-- The gangs that the launch unit pre-empts now: for the first record of the order, when it does not fit and no
pre-emption of its tenant is under way. -/
def nextVictims (s : State) : Option (List Gang) :=
  match placeOrder s s.cycle.toNat with
  | [] => none
  | r :: _ =>
    if (fit s s.cycle.toNat [] [] r).isSome || s.pkg.gangs.any fun g => g.tenant == r.tenant && g.state == .saving && !gaveUp s g then none
    else victimSet s r [] (victims s r.tenant (effPrio s.cycle.toNat r))

/-- GANG_PREEMPT: every core of the gang that has not ended, and has not been given up already, receives a pre-empt interrupt. -/
def preemptGang (g : Gang) (s : State) : State :=
  let there := (freedBy g).filter fun c => (s.coreAt c).gang == some g.num
  (s.modGang g.num fun x => { x with state := .saving }).modPkg fun p => { p with preempts := p.preempts ++ there.map fun c => (c, 0) }

/-- GANG_PLACE: the launch unit places the first record that fits, or pre-empts for the first of the order (R250–R253). -/
def execGangPlace (s : State) : Result :=
  .next (match nextPlaced s with
    | some (r, gs) => placeGang r gs s
    | none => match nextVictims s with
      | some gs => gs.foldl (fun t g => preemptGang g t) s
      | none => s)

/-! Completion (R254) -/

/-- A contribution of the gang stands in a window that has not applied, is on its way to one, or is parked. A core may
hold contributions of a pre-empted gang as well: each carries its gang. -/
def windowOpen (s : State) (g : Gang) : Bool :=
  let mine := fun (c : Contribution) => c.gang == g.num
  (s.pkg.teams.any fun e => e.win.any mine || e.winNext.any mine) ||
    (s.pkg.steps.any fun x => !x.applied && x.contribs.any mine) || s.pkg.inFlight.any mine ||
    (g.cores.any fun c => (s.coreAt c).arrivals.any fun a => a.gang == g.num) ||
    (s.pkg.dies.toList.any fun d => d.replay.any fun r => g.cores.contains r.core && r.gang == g.num.setWidth 16)

/-- Every control context of the gang has ended, its windows have applied and its copies are complete, those of its images among them
(R223, R254, R387). -/
def gangDone (s : State) (g : Gang) : Bool :=
  g.cores.all (fun c => g.ended.contains c && ((s.coreAt c).gang != some g.num || (s.coreAt c).ownCopies.isEmpty)) &&
    (s.pkg.saved.all fun v => v.gang != g.num || v.rest.ownCopies.isEmpty) && !windowOpen s g

/-- The launch unit hears the end of a gang's cores and writes its record now (R15, R20). -/
def completeOpen (s : State) (g : Gang) : Bool :=
  g.cores.all (coreReached s g.tenant) && (g.compl = 0 || unitReaches s g.tenant g.compl)

/-- The completion record (R254). -/
def complBytes (g : Gang) (now : Nat) : List Byte :=
  toBytesLE 4 g.num.toNat ++ [g.status] ++ List.replicate 3 0 ++ toBytesLE 8 (Nat.min (now - g.placed) (2 ^ 64 - 1))

/-- The end of a gang: its record, the report to the host, its cores free. -/
def finishGang (g : Gang) (s : State) : State :=
  let bs := complBytes g s.cycle.toNat
  let s := if g.compl = 0 then s else match translateFor s g.tenant g.compl true with
    | .error _ => s
    | .ok p => if isWeight p then s else s.writeFor g.tenant p bs
  let s := match g.caddr with
    | none => s
    | some a => s.modHost fun h => { h with out := h.out ++
        [HostOut.gang (a + 32) g.num g.status (BitVec.ofNat 64 (s.cycle.toNat - g.placed))] }
  let s := g.cores.foldl (fun t c => t.modCoreAt c fun k => if k.gang = some g.num then { k with gang := none } else k) s
  s.modPkg fun p => { p with gangs := p.gangs.filter fun x => x.num != g.num
                             saved := p.saved.filter fun v => v.gang != g.num }

/-- GANG_COMPLETE (R254). -/
def execGangComplete (n : W32) (s : State) : Result :=
  .next (match s.gangOf n with
    | none => s
    | some g => if gangDone s g && completeOpen s g then finishGang g s else s)

/-! The Pacer (R269–R272, R384) -/

/-- The fields of a pace descriptor; `b k` is byte `k`. -/
def paceByte (d : Nat) (hi lo : Nat) : Nat := bitsOf d (8 * hi + 7) (8 * lo)
def paceL (d : Nat) : Nat := d % 4 + 1
def paceS (d : Nat) : Nat := d / 4 % 4 + 1
def paceQ (d : Nat) : Nat := d / 16 % 8
def paceN (d l : Nat) : Nat := paceByte d (9 + 2 * l) (8 + 2 * l)
def paceStride (d k : Nat) : W32 := BitVec.ofNat 32 (paceByte d (51 + 4 * k) (48 + 4 * k))

/-- The first bad byte of a pace descriptor (R269). -/
def paceBad (d : Nat) : Option Nat :=
  let zero := fun (k : Nat) => (k, paceByte d k k == 0)
  let rules := [(0, decide (paceQ d + paceS d ≤ 8) && d / 128 % 2 == 0), zero 1, zero 4, zero 5, zero 6, zero 7] ++
    ((List.range 4).map fun l => (8 + 2 * l, decide (paceL d ≤ l) || paceN d l != 0)) ++
    ((List.range 16).map fun k => zero (112 + k))
  (rules.find? fun x => !x.2).map (·.1)

/-- The first used queue that the Pacer does not produce. -/
def paceQueue (qcfg : W64) (d : Nat) : Option Nat :=
  ((List.range (paceS d)).map (paceQ d + ·)).find? fun q => prodOf qcfg q != 12

/-- The Pacer as a descriptor loads it. -/
def paceLoad (d : Nat) : Pacer :=
  { active := true, permits := BitVec.ofNat 16 (paceByte d 3 2), levels := paceL d, streams := paceS d, qbase := paceQ d,
    n := Vector.ofFn fun l : Fin 4 => if l.val < paceL d then paceN d l.val else 1,
    base := Vector.ofFn fun j : Fin 4 => BitVec.ofNat 64 (paceByte d (23 + 8 * j.val) (16 + 8 * j.val)),
    stride := Vector.ofFn fun k : Fin 16 => paceStride d k.val,
    i := Vector.replicate 4 0, stream := none }

/-- PACE (R269, R384). Log entry 21 (DEDUCED). -/
def execPace (l : Bool) (a : SReg) (m : Bool) (s : State) : Result :=
  finish s (match notHelper s (encode (.pace l a m)) with
    | .error e => .error e
    | .ok _ =>
      match operands s [⟨a, l⟩] [] with
      | .error e => .error e
      | .ok (vs, s1) =>
        match scratchArea s1 128 128 true (val0 vs) with
        | .error e => .error e
        | .ok _ =>
          let d := s1.core.scratch.num (val0 vs).toNat 128
          if s1.core.regs.pacer.active then raise 0x44 0 0
          else match paceBad d with
            | some b => raise 0x45 (val0 vs) (BitVec.ofNat 64 b)
            | none => match paceQueue s1.core.regs.qcfg d with
              | some q => raise 0x05 0 (BitVec.ofNat 64 q)
              | none => .ok (s1.modRegs fun r => { r with pacer := paceLoad d }).retire)

/-- PERMIT (R271, R384). -/
def execPermit (l : Bool) (a : SReg) (m : Bool) (s : State) : Result :=
  finish s (match notHelper s (encode (.permit l a m)) with
    | .error e => .error e
    | .ok _ =>
      match operands s [⟨a, l⟩] [] with
      | .error e => .error e
      | .ok (vs, s1) =>
        let add := fun (p : Pacer) => { p with permits := BitVec.ofNat 16 (Nat.min 65535 (p.permits.toNat + (val0 vs).toNat % 65536)) }
        .ok (s1.modRegs fun r => { r with pacer := add r.pacer }).retire)

/-- The address that stream `j` pushes in the present iteration (R270). -/
def paceAddr (p : Pacer) (j : Nat) : W64 :=
  (List.range p.levels).foldl (fun a l =>
    a + BitVec.ofNat 64 (vget p.i l 0) * (vget p.stride (4 * j + l) 0).signExtend 64) (vget p.base j 0)

/-- The next iteration, innermost level first; `none` after the last. -/
def paceNext (n : Vector Nat 4) : List Nat → Vector Nat 4 → Option (Vector Nat 4)
  | [], _ => none
  | l :: ls, i =>
    if vget i l 0 + 1 < vget n l 0 then some (i.setIfInBounds l (vget i l 0 + 1)) else paceNext n ls (i.setIfInBounds l 0)

/-- Iterations not yet begun (R271). -/
def paceRemain (p : Pacer) : Nat :=
  if p.active then
    let v := fun (x : Vector Nat 4) (l : Nat) => vget x l 0
    let total := v p.n 0 * v p.n 1 * v p.n 2 * v p.n 3
    let done := v p.i 0 + v p.n 0 * (v p.i 1 + v p.n 1 * (v p.i 2 + v p.n 2 * v p.i 3))
    total - done - boolNat p.stream.isSome
  else 0

/-- PACER (R271). -/
def pacerWord (p : Pacer) : W64 :=
  BitVec.ofNat 64 (p.permits.toNat + boolNat p.active * 2 ^ 16 + Nat.min (paceRemain p) (2 ^ 32 - 1) * 2 ^ 32)

/-- The Pacer stops, with its permits gone (R272). -/
def Pacer.stop (p : Pacer) : Pacer := { p with active := false, permits := 0, stream := none }

/-- The Pacer of a core can move: a permit to take, or room in the queue it pushes to. -/
def pacerDue (c : Core) : Bool :=
  let p := c.regs.pacer
  p.active && !c.bridled && (match p.stream with
    | none => p.permits != 0
    | some j => decide ((vget c.regs.q (p.qbase + j) []).length < Config.queueDepth))

/-- One step of the Pacer: a permit taken, or one address pushed (R270). -/
def paceStep (r : CoreRegs) : CoreRegs :=
  let p := r.pacer
  match p.stream with
  | none => { r with pacer := { p with permits := p.permits - 1, stream := some 0 } }
  | some j =>
    let q := p.qbase + j
    let r := { r with q := r.q.setIfInBounds q (vget r.q q [] ++ [paceAddr p j]) }
    if j + 1 < p.streams then { r with pacer := { p with stream := some (j + 1) } }
    else match paceNext p.n [0, 1, 2, 3] p.i with
      | some i => { r with pacer := { p with i := i, stream := none } }
      | none => { r with pacer := { p with active := false, stream := none } }

/-- PACER_PUSH (R270). -/
def execPacerPush (core : Nat) (s : State) : Result :=
  .next (if pacerDue (s.coreAt core) then s.modCoreAt core fun c => { c with regs := paceStep c.regs } else s)

end Sys2Proof.Machine
end

