-- ==== Sys2Proof/Machine/System.lean ====
section
/-!
DEFINITION. System registers: MFS, MTS and the writes with a row of their own (R6, R29, R30, R37, R41, R43, R47,
R122, R123, R141, R143–R145, R154, R170, R182, R192, R213, R265, R266, R271, R272, R280, R293, R312, R328–R330,
R371, R372).
-/
namespace Sys2Proof.Machine

/-- The numbers of R329. -/
def sysregKnown (n : Nat) : Bool :=
  decide (n ≤ 0x006) || n == 0x008 || n == 0x009 || decide (0x010 ≤ n ∧ n ≤ 0x031) || decide (0x040 ≤ n ∧ n ≤ 0x051) ||
    decide (0x060 ≤ n ∧ n ≤ 0x06F) || decide (0x070 ≤ n ∧ n ≤ 0x074)

/-- A trap register (R280). -/
def sysregTrap (n : Nat) : Bool := decide (n ≤ 0x006)

/-- CTX (R30): the reader, LIVE and HFAULT. -/
def ctxWord (c : Core) (i : Fin 12) : W64 :=
  let live := (List.range 11).foldl (fun acc k => if (vget c.ctxs k (Ctx.reset false)).live then acc + 2 ^ (16 + k) else acc) 0
  BitVec.ofNat 64 (ctxNum i + live + c.hfault.toNat / 2 * 2 ^ 33)

/-- QCFG bytes as they are stored (R41). -/
def qcfgByte (b : Nat) : Nat :=
  let p := b % 16
  let c := b / 16 % 16
  if p = 11 || p = 13 || p = 14 || decide (11 ≤ c ∧ c ≤ 14) || p = c then 255 else b % 256

def qcfgStored (v : W64) : W64 :=
  BitVec.ofNat 64 ((List.range 8).foldl (fun acc i => acc + qcfgByte (bitsOf v.toNat (8 * i + 7) (8 * i)) * 2 ^ (8 * i)) 0)

def spinlimWord (r : CoreRegs) : W64 := BitVec.ofNat 64 (r.spinCount.toNat + r.spinHold.toNat * 2 ^ 16)

/-- VSHARE: WEIGHT and QOCC (R141). -/
def vshareWord (c : Core) : W64 := BitVec.ofNat 64 (c.regs.weight.toNat + 16 * c.entries.length)

/-- ROLE (R266). -/
def roleWord (r : Role) : W64 :=
  BitVec.ofNat 64 (r.stage.toNat + boolNat r.en * 2 ^ 4 + boolNat r.lock * 2 ^ 5 + boolNat r.pend * 2 ^ 6 + r.next.toNat * 2 ^ 8)

/-- STAGE(s): a ring that is not configured for the reader's tenant reads zero (R265). -/
def stageWord (t : BitVec 3) (g : Stage) : W64 :=
  if g.valid && g.tenant == t then
    BitVec.ofNat 64 (g.dlog.toNat + 2 ^ 5 + g.hi.toNat * 2 ^ 8 + g.elems.length * 2 ^ 24)
  else 0

/-- The value of a system register as the issuing context reads it. -/
def sysregRead (s : State) (n : Nat) : W64 :=
  let r := s.core.regs
  let u := s.core.trap
  match n with
  | 0x000 => u.tcause
  | 0x001 => u.taddr
  | 0x002 => u.tepc
  | 0x003 => u.tnpc
  | 0x004 => u.tstat
  | 0x005 => BitVec.ofNat 64 (u.tvec.toNat * 64)
  | 0x006 => u.tact.setWidth 64
  | 0x008 => BitVec.ofNat 64 s.tid
  | 0x009 => s.core.tenant.setWidth 64
  | 0x010 => ctxWord s.core s.core.cur
  | 0x011 => r.levelNext.setWidth 64
  | 0x012 => r.sstep.setWidth 64
  | 0x013 => r.qcfg
  | 0x014 => BitVec.ofNat 64 (boolNat r.lumode)
  | 0x015 => spinlimWord r
  | 0x016 => s.ctx.fstat.setWidth 64
  | 0x017 => s.ctx.frm.setWidth 64
  | 0x018 => vshareWord s.core
  | 0x019 => s.core.fmtShown s.core.cur &&& ~~~((1 : W64) <<< 28)
  | 0x01A => r.frame.word
  | 0x01B => r.frame.base
  | 0x01C => r.frame.pc
  | 0x01D => wsrfOf s.cycle
  | 0x01E => sbstatOf s
  | 0x01F => s.ctx.tstamp
  | 0x030 => s.srwin s.core.tenant
  | 0x031 => s.rwwin s.core.tenant
  | 0x050 => roleWord r.role
  | 0x051 => pacerWord r.pacer
  | 0x070 => s.cycle
  | 0x071 => s.ctx.instret
  | 0x072 => s.core.msgSent
  | 0x073 => s.core.msgRecv
  | 0x074 => match s.tenant? s.core.tenant with | some t => t.spec.capVA &&& 0xFFFFFFFFFFFF | none => 0
  | n =>
    if 0x020 ≤ n ∧ n ≤ 0x02F then
      let g : BitVec 3 := BitVec.ofNat 3 ((n - 0x020) / 2)
      if n % 2 = 0 then (s.ring g).lo else (s.ring g).hi
    else if 0x040 ≤ n ∧ n ≤ 0x04F then efifoWord (s.core.fifo (n - 0x040))
    else if 0x060 ≤ n ∧ n ≤ 0x06F then
      match (s.dieAt s.die).stages[n - 0x060]? with
      | some g => stageWord s.core.tenant g
      | none => 0
    else 0

/-- Whether an entry in the queue was issued by the context at place `i`. -/
def Core.hasEntry (c : Core) (i : Fin 12) : Bool := c.entries.any fun e => e.ctx == i

/-- Whether an uncompleted entry, in the queue or held, was (R138). -/
def Core.owes (c : Core) (i : Fin 12) : Bool := (c.uncompleted i).any fun e => e.ctx == i

/-- MFS of register `n` into `d` (R371, R372); FSTAT waits for the entries of its context that are queued or held, not for steps of a frame
still to come (R138). Log entry 75 (DESIGN CHOICE). -/
def mfsOf (d : SReg) (n : Nat) (w : Option W32) (s : State) : Except Stop State :=
  if !sysregKnown n then raise 0x01 0 ((w.getD 0).setWidth 64)
  else match unlessStop (sysregTrap n && !s.isHandler) (classTrap w) with
    | .error e => .error e
    | .ok _ =>
      match operands s [] [d] with
      | .error e => .error e
      | .ok (_, s1) =>
        if n = 0x016 && s1.core.owes s1.core.cur then wait .fstat
        else .ok (s1.writeS d (sysregRead s n)).retire

/-! Writes (R372) -/

/-- A trap of the context at place `i`, which is blocked at its instruction (R41). -/
def trapBlocked (i : Fin 12) (q : Fin 8) (s : State) : State :=
  pauseFor (issueRec i { code := 0x06, addr := 0, stat := BitVec.ofNat 64 q.val } (s.ctxAt i).pc s.cycle) s

/-- A context is blocked on a queue (R42, R44): until it issues again, also where an entry or room has come meanwhile. Log entry 87
(DESIGN CHOICE). -/
def blockedOn (q : Fin 8) (c : Ctx) : Bool :=
  match c.wait with
  | .qRead k _ => k == q
  | .qWrite k => k == q
  | _ => false

/-- A changed byte empties its queue and traps the contexts that are blocked on it (R41). -/
def changeQueue (s : State) (q : Fin 8) : State :=
  ([0, 1, 2, 3, 4, 5, 6, 7, 8, 9, 10] : List (Fin 12)).foldl
    (fun t i => if blockedOn q (t.ctxAt i) then trapBlocked i q t else t) (s.setQueue q [])

/-- QCFG is written: normalised, changed queues emptied, the Pacer stopped when a byte that it produced changes (R41, R272). Log entry 40 (DEDUCED). -/
def writeQcfg (v : W64) (s : State) : State :=
  let old := s.core.regs.qcfg
  let new := qcfgStored v
  let changed := fun (i : Fin 8) => bitsOf old.toNat (8 * i.val + 7) (8 * i.val) != bitsOf new.toNat (8 * i.val + 7) (8 * i.val)
  let qs := ([0, 1, 2, 3, 4, 5, 6, 7] : List (Fin 8)).filter changed
  let s := s.modRegs fun r => { r with qcfg := new }
  let s := if qs.any fun i => prodOf old i.val == 12 then s.modRegs fun r => { r with pacer := r.pacer.stop } else s
  qs.foldl changeQueue s

/-- DOMAIN is written; levels 5–7 are not (R37). -/
def writeDomain (v : W64) (s : State) : State :=
  if bitsOf v.toNat 2 0 ≤ 4 then s.modRegs fun r => { r with levelNext := v.setWidth 3 } else s

/-- TSTAMP is written; an ordered task's stays. Entries take their key at their drain (R192, R203). -/
def writeTstamp (v : W64) (s : State) : State :=
  if s.ctx.ord.isSome then s else s.modCtx fun c => { c with tstamp := v }

/-- The three fields of a ring descriptor are in range, and the ring lies inside the scratchpad request (R58, R145). -/
def ringFine (request : Nat) (v : W64) : Bool :=
  let base := bitsOf v.toNat 17 0
  let slog := bitsOf v.toNat 21 18
  let size := bitsOf v.toNat 33 22
  base % 64 == 0 && decide (slog ≤ 8) && decide (1 ≤ size ∧ size ≤ 2816) &&
    decide (base + 64 * size * 2 ^ slog ≤ Nat.min Config.pinnedBase request)

/-- The ring that a descriptor describes, empty. -/
def ringOf (v : W64) : Ring :=
  { base := v.setWidth 18, slog := v.extractLsb' 18 4, size := v.extractLsb' 22 12, head := 0, tail := 0, filled := 0,
    free := BitVec.ofNat 9 (2 ^ bitsOf v.toNat 21 18), resv := [] }

/-- Bits 63:0 of ring `g` are written (R145). -/
def writeRing (g : BitVec 3) (v : W64) (s : State) : Except Stop State :=
  if !s.core.entries.isEmpty then wait .vqEmpty
  else if (s.ring g).resv.any fun x => x.owner != 0 && !x.done then wait (.ring g true)
  else if ringFine s.core.scratchReq v then .ok (s.modRing g fun _ => ringOf v)
  else raise 0x31 0 (g.setWidth 64)

/-- FSTAT: a written 1 clears (R122). -/
def writeFstat (v : W64) (s : State) : State := s.modCtx (Ctx.clearFlags v)

/-- CTX: a written 1 clears a bit of HFAULT (R30). -/
def writeCtx (v : W64) (s : State) : State := s.modCore fun c => { c with hfault := c.hfault &&& ~~~((v >>> 32).setWidth 11) }

/-- ROLE: PEND and NEXT clear (R266). -/
def writeRole (v : W64) (s : State) : State :=
  s.modRegs fun r => { r with role := { stage := v.setWidth 4, en := v.getLsbD 4, lock := v.getLsbD 5, pend := false, next := 0 } }

/-- VSHARE: a WEIGHT of 0 stores 1 (R141). -/
def writeVshare (v : W64) (s : State) : State :=
  s.modRegs fun r => { r with weight := if (v.setWidth 4 : BitVec 4) = 0 then 1 else v.setWidth 4 }

/-- The frame register of a number, written; the words of a frame that is written back are fetched again, and it is the
control context's (R154, R372, R390). -/
def putFrame (which : Nat) (v : W64) (f : Frame) : Frame :=
  match which with
  | 0 => { f with word := v &&& 0x3FFF01FFFFFF, body := [], ctx := 0, fault := none }
  | 1 => { f with base := addrBits v, body := [], fault := none }
  | _ => { f with pc := addrBits v }

/-- FRAME, FRBASE or FRPC: the control context waits until no frame is active, a helper's write is ignored (R372). Log entry 41 (DEDUCED). -/
def writeFrame (which : Nat) (v : W64) (s : State) : Except Stop State :=
  if s.isHelper then .ok s
  else if s.isControl && frameActive s.core.regs.frame.word then wait .frameActive
  else .ok (s.modFrame (putFrame which v))

/-- A write of register `n` by the issuing context: fields that are RO and registers that are RO ignore it (R6, R372). -/
def sysregWrite (n : Nat) (v : W64) (s : State) : Except Stop State :=
  match n with
  | 0x005 => .ok (s.modTrap fun u => { u with tvec := v.extractLsb' 6 8 })
  | 0x006 => .ok (s.modTrap fun u => { u with tact := v.setWidth 3 })
  | 0x010 => .ok (writeCtx v s)
  | 0x011 => .ok (writeDomain v s)
  | 0x013 => .ok (writeQcfg v s)
  | 0x014 => .ok (s.modRegs fun r => { r with lumode := v.getLsbD 0 })
  | 0x015 => .ok (s.modRegs fun r => { r with spinCount := v.setWidth 16, spinHold := v.extractLsb' 16 16 })
  | 0x016 => .ok (writeFstat v s)
  | 0x017 => .ok (s.modCtx fun c => { c with frm := v.setWidth 2 })
  | 0x018 => .ok (writeVshare v s)
  | 0x01A => writeFrame 0 v s
  | 0x01B => writeFrame 1 v s
  | 0x01C => writeFrame 2 v s
  | 0x01F => .ok (writeTstamp v s)
  | 0x050 => .ok (writeRole v s)
  | n =>
    if 0x020 ≤ n ∧ n ≤ 0x02F ∧ n % 2 = 0 then writeRing (BitVec.ofNat 3 ((n - 0x020) / 2)) v s else .ok s

/-- CTX, DOMAIN, QCFG, LUMODE and SPINLIM, which a helper may not write (R29). -/
def sysregCore (n : Nat) : Bool := n == 0x010 || n == 0x011 || n == 0x013 || n == 0x014 || n == 0x015

/-- MTS of a scalar register to register `n` (R371, R372). -/
def mtsOf (x : SReg) (n : Nat) (w : Option W32) (s : State) : Except Stop State :=
  if !sysregKnown n then raise 0x01 0 ((w.getD 0).setWidth 64)
  else match unlessStop ((sysregTrap n && !s.isHandler) || (sysregCore n && s.isHelper)) (classTrap w) with
    | .error e => .error e
    | .ok _ =>
      match operands s [⟨x, false⟩] [] with
      | .error e => .error e
      | .ok (vs, s1) => (sysregWrite n (val0 vs) s1).map State.retire

/-- MFS. -/
def execMfs (d : SReg) (r : BitVec 12) (s : State) : Result := finish s (mfsOf d r.toNat (encode (.mfs d r)) s)

/-- MTS. -/
def execMts (x : SReg) (r : BitVec 12) (s : State) : Result := finish s (mtsOf x r.toNat (encode (.mts x r)) s)

/-- An MTS of register `n` as a row of its own. -/
def mtsRow (x : SReg) (n : Nat) (s : State) : Result :=
  finish s (mtsOf x n (encode (.mts x (BitVec.ofNat 12 n))) s)

def execQcfgWrite (x : SReg) (s : State) : Result := mtsRow x 0x013 s
def execDomainWrite (x : SReg) (s : State) : Result := mtsRow x 0x011 s
def execTstampWrite (x : SReg) (s : State) : Result := mtsRow x 0x01F s
def execRingDescriptorWrite (g : BitVec 3) (x : SReg) (s : State) : Result := mtsRow x (0x020 + 2 * g.toNat) s
def execFstatClear (x : SReg) (s : State) : Result := mtsRow x 0x016 s
def execFstatRead (d : SReg) (s : State) : Result := finish s (mfsOf d 0x016 (encode (.mfs d 0x016)) s)
def execHfaultClear (x : SReg) (s : State) : Result := mtsRow x 0x010 s
def execRoleWrite (x : SReg) (s : State) : Result := mtsRow x 0x050 s
def execVshareWrite (x : SReg) (s : State) : Result := mtsRow x 0x018 s
def execFrameWrite (which : BitVec 2) (x : SReg) (s : State) : Result := mtsRow x (0x01A + which.toNat % 3) s

end Sys2Proof.Machine
end

