-- ==== Sys2Proof/Machine/Traps.lean ====
section
/-!
DEFINITION. TRAP, ERET, saving and restoring contexts, pre-emption and lending, the management processor's answers
and the Bridle (R169, R253, R278–R293, R298, R318, R354, R365, R397, R404).
-/
namespace Sys2Proof.Machine

/-- TRAP (R404). -/
def execTrap (c : BitVec 12) (s : State) : Result := finish s (raise 0x08 0 (c.setWidth 64))

/-! Diverted packets of the resident gang (R290, R291) -/

/-- The contexts of an image that has not been restored whole. -/
def savedMask (v : Saved) : BitVec 12 := v.ctxs.foldl (fun m c => m ||| ((1 : BitVec 12) <<< c.1.val)) 0

/-- Deliver the diverted packets whose contexts are resident again, in arrival order; the image goes once it is empty. -/
def deliverSpill (s : State) : State :=
  match s.core.gang with
  | none => s
  | some g =>
    match s.pkg.saved.find? fun v => v.core == s.coreId && v.gang == g with
    | none => s.modTrap fun u => { u with saved := 0 }
    | some v =>
      let mask := savedMask v
      let back := fun (p : Packet) => !mask.getLsbD p.ctx.val
      let s := s.modTrap fun u => { u with saved := mask }
      let s := if v.ctxs.isEmpty then
          s.modPkg fun p => { p with saved := p.saved.filter fun x => !(x.core == v.core && x.gang == v.gang) }
        else s.putSaved { v with spill := v.spill.filter fun p => !back p }
      (v.spill.filter back).foldl (fun t p => t.onCtx t.coreId p.ctx (applyBody p.body)) s

/-- The handler's own entries have not completed: queued ones, or steps of a frame of its own (R298). -/
def handlerBusy (c : Core) : Bool :=
  c.hasEntry handlerIx || (frameActive c.regs.frame.word && c.regs.frame.ctx == handlerIx)

/-- ERET (R281, R298, R354): action 0 after a trap at the head of the queue waits for the handler's own entries. -/
def execEret (s : State) : Result :=
  finish s (match handlerOnly s (encode .eret) with
    | .error e => .error e
    | .ok _ =>
      let u := s.core.trap
      let head := match u.service with | .trap r => r.qhead | _ => false
      if head && u.tact == 0 && handlerBusy s.core then wait .fstat
      else
        let t := returnFromTrap s
        if t.core.trap.halted then .ok t
        else
          let t := t.modCtxAt handlerIx fun c => { c with instret := c.instret + 1 }
          .ok (if t.core.gang.isSome then deliverSpill t else t))

/-! SVCTX and LDCTX (R187, R288, R289, R365, R397) -/

/-- The image of a context: its buffer stands behind its log (R187). -/
def saveCtx (now : Nat) (c : Ctx) : Ctx := { c with wait := settleWait now c.wait, log := c.log ++ c.buf, buf := [] }

def loadCtx (now : Nat) (c : Ctx) : Ctx := { c with wait := unsettleWait now c.wait, live := true }

/-- Serving a pre-empt or a spin yield (R397). -/
def Service.saving : Service → Bool
  | .intr r => r.code == 0x01 || r.code == 0x03
  | _ => false

/-- Pending traps of a context in the order of their service. -/
def trapsOf (i : Fin 12) (l : List TrapRec) : List TrapRec := l.filter fun r => r.ctx == i
def trapsBut (i : Fin 12) (l : List TrapRec) : List TrapRec := l.filter fun r => r.ctx != i

/-- The save of context `i`: image, core state with context 0, its pending traps, parked notices, LIVE (R397). -/
def saveContext (i : Fin 12) (g : W32) (s : State) : State :=
  let now := s.cycle.toNat
  let v := savedHere s g
  let image := saveCtx now (s.ctxAt i)
  let kept := (trapsOf i s.core.trap.pendTraps).foldl (fun l r => insertBy TrapRec.rank r l) (trapsBut i v.rest.trap.pendTraps)
  let v := { v with
    ctxs := (i, image) :: v.ctxs.filter (fun c => c.1 != i)
    regs := if i = 0 then some s.core.regs else v.regs
    rest := { v.rest with trap := { v.rest.trap with pendTraps := kept } } }
  let s := parkNotices i true (s.putSaved v)
  let s := if i = 0 then s.modRegs fun r => { r with pacer := { r.pacer with active := false } } else s
  let s := s.modTrap fun u => { u with saved := u.saved ||| ((1 : BitVec 12) <<< i.val), pendTraps := trapsBut i u.pendTraps }
  s.modCtxAt i fun c => { c with buf := [], log := [], wait := .ready, live := false, taken := [] }

/-- SVCTX (R397). Log entry 42 (DEDUCED). -/
def execSvctx (n : BitVec 4) (s : State) : Result :=
  let w := encode (.svctx n)
  finish s (match unlessStop (!s.isHandler || !s.core.trap.service.saving) (classTrap w) with
    | .error e => .error e
    | .ok _ =>
      match ctxIx n.toNat, s.core.gang with
      | some i, some g =>
        if !(s.ctxAt i).live || s.core.trap.saved.getLsbD i.val || i == handlerIx then .ok s.retire
        else if i = 0 && !s.core.entries.isEmpty then wait .vqEmpty
        else .ok (saveContext i g s).retire
      | _, _ => .ok s.retire)

/-- What an image keeps of the rest of its core once context `i` has been restored. -/
def restAfter (i : Fin 12) (c : Core) : Core :=
  let c := { c with trap := { c.trap with pendTraps := trapsBut i c.trap.pendTraps } }
  if i = 0 then { c with exch := none, exchLast := none, xmits := [], xsels := [] } else c

/-- The restore of context `i` from its image (R365), with its pending traps; an exchange phase that had begun when the core was
given up goes on with context 0. -/
def loadContext (i : Fin 12) (image : Ctx) (v : Saved) (s : State) : State :=
  let now := s.cycle.toNat
  let s := s.putSaved { v with
    ctxs := v.ctxs.filter (fun c => c.1 != i), regs := if i = 0 then none else v.regs, rest := restAfter i v.rest }
  let s := match i == 0, v.regs with
    | true, some r => (s.modRegs fun _ => r).modCore fun c =>
      { c with exch := v.rest.exch, exchLast := v.rest.exchLast, xmits := v.rest.xmits, xsels := v.rest.xsels }
    | _, _ => s
  let s := s.modTrap fun u => { u with
    pendTraps := (trapsOf i v.rest.trap.pendTraps).foldl (fun l r => insertBy TrapRec.rank r l) u.pendTraps }
  parkNotices i false (s.modCtxAt i fun _ => loadCtx now image)

/-- LDCTX (R365). -/
def execLdctx (n : BitVec 4) (s : State) : Result :=
  finish s (match handlerOnly s (encode (.ldctx n)) with
    | .error e => .error e
    | .ok _ =>
      match ctxIx n.toNat, s.core.gang with
      | some i, some g =>
        let v := savedHere s g
        match v.ctxs.find? fun c => c.1 == i with
        | none => .ok s.retire
        | some c => if (s.ctxAt i).live then .ok s.retire else .ok (loadContext i c.2 v s).retire
      | _, _ => .ok s.retire)

/-! Pre-emption, restoring and lending (R253, R288, R291) -/

/-- A core still runs its gang's control context. -/
def controlRuns (s : State) (core : Nat) : Bool :=
  match (s.coreAt core).gang with
  | none => false
  | some g => match s.gangOf g with
    | none => true
    | some x => !x.ended.contains core

/-- PREEMPT_INTERRUPT, once a path leads from the launch unit (R15, R20): a core whose control context has ended keeps its place (R34, R288). -/
def execPreemptInterrupt (core : Nat) (stat : BitVec 2) (s : State) : Result :=
  let t := s.modPkg fun p => { p with preempts := removeOne (core, stat) p.preempts }
  .next (if !coreReached s (s.coreAt core).tenant core then s
    else if controlRuns t core then t.onCore core (takeInterrupt 0x01 (stat.setWidth 64)) else t)

/-- Another gang whose image stands on the core is lending it, or has been given it back. -/
def lenderOn (s : State) (v : Saved) : Bool := s.pkg.saved.any fun u => u.core == v.core && u.gang != v.gang && u.lent.isSome
def ownerOn (s : State) (v : Saved) : Bool :=
  s.pkg.saved.any fun u => u.core == v.core && u.gang != v.gang && u.lent.isNone && (match s.gangOf u.gang with
    | some g => g.state == .running
    | none => false)

/-- The image may be restored on its core now: the gang whole, or the rest of a gang whose restoring has begun, or on a
core that is lent to it; records with a higher EP that can be placed go first (R253, R288). -/
def restoreDue (s : State) (v : Saved) : Bool :=
  (s.coreAt v.core).gang.isNone && v.lent.isNone && (match s.gangOf v.gang with
    | none => false
    | some g => coreReached s g.tenant v.core &&
      (lenderOn s v || (match g.state with
        | .running => true
        | .saving => allSaved s g && !ownerOn s v)) &&
      (match nextPlaced s with
        | some (r, _) => decide (effPrio s.cycle.toNat r ≤ g.prio.toNat)
        | none => true))

/-- A core with its image's state; its units' messages and FIFOs stay (R288, R291). -/
def restoredCore (g : W32) (v : Saved) (c : Core) : Core :=
  { v.rest with
      gang := some g, arrivals := c.arrivals, markQ := c.markQ, resend := c.resend, tlb := c.tlb, efifo := c.efifo,
      copies := v.rest.copies ++ c.batches, nextCopy := Nat.max v.rest.nextCopy c.nextCopy,
      bridled := c.bridled, latched := c.latched, lineErrors := c.lineErrors, rcache := [], icache := [],
      exch := none, exchLast := none, xmits := [], xsels := [],
      trap := { v.rest.trap with
        saved := savedMask v, pendTraps := v.rest.trap.pendTraps.filter fun r => !(savedMask v).getLsbD r.ctx.val } }

/-- What stays in the image of a restored core: what LDCTX of its contexts takes (R365). -/
def restoredRest (v : Saved) : Core :=
  let c := v.rest
  { Core.reset with
      tenant := c.tenant, exch := c.exch, exchLast := c.exchLast, xmits := c.xmits, xsels := c.xsels
      trap := { TrapUnit.reset with pendTraps := c.trap.pendTraps.filter fun r => (savedMask v).getLsbD r.ctx.val } }

/-- RESTORE_INTERRUPT (R282, R291). -/
def execRestoreInterrupt (core : Nat) (g : W32) (s : State) : Result :=
  .next (match imageOf s core g with
    | none => s
    | some v =>
      if restoreDue s v then
        let s := if lenderOn s v then s else s.modGang g fun x => { x with state := .running, wanted := false }
        let s := s.putSaved { v with rest := restoredRest v }
        (s.modCoreAt core (restoredCore g v)).onCore core (takeInterrupt 0x02 ((savedMask v).setWidth 64))
      else s)

/-- Every live context of a core is blocked (R288). -/
def allBlocked (c : Core) : Bool :=
  ([0, 1, 2, 3, 4, 5, 6, 7, 8, 9, 10] : List (Fin 12)).all fun i => !(c.ctxs[i]).live || (c.ctxs[i]).wait.blocks

/-- A lend of a core since cycle `t` by gang `g` may end: nothing waits there, its time is over or the borrower has blocked, or the
borrower has quit and its copies are complete (R288). -/
def lendOver (s : State) (core : Nat) (g : W32) (t : Nat) : Bool :=
  let c := s.coreAt core
  let late := decide (t + 65536 ≤ s.cycle.toNat)
  if c.gang.isNone then late || !(s.pkg.saved.any fun v => v.core == core && v.gang != g && restoreDue s v)
  else if controlRuns s core then late || (c.trap.service == .none && c.trap.pendIntrs.isEmpty && allBlocked c)
  else c.ownCopies.isEmpty

def lendDue (s : State) (core : Nat) : Bool :=
  s.pkg.saved.any fun u => u.core == core && u.lent.any (lendOver s core u.gang)

/-- LEND_END: the borrower is pre-empted with TSTAT 2, or has quit and leaves the core; the lender may be restored (R288). -/
def execLendEnd (core : Nat) (s : State) : Result :=
  .next (if lendDue s core then
      let ends := fun (v : Saved) => v.core == core && v.lent.isSome
      let s := s.modPkg fun p => { p with saved := mapIf ends (fun v => { v with lent := none }) p.saved }
      if (s.coreAt core).gang.isNone then s
      else if controlRuns s core then s.modPkg fun p => { p with preempts := p.preempts ++ [(core, 2)] }
      else s.modCoreAt core emptyCore
    else s)

/-! The management processor's answers (R284–R287) -/

/-- The cores of a die that have been touched. -/
def coresOfDie (s : State) (d : Nat) : List Nat := (s.cores.map (·.1)).filter fun c => dieOfCore c == d

/-- The record of a fault on a page has been written to the trap queue and may be answered. -/
def faultDue (d : Die) (t : BitVec 3) (page : BitVec 32) : Bool :=
  d.tq.any fun r => r.kind == 0 && r.tenant == t && pageOf r.addr == page

/-- The record is answered: its entry frees, no fault on the page is outstanding. -/
def answerFault (t : BitVec 3) (page : BitVec 32) (d : Die) : Die :=
  { d with tq := d.tq.filter fun r => !(r.kind == 0 && r.tenant == t && pageOf r.addr == page)
           faults := d.faults.filter fun f => f != (t, page) }

/-- PAGE_FAULT_RETRY: waiters issue again, parked entries replay (R222, R284). Log entry 44 (DEDUCED). -/
def execPageFaultRetry (die : Nat) (t : BitVec 3) (page : BitVec 32) (s : State) : Result :=
  .next (if faultDue (s.dieAt die) t page then
      s.modDie die fun d =>
        { answerFault t page d with replay := mapIf (fun r => r.tenant == t && r.page == page) (fun r => { r with resolved := true }) d.replay }
    else s)

/-- The replayable fault that a context waits on: of its instruction, or of the step of its frame; with the instruction's
address. -/
def waitsOn (i : Fin 12) (s : State) : Option (W64 × W64 × W64) :=
  let f := s.core.regs.frame
  match (s.ctxAt i).wait, f.fault with
  | .pageFault addr stat, _ => some (addr, stat, (s.ctxAt i).pc)
  | _, some x => if f.ctx = i && frameActive f.word then some (x.1, x.2, f.base + BitVec.ofNat 64 (4 * frameIndex f.word)) else none
  | _, none => none

/-- A context that waits on a fault of the page ends; the handler's is a double fault (R277, R284). -/
def endWaiter (page : BitVec 32) (i : Fin 12) (s : State) : State :=
  match waitsOn i s with
  | some (addr, stat, epc) =>
    if (s.ctxAt i).live && pageOf addr == page then
      if i = handlerIx then doubleFaultOf 0x14 s else endFatal i 0x14 addr epc stat s
    else s
  | none => s

def allCtxs : List (Fin 12) := [0, 1, 2, 3, 4, 5, 6, 7, 8, 9, 10, 11]

/-- PAGE_FAULT_FATAL: every waiting context ends, and so do the contexts of parked entries, which are discarded (R222, R284, R286). -/
def execPageFaultFatal (die : Nat) (t : BitVec 3) (page : BitVec 32) (s : State) : Result :=
  .next (if faultDue (s.dieAt die) t page then
      let parked := (s.dieAt die).replay.filter fun r => r.tenant == t && r.page == page
      let gone := fun (d : Die) => { answerFault t page d with replay := d.replay.filter fun r => !(r.tenant == t && r.page == page) }
      let s := s.modDie die gone
      let s := (coresOfDie s die).foldl (fun u c =>
        u.onCore c fun x => if x.core.tenant = t then allCtxs.foldl (fun y i => endWaiter page i y) x else x) s
      closeWindows (parked.foldl (fun u r => endThread r.core r.gang r.ctx 0x14 (wordVA r.entry) 2 u) s)
    else s)

/-- TRAP_QUEUE_RECORD: a record that waits at its source is written once it has room (R285). -/
def execTrapQueueRecord (die : Nat) (s : State) : Result :=
  .next (s.modDie die fun d =>
    match d.tqWait.find? fun r => tqRoom d r.kind with
    | none => d
    | some r => tqWrite r { d with tqWait := removeOne r d.tqWait })

/-- The contexts of a core's gang that have not ended, helpers first: on the core, saved by SVCTX, or not yet restored. -/
def standing (s : State) (core : Nat) : List (Fin 12) :=
  let c := s.coreAt core
  ([1, 2, 3, 4, 5, 6, 7, 8, 9, 10, 0] : List (Fin 12)).filter fun i => c.gang.isSome && threadLive s core c.tag i

/-- A double fault of a core that the management processor has not acted on. -/
def doubleDue (s : State) (core : Nat) : Bool := (s.coreAt core).trap.halted && !(standing s core).isEmpty

/-- FATAL_RECORD_SERVED: the first record of an end, a double fault or a lost response is taken; a double fault's once its contexts
have ended (R285). -/
def execFatalRecordServed (die : Nat) (s : State) : Result :=
  let served := fun (r : TqRec) => r.kind == 1 || r.kind == 3 || (r.kind == 2 && !doubleDue s (coreOfTid r.tid.toNat))
  .next (s.modDie die fun d =>
    match d.tq.find? served with
    | none => d
    | some r => { d with tq := removeOne r d.tq })

/-- DOUBLE_FAULT: the management processor ends every context of the core with 0x7F (R287). -/
def execDoubleFault (core : Nat) (s : State) : Result :=
  .next (if doubleDue s core then
      (standing s core).foldl (fun t i => endThread core (t.coreAt core).tag i 0x7F 0 0 t) s
    else s)

/-! The Bridle (R292, R318) -/

/-- The cores of a partition, or of the package. -/
def haltSet (s : State) (t : Option (BitVec 3)) : List Nat :=
  match t with
  | none => List.range Config.cores
  | some x => partition s x

/-- A core stops issuing and latches CYCLE, INSTRET of each context, MSGSENT and MSGRECV. Log entry 45 (DESIGN CHOICE). -/
def haltCore (cycle : W64) (c : Core) : Core :=
  if c.bridled then c
  else { c with bridled := true, latched := cycle :: c.ctxs.toList.map (·.instret) ++ [c.msgSent, c.msgRecv] }

/-- A count that did not advance while the core was halted. -/
def shiftWait (by_ : Nat) : Wait → Wait
  | .idle till => .idle (till + by_)
  | .hold till => .hold (till + by_)
  | w => w

/-- A core issues again; IDLE and HOLD counts go on from where they stood. -/
def resumeCore (cycle : W64) (c : Core) : Core :=
  if c.bridled then
    let gap := cycle.toNat - (c.latched.headD cycle).toNat
    let shift := fun (x : Ctx) => { x with wait := shiftWait gap x.wait }
    { c with bridled := false, ctxs := c.ctxs.map shift }
  else c

def haltCores (t : Option (BitVec 3)) (s : State) : State :=
  (haltSet s t).foldl (fun u c => u.modCoreAt c (haltCore u.cycle)) s

/-- BRIDLE_HALT. -/
def execBridleHalt (t : Option (BitVec 3)) (s : State) : Result := .next (haltCores t s)

/-- BRIDLE_RESUME. -/
def execBridleResume (t : Option (BitVec 3)) (s : State) : Result :=
  .next ((haltSet s t).foldl (fun u c => u.onCore c fun x => serveNext (x.modCore (resumeCore x.cycle))) s)

/-- Nothing that a core has sent, or that is sent to it, is on its way: requests, gathers, tiles, transfers of the exchange, and copies that
can go on. -/
def quietCore (s : State) (core : Nat) (c : Core) : Bool :=
  c.markQ.isEmpty && !((gangsOn s core).any fun g => (regsOf s core g).gathers.any fun x => x.sent && !x.served) && c.resend.isEmpty && c.arrivals.isEmpty && c.tiles.isEmpty && !(c.copies.any (copyDue s core)) &&
    !(c.exch.isSome && exchangePending s.cycle.toNat c) && !(allCtxs.any fun i => pushes i c)

/-- No packet of the partition remains, and every core of it is halted. -/
def quiet (s : State) (t : Option (BitVec 3)) : Bool :=
  let mine := fun (x : BitVec 3) => match t with | none => true | some y => x == y
  let ours := fun (g : W32) => match s.gangOf g with | none => false | some x => mine x.tenant
  (haltSet s t).all (fun c => (s.coreAt c).bridled) &&
    (s.cores.all fun c => !mine c.2.tenant || quietCore s c.1 c.2) &&
    (s.pkg.reds.all fun r => !mine r.tenant) && (s.pkg.inFlight.all fun c => !mine c.tenant) &&
    (s.pkg.wakes.all fun w => !ours w.2.2.1) &&
    (s.pkg.saved.all fun v => !ours v.gang || !(v.rest.copies.any (copyDue s v.core) ||
      allCtxs.any fun i => pushes i (imageCore v (s.coreAt v.core)))) &&
    (s.pkg.departs.all fun d => !(s.pkg.teams.any fun e => e.slot == d.slot && mine e.tenant)) &&
    s.pkg.stackUnits.toList.all fun k => k.switch.all fun r => !mine r.tenant

/-- BRIDLE_QUIESCED: the report. -/
def execBridleQuiesced (t : Option (BitVec 3)) (s : State) : Result :=
  .next (if quiet s t then s.modHost fun h => { h with out := h.out ++ [HostOut.quiesced t] } else s)

/-- POWER_LIMIT: issue holds on every core, visible only as timing (R318). Log entry 50 (DEDUCED). -/
def execPowerLimit (on : Bool) (s : State) : Result := .next (s.modHost fun h => { h with powerHold := on })

/-- WEIGHT_REFRESH: reads of `die`'s weight store that a refresh window stalled go on when the window has ended (R169). -/
def execWeightRefresh (die : Nat) (s : State) : Result :=
  let go := fun (c : Ctx) => match c.wait with
    | .refresh till => if till ≤ s.cycle.toNat then { c with wait := .ready } else c
    | _ => c
  .next ((s.cores.map (·.1)).foldl (fun u c =>
    if dieOfCore c = die then u.modCoreAt c fun k => { k with ctxs := k.ctxs.map go } else u) s)

end Sys2Proof.Machine
end

