-- ==== Sys2Proof/Machine/Host.lean ====
section
/-!
DEFINITION. The host's commands: command spaces, journals and completions, tenants, fabric, images, memory, launches,
events, weight fills, mark regions, translations, migration, capabilities, attestation, layer sleep and reset
(R92, R93, R165, R168, R169, R172, R175, R206, R209, R212, R230, R241, R242, R305–R319, R431, R435).
-/
namespace Sys2Proof.Machine

/-! Status codes (R308) -/

def stDone : Byte := 0
def stBusy : Byte := 1
def stInvalid : Byte := 2
def stQuota : Byte := 3
def stFault : Byte := 4
def stSignature : Byte := 5
def stDenied : Byte := 6
def stSlotBusy : Byte := 7
def stStale : Byte := 8
def stTorn : Byte := 9

/-! States of a journal entry (R310) -/

def jAccepted : Byte := 0
def jRunning : Byte := 1
def jComplete : Byte := 2
def jRefused : Byte := 3

/-! Handling a command (R305–R308, R310) -/

/-- Who may issue a command. -/
inductive Issuer where
  | owner
  | tenant
  | either
  deriving DecidableEq, Repr

/-- What a command does: its status, its result, data for the host, and the state. -/
structure Done where
  status : Byte
  result : W64
  data : List Byte
  state : State

def refuse (status : Byte) (s : State) : Done := { status := status, result := 0, data := [], state := s }
def done (s : State) : Done := { status := stDone, result := 0, data := [], state := s }

/-- A command: its header, its opcode in the table of R306, who may issue it, whether its data has the form of R305, and what
it does. -/
structure Command where
  cmd : Cmd
  op : Byte
  who : Issuer
  fits : Bool
  act : State → Done

/-- The data of a command: inline, or LEN bytes read from the host buffer at ARG (R305). Log entry 79 (DESIGN CHOICE). -/
def dataFits (c : Cmd) (bytes : Nat) : Bool := if c.len = 0 then decide (bytes ≤ 4064) else bytes == c.len.toNat

/-- The owner endpoint is the one that the configuration image names (R306). -/
def isOwner (s : State) (c : Cmd) : Bool :=
  match s.pkg.host.configuration with
  | some x => c.endpoint == Config.imageOwner x.payload
  | none => false

/-- Opcodes of owner commands, and of those that owner and tenants share (R306, R307). -/
def ownerOp (op : Byte) : Bool := decide (1 ≤ op.toNat ∧ op.toNat ≤ 4) || op == 0x10
def sharedOp (op : Byte) : Bool := decide (0x0D ≤ op.toNat ∧ op.toNat ≤ 0x0F)

/-- The SEQ space of a command: 8 is the device owner's (R307). -/
def spaceOf (s : State) (c : Cmd) : Nat := if isOwner s c && (ownerOp c.opcode || sharedOp c.opcode) then 8 else c.tenant.toNat

/-- The largest SEQ that a space has used. -/
def usedSeq (s : State) (sp : Nat) : Option W64 := s.pkg.host.maxSeq.lookup sp

/-- The journal index that comes next in a space. -/
def nextIdx (s : State) (sp : Nat) : Nat :=
  match (s.pkg.host.journal.filter fun e => e.space == sp).getLast? with
  | some e => (e.idx + 1) % Config.journalEntries
  | none => 0

/-- Append an entry; the oldest of a full ring is overwritten (R310). -/
def journalPut (e : JEntry) (s : State) : State :=
  let mine := s.pkg.host.journal.filter fun x => x.space == e.space
  let old := if Config.journalEntries ≤ mine.length then removeOne (mine.headD e) s.pkg.host.journal else s.pkg.host.journal
  s.modHost fun h => { h with journal := old ++ [e] }

/-- Append the entry of a command: its SEQ counts as used (R307). -/
def journalAdd (e : JEntry) (s : State) : State :=
  let top := match usedSeq s e.space with
    | some q => if q.toNat < e.seq.toNat then e.seq else q
    | none => e.seq
  (journalPut e s).modHost fun h => { h with maxSeq := (e.space, top) :: h.maxSeq.filter fun m => m.1 != e.space }

/-- An entry of the device ring that no command has made: the ready entry, and the report of a critical temperature. Log entry 48 (DEDUCED). -/
def deviceEntry (kind : JKind) (s : State) : State :=
  journalPut { kind := kind, space := 8, idx := nextIdx s 8, seq := 0, endpoint := 0, tenant := 0, opcode := 0, slot := 0,
               state := jComplete, status := stDone, result := 0 } s

/-- The entry of a command. -/
def entryFor (c : Cmd) (sp idx : Nat) (state status : Byte) (result : W64) : JEntry :=
  { kind := .command, space := sp, idx := idx, seq := c.seq, endpoint := c.endpoint, tenant := c.tenant, opcode := c.opcode,
    slot := c.slot, state := state, status := status, result := result }

/-- Update the entry of a command in place. -/
def journalSet (e : JEntry) (s : State) : State :=
  let put := fun (x : JEntry) => x.kind == .command && x.space == e.space && x.idx == e.idx && x.seq == e.seq
  s.modHost fun h => { h with journal := mapIf put (fun _ => e) h.journal }

/-- Send a completion record to a host address (R308). -/
def sendCompletion (caddr : W64) (e : JEntry) (data : List Byte) (s : State) : State :=
  s.modHost fun h => { h with out := h.out ++ [HostOut.completion caddr e.seq e.opcode e.slot e.status e.result e.idx data] }

/-- A completion record as 32 bytes (R308). -/
def completionBytes (seq : W64) (opcode slot status : Byte) (result : W64) (jidx : Nat) : List Byte :=
  toBytesLE 8 seq.toNat ++ [opcode, slot, status, 0, 0, 0, 0, 0] ++ toBytesLE 8 result.toNat ++ toBytesLE 4 jidx ++ [0, 0, 0, 0]

/-- A refusal: journaled, and its completion sent. -/
def refuseCmd (c : Cmd) (sp : Nat) (status : Byte) (s : State) : State :=
  let e := entryFor c sp (nextIdx s sp) jRefused status 0
  sendCompletion c.caddr e [] (journalAdd e s)

/-- The header of a command among the inputs. -/
def cmdOf : Instr → Option Cmd
  | .tenantCreate c _ => some c
  | .tenantTeardown c => some c
  | .fabricConfiguration c .. => some c
  | .imageLoad c .. => some c
  | .memoryRead c .. => some c
  | .memoryWrite c .. => some c
  | .hostLaunch c _ => some c
  | .event c .. => some c
  | .weightStoreFill c .. => some c
  | .regionInstall c .. => some c
  | .regionRewrite c .. => some c
  | .regionRemove c _ => some c
  | .translationInvalidate c => some c
  | .pageMigrate c .. => some c
  | .journalRead c _ => some c
  | .capabilityRead c => some c
  | .attest c _ => some c
  | .layerSleep c _ => some c
  | .layerWake c _ => some c
  | _ => none

/-- A teardown of the tenant is accepted and has not completed (R314). -/
def tearing (s : State) (t : BitVec 3) : Bool :=
  s.pkg.host.accepted.any fun x => match x.2.2 with
    | .tenantTeardown c => c.tenant == t
    | _ => false

/-- The issuer holds the tenant's transport key, and no teardown of the tenant is under way (R303, R306, R314). -/
def holdsKey (s : State) (c : Cmd) : Bool :=
  !tearing s c.tenant && match s.tenant? c.tenant with
    | some x => x.spec.keys.contains c.key
    | none => false

/-- The issuer may send the command (R306). -/
def allowed (s : State) (k : Command) : Bool :=
  match k.who with
  | .owner => isOwner s k.cmd
  | .tenant => holdsKey s k.cmd
  | .either => isOwner s k.cmd || holdsKey s k.cmd

/-- Why a command that its slot and SEQ admit is refused. -/
def refusal (k : Command) (s : State) : Option Byte :=
  if k.cmd.opcode ≠ k.op then some stInvalid
  else if !allowed s k then some stDenied
  else if !k.fits then some stInvalid
  else
    let r := k.act s
    if r.status = stDone then none else some r.status

/-- A slot of a space holds an incomplete command. -/
def slotTaken (s : State) (sp : Nat) (slot : Byte) : Bool :=
  s.pkg.host.accepted.any fun x => x.1 == sp && match cmdOf x.2.2 with | some c => c.slot == slot | none => false

/-- A command sent again: the recorded completion goes to its CADDR, at once or when the command completes (R307). -/
def sendAgain (c : Cmd) (e : JEntry) (s : State) : State :=
  if decide (2 ≤ e.state.toNat) then sendCompletion c.caddr e [] s
  else s.modHost fun h => { h with again := h.again ++ [(e.space, e.idx, c.caddr)] }

/-- A COMMAND ARRIVES (R306, R307, R314, R317): readiness, then the SEQ and the slot of its space, then what refuses it. The answer
is the journal index of an accepted command. Log entry 47 (DEDUCED). -/
def arrive (k : Command) (s : State) : Option Nat × State :=
  let c := k.cmd
  let sp := spaceOf s c
  if !s.pkg.host.ready then (none, refuseCmd c sp stBusy s)
  else match s.pkg.host.journal.find? fun e => e.kind == .command && e.space == sp && e.seq == c.seq && e.slot == c.slot with
  | some e => (none, sendAgain c e s)
  | none =>
    let above := match usedSeq s sp with | some q => decide (q.toNat < c.seq.toNat) | none => true
    if !above then (none, refuseCmd c sp stStale s)
    else if slotTaken s sp c.slot then (none, refuseCmd c sp stSlotBusy s)
    else match refusal k s with
      | some st => (none, refuseCmd c sp st s)
      | none =>
        let idx := nextIdx s sp
        (some idx, journalAdd (entryFor c sp idx jAccepted stDone 0) s)

/-- An accepted command begins to run. -/
def startCmd (c : Cmd) (sp idx : Nat) (s : State) : State := journalSet (entryFor c sp idx jRunning stDone 0) s

/-- The completion of a command, to its CADDR and to those that it was sent again with. -/
def completed (c : Cmd) (e : JEntry) (data : List Byte) (s : State) : State :=
  let mine := fun (x : Nat × Nat × W64) => x.1 == e.space && x.2.1 == e.idx
  let others := s.pkg.host.again.filter mine
  let s := sendCompletion c.caddr e data (journalSet e s)
  let s := s.modHost fun h => { h with accepted := h.accepted.filter (fun x => !(x.1 == e.space && x.2.1 == e.idx))
                                       again := h.again.filter fun x => !mine x }
  others.foldl (fun u x => sendCompletion x.2.2 e [] u) s

/-- A command acts and completes (R308). -/
def finishCmd (k : Command) (sp idx : Nat) (s : State) : State :=
  let r := k.act s
  let e := entryFor k.cmd sp idx (if r.status = stDone then jComplete else jRefused) r.status r.result
  completed k.cmd e r.data r.state

/-- A command that arrives, runs and completes in one step. -/
def runCommand (k : Command) (s : State) : State :=
  match arrive k s with
  | (none, t) => t
  | (some idx, t) => finishCmd k (spaceOf s k.cmd) idx (startCmd k.cmd (spaceOf s k.cmd) idx t)

/-- A gang of a tenant runs. -/
def tenantRuns (s : State) (t : BitVec 3) : Bool := s.pkg.gangs.any fun g => g.tenant == t

/-! Capabilities (R311, R435) -/

/-- A port: in service or not; ROD, RUD and RUDI, transport security, 4,096 connections, payloads of 4,096 bytes (R303, R435). -/
def portDword (p : Nat) : Nat := boolNat (Config.portInService p) + 0x1E + 4096 * 2 ^ 16 + 4096 * 2 ^ 32

/-- The bodies of the list, with their numbers. -/
def capBodies (s : State) : List (Nat × List Nat) :=
  [(1, [1 + boolNat Config.formM * 2 ^ 8]),
   (2, s.pkg.host.farBytes.toList),
   (3, [0]),
   (4, [0]),
   (5, (List.range 16).map portDword)]

/-- The list as bytes, from an offset on. -/
def capBytes : Nat → List (Nat × List Nat) → List Byte
  | _, [] => []
  | _, [b] => toBytesLE 8 (b.1 + 2 ^ 16 + b.2.length * 2 ^ 24) ++ b.2.flatMap (toBytesLE 8)
  | off, b :: bs =>
    let next := off + 8 + 8 * b.2.length
    toBytesLE 8 (b.1 + 2 ^ 16 + b.2.length * 2 ^ 24 + next * 2 ^ 32) ++ b.2.flatMap (toBytesLE 8) ++ capBytes next bs

def capList (s : State) : List Byte := capBytes 0 (capBodies s)

/-- CAPABILITY_READ (R312). -/
def capabilityCommand (c : Cmd) : Command :=
  { cmd := c, op := 0x0E, who := .either, fits := true, act := fun t => { done t with data := capList t } }

def execCapabilityRead (c : Cmd) (s : State) : Result := .next (runCommand (capabilityCommand c) s)

/-! Tenants (R313, R431) -/

/-- A window image has no reserved bit set (R171, R431). -/
def windowFine (w : W64) : Bool := bitsOf w.toNat 20 0 == 0 && bitsOf w.toNat 63 60 == 0

/-- First and last byte range of a window. -/
def windowRange (w : W64) : Nat × Nat := (windowBase w, windowBase w + bitsOf w.toNat 59 48 * 2 ^ 21)

/-- Two ranges share a byte; an empty one shares none. -/
def rangesMeet (a b : Nat × Nat) : Bool := decide (a.1 < a.2 ∧ b.1 < b.2 ∧ a.1 < b.2 ∧ b.1 < a.2)

/-- A FIFO binding is one that R213 and R434 allow. -/
def fifoFine (spec : TenantSpec) (f : FifoBind) : Bool :=
  spec.cores.contains f.core && decide (f.fifo < 16) && decide (1 ≤ f.kind ∧ f.kind ≤ 5) && decide (1 ≤ f.depth ∧ f.depth ≤ 256) &&
    (if f.kind ≤ 2 then decide (2 ≤ f.scope ∧ f.scope ≤ 4) else f.scope == 5) &&
    (f.kind != 1 || spec.fifos.any fun g => g.core == f.core && g.fifo == f.completion && g.kind == 2)

/-- A stage ring is one that R265 allows. -/
def stageFine (s : State) (g : StageBind) : Bool :=
  decide (g.die < Config.dies ∧ g.ring < 16 ∧ g.dlog ≤ 16) && !(match (s.dieAt g.die).stages[g.ring]? with | some x => x.valid | none => true)

/-- Every replica is placed at a multiple of 2 MiB inside the layer memory (R431). Log entry 109 (DESIGN CHOICE). -/
def replicasFine (spec : TenantSpec) : Bool :=
  spec.replicas.all fun r => decide (r.1 < 4) && r.2 % 2 ^ 21 == 0 &&
    decide (r.2 + bitsOf spec.srwin.toNat 59 48 * 2 ^ 21 ≤ Config.layerBytes)

/-- What a rule refuses with INVALID. -/
def specFine (s : State) (t : BitVec 3) (spec : TenantSpec) : Bool :=
  (s.tenant? t).isNone && (spec.cores.all fun c => decide (c < Config.cores)) && spec.cores.eraseDups.length == spec.cores.length &&
    windowFine spec.srwin && windowFine spec.rwwin && !rangesMeet (windowRange spec.srwin) (windowRange spec.rwwin) &&
    !rangesMeet (windowRange spec.srwin) (0, Config.scratchBytes) && !rangesMeet (windowRange spec.rwwin) (0, Config.scratchBytes) &&
    replicasFine spec && spec.kernelTable.toNat % 32 == 0 && spec.fifos.all (fifoFine spec) && spec.stages.all (stageFine s) &&
    spec.root.off % 4096 == 0 && decide (spec.root.space ≤ 2) && (spec.root.space == 2 || decide (spec.root.die < Config.dies)) &&
    fitsSpace s spec.root 4096 && spec.tables.all fun w => decide (w.1 < farBase + 4 * Config.farStackBytes)

/-- Bytes of layer memory of a die that a tenant's overflow logs, save areas and replica take (R172, R181, R288). Log entry 108
(DESIGN CHOICE). -/
def reserved (spec : TenantSpec) (die : Nat) : Nat :=
  (spec.cores.filter fun c => dieOfCore c == die).length * (12 * 33 * 1024 + 320 * 1024) +
    if spec.replicas.any fun r => r.1 == stackOfDie die then bitsOf spec.srwin.toNat 59 48 * 2 ^ 21 else 0

/-- What is short (R70, R248, R313). -/
def specFits (s : State) (spec : TenantSpec) : Bool :=
  !(s.pkg.host.tenants.any fun x => x.spec.cores.any spec.cores.contains) &&
    decide (s.pkg.host.tenants.foldl (fun n x => n + x.spec.teamQuota) spec.teamQuota ≤ Config.quarterEntries) &&
    decide (s.pkg.host.tenants.foldl (fun n x => n + x.spec.launchQuota) spec.launchQuota ≤ Config.launchRecords) &&
    (List.range Config.dies).all fun d =>
      decide (s.pkg.host.tenants.foldl (fun n x => n + reserved x.spec d) (reserved spec d) ≤ Config.layerBytes)

/-- An engine FIFO of a core is bound; its engines act for the tenant, whether or not a gang runs on the core (R213). -/
def bindFifo (t : BitVec 3) (f : FifoBind) (s : State) : State :=
  s.modCoreAt f.core fun c => { Core.setFifo f.fifo { kind := BitVec.ofNat 4 f.kind, scope := BitVec.ofNat 3 f.scope, depth := f.depth,
                                                      completion := f.completion, elems := [] } c with tenant := t }

def bindStage (t : BitVec 3) (g : StageBind) (s : State) : State :=
  let ring : Stage := { valid := true, tenant := t, dlog := BitVec.ofNat 5 g.dlog, hi := g.hi, elems := [] }
  s.modDie g.die fun d => { d with stages := d.stages.setIfInBounds g.ring ring }

/-- The capability list enters the page at CAPVA, where it is mapped; the page is read-only to programs (R312). -/
def writeCaps (t : BitVec 3) (va : W64) (s : State) : State :=
  if va = 0 then s
  else (capList s).zipIdx.foldl (fun u b =>
    match translateFor u t (va + BitVec.ofNat 64 b.2) false with
    | .error _ => u
    | .ok p => u.writeFor t p [b.1]) s

/-- TENANT_CREATE (R174, R313, R431). The tenant's SEQ space and journal begin anew; its page tables stand before its first translation.
Log entry 93 (DESIGN CHOICE). -/
def createTenant (t : BitVec 3) (spec : TenantSpec) (s : State) : Done :=
  if !specFine s t spec then refuse stInvalid s
  else if !specFits s spec then refuse stQuota s
  else
    let key := Config.drawKey s.fresh
    let s := s.useFresh.modHost fun h => { h with
      tenants := h.tenants ++ [{ num := t, spec := spec, memKey := key, regions := [] }]
      journal := h.journal.filter fun e => e.space != t.toNat
      maxSeq := h.maxSeq.filter fun m => m.1 != t.toNat }
    let s := spec.fifos.foldl (fun u f => bindFifo t f u) s
    let s := spec.stages.foldl (fun u g => bindStage t g u) s
    done (writeCaps t spec.capVA (spec.tables.foldl (fun u w => u.writeFor t w.1 [w.2]) s))

def createCommand (c : Cmd) (spec : TenantSpec) : Command :=
  { cmd := c, op := 0x01, who := .owner, fits := true, act := createTenant c.tenant spec }

def execTenantCreate (c : Cmd) (spec : TenantSpec) (s : State) : Result := .next (runCommand (createCommand c spec) s)

/-! Teardown (R175, R314) -/

/-- The pages and tables that a walk from a table reaches: first byte and size. -/
def heldFrom (s : State) : List Nat → Loc → List (Nat × Nat)
  | [], _ => []
  | level :: rest, table =>
    (physOf table, tableBytes level) :: (List.range (tableBytes level / 8)).flatMap fun k =>
      let e := s.mem.num (physOf table + 8 * k) 8
      if !bitOf e 0 || !entryFine s level e then []
      else if bitOf e 1 then [(physOf (nextLoc level e), leafBytes level)]
      else heldFrom s rest (nextLoc level e)

/-- The replicas of a tenant. -/
def heldReplicas (spec : TenantSpec) : List (Nat × Nat) :=
  spec.replicas.flatMap fun r => (diesOfStack r.1).map fun d => (replicaPhys d r.2, bitsOf spec.srwin.toNat 59 48 * 2 ^ 21)

/-- The lines that a tenant has written: first byte and size. -/
def writtenBy (s : State) (t : BitVec 3) : List (Nat × Nat) := (s.owners.filter fun x => x.2 == t).map fun x => (64 * x.1, 64)

/-- The rein logs without what they keep of a tenant's replicas, which a waking layer would hear. -/
def scrubLogs (spec : TenantSpec) (s : State) : State :=
  spec.replicas.foldl (fun u r => u.modStack r.1 fun k => { k with log := k.log.map fun w =>
    (w.1, w.2.filter fun c => !decide (r.2 ≤ c.1 ∧ c.1 < r.2 + bitsOf spec.srwin.toNat 59 48 * 2 ^ 21)) }) s

/-- Zeros in every range (R175). -/
def scrub (held : List (Nat × Nat)) (s : State) : State :=
  let inside := fun (a : Nat) => held.any fun h => decide (h.1 ≤ a ∧ a < h.1 + h.2)
  { s with mem := s.mem.filter fun c => !inside c.1, badMem := s.badMem.filter fun a => !inside a
           owners := s.owners.filter fun x => !inside (64 * x.1) }

/-- The cells of every region of a tenant. -/
def scrubMarks (x : Tenant) (s : State) : State :=
  let inside := fun (k : Nat) => x.regions.any fun r => rdValid r.2 && decide (cellKey r.2 0 ≤ k ∧ k < cellKey r.2 (rdCells r.2))
  s.modPkg fun p => { p with marks := p.marks.filter (fun c => !inside c.1), badMarks := p.badMarks.filter fun k => !inside k
                             markRuns := p.markRuns.filter fun r => r.tenant != x.num }

/-- A core of a partition without its gang, its messages, FIFOs and translations. -/
def clearCore (c : Core) : Core :=
  { Core.reset with cur := c.cur, lineErrors := c.lineErrors, msgSent := c.msgSent, msgRecv := c.msgRecv, bridled := c.bridled,
                    latched := c.latched }

/-- The units of a die without what a tenant had in them. -/
def clearDie (t : BitVec 3) (gangs : List W32) (d : Die) : Die :=
  let empty : Stage := { valid := false, tenant := 0, dlog := 0, hi := 0, elems := [] }
  let gone := fun (w : Nat × Waiter) => match w.2 with
    | .desc _ g _ => gangs.contains g
    | .launch g => gangs.contains g
  { d with stages := d.stages.map fun g => if g.valid && g.tenant == t then empty else g
           waiters := d.waiters.filter fun w => !gone w
           tq := d.tq.filter (fun r => !(r.kind == 0 && r.tenant == t)), tqWait := d.tqWait.filter fun r => r.tenant != t
           faults := d.faults.filter (fun f => f.1 != t), replay := d.replay.filter fun r => r.tenant != t
           sampled := d.sampled.filter (fun x => x.1 != t), tcache := d.tcache.filter fun e => e.tenant != t }

/-- The units of the package without what a tenant had in them. -/
def clearPkg (t : BitVec 3) (cores : List Nat) (gangs : List W32) (p : Pkg) : Pkg :=
  let mine := fun (g : W32) => gangs.contains g
  { p with
      dies := p.dies.map (clearDie t gangs)
      stackUnits := p.stackUnits.map fun k => { k with switch := k.switch.filter fun r => r.tenant != t }
      departs := p.departs.filter fun d => !cores.contains (coreOfTid d.tid)
      teamDone := p.teamDone.filter fun d => d.tenant != t
      resumes := p.resumes.filter fun r => r.tenant != t
      steps := p.steps.filter fun x => !mine x.gang
      inFlight := p.inFlight.filter fun c => c.tenant != t
      reds := p.reds.filter fun r => r.tenant != t
      pushQ := p.pushQ.filter fun r => !cores.contains r.core
      transfers := p.transfers.filter fun x => x.tenant != t
      launches := p.launches.filter fun r => r.tenant != t
      gangs := p.gangs.filter fun g => g.tenant != t
      wakes := p.wakes.filter fun w => !mine w.2.2.1
      saved := p.saved.filter fun v => !mine v.gang
      preempts := p.preempts.filter fun x => !cores.contains x.1 }

/-- Elements pushed to a send FIFO before the end are still sent (R223). -/
def sendPushed (core : Nat) (s : State) : State :=
  let es := (s.coreAt core).efifo.toList.flatMap fun f => if f.kind = 3 then f.elems else []
  s.modHost fun h => { h with netOut := h.netOut ++ es.map fun e => (core, e) }

/-- Accepted commands of a tenant's space complete with TORN (R314). -/
def tornCommands (t : BitVec 3) (s : State) : State :=
  (s.pkg.host.accepted.filter fun x => x.1 == t.toNat).foldl (fun u x => match cmdOf x.2.2 with
    | some c => completed c (entryFor c x.1 x.2.1 jComplete stTorn 0) [] u
    | none => u) s

/-- TEARDOWN, in the order of R314: the gangs are killed, accepted commands are torn, the tenant's keys and data go, then its team
entries and regions. -/
def teardown (x : Tenant) (s : State) : State :=
  let t := x.num
  let gangs := (s.pkg.gangs.filter fun g => g.tenant == t)
  let nums := gangs.map (·.num) ++ (s.pkg.launches.filter fun r => r.tenant == t).map (·.gang)
  let held := heldFrom s [1, 2, 3, 4] x.spec.root ++ heldReplicas x.spec ++ writtenBy s t
  let s := gangs.foldl (fun u g => finishGang { g with status := 2 } u) s
  let s := x.spec.cores.foldl (fun u c => (sendPushed c u).modCoreAt c clearCore) s
  let s := s.modPkg (clearPkg t x.spec.cores nums)
  let s := tornCommands t s
  let s := scrubMarks x (scrubLogs x.spec (scrub held s))
  let s := (s.pkg.teams.filter fun e => e.tenant == t).foldl (fun u e => freeTeam e.slot u) s
  s.modHost fun h => { h with
    tenants := h.tenants.filter fun y => y.num != t
    journal := h.journal.filter fun e => e.space != t.toNat
    maxSeq := h.maxSeq.filter fun m => m.1 != t.toNat
    unacked := h.unacked.filter fun u => !x.spec.cores.contains (coreOfTid u.1) }

/-- TENANT_TEARDOWN (R314). -/
def teardownCommand (c : Cmd) : Command :=
  { cmd := c, op := 0x02, who := .owner, fits := true,
    act := fun t => match t.tenant? c.tenant with
      | none => refuse stInvalid t
      | some x => done (teardown x t) }

def execTenantTeardown (c : Cmd) (s : State) : Result := .next (runCommand (teardownCommand c) s)

/-! Fabric and images (R230, R241, R242, R315) -/

/-- A calendar entry and a slot-table entry as they are stored. -/
def calStored (b : Byte) : Byte := b &&& 0x1F
def slotStored (w : Half) : Half := w &&& 0x7F

/-- The tenants that hold a slot whose contents change, before or after. -/
def changedTenants (s : State) (cal : List (Nat × Nat × Byte)) (rein : List (Nat × Nat × Half)) (link : List (Nat × Nat × Byte)) :
    List (BitVec 3) :=
  let ofCal := fun (old new : Byte) => if old = calStored new then [] else (if old.getLsbD 4 then [old.setWidth 3] else []) ++ if new.getLsbD 4 then [new.setWidth 3] else []
  let ofSlot := fun (old new : Half) => if old = slotStored new then [] else
    (if (old.setWidth 3 : BitVec 3) ≠ 7 then [old.extractLsb' 3 3] else []) ++
      if (new.setWidth 3 : BitVec 3) ≠ 7 then [new.extractLsb' 3 3] else []
  (cal.flatMap fun e => ofCal (vget (s.dieAt e.1).cal e.2.1 0) e.2.2) ++
    (rein.flatMap fun e => ofSlot (vget (s.stackAt e.1).slots e.2.1 0) e.2.2) ++
    link.flatMap fun e => ofCal (vget (vget s.pkg.links e.1 (Vector.replicate 64 0)) e.2.1 0) e.2.2

/-- FABRIC_CONFIGURATION (R230, R241, R242, R306); what had no path and has one now goes on (R23). -/
def configure (cal : List (Nat × Nat × Byte)) (rein : List (Nat × Nat × Half)) (link : List (Nat × Nat × Byte)) (s : State) : Done :=
  let inRange := fun (n a b : Nat) => decide (a < n ∧ b < 64)
  if !(cal.all (fun e => inRange 24 e.1 e.2.1) && rein.all (fun e => inRange 4 e.1 e.2.1) && link.all fun e => inRange 12 e.1 e.2.1) then
    refuse stInvalid s
  else if (changedTenants s cal rein link).any (tenantRuns s) then refuse stBusy s
  else
    let s := cal.foldl (fun u e => u.modDie e.1 fun d => { d with cal := d.cal.setIfInBounds e.2.1 (calStored e.2.2) }) s
    let s := rein.foldl (fun u e => u.modStack e.1 fun k => { k with slots := k.slots.setIfInBounds e.2.1 (slotStored e.2.2) }) s
    let put := fun (p : Pkg) (e : Nat × Nat × Byte) =>
      { p with links := p.links.setIfInBounds e.1 ((vget p.links e.1 (Vector.replicate 64 0)).setIfInBounds e.2.1 (calStored e.2.2)) }
    done (landInFlight (s.modPkg fun p => link.foldl put p))

def fabricCommand (c : Cmd) (cal : List (Nat × Nat × Byte)) (rein : List (Nat × Nat × Half)) (link : List (Nat × Nat × Byte)) :
    Command :=
  { cmd := c, op := 0x03, who := .owner, fits := true, act := configure cal rein link }

def execFabricConfiguration (c : Cmd) (cal : List (Nat × Nat × Byte)) (rein : List (Nat × Nat × Half)) (link : List (Nat × Nat × Byte))
    (s : State) : Result := .next (runCommand (fabricCommand c cal rein link) s)

/-- An image passes the check of the boot ROM: its key is the one whose digest mask ROM holds, its signature holds, and its rollback
version is not lower than the one in non-volatile memory (R315). -/
def imageFine (s : State) (x : Image) : Bool :=
  BitVec.ofNat 512 (ofBytesBE (sha512 (Config.keyBytes x.modulus x.exponent))) == Config.romDigest &&
    rsaVerify x.modulus x.exponent x.payload x.signature && decide (s.pkg.host.rollback ≤ Config.imageVersion x.payload)

/-- IMAGE_LOAD (R306, R315): the image becomes the one of its kind. Log entry 48 (DEDUCED). -/
def imageCommand (c : Cmd) (image : Image) (bytes : Nat) : Command :=
  { cmd := c, op := 0x04, who := .owner, fits := dataFits c bytes,
    act := fun t =>
      if !t.pkg.gangs.isEmpty then refuse stBusy t
      else if !imageFine t image then refuse stSignature t
      else done (t.modHost fun h => if image.configuration then { h with configuration := some image } else { h with firmware := some image }) }

def execImageLoad (c : Cmd) (image : Image) (bytes : Nat) (s : State) : Result := .next (runCommand (imageCommand c image bytes) s)

/-! Memory (R172, R306) -/

/-- Where a byte of a tenant leads for the host. -/
inductive HostPlace where
  | home (p : Nat)
  | replica (off : Nat)
  deriving DecidableEq, Repr

/-- The stacks that hold a replica. -/
def replicaStacks (x : Tenant) : List Nat := x.spec.replicas.map (·.1)

/-- The place of one byte; `none` where it does not translate, or may not be written. -/
def hostPlace (s : State) (t : BitVec 3) (write : Bool) (va : W64) : Option HostPlace :=
  match translateFor s t va write with
  | .error _ => none
  | .ok p =>
    if write && isWeight p then none
    else if s.inReplicated t va then
      match s.tenant? t with
      | some x => if (replicaStacks x).isEmpty then none else some (.replica (va.toNat - windowBase x.spec.srwin))
      | none => none
    else some (.home p)

/-- The places of `n` bytes. -/
def hostPlaces (s : State) (t : BitVec 3) (write : Bool) (va : W64) : Nat → Option (List HostPlace)
  | 0 => some []
  | n + 1 =>
    match hostPlace s t write va with
    | none => none
    | some p => (hostPlaces s t write (va + 1) n).map fun ps => p :: ps

/-- The lowest-numbered awake die that holds a replica, with the replica's offset; where all sleep, the lowest-numbered. Log entry 100
(DESIGN CHOICE). -/
def lowestReplica (s : State) (t : BitVec 3) : Option (Nat × Nat) :=
  match s.tenant? t with
  | none => none
  | some x =>
    let holds := fun (d : Nat) => (x.spec.replicas.lookup (stackOfDie d)).map fun o => (d, o)
    match ((List.range Config.dies).filter fun d => (s.dieAt d).awake).findSome? holds with
    | some r => some r
    | none => (List.range Config.dies).findSome? holds

/-- A byte that the host reads, at once also where its layer sleeps. Log entry 100 (DESIGN CHOICE). -/
def readHostPlace (s : State) (t : BitVec 3) : HostPlace → Byte
  | .home p => s.mem.get p
  | .replica off => match lowestReplica s t with
    | some r => s.mem.get (replicaPhys r.1 (r.2 + off))
    | none => 0

/-- A line in error among the places (R175). -/
def badHostPlace (s : State) (t : BitVec 3) : HostPlace → Bool
  | .home p => badLines s.badMem p 1
  | .replica off => match lowestReplica s t with
    | some r => badLines s.badMem (replicaPhys r.1 (r.2 + off)) 1
    | none => false

/-- The cell of a mark region that the host names. -/
def hostCells (s : State) (t : BitVec 3) (region : Byte) (cell n : Nat) : Option (BitVec 128) :=
  let d := s.region t region
  if rdValid d && decide (cell + n ≤ rdCells d) then some d else none

/-- MEMORY_READ (R306). -/
def readMemory (t : BitVec 3) (at_ : HostAddr) (n : Nat) (s : State) : Done :=
  match at_ with
  | .va a =>
    match hostPlaces s t false a n with
    | none => refuse stFault s
    | some ps =>
      if ps.any (badHostPlace s t) then refuse stFault s
      else { done s with result := BitVec.ofNat 64 n, data := ps.map (readHostPlace s t) }
  | .mark region cell =>
    match hostCells s t region cell n with
    | none => refuse stFault s
    | some d =>
      { done s with result := BitVec.ofNat 64 (2 * n),
                    data := (List.range n).flatMap fun i => toBytesLE 2 (cellGet s.pkg.marks (cellKey d (cell + i))).1.toNat }

def readCommand (c : Cmd) (at_ : HostAddr) (n : Nat) : Command :=
  { cmd := c, op := 0x05, who := .tenant, fits := true, act := readMemory c.tenant at_ n }

def execMemoryRead (c : Cmd) (at_ : HostAddr) (n : Nat) (s : State) : Result := .next (runCommand (readCommand c at_ n) s)

/-- Bytes of the replicated region, on every stack that holds it, each as one stack-scope write (R172, R206). Log entry 109 (DESIGN
CHOICE). -/
def writeReplicas (x : Tenant) (cells : List (Nat × Byte)) (s : State) : State :=
  if cells.isEmpty then s
  else x.spec.replicas.foldl (fun u r => reinWrite r.1 (cells.map fun b => (r.2 + b.1, b.2)) u) s

/-- Bytes to their places. -/
def writePlaces (x : Tenant) (ws : List (HostPlace × Byte)) (s : State) : State :=
  let s := ws.foldl (fun u w => match w.1 with | .home p => u.writeFor x.num p [w.2] | .replica _ => u) s
  writeReplicas x (ws.filterMap fun w => match w.1 with | .replica o => some (o, w.2) | .home _ => none) s

/-- Pairs of bytes as cell values. -/
def pairsOf : List Byte → List Nat
  | a :: b :: rest => (a.toNat + 256 * b.toNat) :: pairsOf rest
  | _ => []

/-- MEMORY_WRITE (R93, R306). -/
def writeMemory (t : BitVec 3) (at_ : HostAddr) (bytes : List Byte) (s : State) : Done :=
  match at_ with
  | .va a =>
    match hostPlaces s t true a bytes.length, s.tenant? t with
    | some ps, some x => done (writePlaces x (ps.zip bytes) s)
    | _, _ => refuse stFault s
  | .mark region cell =>
    let vs := pairsOf bytes
    match hostCells s t region cell vs.length with
    | none => refuse stFault s
    | some d =>
      let s := s.modCells fun m => vs.zipIdx.foldl (fun u v => cellSet (cellKey d (cell + v.2)) (BitVec.ofNat 16 v.1, 0) u) m
      let inside := fun (k : Nat) => decide (cellKey d cell ≤ k ∧ k < cellKey d (cell + vs.length))
      done (s.modPkg fun p => { p with badMarks := p.badMarks.filter fun k => !inside k })

def writeCommand (c : Cmd) (at_ : HostAddr) (bytes : List Byte) : Command :=
  { cmd := c, op := 0x06, who := .tenant, fits := dataFits c bytes.length, act := writeMemory c.tenant at_ bytes }

def execMemoryWrite (c : Cmd) (at_ : HostAddr) (bytes : List Byte) (s : State) : Result :=
  .next (runCommand (writeCommand c at_ bytes) s)

/-- HOST_LAUNCH (R248, R306, R308). -/
def launchCommand (c : Cmd) (record : BitVec 512) : Command :=
  { cmd := c, op := 0x07, who := .tenant, fits := true,
    act := fun t => match recBad t c.tenant record with
      | some _ => refuse stInvalid t
      | none =>
        let a := submit c.tenant record (some c.caddr) t
        if a.1 = 0 then refuse stQuota t else { done a.2 with result := a.1.setWidth 64 } }

def execHostLaunch (c : Cmd) (record : BitVec 512) (s : State) : Result := .next (runCommand (launchCommand c record) s)

/-- EVENT: AMO.ADD.WAKE at the word's home (R263, R306). Log entry 110 (DESIGN CHOICE). -/
def hostEvent (t : BitVec 3) (va value : W64) (s : State) : Done :=
  if va.toNat % 8 ≠ 0 || s.inReduction t va || s.inReplicated t va then refuse stFault s
  else match hostPlace s t true va with
    | some (.home p) => done (atHome t false true true 0 p value.toNat 0 s).2.2
    | _ => refuse stFault s

def eventCommand (c : Cmd) (va value : W64) : Command :=
  { cmd := c, op := 0x08, who := .tenant, fits := true, act := hostEvent c.tenant va value }

def execEvent (c : Cmd) (va : W64) (value : W64) (s : State) : Result := .next (runCommand (eventCommand c va value) s)

/-- The homes of a fill, all in the weight store. -/
def fillPlaces (s : State) (t : BitVec 3) (va : W64) : Nat → Option (List Nat)
  | 0 => some []
  | n + 1 =>
    match translateFor s t va false with
    | .error _ => none
    | .ok p => if isWeight p && !s.inReplicated t va then (fillPlaces s t (va + 1) n).map fun ps => p :: ps else none

/-- The weight-store offsets of the pages that `n` bytes touch, each of the size that its leaf maps (R164, R169). -/
def filledPages (s : State) (t : BitVec 3) (va : W64) (n : Nat) : List Nat :=
  ((List.range n).filterMap fun k => match walk s .free t (va + BitVec.ofNat 64 k) with
    | .ok e => some e.loc.off
    | .error _ => none).eraseDups

/-- WEIGHT_STORE_FILL: it reports the offset of every page it fills (R168, R169). -/
def fillWeights (t : BitVec 3) (va : W64) (bytes : List Byte) (s : State) : Done :=
  if tenantRuns s t then refuse stBusy s
  else match fillPlaces s t va bytes.length with
  | none => refuse stFault s
  | some ps => { done ((ps.zip bytes).foldl (fun u w => u.writeFor t w.1 [w.2]) s) with data := (filledPages s t va bytes.length).flatMap (toBytesLE 8) }

def fillCommand (c : Cmd) (va : W64) (bytes : List Byte) : Command :=
  { cmd := c, op := 0x09, who := .tenant, fits := dataFits c bytes.length, act := fillWeights c.tenant va bytes }

def execWeightStoreFill (c : Cmd) (va : W64) (bytes : List Byte) (s : State) : Result := .next (runCommand (fillCommand c va bytes) s)

/-! Mark regions (R61, R92, R93) -/

/-- The dies on which a region occupies its range. -/
def regionDies (d : BitVec 128) : List Nat := if rdAnchor d = 0x7FF then List.range Config.dies else [rdHome d]

/-- Two regions share a byte of a die. -/
def regionsMeet (a b : BitVec 128) : Bool :=
  (regionDies a).any (fun x => (regionDies b).contains x) &&
    rangesMeet (rdBase a, rdBase a + 2 * rdCells a) (rdBase b, rdBase b + 2 * rdCells b)

/-- The fields are in range, and no other valid region is overlapped. -/
def regionFine (s : State) (t : BitVec 3) (r : Byte) (d : BitVec 128) : Bool :=
  decide (rdWidth d ≤ 4096) && decide (1 ≤ rdHeight d) && rdBase d % 2 == 0 && decide (rdBase d + 2 * rdCells d ≤ Config.markBytes) &&
    decide (rdHeight d ≤ 2 ^ 23) && decide (rdHome d < Config.dies) && decide (rdLevel d ≤ 4) &&
    (decide (rdAnchor d < Config.cores) || rdAnchor d == 0x7FF) &&
    !(s.pkg.host.tenants.any fun x => x.regions.any fun y =>
      !(x.num == t && y.1 == r) && rdValid y.2 && regionsMeet d y.2)

/-- Every cell of a region is 0, with no pending sum and no tick under way; a descriptor with VALID = 0 has no cells. -/
def clearRegion (t : BitVec 3) (r : Byte) (d : BitVec 128) (s : State) : State :=
  let inside := fun (k : Nat) => rdValid d && decide (cellKey d 0 ≤ k ∧ k < cellKey d (rdCells d))
  s.modPkg fun p => { p with marks := p.marks.filter (fun c => !inside c.1), badMarks := p.badMarks.filter (fun k => !inside k)
                             markRuns := p.markRuns.filter fun x => !(x.tenant == t && x.region == r) }

/-- A descriptor replaces the one of its number; reserved bits read as zero. -/
def setRegion (t : BitVec 3) (r : Byte) (d : BitVec 128) (s : State) : State :=
  let kept := d &&& 0xFFFFFF3FFFFFFFFFFFFFFF
  let put := fun (x : Tenant) => { x with regions := (if kept = 0 then [] else [(r, kept)]) ++ x.regions.filter fun y => y.1 != r }
  s.modHost fun h => { h with tenants := mapIf (fun x => x.num == t) put h.tenants }

/-- Install or rewrite (R93). -/
def putRegion (t : BitVec 3) (r : Byte) (d : BitVec 128) (s : State) : Done :=
  if tenantRuns s t then refuse stBusy s
  else if !regionFine s t r d then refuse stInvalid s
  else done (setRegion t r d (clearRegion t r d (clearRegion t r (s.region t r) s)))

/-- Remove (R93). -/
def removeRegion (t : BitVec 3) (r : Byte) (s : State) : Done :=
  if tenantRuns s t then refuse stBusy s else done (setRegion t r 0 (clearRegion t r (s.region t r) s))

def regionCommand (c : Cmd) (r : Byte) (d : BitVec 128) : Command :=
  { cmd := c, op := 0x0A, who := .tenant, fits := true, act := putRegion c.tenant r d }

def removeCommand (c : Cmd) (r : Byte) : Command :=
  { cmd := c, op := 0x0A, who := .tenant, fits := true, act := removeRegion c.tenant r }

def execRegionInstall (c : Cmd) (r : Byte) (d : BitVec 128) (s : State) : Result := .next (runCommand (regionCommand c r d) s)

def execRegionRewrite (c : Cmd) (r : Byte) (d : BitVec 128) (s : State) : Result := .next (runCommand (regionCommand c r d) s)

def execRegionRemove (c : Cmd) (r : Byte) (s : State) : Result := .next (runCommand (removeCommand c r) s)

/-! Translations and migration (R165, R212) -/

/-- Every core and die forgets some translations. -/
def dropTranslations (gone : TlbEntry → Bool) (s : State) : State :=
  let s := (s.cores.map (·.1)).foldl (fun u c => u.modCoreAt c fun k => { k with tlb := k.tlb.filter fun e => !gone e }) s
  s.modPkg fun p => { p with dies := p.dies.map fun d => { d with tcache := d.tcache.filter fun e => !gone e } }

/-- TRANSLATION_INVALIDATE (R165). -/
def invalidateCommand (c : Cmd) : Command :=
  { cmd := c, op := 0x0B, who := .tenant, fits := true,
    act := fun t => done (dropTranslations (fun e => e.tenant == c.tenant) t) }

def execTranslationInvalidate (c : Cmd) (s : State) : Result := .next (runCommand (invalidateCommand c) s)

/-- The leaf entry of an address: where it stands, and the level that maps it. -/
def leafAt (s : State) (va : Nat) : List Nat → Loc → Option (Nat × Nat)
  | [], _ => none
  | level :: rest, table =>
    let at_ := physOf table + 8 * levelIndex level va
    let e := s.mem.num at_ 8
    if !bitOf e 0 || !entryFine s level e then none
    else if bitOf e 1 then some (at_, level)
    else leafAt s va rest (nextLoc level e)

/-- A leaf entry with another home. -/
def leafWith (e : Nat) (home : Loc) : Nat :=
  bitsOf e 4 0 + home.space * 2 ^ 5 + (if home.space = 2 then 0 else home.die * 2 ^ 7) + home.off / 4096 * 2 ^ 12

/-- Requests on their way to a page go to its new home (R212): `f` says where a byte has gone. -/
def moveContribution (f : Nat → Nat) (c : Contribution) : Contribution :=
  let put := fun (w : WinEntry) => if w.entry.kind == .plain then { w with phys := f w.phys } else w
  { c with scats := c.scats.map put, entries := c.entries.map put }

def moveRegs (f : Nat → Nat) (r : CoreRegs) : CoreRegs :=
  { r with scats := r.scats.map fun w => { w with phys := f w.phys }
           gathers := r.gathers.map fun g => { g with lanes := g.lanes.map fun l => { l with home := f l.home } } }

/-- What a context waits for at a home. -/
def moveWait (f : Nat → Nat) : Wait → Wait
  | .path p w => .path (f p) w
  | .push h d p x => .push (f h) d p x
  | w => w

def moveCtx (f : Nat → Nat) (c : Ctx) : Ctx := { c with wait := moveWait f c.wait }

def moveTrap (f : Nat → Nat) (r : TrapRec) : TrapRec := { r with wait := moveWait f r.wait }

def moveTraps (f : Nat → Nat) (u : TrapUnit) : TrapUnit :=
  { u with pendTraps := u.pendTraps.map (moveTrap f)
           service := match u.service with | .trap r => .trap (moveTrap f r) | x => x }

/-- A core's requests; it keeps no line and no word of the page's old and new places. -/
def moveCore (f : Nat → Nat) (gone : Nat → Bool) (c : Core) : Core :=
  { c with regs := moveRegs f c.regs, ctxs := c.ctxs.map (moveCtx f), trap := moveTraps f c.trap
           arrivals := c.arrivals.map (fun a => { a with contrib := moveContribution f a.contrib })
           rcache := c.rcache.filter fun l => !gone (64 * l.line) }

def movePkg (f : Nat → Nat) (gone : Nat → Bool) (p : Pkg) : Pkg :=
  let cs := fun (l : List Contribution) => l.map (moveContribution f)
  { p with
      steps := p.steps.map fun x => { x with contribs := cs x.contribs }
      teams := p.teams.map fun e => { e with win := cs e.win, winNext := cs e.winNext }
      inFlight := cs p.inFlight
      reds := p.reds.map fun r => { r with phys := f r.phys }
      pushQ := p.pushQ.map fun r => { r with home := f r.home }
      wakes := p.wakes.map fun w => (f w.1, w.2)
      launches := p.launches.map fun r => { r with woken := r.woken.map f }
      openWins := p.openWins.map fun w => { w with keys := w.keys.map fun k => (f k.1, k.2) }
      stackUnits := p.stackUnits.map fun k => { k with switch := k.switch.map fun r => { r with phys := f r.phys } }
      saved := p.saved.map fun v => { v with ctxs := v.ctxs.map fun c => (c.1, moveCtx f c.2)
                                             regs := v.regs.map (moveRegs f), rest := moveCore f gone v.rest } }

/-- Waiters registered on words of a page go to its new home's list. -/
def moveWaiters (f : Nat → Nat) (inside : Nat → Bool) (s : State) : State :=
  let ws := s.pkg.dies.toList.flatMap fun d => d.waiters.filter fun w => inside w.1
  let s := s.modPkg fun p => { p with dies := p.dies.map fun d => { d with waiters := d.waiters.filter fun w => !inside w.1 } }
  ws.foldl (fun u w => u.modDie (homeDie (f w.1)) fun d => { d with waiters := d.waiters ++ [(f w.1, w.2)] }) s

/-- The lines of `n` bytes that move to other homes are still their tenant's; those they leave are no tenant's any more. -/
def State.moveOwners (old new n : Nat) (s : State) : State :=
  let inside (a : Nat) (x : Nat × BitVec 3) : Bool := decide (lineOf a ≤ x.1 ∧ x.1 < lineOf (a + n))
  let rest := s.owners.filter fun x => !inside old x && !inside new x
  { s with owners := (s.owners.filter (inside old)).foldl (fun l x => ownLine (x.1 - lineOf old + lineOf new) x.2 l) rest }

/-- The page itself moves (R212). -/
def movePage (t : BitVec 3) (va : W64) (entry level : Nat) (home : Loc) (s : State) : State :=
  let e := s.mem.num entry 8
  let old := physOf { space := bitsOf e 6 5, die := bitsOf e 11 7, off := bitsOf e 51 12 * 4096 }
  let new := physOf home
  let n := leafBytes level
  let inside := fun (p : Nat) => decide (old ≤ p ∧ p < old + n)
  let f := fun (p : Nat) => if inside p then p - old + new else p
  let cells := (s.mem.filter fun c => inside c.1).map fun c => (f c.1, c.2)
  let rest := (s.mem.filter fun c => !inside c.1).filter fun c => !decide (new ≤ c.1 ∧ c.1 < new + n)
  let s := { s with mem := cells.foldl (fun (m : Memory) (c : Host.Cell) => Memory.set c.1 c.2 m) rest }
  let s := s.moveOwners old new n
  let s := s.writeFor t (f entry) (toBytesLE 8 (leafWith e home))
  let gone := fun (p : Nat) => inside p || decide (new ≤ p ∧ p < new + n)
  let s := moveWaiters f inside (s.modPkg (movePkg f gone))
  let s := (s.cores.map (·.1)).foldl (fun u c => u.modCoreAt c (moveCore f gone)) s
  dropTranslations (fun x => x.tenant == t && tlbHit t va x) s

/-- PAGE_MIGRATE (R212, R306). -/
def migrate (t : BitVec 3) (va : W64) (home : Loc) (s : State) : Done :=
  match s.tenant? t with
  | none => refuse stFault s
  | some x =>
    match leafAt s va.toNat [1, 2, 3, 4] x.spec.root with
    | none => refuse stFault s
    | some (entry, level) =>
      if home.space = 1 || decide (2 < home.space) || (home.space == 0 && decide (Config.dies ≤ home.die)) ||
          home.off % leafBytes level ≠ 0 || !fitsSpace s home (leafBytes level) then refuse stInvalid s
      else done (movePage t va entry level home s)

def migrateCommand (c : Cmd) (va : W64) (home : Loc) : Command :=
  { cmd := c, op := 0x0C, who := .tenant, fits := true, act := migrate c.tenant va home }

def execPageMigrate (c : Cmd) (va : W64) (home : Loc) (s : State) : Result := .next (runCommand (migrateCommand c va home) s)

/-! Journals and attestation (R310, R316) -/

/-- An entry as 32 bytes; those that no command has made have a form of the implementation. -/
def journalBytes (e : JEntry) : List Byte :=
  match e.kind with
  | .command => toBytesLE 8 e.seq.toNat ++ toBytesLE 4 e.endpoint.toNat ++ [e.tenant.setWidth 8, e.opcode, e.slot, e.state, e.status] ++
      List.replicate 15 0
  | .ready => (Config.reportBytes false ++ List.replicate 32 0).take 32
  | .thermal => (Config.reportBytes true ++ List.replicate 32 0).take 32

/-- The entries of a space from a SEQ upward, at most 4,064 bytes. -/
def readJournal (s : State) (sp : Nat) (from_ : W64) : List Byte :=
  (((s.pkg.host.journal.filter fun e => e.space == sp && decide (from_.toNat ≤ e.seq.toNat)).map journalBytes).take 127).flatten

/-- JOURNAL_READ (R310): an owner's reads the device ring, whatever tenant its header names. Log entry 98 (DESIGN CHOICE). -/
def journalCommand (c : Cmd) (from_ : W64) : Command :=
  { cmd := c, op := 0x0D, who := .either, fits := true, act := fun t => { done t with data := readJournal t (spaceOf t c) from_ } }

def execJournalRead (c : Cmd) (from_ : W64) (s : State) : Result := .next (runCommand (journalCommand c from_) s)

/-- The digest of a running image. -/
def imageDigest : Option Image → List Byte
  | some x => sha512 x.payload
  | none => List.replicate 64 0

/-- The report that attest signs: nonce, digests of the running firmware and configuration images and of the tenant's arguments, of no
bytes where the header names no tenant (log entry 99, DESIGN CHOICE), identity key. -/
def attestReport (s : State) (t : BitVec 3) (nonce : BitVec 512) : List Byte :=
  let args := match s.tenant? t with | some x => Config.creationBytes x.spec | none => []
  toBytesLE 64 nonce.toNat ++ imageDigest s.pkg.host.firmware ++ imageDigest s.pkg.host.configuration ++ sha512 args ++
    Config.keyBytes Config.identityModulus Config.identityExponent

/-- A report with its signature (R315, R316). -/
def signedReport (s : State) (t : BitVec 3) (nonce : BitVec 512) : List Byte :=
  let r := attestReport s t nonce
  let salt := (Config.salt s.fresh ++ List.replicate 64 0).take 64
  r ++ toBytesBE 512 (rsaSign Config.identityModulus Config.identitySecret salt r)

/-- ATTEST (R316). -/
def attestCommand (c : Cmd) (nonce : BitVec 512) : Command :=
  { cmd := c, op := 0x0F, who := .either, fits := true, act := fun t => { done t.useFresh with data := signedReport t c.tenant nonce } }

def execAttest (c : Cmd) (nonce : BitVec 512) (s : State) : Result := .next (runCommand (attestCommand c nonce) s)

/-! Layers (R209, R319) -/

/-- A tenant holds a replicated region on a stack. -/
def stackReplicated (s : State) (st : Nat) : Bool :=
  s.pkg.host.tenants.any fun x => (replicaStacks x).contains st && bitsOf x.spec.srwin.toNat 59 48 != 0

/-- LAYER_SLEEP is refused with BUSY. -/
def sleepBusy (s : State) (d : Nat) : Bool :=
  (s.pkg.gangs.any fun g => g.cores.any fun c => dieOfCore c == d) ||
    (stackReplicated s (stackOfDie d) && !((diesOfStack (stackOfDie d)).any fun x => x != d && (s.dieAt x).awake))

/-- LAYER_SLEEP: the layer records the SEQ of the last slot it heard (R209, R319); one that sleeps goes on sleeping. Log entry 107 (DESIGN
CHOICE). -/
def sleepLayer (die : Nat) (s : State) : Done :=
  if Config.dies ≤ die then refuse stInvalid s
  else if !(s.dieAt die).awake then done s
  else if sleepBusy s die then refuse stBusy s
  else done (s.modDie die fun d => { d with awake := false, lastSeq := (s.stackAt (stackOfDie die)).seq })

def sleepCommand (c : Cmd) (die : Nat) : Command := { cmd := c, op := 0x10, who := .owner, fits := true, act := sleepLayer die }

def execLayerSleep (c : Cmd) (die : Nat) (s : State) : Result := .next (runCommand (sleepCommand c die) s)

/-- One write of the rein log on a die's replica. -/
def replayWrite (die : Nat) (s : State) (w : W64 × List (Nat × Byte)) : State :=
  w.2.foldl (fun u b => u.setPhys (replicaPhys die b.1) b.2) s

/-- The writes of the log that a layer has not heard, oldest first. -/
def missed (k : Stack) (last : W64) : List (W64 × List (Nat × Byte)) := (k.log.filter fun w => decide (last.toNat < w.1.toNat)).reverse

/-- A replica of an awake layer is copied whole to a die. -/
def copyReplica (src die : Nat) (off n : Nat) (s : State) : State :=
  let at_ := replicaPhys die off
  let cells := (s.mem.filter fun c => decide (replicaPhys src off ≤ c.1 ∧ c.1 < replicaPhys src off + n)).map fun c =>
    (c.1 - replicaPhys src off + at_, c.2)
  { s with mem := cells.foldl (fun (m : Memory) (c : Host.Cell) => Memory.set c.1 c.2 m) (s.mem.clear at_ n) }

/-- The lowest-numbered awake layer of a waking layer's stack. -/
def copySource (s : State) (die : Nat) : Option Nat := (diesOfStack (stackOfDie die)).find? fun x => x != die && (s.dieAt x).awake

/-- The rein log still holds every write that a layer has not heard. -/
def logReaches (s : State) (die : Nat) : Bool :=
  decide ((s.stackAt (stackOfDie die)).seq.toNat - (s.dieAt die).lastSeq.toNat ≤ Config.reinLogSlots)

/-- What a waking layer has missed gets to it over the rein: the log from the base die, replicas from the layer that copies them, in slots of
the tenants whose replicas they are (R23, R25, R27, R209). Log entry 49 (DEDUCED). -/
def catchUpOpen (s : State) (die : Nat) : Bool :=
  let st := stackOfDie die
  let sends := fun (t : BitVec 3) => if logReaches s die then (missed (s.stackAt st) (s.dieAt die).lastSeq).isEmpty || baseSends s t st
    else (copySource s die).all (layerSends s t)
  (s.dieAt die).awake || s.pkg.host.tenants.all fun x => !(replicaStacks x).contains st || sends x.num

/-- That layer gives the waking one every replica of the stack. -/
def copyReplicas (die : Nat) (s : State) : State :=
  match copySource s die with
  | none => s
  | some src => s.pkg.host.tenants.foldl (fun u x => match x.spec.replicas.lookup (stackOfDie die) with
    | none => u
    | some off => copyReplica src die off (bitsOf x.spec.srwin.toNat 59 48 * 2 ^ 21) u) s

/-- A layer catches up (R209). Log entry 49 (DEDUCED). -/
def wakeLayer (die : Nat) (s : State) : State :=
  let k := s.stackAt (stackOfDie die)
  let last := (s.dieAt die).lastSeq
  let s := if logReaches s die then (missed k last).foldl (replayWrite die) s else copyReplicas die s
  s.modDie die fun d => { d with awake := true, lastSeq := k.seq }

/-- LAYER_WAKE (R209, R319); a layer that is awake stays so. Log entry 107 (DESIGN CHOICE). -/
def wakeCommand (c : Cmd) (die : Nat) : Command :=
  { cmd := c, op := 0x10, who := .owner, fits := true,
    act := fun t =>
      if Config.dies ≤ die then refuse stInvalid t
      else if (t.dieAt die).awake then done t
      else done (landInFlight (wakeLayer die t)) }

def execLayerWake (c : Cmd) (die : Nat) (s : State) : Result := .next (runCommand (wakeCommand c die) s)

/-! Commands that are only accepted, and run later (R307, R310) -/

/-- The command of an input. -/
def commandOf : Instr → Option Command
  | .tenantCreate c spec => some (createCommand c spec)
  | .tenantTeardown c => some (teardownCommand c)
  | .fabricConfiguration c cal rein link => some (fabricCommand c cal rein link)
  | .imageLoad c image bytes => some (imageCommand c image bytes)
  | .memoryRead c a n => some (readCommand c a n)
  | .memoryWrite c a bytes => some (writeCommand c a bytes)
  | .hostLaunch c record => some (launchCommand c record)
  | .event c va value => some (eventCommand c va value)
  | .weightStoreFill c va bytes => some (fillCommand c va bytes)
  | .regionInstall c r d => some (regionCommand c r d)
  | .regionRewrite c r d => some (regionCommand c r d)
  | .regionRemove c r => some (removeCommand c r)
  | .translationInvalidate c => some (invalidateCommand c)
  | .pageMigrate c va home => some (migrateCommand c va home)
  | .journalRead c q => some (journalCommand c q)
  | .capabilityRead c => some (capabilityCommand c)
  | .attest c nonce => some (attestCommand c nonce)
  | .layerSleep c die => some (sleepCommand c die)
  | .layerWake c die => some (wakeCommand c die)
  | _ => none

/-- A command is accepted and waits. -/
def acceptCommand (i : Instr) (k : Command) (s : State) : State :=
  match arrive k s with
  | (none, t) => t
  | (some idx, t) => t.modHost fun h => { h with accepted := h.accepted ++ [(spaceOf s k.cmd, idx, i)] }

/-- The accepted command of an entry. -/
def acceptedAt (s : State) (sp idx : Nat) : Option Command :=
  (s.pkg.host.accepted.find? fun x => x.1 == sp && x.2.1 == idx).bind fun x => commandOf x.2.2

/-- The command of an entry has not begun to run. -/
def notStarted (s : State) (sp idx : Nat) : Bool :=
  s.pkg.host.journal.any fun e => e.kind == .command && e.space == sp && e.idx == idx && e.state == jAccepted

/-- An accepted command begins to run. -/
def startAccepted (sp idx : Nat) (s : State) : State :=
  match acceptedAt s sp idx with
  | some k => if notStarted s sp idx then startCmd k.cmd sp idx s else s
  | none => s

/-- A command that runs acts and completes. Log entry 79 (DESIGN CHOICE). -/
def completeAccepted (sp idx : Nat) (s : State) : State :=
  match acceptedAt s sp idx with
  | some k => if notStarted s sp idx then s else finishCmd k sp idx s
  | none => s

/-- A refreshing group holds up a host access to `n` bytes: one of their pages, or a table of it (R169). -/
def hostHeld (s : State) (t : BitVec 3) (a : W64) (n : Nat) : Bool :=
  decide (0 < n) && ((List.range (n / 4096 + 1)).any (fun k => unitHeld s .free t (a + BitVec.ofNat 64 (4096 * k))) ||
    unitHeld s .free t (a + BitVec.ofNat 64 (n - 1)))

/-- One holds up the migration of a page: at a table of it, or at a byte of the page (R169). -/
def pageHeld (s : State) (t : BitVec 3) (va : W64) : Bool :=
  match walkBy s .free true t va with
  | .error (.refresh _) => true
  | .error _ => false
  | .ok e => spanRefreshing s.cycle (physOf e.loc) (e.pages * 65536)

/-- A command that reads memory waits while a refreshing group holds it up (R169), and what moves between levels until a slot carries it (R27). -/
def commandHeld (s : State) : Instr → Bool
  | .memoryRead c (.va a) n => hostHeld s c.tenant a n
  | .memoryWrite c (.va a) bytes => hostHeld s c.tenant a bytes.length
  | .event c a _ => hostHeld s c.tenant a 8
  | .weightStoreFill c a bytes => hostHeld s c.tenant a bytes.length
  | .hostLaunch c record => (recHeld s c.tenant record).isSome
  | .pageMigrate c va _ => pageHeld s c.tenant va
  | .layerWake _ die => !catchUpOpen s die
  | _ => false

/-! Reset and critical temperature (R315, R317, R318) -/

/-- Both images of a reset pass the check of the boot ROM, and are of their kinds. -/
def bootFine (s : State) (firmware configuration : Image) : Bool :=
  imageFine s firmware && imageFine s configuration && !firmware.configuration && configuration.configuration

/-- DEVICE_RESET: the boot ROM verifies the images; verified ones bring the device up, and the ready entry enters the device ring.
Log entry 48 (DEDUCED). -/
def execDeviceReset (firmware configuration : Image) (s : State) : Result :=
  let h := s.pkg.host
  let t := { State.reset with fresh := s.fresh, inputs := s.inputs }.modHost fun x => { x with rollback := h.rollback, farBytes := h.farBytes }
  .next (if bootFine s firmware configuration then
      deviceEntry .ready (t.modHost fun x => { x with ready := true, firmware := some firmware, configuration := some configuration })
    else t)

/-- CRITICAL_TEMPERATURE: every partition is halted through the Bridle, and the report enters the device ring (R318). -/
def execCriticalTemperature (s : State) : Result := .next (deviceEntry .thermal (haltCores none s))

end Sys2Proof.Machine
end

