-- ==== Sys2Proof/Machine/Codes.lean ====
section
/-!
DEFINITION. Decode tables, encode lists and EncodeCode (R115, R117–R121), and exact sums with their
special cases (R125).
-/
namespace Sys2Proof.Machine

/-- A decode table slot: entry c in the layout of R117, bits 20:0. -/
abbrev CodeTable := Vector (BitVec 21) 256

def entryValue (e : BitVec 21) : Nat := bitsOf e.toNat 18 0
def entryNan (e : BitVec 21) : Bool := e.getLsbD 19
def entryNoenc (e : BitVec 21) : Bool := e.getLsbD 20

/-- Decode a code to e8m10 (R118). -/
def decodeCode (t : CodeTable) (c : Nat) : Nat :=
  let e := vget t c 0
  if entryNan e || e8m10.isNaN (entryValue e) then e8m10.qnan else entryValue e

/-- An e8m10 pattern in FP32, exactly (R130). -/
def e8m10ToF32 (x : Nat) : Nat := x * 8192

/-- The codes of a table with their entries, in ascending code. -/
def codesOf (t : CodeTable) : List (Nat × BitVec 21) := (List.range 256).map fun c => (c, vget t c 0)

/-- Keep the first code of every value. -/
def dedupe : List (Nat × Nat) → List (Nat × Nat) → List (Nat × Nat)
  | [], acc => acc.reverse
  | x :: xs, acc => dedupe xs (if acc.any fun y => y.2 == x.2 then acc else x :: acc)

/-- Insert by value. -/
def insertValue (x : Nat × Nat) : List (Nat × Nat) → List (Nat × Nat)
  | [] => [x]
  | y :: ys => if fKey e8m10 x.2 < fKey e8m10 y.2 then x :: y :: ys else y :: insertValue x ys

/-- The encode list of a table: codes with their e8m10 values, ascending (R120). -/
def encodeList (t : CodeTable) : List (Nat × Nat) :=
  let usable := (codesOf t).filter fun x => !entryNan x.2 && !entryNoenc x.2 && !e8m10.isNaN (entryValue x.2)
  (dedupe (usable.map fun x => (x.1, entryValue x.2)) []).foldl (fun l x => insertValue x l) []

/-- The NaN code of a sign; one alone serves both signs (R120). -/
def nanCode (t : CodeTable) (neg : Bool) : Option Nat :=
  let nans := (codesOf t).filter fun x => entryNan x.2 && !entryNoenc x.2
  let of := fun (s : Bool) => (nans.find? fun x => x.2.getLsbD 18 == s).map (·.1)
  match of neg with
  | some c => some c
  | none => of (!neg)

/-! EncodeCode (R121) -/

/-- Whether d, or d plus a little, lies below x. -/
def belowDy (d x : Dy) : Bool := d.lt x
/-- Whether d, plus a little when `sticky`, lies above x. -/
def aboveDy (d : Dy) (sticky : Bool) (x : Dy) : Bool := if sticky then x.le d else x.lt d

/-- The places of the search: code, place, whether it is an infinity. -/
abbrev CodePlace := Nat × Dy × Bool

/-- The adjacent places around a value. -/
def around (d : Dy) (sticky : Bool) : List CodePlace → Option (CodePlace × CodePlace)
  | a :: b :: rest =>
    if belowDy d b.2.1 then some (a, b) else around d sticky (b :: rest)
  | _ => none

/-- The nearer of two places; at a tie the one even code, else the lower. -/
def nearer (d : Dy) (sticky : Bool) (a b : CodePlace) : CodePlace :=
  let mid2 := a.2.1.add b.2.1
  let d2 := d.scale 1
  if belowDy d2 mid2 then a
  else if aboveDy d2 sticky mid2 then b
  else if a.1 % 2 == 0 && b.1 % 2 == 1 then a
  else if b.1 % 2 == 0 && a.1 % 2 == 1 then b
  else a

/-- The code of an infinity of a sign in an encode list. -/
def infCode (l : List (Nat × Nat)) (neg : Bool) : Option Nat :=
  (l.find? fun x => e8m10.isInf x.2 && e8m10.neg x.2 == neg).map (·.1)

/-- The finite entries with their values. -/
def finitePlaces (l : List (Nat × Nat)) : List CodePlace :=
  (l.filter fun x => !e8m10.isInf x.2).map fun x => (x.1, e8m10.value x.2, false)

/-- An encode list of infinities alone, or an infinite value that the list does not hold. -/
def encodeInfOnly (l : List (Nat × Nat)) (neg : Bool) : FRes :=
  (match infCode l neg with
    | some c => c
    | none => (infCode l (!neg)).getD 0, fOF ||| fNX)

/-- Encode a finite value: d, plus a little when `sticky`, of sign `neg`. -/
def encodeFinite (l : List (Nat × Nat)) (neg : Bool) (d : Dy) (sticky : Bool) : FRes :=
  let fin := finitePlaces l
  let same := l.filter fun x => !e8m10.isInf x.2 && !sticky && (e8m10.value x.2).eq d
  match (same.find? fun x => e8m10.neg x.2 == neg).orElse fun _ => same.head?, fin.head?, fin.getLast? with
  | some x, _, _ => (x.1, 0)
  | none, some lo, some hi =>
    let h2 := (fin.dropLast.getLast?.getD hi).2.1
    let l2 := (fin.tail.head?.getD lo).2.1
    let top : Option CodePlace := (infCode l false).map fun c => (c, hi.2.1.add (hi.2.1.sub h2), true)
    let low : Option CodePlace := (infCode l true).map fun c => (c, lo.2.1.sub (l2.sub lo.2.1), true)
    let atTop := match top with | some p => !belowDy d p.2.1 | none => false
    let atLow := match low with | some p => !aboveDy d sticky p.2.1 | none => false
    if aboveDy d sticky hi.2.1 && top.isNone then (hi.1, fOF ||| fNX)
    else if belowDy d lo.2.1 && low.isNone then (lo.1, fOF ||| fNX)
    else if atTop then ((infCode l false).getD 0, fOF ||| fNX)
    else if atLow then ((infCode l true).getD 0, fOF ||| fNX)
    else match around d sticky (low.toList ++ fin ++ top.toList) with
      | some (a, b) =>
        let c := nearer d sticky a b
        (c.1, if c.2.2 then fNX ||| fOF else fNX)
      | none => (lo.1, fNX)
  | none, _, _ => encodeInfOnly l neg

/-- EncodeCode of an FP32 value through a table whose encode list is at hand. -/
def encodeCode (t : CodeTable) (l : List (Nat × Nat)) (x : Nat) : FRes :=
  let neg := f32.neg x
  if f32.isNaN x then
    match nanCode t neg with
    | some c => (c, 0)
    | none => ((l.getLast?.map (·.1)).getD 0, fNV)
  else if l.isEmpty then (0, fNV)
  else if f32.isInf x then
    match infCode l neg with
    | some c => (c, 0)
    | none =>
      match (finitePlaces l).head?, (finitePlaces l).getLast? with
      | some lo, some hi => (if neg then lo.1 else hi.1, fOF ||| fNX)
      | _, _ => encodeInfOnly l neg
  else encodeFinite l neg (f32.value x) false

/-! Exact sums (R124, R125) -/

/-- A term: a NaN with whether it sets NV, an infinity, or an exact value with its sign. -/
inductive Term where
  | nan (invalid : Bool)
  | inf (neg : Bool)
  | fin (d : Dy) (neg : Bool)
  deriving DecidableEq, Repr

/-- The term of a pattern. -/
def termOf (f : Fmt) (x : Nat) : Term :=
  if f.isNaN x then .nan (f.isSNaN x)
  else if f.isInf x then .inf (f.neg x)
  else .fin (f.value x) (f.neg x)

/-- An exact product of terms. -/
def termMul : Term → Term → Term
  | .nan a, .nan b => .nan (a || b)
  | .nan a, _ => .nan a
  | _, .nan b => .nan b
  | .inf a, .inf b => .inf (a != b)
  | .inf a, .fin d b => if d.m = 0 then .nan true else .inf (a != b)
  | .fin d a, .inf b => if d.m = 0 then .nan true else .inf (a != b)
  | .fin d a, .fin e b => .fin (d.mul e) (a != b)

/-- A term scaled by a power of two. -/
def termScale (k : Int) : Term → Term
  | .fin d n => .fin (d.scale k) n
  | t => t

def Term.isNan : Term → Bool
  | .nan _ => true
  | _ => false

def Term.isInvalid : Term → Bool
  | .nan b => b
  | _ => false

def Term.isInf (neg : Bool) : Term → Bool
  | .inf n => n == neg
  | _ => false

def Term.isNegZero : Term → Bool
  | .fin d n => d.m == 0 && n
  | _ => false

/-- The exact sum of the finite terms. -/
def sumDy (ts : List Term) : Dy :=
  ts.foldl (fun acc t => match t with | .fin d _ => acc.add d | _ => acc) { m := 0, e := 0 }

/-- The sum of terms that hold no NaN and not both infinities, rounded once to FP32. -/
def sumNumbers (ts : List Term) : FRes :=
  if ts.any (Term.isInf true) then (f32.withSign true f32.infBits, 0)
  else if ts.any (Term.isInf false) then (f32.infBits, 0)
  else roundDy f32 .rne (ts.all Term.isNegZero) (sumDy ts)

/-- RoundRNE32 of an exact sum with the special cases of R125. -/
def sumTerms (ts : List Term) : FRes :=
  let clash := ts.any (Term.isInf true) && ts.any (Term.isInf false)
  if ts.any Term.isNan || clash then (f32.qnan, if clash || ts.any Term.isInvalid then fNV else 0)
  else sumNumbers ts

end Sys2Proof.Machine
end

