-- ==== Sys2Proof/Machine/Vector.lean ====
section
/-!
DEFINITION. Vector registers as elements and the results of the vector instructions (R127–R132, R137,
R156, R410–R427).
-/
namespace Sys2Proof.Machine

/-- The 32 slots of a vector register (R137). -/
abbrev Row := Vector W32 32


/-! Elements (R410) -/

/-- The slots as one little-endian number. -/
def rowNum (r : Row) : Nat := r.toList.foldr (fun x acc => x.toNat + 2 ^ 32 * acc) 0

def rowOfNum (n : Nat) : Row := Vector.ofFn fun i : Fin 32 => BitVec.ofNat 32 (n / 2 ^ (32 * i.val))

/-- Element `e` of width `w`. -/
def elemAt (w : Nat) (r : Row) (e : Nat) : Nat := rowNum r / 2 ^ (w * e) % 2 ^ w

/-- The first `n` elements of width `w`. -/
def elems (w n : Nat) (r : Row) : List Nat :=
  let x := rowNum r
  (List.range n).map fun e => x / 2 ^ (w * e) % 2 ^ w

/-- A row with these elements at its start; the rest is zero. -/
def rowOf (w : Nat) (l : List Nat) : Row := rowOfNum (l.foldr (fun x acc => x % 2 ^ w + 2 ^ w * acc) 0)

/-- Width of a type (R410). -/
def tyWidth (t : Nat) : Nat := if t = 3 ∨ t = 4 then 64 else if t ≤ 2 then 32 else if t ≤ 6 then 16 else 8
/-- Elements of a type in a register. -/
def tyCount (t : Nat) : Nat := 1024 / tyWidth t

/-- The floating format of a type. -/
def tyFmt (t : Nat) : Option Fmt :=
  if t = 2 then some f32 else if t = 4 then some f64 else if t = 5 then some bf16 else if t = 6 then some f16 else none

/-- Whether an integer type is signed. -/
def tyIsSigned (t : Nat) : Bool := t == 0 || t == 3 || t == 7

/-- The integer that a pattern of a type denotes. -/
def intOf (t x : Nat) : Int :=
  if tyIsSigned t && decide (2 ^ (tyWidth t - 1) ≤ x) then (x : Int) - 2 ^ tyWidth t else (x : Int)

/-- The pattern of an integer in a width. -/
def patOf (w : Nat) (v : Int) : Nat := (v % 2 ^ w).toNat

/-- Bounds of an integer type. -/
def tyLo (t : Nat) : Int := if tyIsSigned t then -(2 ^ (tyWidth t - 1)) else 0
def tyHi (t : Nat) : Int := if tyIsSigned t then 2 ^ (tyWidth t - 1) - 1 else 2 ^ tyWidth t - 1

/-- Results of elements with their flags: a row and all the flags. -/
def collect (w : Nat) (l : List FRes) : Row × FFlags := (rowOf w (l.map (·.1)), l.foldl (fun f x => f ||| x.2) 0)

/-- Apply an operation of one or two elements, or of three. -/
def map1 (t : Nat) (op : Nat → FRes) (a : Row) : Row × FFlags :=
  collect (tyWidth t) ((elems (tyWidth t) (tyCount t) a).map op)
def map2 (t : Nat) (op : Nat → Nat → FRes) (a b : Row) : Row × FFlags :=
  collect (tyWidth t) (((elems (tyWidth t) (tyCount t) a).zip (elems (tyWidth t) (tyCount t) b)).map fun x => op x.1 x.2)
def map3 (t : Nat) (op : Nat → Nat → Nat → FRes) (a b c : Row) : Row × FFlags :=
  let w := tyWidth t
  collect w ((((elems w (tyCount t) a).zip (elems w (tyCount t) b)).zip (elems w (tyCount t) c)).map fun x => op x.1.1 x.1.2 x.2)

/-! Arithmetic of one element (R127, R128, R412) -/

def eAdd (t : Nat) (r : RMode) (x y : Nat) : FRes :=
  match tyFmt t with
  | some f => fAdd f r x y
  | none => ((x + y) % 2 ^ tyWidth t, 0)

def eSub (t : Nat) (r : RMode) (x y : Nat) : FRes :=
  match tyFmt t with
  | some f => fSub f r x y
  | none => ((x + 2 ^ tyWidth t - y) % 2 ^ tyWidth t, 0)

def eMul (t : Nat) (r : RMode) (x y : Nat) : FRes :=
  match tyFmt t with
  | some f => fMul f r x y
  | none => (x * y % 2 ^ tyWidth t, 0)

def eFma (t : Nat) (r : RMode) (x y z : Nat) : FRes :=
  match tyFmt t with
  | some f => fFma f r x y z
  | none => ((x * y + z) % 2 ^ tyWidth t, 0)

def eMax (t x y : Nat) : FRes :=
  match tyFmt t with
  | some f => fMax f x y
  | none => (if intOf t x < intOf t y then y else x, 0)

def eMin (t x y : Nat) : FRes :=
  match tyFmt t with
  | some f => fMin f x y
  | none => (if intOf t y < intOf t x then y else x, 0)

def eNeg (t x : Nat) : FRes :=
  match tyFmt t with
  | some f => (fNeg f x, 0)
  | none => ((2 ^ tyWidth t - x) % 2 ^ tyWidth t, 0)

def eAbs (t x : Nat) : FRes :=
  match tyFmt t with
  | some f => (fAbs f x, 0)
  | none => if intOf t x < 0 then eNeg t x else (x, 0)

def eRcp (t : Nat) (r : RMode) (x : Nat) : FRes :=
  match tyFmt t with
  | some f => fRcp f r x
  | none => (x, 0)

def eRsq (t : Nat) (r : RMode) (x : Nat) : FRes :=
  match tyFmt t with
  | some f => fRsqrt f r x
  | none => (x, 0)

/-- VEXP rounds to nearest even (R129). -/
def eExp (t x : Nat) : FRes :=
  match tyFmt t with
  | some f => (nanOf f [x]).getD (fExp f f x)
  | none => (x, 0)

/-! Logic, shifts and compares (R414, R422, R427) -/

/-- VLOG: and, or, xor, andn, not. -/
def eLog (op w x y : Nat) : Nat :=
  let ones := 2 ^ w - 1
  match op with
  | 0 => Nat.land x y
  | 1 => Nat.lor x y
  | 2 => Nat.xor x y
  | 3 => Nat.land x (ones - y)
  | _ => ones - x

/-- VSH: shl, shr, sra; the count is the low five bits, six for 64-bit elements. -/
def eShift (op w x y : Nat) : Nat :=
  let k := y % w
  match op with
  | 0 => x * 2 ^ k % 2 ^ w
  | 1 => x / 2 ^ k
  | _ => if 2 ^ (w - 1) ≤ x then (x + 2 ^ w * (2 ^ w - 1)) / 2 ^ k % 2 ^ w else x / 2 ^ k

/-- A floating comparison: whether it holds, and its flags; codes eq, ne, lt, le, gt, ge. -/
def fCompare (f : Fmt) (c x y : Nat) : Bool × FFlags :=
  if f.isNaN x || f.isNaN y then
    (c == 1, if 2 ≤ c || f.isSNaN x || f.isSNaN y then fNV else 0)
  else
    let key := fun v => if f.isZero v then (0 : Int) else fKey f v
    (match c with
      | 0 => key x == key y
      | 1 => key x != key y
      | 2 => decide (key x < key y)
      | 3 => decide (key x ≤ key y)
      | 4 => decide (key y < key x)
      | _ => decide (key y ≤ key x), 0)

def iCompare (c : Nat) (x y : Int) : Bool :=
  match c with
  | 0 => x == y
  | 1 => x != y
  | 2 => decide (x < y)
  | 3 => decide (x ≤ y)
  | 4 => decide (y < x)
  | _ => decide (y ≤ x)

/-- VCMP: all ones or zero. -/
def eCmp (t c x y : Nat) : FRes :=
  let r := match tyFmt t with
    | some f => fCompare f c x y
    | none => (iCompare c (intOf t x) (intOf t y), 0)
  (if r.1 then 2 ^ tyWidth t - 1 else 0, r.2)

/-! Conversions (R130, R415, R416) -/

/-- An integer into an integer type: saturation sets NV. -/
def convII (dst : Nat) (v : Int) : FRes :=
  if v < tyLo dst then (patOf (tyWidth dst) (tyLo dst), fNV)
  else if tyHi dst < v then (patOf (tyWidth dst) (tyHi dst), fNV)
  else (patOf (tyWidth dst) v, 0)

def eConvert (src dst : Nat) (r : RMode) (x : Nat) : FRes :=
  match tyFmt src, tyFmt dst with
  | some f, some g => convFF f g r x
  | some f, none =>
    let y := convFI f r (tyLo dst) (tyHi dst) x
    (patOf (tyWidth dst) y.1, y.2)
  | none, some g => convIF g r (intOf src x)
  | none, none => convII dst (intOf src x)

/-- VCVT: elements 0 to N − 1; uncovered slots are zero. -/
def convertRow (src dst : Nat) (r : RMode) (a : Row) : Row × FFlags :=
  let n := if tyWidth src = 64 ∨ tyWidth dst = 64 then 16 else 32
  collect (tyWidth dst) ((elems (tyWidth src) n a).map (eConvert src dst r))

/-! Reductions (R131, R132, R425) -/

/-- The operation of VRED and VSCAN: 0–4 add in a mode, 5 min, 6 max. -/
def redOp (t code : Nat) (r : RMode) (x y : Nat) : FRes :=
  if code = 5 then eMin t x y else if code = 6 then eMax t x y else eAdd t r x y

/-- One level of the pairwise tree. -/
def redLevel (op : Nat → Nat → FRes) : List (Option Nat) → List (Option Nat) × FFlags
  | a :: b :: rest =>
    let tail := redLevel op rest
    match a, b with
    | some x, some y => (some (op x y).1 :: tail.1, (op x y).2 ||| tail.2)
    | some x, none => (some x :: tail.1, tail.2)
    | none, y => (y :: tail.1, tail.2)
  | l => (l, 0)

/-- The tree, level by level. -/
def redTree (op : Nat → Nat → FRes) : Nat → List (Option Nat) × FFlags → List (Option Nat) × FFlags
  | 0, x => x
  | n + 1, x =>
    let y := redLevel op x.1
    redTree op n (y.1, x.2 ||| y.2)

/-- The elements with the absent ones left out: bit e of a mask says whether element e is present. -/
def present (mask : Option Nat) (l : List Nat) : List (Option Nat) :=
  match mask with
  | none => l.map some
  | some m => l.zipIdx.map fun x => if bitOf m x.2 then some x.1 else none

def reduceRow (t code : Nat) (r : RMode) (mask : Option Nat) (a : Row) : Row × FFlags :=
  let w := tyWidth t
  let y := redTree (redOp t code r) 5 (present mask (elems w (tyCount t) a), 0)
  (rowOf w [(y.1.headD none).getD 0], y.2)

/-- The running value of a scan. -/
def scanList (op : Nat → Nat → FRes) : Option Nat → List (Option Nat) → List FRes
  | _, [] => []
  | acc, x :: xs =>
    match acc, x with
    | none, none => (0, 0) :: scanList op none xs
    | none, some v => (v, 0) :: scanList op (some v) xs
    | some a, none => (a, 0) :: scanList op (some a) xs
    | some a, some v => op a v :: scanList op (some (op a v).1) xs

def scanRow (t code : Nat) (r : RMode) (mask : Option Nat) (a : Row) : Row × FFlags :=
  let w := tyWidth t
  collect w (scanList (redOp t code r) none (present mask (elems w (tyCount t) a)))

/-! Other rows (R413, R417, R423, R424, R426) -/

def permRow (a b : Row) : Row := Vector.ofFn fun i : Fin 32 => vget a (b[i].toNat % 32) 0

def broadcastRow (t : Nat) (v : W64) : Row :=
  rowOf (tyWidth t) (List.replicate (tyCount t) (v.toNat % 2 ^ tyWidth t))

def selectRow (t : Nat) (a b d : Row) : Row :=
  (map3 t (fun x y m => (if m = 0 then y else x, 0)) a b d).1

/-- VMAC: bytes 0–31 of va and vb into the slots of vd. -/
def macRow (t : Nat) (a b d : Row) : Row :=
  let ext := fun x => if tyIsSigned t && decide (128 ≤ x) then (x : Int) - 256 else (x : Int)
  let ab := (elems 8 32 a).zip (elems 8 32 b)
  rowOf 32 ((ab.zip (elems 32 32 d)).map fun x => patOf 32 ((x.2 : Int) + ext x.1.1 * ext x.1.2))

def encodeRow (t : CodeTable) (a : Row) : Row × FFlags :=
  let l := encodeList t
  collect 8 ((elems 32 32 a).map (encodeCode t l))

def decodeRow (t : CodeTable) (a : Row) : Row :=
  rowOf 32 ((elems 8 32 a).map fun c => e8m10ToF32 (decodeCode t c))

/-! VFLIP (R156, R419) -/

/-- The mixing function. -/
def mix64 (a : W64) (i : Nat) : W64 :=
  let z := a + BitVec.ofNat 64 i * 0x9E3779B97F4A7C15
  let z := (z ^^^ (z >>> 30)) * 0xBF58476D1CE4E5B9
  let z := (z ^^^ (z >>> 27)) * 0x94D049BB133111EB
  z ^^^ (z >>> 31)

/-- A field or coupling times σ: a NaN passes unchanged. -/
def timesSigma (up : Bool) (x : Nat) : Nat := if up || f32.isNaN x then x else fNeg f32 x

/-- L[i]: the first NaN of the terms, quieted, or the exact sum rounded once; infinities of both signs set NV beside a NaN too. Log entry
74 (DESIGN CHOICE). -/
def flipField (terms : List Nat) : FRes :=
  let ts := terms.map (termOf f32)
  let clash := ts.any (Term.isInf true) && ts.any (Term.isInf false)
  match nanOf f32 terms with
  | some x => (x.1, if clash then x.2 ||| fNV else x.2)
  | none => if clash then (f32.qnan, fNV) else sumNumbers ts

/-- th[i] = T × z24 ÷ 2^24, rounded once. -/
def flipThreshold (temp z24 : Nat) : FRes :=
  match nanOf f32 [temp] with
  | some x => x
  | none =>
    if f32.isInf temp then if z24 = 0 then (f32.qnan, fNV) else (temp, 0)
    else
      let d := f32.value temp
      roundDy f32 .rne (f32.neg temp) { m := d.m * z24, e := d.e - 24 }

/-- dE[i], sc[i] and their flags. -/
structure FlipLane where
  gain : Nat
  score : Nat
  flags : FFlags

/-- Lane i of a block: row i of the couplings, the fields, the state bits, the temperature and the mixing input. -/
def flipLane (couplings : Nat → Nat → Nat) (h : Row) (x temp : Nat) (seed : W64) (i : Nat) : FlipLane :=
  let field := (vget h i 0).toNat
  let js := ((List.range 32).filter (· != i)).map fun j => timesSigma (bitOf x j) (couplings i j)
  let l := flipField (field :: js)
  let d := if f32.isNaN l.1 then (l.1, 0)
    else fMul f32 .rne l.1 (if bitOf x i then 0x40000000 else 0xC0000000)
  let th := flipThreshold temp (bitsOf (mix64 seed i).toNat 63 40)
  let sc := fSub f32 .rne d.1 th.1
  { gain := d.1, score := sc.1, flags := l.2 ||| d.2 ||| th.2 ||| sc.2 }

/-- Whether score a is less than score b; a NaN is greater than every number. -/
def scoreLess (a b : Nat) : Bool :=
  if f32.isNaN a then false else if f32.isNaN b then true else (fCompare f32 2 a b).1

/-- The lowest lane with the least score. -/
def leastLane (l : List FlipLane) : Nat :=
  (l.zipIdx.foldl (fun (best : Nat × Nat) x => if scoreLess x.1.score best.2 then (x.2, x.1.score) else best)
    (0, (l.map (·.score)).headD 0)).1

/-- The row and the flags of VFLIP (R156). Log entry 52 (DEDUCED). -/
def flipRow (couplings : Nat → Nat → Nat) (h b : Row) : Row × FFlags :=
  let x := b[0].toNat
  let temp := b[1].toNat
  let seed : W64 := (b[3].setWidth 64 <<< 32) ||| (b[2] ^^^ b[1]).setWidth 64
  let lanes := (List.range 32).map (flipLane couplings h x temp seed)
  let w := leastLane lanes
  let best := lanes.getD w { gain := 0, score := 0, flags := 0 }
  let flip := !f32.isNaN best.score && (fCompare f32 2 best.score 0).1
  (rowOf 32 [Nat.xor x (if flip then 2 ^ w else 0), w + 32 * boolNat flip, best.gain, best.score],
   lanes.foldl (fun f l => f ||| l.flags) 0)

end Sys2Proof.Machine
end

