-- ==== Sys2Proof/Machine/Matrix.lean ====
section
/-!
DEFINITION. Tile arithmetic: MMA, MMAS and its metadata, MSM, MSCALE, slices and the output types
(R124–R126, R144, R148–R152, R373–R380).
-/
namespace Sys2Proof.Machine

/-- A tile: element (i, j) at place 32i + j (R144). -/
abbrev Tile32 := Vector W32 1024

def tileAt (m : Tile32) (i j : Nat) : Nat := (vget m (32 * i + j) 0).toNat

/-- A tile from its rows. -/
def tileOf (f : Nat → Nat → Nat) : Tile32 := Vector.ofFn fun n : Fin 1024 => BitVec.ofNat 32 (f (n.val / 32) (n.val % 32))

/-- A tile from 1,024 results in row order, with all flags. -/
def tileOfResults (l : List FRes) : Tile32 × FFlags :=
  let a := l.toArray
  (Vector.ofFn fun n : Fin 1024 => BitVec.ofNat 32 (a.getD n.val (0, 0)).1, l.foldl (fun f x => f ||| x.2) 0)

/-- One value per place, in row order. -/
def eachPlace {α : Type} (f : Nat → Nat → α) : List α :=
  (List.range 32).flatMap fun i => (List.range 32).map fun j => f i j

/-! Slices (R144, R376) -/

def sliceOf (m : Tile32) (col : Bool) (x : Nat) : Row :=
  Vector.ofFn fun e : Fin 32 => BitVec.ofNat 32 (if col then tileAt m e.val x else tileAt m x e.val)

def setSlice (col : Bool) (x : Nat) (r : Row) (m : Tile32) : Tile32 :=
  tileOf fun i j =>
    if col then (if j = x then (vget r i 0).toNat else tileAt m i j) else (if i = x then (vget r j 0).toNat else tileAt m i j)

/-! Operands (R115, R118, R148, R149) -/

/-- An element of an operand: 0 BF16, 1 FP16, 2 coded (R143). -/
def operandTerm (fmt : Nat) (t : CodeTable) (x : Nat) : Term :=
  if fmt = 0 then termOf bf16 x else if fmt = 1 then termOf f16 x else termOf e8m10 (decodeCode t x)

/-- `n` numbers of `w` bytes at a scratchpad address. -/
def scratchNums (m : Memory) (a w : Nat) (n : Nat) : List Nat := (List.range n).map fun i => m.num (a + w * i) w

/-- The terms of an operand of `n` elements at an address. -/
def operandTerms (m : Memory) (a : Nat) (fmt : Nat) (t : CodeTable) (n : Nat) : List Term :=
  (scratchNums m a (if fmt = 2 then 1 else 2) n).map (operandTerm fmt t)

/-- Cut a list into pieces of `n`, `k` of them. -/
def pieces {α : Type} (n : Nat) : Nat → List α → List (List α)
  | 0, _ => []
  | k + 1, l => l.take n :: pieces n k (l.drop n)

/-- A row of A as the elements kept, each with its column. -/
abbrev KeptRow := List (Nat × Term)

/-- The 32 rows of a dense A tile. -/
def denseRows (m : Memory) (a : Nat) (w : W64) (t : CodeTable) : List KeptRow :=
  (pieces 64 32 (operandTerms m a (fmtAFMT w) t 2048)).map fun r => r.zipIdx.map fun x => (x.2, x.1)

/-- The 32 columns of a B tile. -/
def columnsOf (m : Memory) (a : Nat) (w : W64) (t : CodeTable) : List (Array Term) :=
  let rows := (pieces 32 64 (operandTerms m a (fmtBFMT w) t 2048)).map List.toArray
  (List.range 32).map fun j => (rows.map fun r => r.getD j (.nan false)).toArray

/-! Metadata (R149, R151) -/

/-- Columns in a group, indices kept per group, bits per index and groups per row of a pattern: 2:4, 1:4, 4:8. -/
def patGroup (p : Nat) : Nat := if p = 2 then 8 else 4
def patKept (p : Nat) : Nat := if p = 0 then 2 else if p = 1 then 1 else 4
def patBits (p : Nat) : Nat := if p = 2 then 3 else 2
def patGroups (p : Nat) : Nat := 64 / patGroup p
/-- The lowest metadata bit of a group. -/
def groupBit (p g : Nat) : Nat := g * (patKept p * patBits p)

/-- The indices of a group of a row's metadata. -/
def groupIndices (p meta_ g : Nat) : List Nat :=
  (List.range (patKept p)).map fun t => meta_ / 2 ^ (groupBit p g + patBits p * t) % 2 ^ patBits p

/-- Whether numbers ascend strictly. -/
def ascending : List Nat → Bool
  | a :: b :: rest => decide (a < b) && ascending (b :: rest)
  | _ => true

/-- The columns of a row's kept elements, in the order of v. -/
def keptColumns (p meta_ : Nat) : List Nat :=
  (List.range (patGroups p)).flatMap fun g => (groupIndices p meta_ g).map fun x => patGroup p * g + x

/-- The metadata of row `i`. -/
def metaRow (m : Memory) (a i : Nat) : Nat := m.num (a + 16 * i) 16

/-- The first row and group with a repeated or descending index. -/
def badGroup (m : Memory) (a p : Nat) : Option (Nat × Nat) :=
  (List.range 32).findSome? fun i =>
    ((List.range (patGroups p)).find? fun g => !ascending (groupIndices p (metaRow m a i) g)).map fun g => (i, g)

/-- The 32 rows of a sparse A tile. -/
def sparseRows (m : Memory) (a ma p : Nat) (w : W64) (t : CodeTable) : List KeptRow :=
  (pieces 32 32 (operandTerms m a (fmtAFMT w) t 1024)).zipIdx.map fun r => (keptColumns p (metaRow m ma r.2)).zip r.1

/-! MMA and MMAS (R124, R125) -/

/-- One element: the accumulator, scaled exactly under .RESC, and the products. -/
def mmaElement (acc : Term) (scale : Int) (row : KeptRow) (col : Array Term) : FRes :=
  sumTerms (acc :: row.map fun x => termScale scale (termMul x.2 (col.getD x.1 (.nan false))))

def mmaTile (v : VecRegs) (w : W64) (resc : Bool) (acc : Tile32) (rows : List KeptRow) (cols : List (Array Term)) :
    Tile32 × FFlags :=
  let start := fun (i j : Nat) =>
    let x := termOf f32 (tileAt acc i j)
    if resc then termMul x (termOf f32 (vget v.sfac i 0).toNat) else x
  tileOfResults (rows.zipIdx.flatMap fun r =>
    cols.zipIdx.map fun c => mmaElement (start r.2 c.2) (fmtSA w + fmtSB w) r.1 c.1)

/-- The row maxima of a tile (R148). Log entry 54 (DEDUCED). -/
def rowMaxima (m : Tile32) : Vector W32 32 :=
  Vector.ofFn fun i : Fin 32 =>
    BitVec.ofNat 32 (((List.range 31).map fun j => tileAt m i.val (j + 1)).foldl (fun a x => (fMax f32 a x).1) (tileAt m i.val 0))

/-- MSCALE (R378). -/
def mscaleTile (v : VecRegs) (m : Tile32) : Tile32 × FFlags :=
  tileOfResults (eachPlace fun i j => fDiv f32 .rne (tileAt m i j) (vget v.ssum i 0).toNat)

/-! MSM (R152, R380) -/

/-- What an output element of type OTYPE is written with: a format, or a table with its encode list. -/
inductive OutType where
  | fp (f : Fmt)
  | code (t : CodeTable) (l : List (Nat × Nat))

/-- OTYPE with OTAB of a format word (R143); `none` is FP32. -/
def outType (v : VecRegs) (w : W64) : Option OutType :=
  match fmtOTYPE w with
  | 0 => none
  | 1 => some (.fp bf16)
  | 2 => some (.fp f16)
  | _ => let t := vget v.tabs (fmtOTAB w) (Vector.replicate 256 0); some (.code t (encodeList t))

/-- Bytes of an output element. -/
def OutType.bytes : OutType → Nat
  | .fp _ => 2
  | .code .. => 1

/-- An FP32 value written in an output type (R126). -/
def outValue (o : OutType) (x : Nat) : FRes :=
  match o with
  | .fp f => convFF f32 f .rne x
  | .code t l => encodeCode t l x

/-- Diff of R152, for a > −inf below a maximum b: `none` is −inf. -/
def expDiff (a b : Nat) : Option Dy :=
  if f32.isInf a then (if f32.neg a then none else some { m := 0, e := 0 })
  else if f32.isInf b then none
  else some ((f32.value a).sub (f32.value b))

/-- The exponential of a difference, rounded once into an output type. -/
def outExp (o : OutType) (d : Option Dy) : FRes :=
  match o, d with
  | .fp _, none => (0, 0)
  | .fp f, some d => expRound f d
  | .code t l, none => encodeCode t l 0
  | .code _ l, some d =>
    if l.isEmpty then (0, fNV)
    else if d.m = 0 then encodeFinite l false { m := 1, e := 0 } false
    else expOf (fun m e => encodeFinite l false { m := (m : Int), e := e } true) d

/-- The value that a written element stands for. -/
def outTerm (o : OutType) (x : Nat) : Term :=
  match o with
  | .fp f => termOf f x
  | .code t _ => termOf e8m10 (decodeCode t x)

/-- A row of MSM: the new maximum, factor and sum, the 32 elements of P, and the flags. -/
structure MsmRow where
  smax : Nat
  sfac : Nat
  ssum : Nat
  p : List Nat
  flags : FFlags

def fOneBits : Nat := 0x3F800000

/-- The rounding flags of MSM's results, its elements of P among them; NV is none of them (R152). Log entry 51 (DEDUCED). -/
def roundingFlags (l : List FRes) : FFlags := (l.foldl (fun f x => f ||| x.2) 0) &&& ~~~fNV

/-- NV, which MSM sets for a signalling NaN alone (R152). -/
def snanFlags (l : List Nat) : FFlags := if l.any f32.isSNaN then fNV else 0

def msmRow (o : OutType) (old sum : Nat) (row : List Nat) : MsmRow :=
  let new := row.foldl (fun acc x => (fMax f32 acc x).1) old
  let nan := f32.qnan
  if f32.isNaN new then
    let p := outValue o nan
    { smax := nan, sfac := nan, ssum := nan, p := List.replicate 32 p.1, flags := snanFlags (old :: row) ||| roundingFlags [p] }
  else if new = f32.signBit + f32.infBits then
    let p := outValue o 0
    { smax := new, sfac := fOneBits, ssum := sum, p := List.replicate 32 p.1, flags := roundingFlags [p] }
  else
    let fac := match expDiff old new with
      | none => (0, 0)
      | some d => expRound f32 d
    let ps := row.map fun x => outExp o (expDiff x new)
    let s := sumTerms (termMul (termOf f32 sum) (termOf f32 fac.1) :: ps.map fun p => outTerm o p.1)
    { smax := new, sfac := fac.1, ssum := s.1, p := ps.map (·.1), flags := snanFlags [sum] ||| roundingFlags (fac :: s :: ps) }

/-- All 32 rows of MSM on a tile. -/
def msmRows (o : OutType) (v : VecRegs) (m : Tile32) : List MsmRow :=
  (List.range 32).map fun i =>
    msmRow o (vget v.smax i 0).toNat (vget v.ssum i 0).toNat ((List.range 32).map fun j => tileAt m i j)

def sideOf (l : List Nat) : Vector W32 32 := Vector.ofFn fun i : Fin 32 => BitVec.ofNat 32 (l.getD i.val 0)

/-- The side registers after MSM. -/
def msmSides (rows : List MsmRow) (v : VecRegs) : VecRegs :=
  { v with smax := sideOf (rows.map (·.smax)), sfac := sideOf (rows.map (·.sfac)), ssum := sideOf (rows.map (·.ssum)) }

/-! MLD and MST (R144, R373) -/

def mldTile (m : Memory) (a : Nat) (transpose : Bool) : Tile32 :=
  tileOf fun i j => m.num (if transpose then a + 128 * j + 4 * i else a + 128 * i + 4 * j) 4

/-- The bytes that MST writes, and its flags. -/
def mstBytesOf (o : Option OutType) (m : Tile32) : List Byte × FFlags :=
  match o with
  | none => (m.toList.flatMap fun x => toBytesLE 4 x.toNat, 0)
  | some o =>
    let l := eachPlace fun i j => outValue o (tileAt m i j)
    (l.flatMap fun x => toBytesLE o.bytes x.1, l.foldl (fun f x => f ||| x.2) 0)

/-! Decode tables (R117, R381) -/

def tableOf (image : List W32) : CodeTable :=
  let a := image.toArray
  Vector.ofFn fun i : Fin 256 => (a.getD i.val 0).setWidth 21

end Sys2Proof.Machine
end

