-- ==== Sys2Proof/Machine/Queue.lean ====
section
/-!
DEFINITION. The vector queue: issue of vector, matrix and tile words, guarded words, dispatch, completion, and
repeat frames (R29, R43, R138, R144–R156, R219, R220, R278, R335, R337, R361, R368–R383, R389, R390, R410–R427).
-/
namespace Sys2Proof.Machine

/-! What a word reads and writes (R323, R410) -/

/-- The rounding code of a word, where it has one. -/
def rhoOf : Instr → Nat
  | .vadd _ _ _ _ _ r _ => r.toNat
  | .vsub _ _ _ _ _ r _ => r.toNat
  | .vmul _ _ _ _ _ r _ => r.toNat
  | .vfma _ _ _ _ _ r _ => r.toNat
  | .vrcp _ _ _ _ r _ => r.toNat
  | .vrsq _ _ _ _ r _ => r.toNat
  | .vred _ _ _ _ _ f _ => f.toNat
  | .vscan _ _ _ _ _ f _ => f.toNat
  | .vcvt _ _ _ _ _ r _ => r.toNat
  | _ => 0

/-- The scalar source of a word; format X has no last-use bit. -/
def vecScalar : Instr → List Src
  | .vld _ l x _ => [⟨x, l⟩]
  | .vst _ l x _ => [⟨x, l⟩]
  | .vgath _ l x _ _ => [⟨x, l⟩]
  | .vscat _ l x _ _ => [⟨x, l⟩]
  | .vbcast _ l x _ => [⟨x, l⟩]
  | .mld _ x _ _ _ _ => [⟨x, false⟩]
  | .mst _ x _ _ _ => [⟨x, false⟩]
  | .mmov _ x _ _ _ _ => [⟨x, false⟩]
  | .mfmt x => [⟨x, false⟩]
  | .mtab _ x => [⟨x, false⟩]
  | .kld _ x => [⟨x, false⟩]
  | .kop _ x _ _ => [⟨x, false⟩]
  | _ => []

/-! Guards (R147, R337) -/

def wordOp (w : W32) : Nat := bitsOf w.toNat 31 26

/-- A guarded word: OP 0x35, or MLD or MST of OP 0x36, with k ≠ 0. -/
def guarded (w : W32) : Bool :=
  (wordOp w == 0x35 || (wordOp w == 0x36 && decide (bitsOf w.toNat 7 6 ≤ 1))) && bitsOf w.toNat 16 14 != 0

/-- k0 reads all ones (R147). -/
def VecRegs.getK (k : BitVec 3) (v : VecRegs) : W64 := if k = 0 then 0xFFFFFFFFFFFFFFFF else v.k[k.toNat]
def VecRegs.setK (k : BitVec 3) (x : W64) (v : VecRegs) : VecRegs := if k = 0 then v else { v with k := v.k.set k.toNat x }

/-- The guard of an entry holds. -/
def guardHolds (v : VecRegs) (e : VEntry) : Bool :=
  !guarded e.word ||
    (v.getK (BitVec.ofNat 3 (bitsOf e.word.toNat 16 14))).getLsbD
      ((bitsOf e.word.toNat 13 8 + (match e.frame with | some f => frameStep f.word | none => 0)) % 64)

/-! The checks of an entry (R144, R145, R370, R373, R374, R380, R421) -/

/-- `bytes` scratchpad bytes of a row or tile: aligned, inside the scratchpad and, but for the handler, clear of the bytes from the
kernel's request up to the pinned area, and of that (R58, R144, R161). -/
def spanCheck (s : State) (handler : Bool) (align bytes : Nat) (a : W64) : Except Stop Unit :=
  let x := a.toNat
  if x % align ≠ 0 then raise 0x10 a (BitVec.ofNat 64 align)
  else if Config.scratchBytes < x + bytes ||
      (!handler && decide (x < Config.pinnedBase ∧ s.core.scratchReq < Nat.min (x + bytes) Config.pinnedBase)) then raise 0x12 a 0
  else if !handler && decide (Config.pinnedBase < x + bytes) then raise 0x13 a 0
  else .ok ()

/-- VLD and VST (R421). -/
def rowAddrCheck (s : State) (handler : Bool) (a : W64) : Except Stop Unit := spanCheck s handler 4 128 a

/-- MLD and MST (R144, R373). -/
def tileAddrCheck (s : State) (handler : Bool) (a : W64) (bytes : Nat) : Except Stop Unit := spanCheck s handler 64 bytes a

/-- Every ring is configured (R145). -/
def ringsConfigured (s : State) : List (BitVec 3) → Except Stop Unit
  | [] => .ok ()
  | g :: gs => if (s.ring g).size = 0 then raise 0x31 0 (g.setWidth 64) else ringsConfigured s gs

def rowAddr (v : W64) (i : BitVec 5) : W64 := v + 128 * i.signExtend 64
def tileAddr (v : W64) (m : BitVec 5) : W64 := v + 64 * m.setWidth 64

/-- The checks of a word's own entry, with the format word in force for it and its scalar value. -/
def entryChecks (s : State) (handler : Bool) (fmt v : W64) : Instr → Except Stop Unit
  | .vld _ _ _ i => rowAddrCheck s handler (rowAddr v i)
  | .vst _ _ _ i => rowAddrCheck s handler (rowAddr v i)
  | .mld _ _ _ _ _ m => tileAddrCheck s handler (tileAddr v m) 4096
  | .mst _ _ _ _ m => tileAddrCheck s handler (tileAddr v m) (mstBytes fmt)
  | .mma _ a b _ _ _ _ _ _ => ringsConfigured s [a, b]
  | .mmas _ a b _ _ _ g _ _ => ringsConfigured s [a, b, g]
  | .msm _ g _ _ _ => if fmtOTYPE fmt = 0 then raise 0x30 0 0 else ringsConfigured s [g]
  | .mfmt _ => if fmtAFMT v = 3 || fmtBFMT v = 3 || v.toNat / 2 ^ 29 != 0 then raise 0x30 0 0 else .ok ()
  | _ => .ok ()

/-! Issue (R138, R337, R410) -/

/-- A vector register freed by last use is read (R43). -/
def checkVecFreed (s : State) : List VReg → Except Stop Unit
  | [] => .ok ()
  | r :: rs =>
    if s.core.regs.vec.vfreed.getLsbD r.toNat && !s.core.regs.lumode then raise 0x04 0 (r.setWidth 64) else checkVecFreed s rs

/-- A register is pending under a gather (R220). -/
def checkPending (s : State) : List VReg → Except Stop Unit
  | [] => .ok ()
  | r :: rs => if s.core.regs.gpend.getLsbD r.toNat then raise 0x35 0 (r.setWidth 64) else checkPending s rs

/-- The scalar operands and the vector registers of a word, checked: its scalar value and the state after reading it. -/
def vecOperands (s : State) (i : Instr) : Except Stop (W64 × State) :=
  let regs := (vecSources i).map (·.1)
  match checkFreed s ((vecScalar i).map (·.reg)) with
  | .error e => .error e
  | .ok _ =>
    match checkVecFreed s regs with
    | .error e => .error e
    | .ok _ =>
      match operands s (vecScalar i) [] with
      | .error e => .error e
      | .ok (vs, s1) =>
        match checkPending s (regs ++ vecDest i) with
        | .error e => .error e
        | .ok _ => .ok (val0 vs, s1)

/-- The queue has room. -/
def Core.vqRoom (c : Core) : Bool := decide (c.entries.length < Config.vqEntries)

/-- Put an entry behind the others, with what it does in issue order. -/
def enqueue (i : Instr) (e : VEntry) (s : State) : Except Stop State :=
  if !s.core.vqRoom then wait .vqFull
  else
    let issued := fun (v : VecRegs) => { v with vfreed := freedAfter i v.vfreed, fmtIssued := fmtAfter i e.sval v.fmtIssued }
    .ok ((s.modVec issued).modCore fun c => { c with vq := c.vq ++ [e] })

/-- The 16 lines of a decode-table image pass the checks of an access (R381); the first byte of a line decides. Log entry 83 (DEDUCED). -/
def imageChecks (s : State) (va : W64) : List Nat → Except Stop State
  | [] => .ok s
  | n :: ns =>
    match checkAddress s .load 64 true .readable (va + BitVec.ofNat 64 (64 * n)) with
    | .error e => .error e
    | .ok (pl, s1) =>
      match scratchClear s 64 pl with
      | .error e => .error e
      | .ok _ => imageChecks s1 va ns

/-- The bytes of an image, read as loads of the context. -/
def imageBytes (s : State) (va : W64) : List Nat → Except Stop (List Byte × State)
  | [] => .ok ([], s)
  | n :: ns =>
    match loadBytes s 64 true false (va + BitVec.ofNat 64 (64 * n)) with
    | .error e => .error e
    | .ok (bs, s1) =>
      match imageBytes s1 va ns with
      | .error e => .error e
      | .ok (rest, s2) => .ok (bs ++ rest, s2)

/-- The image that MTAB reads at issue; no other word has one. -/
def readImage (s : State) (va : W64) (i : Instr) : Except Stop (List W32 × State) :=
  match i with
  | .mtab _ _ =>
    if va.toNat % 64 ≠ 0 then raise 0x10 va 64
    else match imageChecks s va (List.range 16) with
      | .error e => .error e
      | .ok s1 =>
        match imageBytes s1 va (List.range 16) with
        | .error e => .error e
        | .ok (bs, s2) => .ok ((pieces 4 256 bs).map fun x => BitVec.ofNat 32 (ofBytesLE x), s2)
  | _ => .ok ([], s)

/-- The entry of a word. -/
def entryOf (i : Instr) (w : W32) (pc v : W64) (image : List W32) (owed : Option Trap) (fr : Option Frame) (s : State) : VEntry :=
  { word := w, pc := pc, ctx := s.core.cur, sval := v, rm := roundingOf (rhoOf i) s.ctx.frm, image := image, owed := owed, frame := fr }

/-- A word that makes its checks at issue. -/
def queuePlain (i : Instr) (w : W32) (pc : W64) (fr : Option Frame) (s : State) : Except Stop State :=
  match vecOperands s i with
  | .error e => .error e
  | .ok (v, s1) =>
    match entryChecks s s.isHandler (fmtInForce s) v i with
    | .error e => .error e
    | .ok _ =>
      match readImage s1 v i with
      | .error e => .error e
      | .ok (image, s2) => enqueue i (entryOf i w pc v image none fr s) s2

/-- A guarded word: its scalar is read at issue, a trap of that read is owed at the head (R337). Log entry 62 (DEDUCED). -/
def queueGuarded (i : Instr) (srcs : List Src) (w : W32) (pc : W64) (fr : Option Frame) (s : State) : Except Stop State :=
  match operands s srcs [] with
  | .error (.block x) => wait x
  | .error (.trap t) => enqueue i (entryOf i w pc 0 [] (some t) fr s) s
  | .ok (vs, s1) => enqueue i (entryOf i w pc (val0 vs) [] none fr s) s1

/-! VGATH and VSCAT, executed at issue (R219, R220, R420) -/

/-- What a freed vector register reads as: slot by slot that of a row held, a free choice (R43, R323). Log entry 66 (DEDUCED). -/
def freedRow (v : VecRegs) (fresh : Nat) (r : VReg) : Row :=
  Vector.ofFn fun i : Fin 32 =>
    (v.past.getD (Config.freedSlot fresh (32 * r.toNat + i.val) % v.past.length) (Vector.replicate 32 0))[i]

/-- What a vector register reads as. -/
def readRow (v : VecRegs) (fresh : Nat) (r : VReg) : Row := if v.vgone.getLsbD r.toNat then freedRow v fresh r else v.v[r.toNat]

/-- An uncompleted entry writes one of some vector registers. -/
def writesPending (c : Core) (rs : List VReg) : Bool :=
  c.entries.any fun e => match decode e.word with
    | .ok i => (vecDest i).any fun r => rs.contains r
    | .error _ => false

/-- The lanes of an index register that are not off, with their addresses. -/
def lanesOf (base : W64) (t : Nat) (idx : Row) : List (Nat × W64) :=
  let w := tyWidth t
  ((elems w (tyCount t) idx).zipIdx.filter fun x => x.1 != 2 ^ (w - 1)).map fun x =>
    (x.2, base + BitVec.ofInt 64 (if 2 ^ (w - 1) ≤ x.1 then (x.1 : Int) - 2 ^ w else (x.1 : Int)))

/-- The home of a checked lane. -/
def placeHome (s : State) : Place → Nat
  | .scratch a => a
  | .replica o => replicaPhys s.die o
  | .home p _ => p

/-- Check the lanes in ascending order; each gets its home and the element it carries. -/
def checkLanes (scat : Bool) (size : Nat) (data : List Nat) : List (Nat × W64) → State → Except Stop (List Lane × State)
  | [], s => .ok ([], s)
  | l :: ls, s =>
    match checkAddress s (if scat then .store else .load) size false (if scat then .outside else .readable) l.2 with
    | .error e => .error e
    | .ok (pl, s1) =>
      match checkLanes scat size data ls s1 with
      | .error e => .error e
      | .ok (rest, s2) =>
        .ok ({ elem := l.1, va := l.2, home := placeHome s pl, data := BitVec.ofNat 64 (data.getD l.1 0) } :: rest, s2)

/-- Hold a gather or scatter of register `d` with indices `b`, and queue the word. In a frame, the words queued before it complete
first. Log entry 55 (DEDUCED). -/
def issueLanes (i : Instr) (w : W32) (pc : W64) (scat : Bool) (d b : VReg) (t : BitVec 4) (fr : Option Frame) (s : State) :
    Except Stop State :=
  if writesPending s.core (if scat then [b, d] else [b]) || (fr.isSome && s.core.hasEntry s.core.cur) then
    wait (.gatherRegs (if scat then [b, d] else [b]))
  else match vecOperands s i with
    | .error e => .error e
    | .ok (base, s1) =>
      let v := s.core.regs.vec
      let n := tyWidth t.toNat
      let data := if scat then elems n (tyCount t.toNat) (readRow v s.fresh d) else []
      match checkLanes scat (n / 8) data (lanesOf base t.toNat (readRow v s.fresh b)) s1.useFresh with
      | .error e => .error e
      | .ok (lanes, s2) =>
        if Config.gatherMax ≤ (s.core.regs.gathers.filter fun g => !g.sent).length then raise 0x36 0 0
        else
          let g : Gather := { scat := scat, vd := d, wide := n == 64, lanes := lanes, sent := false, served := false, values := [] }
          let hold := fun (r : CoreRegs) => { r with
            gathers := r.gathers ++ [g], gpend := if scat then r.gpend else r.gpend ||| vbit d }
          enqueue i (entryOf i w pc base [] none fr s) (s2.modRegs hold)

/-! The issue of one word -/

/-- A later word of a context waits until its frame's last step has entered the queue (R153). -/
def frameHolds (s : State) : Bool := frameActive s.core.regs.frame.word && s.core.regs.frame.ctx == s.core.cur

/-- ISSUE of a vector, matrix or tile word by the context at `cur`, in line or as a step of a frame. -/
def issueWord (i : Instr) (w : W32) (pc : W64) (fr : Option Frame) (s : State) : Except Stop State :=
  match notHelper s (some w) with
  | .error e => .error e
  | .ok _ =>
    if fr.isNone && frameHolds s then wait .frameActive
    else if guarded w then queueGuarded i (vecScalar i) w pc fr s
    else match i with
      | .vgath d _ _ b t => issueLanes i w pc false d b t fr s
      | .vscat d _ _ b t => issueLanes i w pc true d b t fr s
      | _ => queuePlain i w pc fr s

/-- The instruction in line: the word issues and retires. -/
def vectorWord (i : Instr) (s : State) : Result :=
  finish s ((issueWord i ((encode i).getD 0) s.ctx.pc none s).map State.retire)

def execVadd (d : VReg) (l : Bool) (a : VReg) (m : Bool) (b : VReg) (r : BitVec 3) (t : BitVec 4) (s : State) : Result :=
  vectorWord (.vadd d l a m b r t) s
def execVsub (d : VReg) (l : Bool) (a : VReg) (m : Bool) (b : VReg) (r : BitVec 3) (t : BitVec 4) (s : State) : Result :=
  vectorWord (.vsub d l a m b r t) s
def execVmul (d : VReg) (l : Bool) (a : VReg) (m : Bool) (b : VReg) (r : BitVec 3) (t : BitVec 4) (s : State) : Result :=
  vectorWord (.vmul d l a m b r t) s
def execVfma (d : VReg) (l : Bool) (a : VReg) (m : Bool) (b : VReg) (r : BitVec 3) (t : BitVec 4) (s : State) : Result :=
  vectorWord (.vfma d l a m b r t) s
def execVmax (d : VReg) (l : Bool) (a : VReg) (m : Bool) (b : VReg) (t : BitVec 4) (s : State) : Result :=
  vectorWord (.vmax d l a m b t) s
def execVmin (d : VReg) (l : Bool) (a : VReg) (m : Bool) (b : VReg) (t : BitVec 4) (s : State) : Result :=
  vectorWord (.vmin d l a m b t) s
def execVabs (d : VReg) (l : Bool) (a : VReg) (m : Bool) (t : BitVec 4) (s : State) : Result :=
  vectorWord (.vabs d l a m t) s
def execVneg (d : VReg) (l : Bool) (a : VReg) (m : Bool) (t : BitVec 4) (s : State) : Result :=
  vectorWord (.vneg d l a m t) s
def execVrcp (d : VReg) (l : Bool) (a : VReg) (m : Bool) (r : BitVec 5) (t : BitVec 4) (s : State) : Result :=
  vectorWord (.vrcp d l a m r t) s
def execVrsq (d : VReg) (l : Bool) (a : VReg) (m : Bool) (r : BitVec 5) (t : BitVec 4) (s : State) : Result :=
  vectorWord (.vrsq d l a m r t) s
def execVexp (d : VReg) (l : Bool) (a : VReg) (m : Bool) (t : BitVec 4) (s : State) : Result :=
  vectorWord (.vexp d l a m t) s
def execVlog (d : VReg) (l : Bool) (a : VReg) (m : Bool) (b : VReg) (o : BitVec 3) (t : BitVec 4) (s : State) : Result :=
  vectorWord (.vlog d l a m b o t) s
def execVsh (d : VReg) (l : Bool) (a : VReg) (m : Bool) (b : VReg) (o : BitVec 2) (t : BitVec 4) (s : State) : Result :=
  vectorWord (.vsh d l a m b o t) s
def execVmac (d : VReg) (l : Bool) (a : VReg) (m : Bool) (b : VReg) (t : BitVec 4) (s : State) : Result :=
  vectorWord (.vmac d l a m b t) s
def execVcmp (d : VReg) (l : Bool) (a : VReg) (m : Bool) (b : VReg) (c : BitVec 3) (t : BitVec 4) (s : State) : Result :=
  vectorWord (.vcmp d l a m b c t) s
def execVsel (d : VReg) (l : Bool) (a : VReg) (m : Bool) (b : VReg) (t : BitVec 4) (s : State) : Result :=
  vectorWord (.vsel d l a m b t) s
def execVld (d : VReg) (l : Bool) (x : SReg) (i : BitVec 5) (s : State) : Result := vectorWord (.vld d l x i) s
def execVst (d : VReg) (l : Bool) (x : SReg) (i : BitVec 5) (s : State) : Result := vectorWord (.vst d l x i) s
def execVgath (d : VReg) (l : Bool) (x : SReg) (b : VReg) (t : BitVec 4) (s : State) : Result :=
  vectorWord (.vgath d l x b t) s
def execVscat (d : VReg) (l : Bool) (x : SReg) (b : VReg) (t : BitVec 4) (s : State) : Result :=
  vectorWord (.vscat d l x b t) s
def execVbcast (d : VReg) (l : Bool) (x : SReg) (t : BitVec 4) (s : State) : Result := vectorWord (.vbcast d l x t) s
def execVperm (d : VReg) (l : Bool) (a : VReg) (m : Bool) (b : VReg) (s : State) : Result :=
  vectorWord (.vperm d l a m b) s
def execVred (d : VReg) (l : Bool) (a : VReg) (m : Bool) (k : VReg) (f : BitVec 3) (t : BitVec 4) (s : State) : Result :=
  vectorWord (.vred d l a m k f t) s
def execVscan (d : VReg) (l : Bool) (a : VReg) (m : Bool) (k : VReg) (f : BitVec 3) (t : BitVec 4) (s : State) : Result :=
  vectorWord (.vscan d l a m k f t) s
def execVcvt (d : VReg) (l : Bool) (a : VReg) (m : Bool) (g : BitVec 5) (r : BitVec 3) (t : BitVec 4) (s : State) : Result :=
  vectorWord (.vcvt d l a m g r t) s
def execVenc (d : VReg) (l : Bool) (a : VReg) (m : Bool) (x : BitVec 2) (s : State) : Result := vectorWord (.venc d l a m x) s
def execVdec (d : VReg) (l : Bool) (a : VReg) (m : Bool) (x : BitVec 2) (s : State) : Result := vectorWord (.vdec d l a m x) s
def execVflip (d : VReg) (l : Bool) (a : VReg) (m : Bool) (b : VReg) (g : BitVec 3) (s : State) : Result :=
  vectorWord (.vflip d l a m b g) s
def execMma (d a b k : BitVec 3) (i : BitVec 6) (x r p q : Bool) (s : State) : Result := vectorWord (.mma d a b k i x r p q) s
def execMzero (d k : BitVec 3) (i : BitVec 6) (s : State) : Result := vectorWord (.mzero d k i) s
def execMscale (d k : BitVec 3) (i : BitVec 6) (s : State) : Result := vectorWord (.mscale d k i) s
def execMsm (d g k : BitVec 3) (i : BitVec 6) (h : Bool) (s : State) : Result := vectorWord (.msm d g k i h) s
def execMmas (d a b k : BitVec 3) (i : BitVec 6) (t : BitVec 2) (g : BitVec 3) (p q : Bool) (s : State) : Result :=
  vectorWord (.mmas d a b k i t g p q) s
def execMld (d : BitVec 3) (x : SReg) (k : BitVec 3) (i : BitVec 6) (t : Bool) (m : BitVec 5) (s : State) : Result :=
  vectorWord (.mld d x k i t m) s
def execMst (d : BitVec 3) (x : SReg) (k : BitVec 3) (i : BitVec 6) (m : BitVec 5) (s : State) : Result :=
  vectorWord (.mst d x k i m) s
def execMmov (t : BitVec 3) (x : SReg) (v : VReg) (c d : Bool) (m : BitVec 5) (s : State) : Result :=
  vectorWord (.mmov t x v c d m) s
def execMfmt (x : SReg) (s : State) : Result := vectorWord (.mfmt x) s
def execMtab (t : BitVec 2) (x : SReg) (s : State) : Result := vectorWord (.mtab t x) s
def execKld (k : BitVec 3) (x : SReg) (s : State) : Result := vectorWord (.kld k x) s
def execKop (k : BitVec 3) (x : SReg) (a : BitVec 3) (o : BitVec 2) (s : State) : Result := vectorWord (.kop k x a o) s

/-- The scalar source of a guarded word that is no instruction: that of an MST form, bits 22:17 (R334). -/
def illegalScalar (w : W32) : List Src := if wordOp w == 0x36 then [⟨w.extractLsb' 17 6, false⟩] else []

/-- ILLEGAL_WORD: illegal instruction, or a guarded word that will raise it at the head (R335, R337). -/
def illegalIssue (w : W32) (pc : W64) (fr : Option Frame) (s : State) : Except Stop State :=
  if guarded w then
    match notHelper s (some w) with
    | .error e => .error e
    | .ok _ =>
      if fr.isNone && frameHolds s then wait .frameActive
      else queueGuarded (.illegalWord w) (illegalScalar w) w pc fr s
  else raise 0x01 0 (w.setWidth 64)

def execIllegalWord (w : W32) (s : State) : Result := finish s ((illegalIssue w s.ctx.pc none s).map State.retire)

/-! The head of the queue (R138, R147, R150, R151, R278, R298, R337) -/

/-- The first ring whose slots are too small. -/
def smallSlot (s : State) (fmt : W64) (i : Instr) : Option (BitVec 3) :=
  match i with
  | .msm _ g _ _ _ => if (s.ring g).slotBytes < (if fmtOTYPE fmt = 3 then 2048 else 4096) then some g else none
  | _ => ((ringNeeds fmt i).find? fun n => decide ((s.ring n.1).slotBytes < n.2.1)).map (·.1)

/-- The rings hold what the request takes: filled slots, or for MSM a reserved or free one (R146, R380). -/
def ringsHold (s : State) (fmt : W64) (i : Instr) : Bool :=
  match i with
  | .msm _ g _ _ _ => ((s.ring g).resv.any fun v => v.owner == 0 && !v.done) || (s.ring g).free != 0
  | _ =>
    let gs := (ringNeeds fmt i).map (·.1)
    gs.all fun g => decide ((gs.filter (· == g)).length ≤ (s.ring g).filled.toNat)

/-- The addresses of the slots that a request takes. -/
def slotsOf (s : State) (fmt : W64) (i : Instr) : List Nat :=
  takeSlots s.core.regs.vec.rings { fmt := fmt, pops := fun _ => 0, msms := fun _ => 0, bytes := [] } ((ringNeeds fmt i).map fun n => (n.1, n.2.2))

/-- The scratchpad spans that an entry reads. -/
def readSpans (s : State) (fmt v : W64) (i : Instr) : List (Nat × Nat) :=
  match i with
  | .vld _ _ _ d => [((rowAddr v d).toNat, 128)]
  | .mld _ _ _ _ _ m => [((tileAddr v m).toNat, 4096)]
  | _ => (slotsOf s fmt i).zip ((ringNeeds fmt i).map fun n => n.2.1)

/-- What becomes of the entry at the head. -/
inductive HeadState where
  | drop
  | trap (t : Trap)
  | hold
  | go
  deriving DecidableEq, Repr

/-- The checks that come once the rings hold their slots: sparsity, then an uncorrectable error (R151, R159). Log entry 61 (DEDUCED). -/
def headData (s : State) (fmt v : W64) (i : Instr) : HeadState :=
  let bad := (readSpans s fmt v i).find? fun x => badBytes s.core.badScratch x.1 x.2
  let data := match bad with
    | some x => HeadState.trap { code := 0x17, addr := BitVec.ofNat 64 x.1, stat := 0 }
    | none => HeadState.go
  match i with
  | .mmas _ _ _ _ _ t _ _ _ =>
    let a := (slotsOf s fmt i).getD 2 0
    match badGroup s.core.scratch a t.toNat with
    | some (row, g) =>
      .trap { code := 0x33, addr := BitVec.ofNat 64 (a + 16 * row + groupBit t.toNat g / 8), stat := BitVec.ofNat 64 (row + 256 * g) }
    | none => data
  | _ => data

/-- The checks of a word at the head, under the format word in force in queue order. -/
def headChecks (s : State) (e : VEntry) (i : Instr) : HeadState :=
  let fmt := s.core.regs.vec.fmt
  let first := match guarded e.word, e.owed with
    | true, some t => Except.error (Stop.trap t)
    | true, none => entryChecks s (e.ctx == handlerIx) fmt e.sval i
    | false, _ => .ok ()
  match first with
  | .error (.trap t) => .trap t
  | .error (.block _) => .hold
  | .ok _ =>
    match smallSlot s fmt i with
    | some g => .trap { code := 0x32, addr := 0, stat := g.setWidth 64 }
    | none => if ringsHold s fmt i then headData s fmt e.sval i else .hold

def headState (s : State) (e : VEntry) : HeadState :=
  if !guardHolds s.core.regs.vec e then .drop
  else match decode e.word with
    | .error _ => .trap { code := 0x01, addr := 0, stat := e.word.setWidth 64 }
    | .ok i => headChecks s e i

/-- The status of a trap at a step of a frame (R155). -/
def frameStat (step : Nat) (stat : W64) : W64 := (stat &&& 0xFFFF) ||| BitVec.ofNat 64 (step * 2 ^ 16 + 2 ^ 24)

/-- A trap of an entry of a frame `f`: the frame stands at the entry's step and index, the context resumes at FRPC (R155). -/
def frameTrap (i : Fin 12) (f : Frame) (past : Option W64) (t : Trap) (head : Bool) (s : State) : State :=
  if i = handlerIx then doubleFaultOf t.code s
  else
    let npc := addrBits (s.ctxAt i).pc
    pauseFor { ctx := i, code := t.code, addr := t.addr, stat := frameStat (frameStep f.word) t.stat,
               epc := f.base + BitVec.ofNat 64 (4 * frameIndex f.word), npc := npc, qhead := head,
               frame := some { frame := { f with pc := npc, ctx := i, fault := none }, past := past },
               entry := none, wait := waitSettled s i, cycle := s.cycle.toNat } s

/-- One entry comes behind another in the same frame: the same body, count, last step and strides, at a later step or index. -/
def Frame.follows (g f : Frame) : Bool :=
  let shape := fun (w : W64) => w &&& 0x3FFF00FFF000
  let at_ := fun (w : W64) => 16 * frameStep w + frameIndex w
  g.base == f.base && shape g.word == shape f.word && decide (at_ f.word < at_ g.word)

/-- The entries behind one of a frame, of its context: how many of them are later ones of the same frame, and the last of these. -/
def frameRun (f : Frame) : List VEntry → Nat × Frame
  | [] => (0, f)
  | x :: xs => match x.frame with
    | some g => if g.follows f then let r := frameRun g xs; (r.1 + 1, r.2) else (0, f)
    | none => (0, f)

/-- A TRAP AT THE HEAD of the queue (R278): later entries of the context are taken out and held; those of the same frame
have no effect. The trapping word, and the entries that will be dispatched anew, do not count as instructions (R293). -/
def headTrap (e : VEntry) (rest : List VEntry) (t : Trap) (s : State) : State :=
  let mine := rest.filter fun x => x.ctx == e.ctx
  let others := rest.filter fun x => x.ctx != e.ctx
  let run : Nat × Option Frame := match e.frame with
    | some f => ((frameRun f mine).1, some (frameRun f mine).2)
    | none => (0, none)
  let held := mine.drop run.1
  let s := s.modTrap fun u => { u with held := held ++ u.held }
  let s := (s.modCore fun c => reissued { c with vq := others }).modCtxAt e.ctx fun c =>
    { c with instret := c.instret - BitVec.ofNat 64 (1 + run.1) }
  match e.frame with
  | some f => frameTrap e.ctx f (if held.any fun x => x.frame.isSome then none else run.2.map fun g => frameAdvance g.word) t true s
  | none =>
    if e.ctx = handlerIx then doubleFaultOf t.code s
    else
      pauseFor { ctx := e.ctx, code := t.code, addr := t.addr, stat := t.stat, epc := e.pc, npc := (s.ctxAt e.ctx).pc,
                 qhead := true, frame := none, entry := some e, wait := waitSettled s e.ctx, cycle := s.cycle.toNat } s

/-- MSM reserves its slot at dispatch (R380). -/
def dispatchRings (i : Instr) (s : State) : State :=
  match i with
  | .msm _ g _ _ _ => if (s.ring g).resv.any fun v => v.owner == 0 && !v.done then s else s.modRing g (Ring.reserve 0)
  | _ => s

/-- The head of the focused core's queue is dropped, traps, waits or starts; one entry runs at a time. Log entry 10 (DESIGN CHOICE). -/
def dispatchHead (s : State) : State :=
  match s.core.flying, s.core.vq with
  | none, e :: rest =>
    match headState s e with
    | .drop => s.modCore fun c => { c with vq := rest }
    | .trap t => headTrap e rest t s
    | .hold => s
    | .go =>
      let start := fun (c : Core) => { c with vq := rest, flying := some e }
      match decode e.word with
      | .ok i => dispatchRings i (s.modCore start)
      | .error _ => s.modCore start
  | _, _ => s

/-- The head can move: it is not one that waits for its rings. -/
def headDue (s : State) : Bool :=
  match s.core.flying, s.core.vq with
  | none, e :: _ => headState s e != .hold
  | _, _ => false

/-- VECTOR_QUEUE_DISPATCH. -/
def execVectorQueueDispatch (core : Nat) (s : State) : Result := .next (s.onCore core dispatchHead)

/-! Completion (R138, R142) -/

/-- The result of a word that writes one vector register from vector registers, tables and its scalar. -/
def rowResult (v : VecRegs) (rd : VReg → Row) (r : RMode) (x : W64) : Instr → Option (VReg × Row × FFlags)
  | .vadd d _ a _ b _ t => some (d, map2 t.toNat (eAdd t.toNat r) (rd a) (rd b))
  | .vsub d _ a _ b _ t => some (d, map2 t.toNat (eSub t.toNat r) (rd a) (rd b))
  | .vmul d _ a _ b _ t => some (d, map2 t.toNat (eMul t.toNat r) (rd a) (rd b))
  | .vfma d _ a _ b _ t => some (d, map3 t.toNat (eFma t.toNat r) (rd a) (rd b) (rd d))
  | .vmax d _ a _ b t => some (d, map2 t.toNat (eMax t.toNat) (rd a) (rd b))
  | .vmin d _ a _ b t => some (d, map2 t.toNat (eMin t.toNat) (rd a) (rd b))
  | .vabs d _ a _ t => some (d, map1 t.toNat (eAbs t.toNat) (rd a))
  | .vneg d _ a _ t => some (d, map1 t.toNat (eNeg t.toNat) (rd a))
  | .vrcp d _ a _ _ t => some (d, map1 t.toNat (eRcp t.toNat r) (rd a))
  | .vrsq d _ a _ _ t => some (d, map1 t.toNat (eRsq t.toNat r) (rd a))
  | .vexp d _ a _ t => some (d, map1 t.toNat (eExp t.toNat) (rd a))
  | .vlog d _ a _ b o t => some (d, map2 t.toNat (fun p q => (eLog o.toNat (tyWidth t.toNat) p q, 0)) (rd a) (rd b))
  | .vsh d _ a _ b o t => some (d, map2 t.toNat (fun p q => (eShift o.toNat (tyWidth t.toNat) p q, 0)) (rd a) (rd b))
  | .vmac d _ a _ b t => some (d, macRow t.toNat (rd a) (rd b) (rd d), 0)
  | .vcmp d _ a _ b c t => some (d, map2 t.toNat (eCmp t.toNat c.toNat) (rd a) (rd b))
  | .vsel d _ a _ b t => some (d, selectRow t.toNat (rd a) (rd b) (rd d), 0)
  | .vbcast d _ _ t => some (d, broadcastRow t.toNat x, 0)
  | .vperm d _ a _ b => some (d, permRow (rd a) (rd b), 0)
  | .vred d _ a _ k f t => some (d, reduceRow t.toNat f.toNat r (if k = 0 then none else some (rd k)[0].toNat) (rd a))
  | .vscan d _ a _ k f t => some (d, scanRow t.toNat f.toNat r (if k = 0 then none else some (rd k)[0].toNat) (rd a))
  | .vcvt d _ a _ g _ t => some (d, convertRow t.toNat g.toNat r (rd a))
  | .venc d _ a _ n => some (d, encodeRow (v.tabs[n.toNat]) (rd a))
  | .vdec d _ a _ n => some (d, decodeRow (v.tabs[n.toNat]) (rd a), 0)
  | .vflip d _ a _ b g => some (d, flipRow (tileAt v.m[g.toNat]) (rd a) (rd b))
  | .mmov g _ d c false m => some (d, sliceOf v.m[g.toNat] c ((x.toNat % 32 + m.toNat) % 32), 0)
  | _ => none

/-- Write a tile; its recorded row maxima go (R142, R148). -/
def VecRegs.setTile (d : BitVec 3) (m : Tile32) (v : VecRegs) : VecRegs :=
  { v with m := v.m.set d.toNat m, smx := v.smx.set d.toNat none }

/-- The 128 bytes of a row. -/
def rowBytes (r : Row) : List Byte := r.toList.flatMap fun x => toBytesLE 4 x.toNat

/-- The row that 128 scratchpad bytes hold. -/
def rowAtScratch (m : Memory) (a : Nat) : Row := Vector.ofFn fun i : Fin 32 => BitVec.ofNat 32 (m.num (a + 4 * i.val) 4)

/-- Pop the rings of a completed request. -/
def popRings (fmt : W64) (i : Instr) (s : State) : State :=
  ((ringNeeds fmt i).filter fun n => n.2.2).foldl (fun t n => t.modRing n.1 Ring.pop) s

/-- A completed MMA or MMAS: the tile, its flags, the pops. -/
def finishMma (i : Instr) (d : BitVec 3) (record : Bool) (y : Tile32 × FFlags) (s : State) : State × FFlags :=
  let note := fun (v : VecRegs) => if record then { v with smx := v.smx.set d.toNat (some (rowMaxima y.1)) } else v
  (popRings s.core.regs.vec.fmt i (s.modVec fun v => note (v.setTile d y.1)), y.2)

/-- The effect of a tile or matrix word, MFMT, MTAB and the tile predicates. -/
def tileEffect (e : VEntry) (rd : VReg → Row) (i : Instr) (s : State) : State × FFlags :=
  let v := s.core.regs.vec
  let fmt := v.fmt
  let mem := s.core.scratch
  let tabA := vget v.tabs (fmtATAB fmt) (Vector.replicate 256 0)
  let tabB := vget v.tabs (fmtBTAB fmt) (Vector.replicate 256 0)
  match i with
  | .mma d _ _ _ _ x r _ _ =>
    let a := slotsOf s fmt i
    finishMma i d x (mmaTile v fmt r v.m[d.toNat] (denseRows mem (a.getD 0 0) fmt tabA) (columnsOf mem (a.getD 1 0) fmt tabB)) s
  | .mmas d _ _ _ _ t _ _ _ =>
    let a := slotsOf s fmt i
    finishMma i d false (mmaTile v fmt false v.m[d.toNat] (sparseRows mem (a.getD 0 0) (a.getD 2 0) t.toNat fmt tabA)
      (columnsOf mem (a.getD 1 0) fmt tabB)) s
  | .mzero d _ _ => (s.modVec (VecRegs.setTile d (Vector.replicate 1024 0)), 0)
  | .mscale d _ _ =>
    let y := mscaleTile v v.m[d.toNat]
    (s.modVec (VecRegs.setTile d y.1), y.2)
  | .msm d g _ _ h =>
    match outType v fmt with
    | none => (s, 0)
    | some o =>
      let rows := msmRows o v v.m[d.toNat]
      let a := (s.ring g).slotAddr (msmSlot (s.ring g))
      let put := fun (t : State) (r : MsmRow × Nat) =>
        t.setScratch (a + (64 * r.2 + 32 * boolNat h) * o.bytes) (r.1.p.flatMap (toBytesLE o.bytes))
      let s := (rows.zipIdx.foldl put s).modVec (msmSides rows)
      (if h then s.modRing g (Ring.complete 0) else s, rows.foldl (fun f r => f ||| r.flags) 0)
  | .mld d _ _ _ t m => (s.modVec (VecRegs.setTile d (mldTile mem (tileAddr e.sval m).toNat t)), 0)
  | .mst d _ _ _ m =>
    let y := mstBytesOf (outType v fmt) v.m[d.toNat]
    (s.setScratch (tileAddr e.sval m).toNat y.1, y.2)
  | .mmov g _ r c true m =>
    (s.modVec (VecRegs.setTile g (setSlice c ((e.sval.toNat % 32 + m.toNat) % 32) (rd r) v.m[g.toNat])), 0)
  | .mfmt _ =>
    let sides := fun (v : VecRegs) => if fmtCLRS e.sval then
      { v with smax := Vector.replicate 32 0xFF800000, ssum := Vector.replicate 32 0, sfac := Vector.replicate 32 0x3F800000 } else v
    (s.modVec fun v => sides { v with fmt := fmtAfter i e.sval v.fmt }, 0)
  | .mtab t _ => (s.modVec fun v => { v with tabs := v.tabs.set t.toNat (tableOf e.image) }, 0)
  | .kld k _ => (s.modVec (VecRegs.setK k e.sval), 0)
  | .kop k _ a o =>
    let x := v.getK a
    let y := if o = 0 then x &&& e.sval else if o = 1 then x ||| e.sval else if o = 2 then x ^^^ e.sval else x &&& ~~~e.sval
    (s.modVec (VecRegs.setK k y), 0)
  | .vld d _ _ n => (s.modVec (VecRegs.setRow d (rowAtScratch mem (rowAddr e.sval n).toNat)), 0)
  | .vst d _ _ n => (s.setScratch (rowAddr e.sval n).toNat (rowBytes (rd d)), 0)
  | _ => (s, 0)

/-- THE EFFECT of a dispatched entry, with its flags. -/
def entryEffect (e : VEntry) (i : Instr) (s : State) : State × FFlags :=
  let v := s.core.regs.vec
  let rd := readRow v s.fresh
  match rowResult v rd (modeOf e.rm) e.sval i with
  | some (d, row, f) => (s.modVec (VecRegs.setRow d row), f)
  | none => tileEffect e rd i s

/-- The dispatched entry of the focused core completes. -/
def completeFlying (s : State) : State :=
  match s.core.flying with
  | none => s
  | some e =>
    let s0 := s.modCore fun c => { c with flying := none }
    match decode e.word with
    | .error _ => s0
    | .ok i =>
      let y := entryEffect e i s0
      let gone := fun (v : VecRegs) => { v with vgone := freedAfter i v.vgone }
      ((y.1.useFresh.modVec gone).orFlags e.ctx y.2)

/-- VECTOR_ENTRY_COMPLETE. -/
def execVectorEntryComplete (core : Nat) (s : State) : Result := .next (s.onCore core completeFlying)

/-! Repeat frames (R153–R155, R389, R390) -/

/-- Bits 13:0 of the REP: VS, MS, GS, LS. -/
def strideVS (st : Nat) : Nat := bitsOf st 13 9
def strideMS (st : Nat) : Nat := bitsOf st 8 6
def strideGS (st : Nat) : Nat := bitsOf st 5 3
def strideLS (st : Nat) : Nat := bitsOf st 2 0

/-- Stagger(word, s): step × stride is added to vector register, tile, ring and slice fields (R153, R334). -/
def stagger (st step : Nat) (i : Instr) : Instr :=
  let v := fun (r : VReg) => r + BitVec.ofNat 5 (step * strideVS st)
  let m := fun (r : BitVec 3) => r + BitVec.ofNat 3 (step * strideMS st)
  let g := fun (r : BitVec 3) => r + BitVec.ofNat 3 (step * strideGS st)
  let n := fun (r : BitVec 5) => r + BitVec.ofNat 5 (step * strideLS st)
  match i with
  | .vadd d l a k b r t => .vadd (v d) l (v a) k (v b) r t
  | .vsub d l a k b r t => .vsub (v d) l (v a) k (v b) r t
  | .vmul d l a k b r t => .vmul (v d) l (v a) k (v b) r t
  | .vfma d l a k b r t => .vfma (v d) l (v a) k (v b) r t
  | .vmax d l a k b t => .vmax (v d) l (v a) k (v b) t
  | .vmin d l a k b t => .vmin (v d) l (v a) k (v b) t
  | .vabs d l a k t => .vabs (v d) l (v a) k t
  | .vneg d l a k t => .vneg (v d) l (v a) k t
  | .vrcp d l a k r t => .vrcp (v d) l (v a) k r t
  | .vrsq d l a k r t => .vrsq (v d) l (v a) k r t
  | .vexp d l a k t => .vexp (v d) l (v a) k t
  | .vlog d l a k b o t => .vlog (v d) l (v a) k (if o = 4 then b else v b) o t
  | .vsh d l a k b o t => .vsh (v d) l (v a) k (v b) o t
  | .vmac d l a k b t => .vmac (v d) l (v a) k (v b) t
  | .vcmp d l a k b c t => .vcmp (v d) l (v a) k (v b) c t
  | .vsel d l a k b t => .vsel (v d) l (v a) k (v b) t
  | .vld d l x j => .vld (v d) l x j
  | .vst d l x j => .vst (v d) l x j
  | .vgath d l x b t => .vgath (v d) l x (v b) t
  | .vscat d l x b t => .vscat (v d) l x (v b) t
  | .vbcast d l x t => .vbcast (v d) l x t
  | .vperm d l a k b => .vperm (v d) l (v a) k (v b)
  | .vred d l a k q f t => .vred (v d) l (v a) k q f t
  | .vscan d l a k q f t => .vscan (v d) l (v a) k q f t
  | .vcvt d l a k q r t => .vcvt (v d) l (v a) k q r t
  | .venc d l a k q => .venc (v d) l (v a) k q
  | .vdec d l a k q => .vdec (v d) l (v a) k q
  | .vflip d l a k b q => .vflip (v d) l (v a) k (v b) (m q)
  | .mma d a b k j x r p q => .mma (m d) (g a) (g b) k j x r p q
  | .mzero d k j => .mzero (m d) k j
  | .mscale d k j => .mscale (m d) k j
  | .msm d a k j h => .msm (m d) (g a) k j h
  | .mmas d a b k j t q p z => .mmas (m d) (g a) (g b) k j t (g q) p z
  | .mld d x k j t q => .mld (m d) x k j t q
  | .mst d x k j q => .mst (m d) x k j q
  | .mmov t x r c d q => .mmov (m t) x (v r) c d (n q)
  | i => i

/-- A word of the vector, matrix and tile classes (R153). -/
def frameWord (w : W32) : Bool := decide (0x30 ≤ wordOp w ∧ wordOp w ≤ 0x37)

/-- The words of a body, fetched at the REP. -/
def fetchBody (pc : W64) : Nat → State → Except Stop (List W32 × State)
  | 0, s => .ok ([], s)
  | n + 1, s =>
    match fetchWord s pc with
    | .error e => .error e
    | .ok (w, s1) =>
      match fetchBody (pc + 4) n s1 with
      | .error e => .error e
      | .ok (ws, s2) => .ok (w :: ws, s2)

/-- REP (R389, R390): it waits while a frame has a step left. Log entry 56 (DEDUCED). Log entry 73 (DEDUCED). -/
def execRep (c : BitVec 4) (n : BitVec 8) (x : BitVec 14) (s : State) : Result :=
  let pc := s.ctx.pc
  let count := c.toNat + 1
  finish s (match notHelper s (encode (.rep c n x)) with
    | .error e => .error e
    | .ok _ =>
      if s.isHandler && frameActive s.core.regs.frame.word then raise 0x34 0 0
      else if frameActive s.core.regs.frame.word then wait .frameActive
      else match fetchBody (pc + 4) count s with
        | .error e => .error e
        | .ok (ws, s1) =>
          match ws.findIdx? fun w => !frameWord w with
          | some k => raise 0x34 0 (BitVec.ofNat 64 k)
          | none =>
            let npc := pc + 4 + BitVec.ofNat 64 (4 * count)
            let f : Frame :=
              { word := BitVec.ofNat 64 (c.toNat * 2 ^ 12 + n.toNat * 2 ^ 16 + 2 ^ 24 + x.toNat * 2 ^ 32), base := addrBits (pc + 4),
                pc := addrBits npc, body := ws, ctx := s.core.cur, fault := none }
            .ok ((s1.modFrame fun _ => f).retireTo npc))

/-- The body word that the frame dispatches next: captured, or fetched again after an MTS of the frame registers. -/
def bodyWord (s : State) : Except Stop (W32 × State) :=
  let f := s.core.regs.frame
  match f.body[frameIndex f.word]? with
  | some w => .ok (w, s)
  | none => fetchWord s (f.base + BitVec.ofNat 64 (4 * frameIndex f.word))

/-- The step of the frame of the focused core, issued by its context, which is `cur`. -/
def frameIssue (s : State) : Except Stop State :=
  let f := s.core.regs.frame
  let pc := f.base + BitVec.ofNat 64 (4 * frameIndex f.word)
  match bodyWord s with
  | .error e => .error e
  | .ok (w, s1) =>
    if !frameWord w then raise 0x34 0 (BitVec.ofNat 64 (frameIndex f.word))
    else
      let r := match decode w with
        | .error _ => illegalIssue w pc (some f) s1
        | .ok i =>
          let j := stagger (bitsOf f.word.toNat 45 32) (frameStep f.word) i
          issueWord j ((encode j).getD w) pc (some f) s1
      r.map fun t => (t.modFrame fun f => { f with word := frameAdvance f.word, fault := none }).modCtx fun c => { c with instret := c.instret + 1 }

/-- The frame's context may dispatch: it is live, no trap of the frame or of the head is unserved, and no interrupt has
stopped it (R155, R390). -/
def frameMay (c : Core) : Bool :=
  let i := c.regs.frame.ctx
  let u := c.trap
  let mine := fun (r : TrapRec) => r.ctx == i && (r.frame.isSome || r.qhead)
  frameActive c.regs.frame.word && (c.ctxs[i]).live && !u.halted && !c.bridled && !(u.pendTraps.any mine) &&
    (match u.service with
      | .none => true
      | .trap r => !mine r
      | .intr _ => i == handlerIx) &&
    (i == handlerIx || u.pendIntrs.isEmpty || c.exch.isSome)

/-- Act as the frame's context. -/
def asFrameCtx {α : Type} (f : State → α) (s : State) : α := f (s.modCore fun c => { c with cur := c.regs.frame.ctx })

/-- Entries of the frame's context have not completed: a trap of one of them comes before that of a later step (R155, R278). -/
def earlierEntries (s : State) : Bool := s.core.hasEntry s.core.regs.frame.ctx

/-- A step of the frame can be dispatched, or raises its trap. -/
def frameDue (s : State) : Bool :=
  frameMay s.core && asFrameCtx (fun t => match frameIssue t with
    | .ok _ => true
    | .error (.block _) => false
    | .error (.trap x) =>
      if trapClass x.code = .replayable then !(t.dieAt t.die).faults.contains (t.core.tenant, pageOf x.addr) else !earlierEntries t) s

/-- Dispatch one step of the focused core's frame; a replayable fault leaves it where it stands (R284), and a trap waits until the
context's earlier entries have completed (R155). -/
def stepFrame (s : State) : State :=
  let i := s.core.regs.frame.ctx
  let f := s.core.regs.frame
  let back := fun (t : State) => t.modCore fun c => { c with cur := s.core.cur }
  match asFrameCtx frameIssue s with
  | .ok t => returnHeld i (back t)
  | .error (.block _) => s
  | .error (.trap x) =>
    let epc := f.base + BitVec.ofNat 64 (4 * frameIndex f.word)
    let stat := frameStat (frameStep f.word) x.stat
    if earlierEntries s && trapClass x.code != .replayable then s
    else match trapClass x.code with
    | .replayable =>
      (s.modFrame fun y => { y with fault := some (x.addr, stat) }).modDie s.die (noteFault (tidOf s.coreId i) s.core.tenant x.addr epc stat)
    | .fatal => if i = handlerIx then doubleFaultOf x.code s else endFatal i x.code x.addr epc stat s
    | .handled => frameTrap i f (some f.word) x false s

/-- FRAME_STEP_DISPATCH. -/
def execFrameStepDispatch (core : Nat) (s : State) : Result :=
  .next (s.onCore core fun t => if frameMay t.core then stepFrame t else t)

end Sys2Proof.Machine
end

