-- ==== Sys2Proof/Machine/Lost.lean ====
section
/-!
DEFINITION. Lost responses: requests sent again, the traps of those whose instruction waits, and the ends of those with no waiting
instruction (R294, R339, R428).
-/
namespace Sys2Proof.Machine

/-! Lost responses (R294). Log entry 28 (DEDUCED). -/

/-- A request of an instruction whose answer comes in the step that issues it: what runs it, the address it names, whether it is
idempotent, and whether it leaves the core. -/
structure Request where
  run : State → Result
  addr : State → W64
  idem : Bool
  leaves : Bool

/-- The value of a scalar source. -/
def sourceOf (a : SReg) (l : Bool) (s : State) : W64 :=
  match operands s [⟨a, l⟩] [] with
  | .ok (vs, _) => val0 vs
  | .error _ => 0

/-- An idempotent read at an address, a request at an address with an effect, one that names none, and one to the core's own queue. -/
def readRequest (run : State → Result) (addr : State → W64) : Request := { run := run, addr := addr, idem := true, leaves := true }
def actRequest (run : State → Result) (addr : State → W64) : Request := { run := run, addr := addr, idem := false, leaves := true }
def unitRequest (run : State → Result) : Request := actRequest run fun _ => 0
def ownRequest (run : State → Result) : Request := { unitRequest run with leaves := false }

/-- The first word of a repeat frame's body whose fetch sends a request, or waits to (R389). -/
def bodyRequest (s : State) : Nat → W64 → W64
  | 0, pc => pc
  | n + 1, pc =>
    match fetchWord s pc with
    | .error _ => pc
    | .ok (_, t) => if t.core.msgSent != s.core.msgSent then pc else bodyRequest t n (pc + 4)

/-- The first UNHITCH.PKG of a QUIT, where a harness register holds a valid handle (R75). Log entry 28 (DEDUCED). -/
def quitRequest (s : State) : Result :=
  match allHarness.find? fun h => handleValid s.ctx.h[h.toNat] with
  | none => .next s
  | some h => if s.isHandler || (s.isControl && !(liveHelpers s.core).isEmpty) then .next s else .next (leaveTeam h 4 State.retire s)

/-- The request of an instruction (R294, R339, R428). -/
def requestOf : Instr → Option Request
  | .ld d l a z g i => some (readRequest (execLd d l a z g i) fun s => dispAddr (sourceOf a l s) i (sizeBytes z))
  | .lda d l a z g i => some (readRequest (execLda d l a z g i) fun s => dispAddr (sourceOf a l s) i (sizeBytes z))
  | .ldsumF32 d l a i => some (readRequest (execLdsumF32 d l a i) fun s => dispAddr (sourceOf a l s) i 4)
  | .ldsumF64 d l a i => some (readRequest (execLdsumF64 d l a i) fun s => dispAddr (sourceOf a l s) i 8)
  | .ldsumI64 d l a i => some (readRequest (execLdsumI64 d l a i) fun s => dispAddr (sourceOf a l s) i 8)
  | .mtab t a => some (readRequest (execMtab t a) (sourceOf a false))
  | .tinfo h d l => some (readRequest (execTinfo h d l) fun _ => 0)
  | .wcnt d l m n => some (readRequest (execWcnt d l m n) fun _ => 0)
  | .amo d l a m b w z o => some (actRequest (execAmo d l a m b w z o) (sourceOf a l))
  | .amof d l a m b t o => some (actRequest (execAmof d l a m b t o) (sourceOf a l))
  | .hitch h l a m b => some (unitRequest (execHitch h l a m b))
  | .unhitch h l c => some (unitRequest (execUnhitch h l c))
  | .tarr h l c => some (unitRequest (execTarr h l c))
  | .tdrop h l => some (unitRequest (execTdrop h l))
  | .tbar h d l c => some (unitRequest (execTbar h d l c))
  | .tvote h d l a o c => some (unitRequest (execTvote h d l a o c))
  | .tred h d l a t o c => some (unitRequest (execTred h d l a t o c))
  | .twait h d l => some (unitRequest (execTwait h d l))
  | .wsteal d l a m p n => some (unitRequest (execWsteal d l a m p n))
  | .chput p l a m c => some (unitRequest (execChput p l a m c))
  | .chget d p m c => some (unitRequest (execChget d p m c))
  | .subs p l a g => some (unitRequest (execSubs p l a g))
  | .unsubs l a => some (unitRequest (execUnsubs l a))
  | .launch d l a m p => some (unitRequest (execLaunch d l a m p))
  | .wpop d l a m p => some (ownRequest (execWpop d l a m p))
  | .wpush p l a m => some (ownRequest (execWpush p l a m))
  | .wpushOrd p l a m => some (ownRequest (execWpushOrd p l a m))
  | .quit _ _ => some (unitRequest quitRequest)
  | .rep c n x => some (readRequest (execRep c n x) fun s => bodyRequest s (c.toNat + 1) (s.ctx.pc + 4))
  | _ => none

/-- The trap of a lost response: the address of the request, and whether it may have executed (R283, R294). -/
def lostTrap (addr : W64) (idem : Bool) : Trap := { code := 0x1D, addr := addr, stat := if idem then 0 else 1 }

/-- The word at the context's program counter, and whether fetching it sends a request. -/
def fetchedWord (s : State) : Option (W32 × Bool) :=
  match fetchWord s s.ctx.pc with
  | .error _ => none
  | .ok (w, t) => some (w, t.core.msgSent != s.core.msgSent)

/-- What a lost answer leaves of a completed request: what it did at its home, and what its release drained (R183), with nothing else of the
issuing context, its queues and its scratchpad changed. -/
def answerLost (s t : State) : State :=
  t.modCore fun c => { c with
    ctxs := c.ctxs.set s.core.cur { s.ctx with buf := t.ctx.buf, log := t.ctx.log }, regs := { c.regs with q := s.core.regs.q }, scratch := s.core.scratch,
    badScratch := s.core.badScratch, ordf := s.core.ordf }

/-- The next request of the focused context, or its fetch, has no answer: the context takes the trap at its instruction, `done` saying
whether the request had its effect. -/
def loseRequest (done : Bool) (s : State) : State :=
  match fetchedWord s with
  | none => s
  | some (_, true) => takeTrap (lostTrap s.ctx.pc true) s
  | some (w, false) =>
    match (decode w).toOption.bind requestOf with
    | none => s
    | some r =>
      match r.run s with
      | .next t =>
        if (t.core.msgSent != s.core.msgSent || !r.leaves) && t.ctx.instret != s.ctx.instret then
          takeTrap (lostTrap (r.addr s) r.idem) (if done && !r.idem then answerLost s t else s)
        else s
      | _ => s

/-- The trap of a request whose instruction waits to be issued again, with no path, layer or refresh group open to it. -/
def heldTrap (s : State) : Option Trap :=
  match fetchWord s s.ctx.pc with
  | .error (.block _) => some (lostTrap s.ctx.pc true)
  | .error (.trap _) => none
  | .ok (w, _) => match (decode w).toOption.bind requestOf with
    | some r => some (lostTrap (r.addr s) r.idem)
    | none => some (lostTrap 0 false)

/-- The focused context's mark request that waits for its answer, and the state with it lost on its way or at its home. -/
def withdrawMark (s : State) : Option MarkMsg × State :=
  let mine := fun (m : MarkMsg) => m.awaited s.core.cur s.core.tag
  let held := s.pkg.markRuns.flatMap fun r => (r.held.filter fun h => h.1 == s.coreId && mine h.2.1).map (·.2.1)
  let queued := s.core.markQ.filter mine
  ((queued ++ held).head?,
   (s.modCore fun c => { c.received queued.length with markQ := c.markQ.filter fun m => !mine m }).modPkg fun p => { p with
     markRuns := p.markRuns.map fun r => { r with held := r.held.filter fun h => !(h.1 == s.coreId && mine h.2.1) } })

/-- Its reduction that waits for an answer. -/
def withdrawReduction (s : State) : Option RedReq × State :=
  let mine := fun (r : RedReq) => r.core == s.coreId && r.ctx == s.core.cur && r.gang == s.core.tag && r.answer
  ((s.pkg.stackUnits.toList.flatMap fun k => k.switch.filter mine).head?,
   (s.modCore (Core.received (s.pkg.stackUnits.toList.map fun k => (k.switch.filter mine).length).sum)).modPkg fun p => { p with
     stackUnits := p.stackUnits.map fun k => { k with switch := k.switch.filter fun r => !mine r } })

/-- Its team home sends it no completion any more; the arrival stands. -/
def withdrawTeam (slot : BitVec 14) (s : State) : State :=
  s.modPkg fun p => { p with
    teams := mapIf (fun e => e.slot == slot) (TeamEntry.modMember s.tid s.core.tag fun m => { m with waiting := false }) p.teams
    teamDone := p.teamDone.filter fun d => !(d.tid == s.tid && d.gang == s.core.tag) }

/-- Its SYNC arrival, where the window has not applied: the entries go back to the log, to be drained again. -/
def withdrawSync (s : State) : State :=
  let g := s.core.gang.getD 0
  let own := fun (c : Contribution) => c.core == s.coreId && c.gang == g && c.ord.isNone
  match s.core.arrivals.find? (fun a => a.gang == g) with
  | some a => returnEntries a.contrib g (s.modCore fun c => { c.received 1 with arrivals := c.arrivals.filter fun x => x.gang != g })
  | none =>
    let open_ := fun (x : Superstep) => x.gang == g && !x.applied && (x.arrived.map (·.1)).contains s.coreId
    let cs := (s.pkg.steps.filter open_).flatMap fun x => x.contribs.filter own
    let out := fun (x : Superstep) => { x with arrived := x.arrived.filter (fun m => m.1 != s.coreId), contribs := x.contribs.filter fun c => !own c }
    cs.foldl (fun t c => returnEntries c g t) (s.modPkg fun p => { p with steps := mapIf open_ out p.steps })

/-- A context that waits for an answer takes the trap, and no answer of that request comes any more; a push gives back its reservation
of PARKED (R257). -/
def loseWait (s0 : State) : State :=
  let s := giveBack s0
  match s.ctx.wait with
  | .push _ d _ _ => takeTrap (lostTrap (descCTR d) false) (dropPush s.core.cur (s.modCore fun c => { c with parked := c.parked - 1 }))
  | .mark .. =>
    let x := withdrawMark s
    takeTrap (lostTrap (match x.1 with | some m => BitVec.ofNat 64 (bitsOf m.op.addr.toNat 31 0) | none => 0) true) x.2
  | .reduction .. =>
    let x := withdrawReduction s
    takeTrap (lostTrap (match x.1 with | some r => r.va | none => 0) false) x.2
  | .team slot .. => takeTrap (lostTrap 0 false) (withdrawTeam slot s)
  | .sync => takeTrap (lostTrap 0 false) (withdrawSync s)
  | .remote => takeTrap (lostTrap 0 false) s
  | _ => match heldTrap s with
    | some t => takeTrap t s
    | none => s

/-- A wait for an answer of a home, a unit or a switch. -/
def Wait.answered : Wait → Bool
  | .sync | .team .. | .mark .. | .reduction .. | .refresh .. | .layer .. | .unit .. | .remote | .push .. => true
  | .path _ write => !write
  | _ => false

/-- The first request with no waiting instruction of a context at an address that has not reached its home is lost there: a deposit or
tick request, a RED, or drained bytes. -/
def dropOrphan (core : Nat) (gang : Half) (i : Fin 12) (addr : W64) (s : State) : State :=
  let mark := fun (m : MarkMsg) => m.ctx == i && m.gang == gang && !m.op.answered && m.op.addr == addr && (match m.op with
    | .notice .. => false
    | _ => true)
  let red := fun (r : RedReq) => r.core == core && r.ctx == i && r.gang == gang && !r.answer && r.va == addr
  let bytes := fun (c : Contribution) => c.core == core && c.ctx == i && c.gang.setWidth 16 == gang
  let word := fun (e : WinEntry) => e.entry.word == addr.toNat / 8
  let got := tagTaken core gang
  match (s.coreAt core).markQ.find? mark, s.pkg.reds.find? red, s.pkg.stackUnits.toList.any fun k => k.switch.any red with
  | some m, _, _ => got (s.modCoreAt core fun c => { c with markQ := removeOne m c.markQ })
  | none, some r, _ => got (s.modPkg fun p => { p with reds := removeOne r p.reds })
  | none, none, true => got (s.modPkg fun p => { p with stackUnits := p.stackUnits.map fun k =>
      { k with switch := match k.switch.find? red with | some r => removeOne r k.switch | none => k.switch } })
  | none, none, false => closeWindows (s.modPkg fun p => { p with
      inFlight := (mapIf bytes (fun c => { c with entries := c.entries.filter fun e => !word e }) p.inFlight).filter fun c => !c.entries.isEmpty })

/-- A request with no waiting instruction is lost: its sender ends, or, when it has ended already, the record is written alone and the
gang's STATUS is 1 (R285, R294). -/
def loseOrphan (core : Nat) (gang : Half) (i : Fin 12) (addr : W64) (s : State) : State :=
  let s := dropOrphan core gang i addr s
  if i = handlerIx || threadLive s core gang i then endThread core gang i 0x1D addr 1 s
  else
    let s := s.modPkg fun p => { p with
      gangs := mapIf (fun x => x.num.setWidth 16 == gang && x.cores.contains core) (fun x => { x with status := if x.status = 0 then 1 else x.status }) p.gangs }
    s.modDie (dieOfCore core) (tqPut { seq := 0, tid := BitVec.ofNat 16 (tidOf core i), tenant := (s.coreAt core).tenant, kind := 3,
                                       code := 0x1D, addr := addr, epc := 0, stat := 1 })

/-- LOST_RESPONSE: sent again and answered; a trap of the waiting instruction; the end of the sender, or its record alone (R294). -/
def execLostResponse (core : Nat) (ctx : Fin 12) (k : LostKind) (s : State) : Result :=
  .next (match k with
    | .resend => s.modCoreAt core fun c => (c.sent 1).received 1
    | .waiting done =>
      let c := (s.coreAt core).ctxs[ctx]
      if !c.live then s
      else if c.wait.answered then s.onCtx core ctx loseWait
      else if c.wait = .ready then s.onCtx core ctx (loseRequest done)
      else s
    | .orphan gang addr => loseOrphan core gang ctx addr s)

end Sys2Proof.Machine
end

