-- ==== Sys2Proof/Machine/ScalarInt.lean ====
section
/-!
DEFINITION. The scalar integer, immediate, compare, select, bit-field and branch instructions
(R341, R342, R345, R346, R348, R360, R367, R385, R386, R391).
-/
namespace Sys2Proof.Machine

/-- A scalar instruction: operands, one result, retire. -/
def scalarOp (d : SReg) (srcs : List Src) (f : List W64 → W64) (s : State) : Result :=
  finish s (match operands s srcs [d] with
    | .error e => .error e
    | .ok (vs, s1) => .ok (s1.writeS d (f vs)).retire)

/-- The same with a predicate result. -/
def predicateOp (p : PReg) (srcs : List Src) (f : List W64 → Bool) (s : State) : Result :=
  finish s (match operands s srcs [] with
    | .error e => .error e
    | .ok (vs, s1) => .ok (s1.writeP p (f vs)).retire)

/-- An instruction of format 3R with two sources. -/
def binaryOp (d : SReg) (l : Bool) (a : SReg) (m : Bool) (b : SReg) (f : W64 → W64 → W64) : State → Result :=
  scalarOp d [⟨a, l⟩, ⟨b, m⟩] fun vs => f (val0 vs) (val1 vs)

/-- An instruction of format I. -/
def unaryOp (d : SReg) (l : Bool) (a : SReg) (f : W64 → W64) : State → Result :=
  scalarOp d [⟨a, l⟩] fun vs => f (val0 vs)

/-! The operations of R341 -/

/-- Signed quotient, truncated; a zero divisor gives all ones, and −2^63 ÷ −1 wraps (R341). -/
def divS (x y : W64) : W64 := if y = 0 then BitVec.allOnes 64 else x.sdiv y
def divU (x y : W64) : W64 := if y = 0 then BitVec.allOnes 64 else x / y
def remS (x y : W64) : W64 := if y = 0 then x else x.srem y
def remU (x y : W64) : W64 := if y = 0 then x else x % y
def mulhS (x y : W64) : W64 := BitVec.ofInt 64 (x.toInt * y.toInt / 2 ^ 64)
def mulhU (x y : W64) : W64 := BitVec.ofNat 64 (x.toNat * y.toNat / 2 ^ 64)
def minS (x y : W64) : W64 := if x.slt y then x else y
def minU (x y : W64) : W64 := if x.ult y then x else y
def maxS (x y : W64) : W64 := if x.slt y then y else x
def maxU (x y : W64) : W64 := if x.ult y then y else x
/-- The number of bits of a number below 2^n. -/
def bitLength : Nat → Nat → Nat
  | 0, _ => 0
  | n + 1, x => if x / 2 ^ n % 2 = 1 then n + 1 else bitLength n x
def clz64 (x : W64) : W64 := BitVec.ofNat 64 (64 - bitLength 64 x.toNat)
def countOnes : Nat → Nat → Nat
  | 0, _ => 0
  | n + 1, x => x % 2 + countOnes n (x / 2)
def popc64 (x : W64) : W64 := BitVec.ofNat 64 (countOnes 64 x.toNat)
/-- A shift amount: bits 5:0 (R341). -/
def shamt (x : W64) : Nat := x.toNat % 64
def imm13 (i : BitVec 13) : W64 := i.signExtend 64

/-- The conditions of R324. -/
def condHolds (c : BitVec 3) (x y : W64) : Bool :=
  match c.toNat with
  | 0 => x == y
  | 1 => x != y
  | 2 => x.slt y
  | 3 => y.sle x
  | 4 => x.sle y
  | 5 => y.slt x
  | 6 => x.ult y
  | _ => y.ule x

/-- The operations of PLOG (R386). -/
def plogOf (o : BitVec 3) (x y : Bool) : Bool :=
  match o.toNat with
  | 0 => x && y
  | 1 => x || y
  | 2 => x != y
  | 3 => x && !y
  | 4 => x || !y
  | _ => x == y

/-- Bits pos + width − 1 : pos, width − 1 being coded (R345). -/
def bfxOf (sign : Bool) (w p : BitVec 6) (x : W64) : W64 :=
  let f := x.toNat / 2 ^ p.toNat % 2 ^ (w.toNat + 1)
  if sign && f / 2 ^ w.toNat == 1 then BitVec.ofNat 64 (f + 2 ^ 64 - 2 ^ (w.toNat + 1)) else BitVec.ofNat 64 f
def bfiOf (w p : BitVec 6) (old x : W64) : W64 :=
  let mask := BitVec.ofNat 64 ((2 ^ (w.toNat + 1) - 1) * 2 ^ p.toNat)
  (old &&& ~~~mask) ||| ((x <<< p.toNat) &&& mask)

/-- imm20 : 0x000, sign-extended (R325). -/
def upper (i : BitVec 20) : W64 := (i ++ (0 : BitVec 12)).signExtend 64

/-- ADD (R341). -/
def execAdd (d : SReg) (l : Bool) (a : SReg) (m : Bool) (b : SReg) : State → Result :=
  binaryOp d l a m b fun x y => x + y

/-- SUB (R341). -/
def execSub (d : SReg) (l : Bool) (a : SReg) (m : Bool) (b : SReg) : State → Result :=
  binaryOp d l a m b fun x y => x - y

/-- AND (R341). -/
def execAnd (d : SReg) (l : Bool) (a : SReg) (m : Bool) (b : SReg) : State → Result :=
  binaryOp d l a m b fun x y => x &&& y

/-- OR (R341). -/
def execOr (d : SReg) (l : Bool) (a : SReg) (m : Bool) (b : SReg) : State → Result :=
  binaryOp d l a m b fun x y => x ||| y

/-- XOR (R341). -/
def execXor (d : SReg) (l : Bool) (a : SReg) (m : Bool) (b : SReg) : State → Result :=
  binaryOp d l a m b fun x y => x ^^^ y

/-- SHL (R341). -/
def execShl (d : SReg) (l : Bool) (a : SReg) (m : Bool) (b : SReg) : State → Result :=
  binaryOp d l a m b fun x y => x <<< shamt y

/-- SHR (R341). -/
def execShr (d : SReg) (l : Bool) (a : SReg) (m : Bool) (b : SReg) : State → Result :=
  binaryOp d l a m b fun x y => x >>> shamt y

/-- SHR.S (R341). -/
def execShrS (d : SReg) (l : Bool) (a : SReg) (m : Bool) (b : SReg) : State → Result :=
  binaryOp d l a m b fun x y => x.sshiftRight (shamt y)

/-- MUL (R341). -/
def execMul (d : SReg) (l : Bool) (a : SReg) (m : Bool) (b : SReg) : State → Result :=
  binaryOp d l a m b fun x y => x * y

/-- MULH (R341). -/
def execMulh (d : SReg) (l : Bool) (a : SReg) (m : Bool) (b : SReg) : State → Result :=
  binaryOp d l a m b fun x y => mulhS x y

/-- MULH.U (R341). -/
def execMulhU (d : SReg) (l : Bool) (a : SReg) (m : Bool) (b : SReg) : State → Result :=
  binaryOp d l a m b fun x y => mulhU x y

/-- DIV (R341). -/
def execDiv (d : SReg) (l : Bool) (a : SReg) (m : Bool) (b : SReg) : State → Result :=
  binaryOp d l a m b fun x y => divS x y

/-- DIV.U (R341). -/
def execDivU (d : SReg) (l : Bool) (a : SReg) (m : Bool) (b : SReg) : State → Result :=
  binaryOp d l a m b fun x y => divU x y

/-- REM (R341). -/
def execRem (d : SReg) (l : Bool) (a : SReg) (m : Bool) (b : SReg) : State → Result :=
  binaryOp d l a m b fun x y => remS x y

/-- REM.U (R341). -/
def execRemU (d : SReg) (l : Bool) (a : SReg) (m : Bool) (b : SReg) : State → Result :=
  binaryOp d l a m b fun x y => remU x y

/-- MIN (R341). -/
def execMin (d : SReg) (l : Bool) (a : SReg) (m : Bool) (b : SReg) : State → Result :=
  binaryOp d l a m b fun x y => minS x y

/-- MIN.U (R341). -/
def execMinU (d : SReg) (l : Bool) (a : SReg) (m : Bool) (b : SReg) : State → Result :=
  binaryOp d l a m b fun x y => minU x y

/-- MAX (R341). -/
def execMax (d : SReg) (l : Bool) (a : SReg) (m : Bool) (b : SReg) : State → Result :=
  binaryOp d l a m b fun x y => maxS x y

/-- MAX.U (R341). -/
def execMaxU (d : SReg) (l : Bool) (a : SReg) (m : Bool) (b : SReg) : State → Result :=
  binaryOp d l a m b fun x y => maxU x y

/-- CLZ; L2 stands beside a field that names no source (R341, R323). -/
def execClz (d : SReg) (l : Bool) (a : SReg) (_ : Bool) : State → Result :=
  unaryOp d l a fun x => clz64 x

/-- POPC; L2 stands beside a field that names no source (R341, R323). -/
def execPopc (d : SReg) (l : Bool) (a : SReg) (_ : Bool) : State → Result :=
  unaryOp d l a fun x => popc64 x

/-- ADDI (R342). -/
def execAddi (d : SReg) (l : Bool) (a : SReg) (i : BitVec 13) : State → Result :=
  unaryOp d l a fun x => x + imm13 i

/-- ANDI (R342). -/
def execAndi (d : SReg) (l : Bool) (a : SReg) (i : BitVec 13) : State → Result :=
  unaryOp d l a fun x => x &&& imm13 i

/-- ORI (R342). -/
def execOri (d : SReg) (l : Bool) (a : SReg) (i : BitVec 13) : State → Result :=
  unaryOp d l a fun x => x ||| imm13 i

/-- XORI (R342). -/
def execXori (d : SReg) (l : Bool) (a : SReg) (i : BitVec 13) : State → Result :=
  unaryOp d l a fun x => x ^^^ imm13 i

/-- SHLI (R342). -/
def execShli (d : SReg) (l : Bool) (a : SReg) (k : BitVec 6) : State → Result :=
  unaryOp d l a fun x => x <<< k.toNat

/-- SHRI (R342). -/
def execShri (d : SReg) (l : Bool) (a : SReg) (k : BitVec 6) : State → Result :=
  unaryOp d l a fun x => x >>> k.toNat

/-- SHRI.S (R342). -/
def execShriS (d : SReg) (l : Bool) (a : SReg) (k : BitVec 6) : State → Result :=
  unaryOp d l a fun x => x.sshiftRight k.toNat

/-- CMP (R348). -/
def execCmp (p : PReg) (l : Bool) (a : SReg) (m : Bool) (b : SReg) (c : BitVec 3) : State → Result :=
  predicateOp p [⟨a, l⟩, ⟨b, m⟩] fun vs => condHolds c (val0 vs) (val1 vs)

/-- CMPI has no last-use bit: a queue source peeks (R348). -/
def execCmpi (p : PReg) (c : BitVec 3) (a : SReg) (i : BitVec 13) : State → Result :=
  predicateOp p [⟨a, false⟩] fun vs => condHolds c (val0 vs) (imm13 i)

/-- SEL reads both sources (R391). -/
def execSel (d : SReg) (l : Bool) (a : SReg) (m : Bool) (b : SReg) (n : Bool) (q : PReg) (s : State) : Result :=
  scalarOp d [⟨a, l⟩, ⟨b, m⟩] (fun vs => if s.ctx.getP q != n then val0 vs else val1 vs) s

/-- PLOG; L bits are ignored (R386). -/
def execPlog (d : PReg) (_ : Bool) (a : PReg) (_ : Bool) (b : PReg) (o : BitVec 3) (s : State) : Result :=
  .next (s.writeP d (plogOf o (s.ctx.getP a) (s.ctx.getP b))).retire

/-- BFX (R345). -/
def execBfx (d : SReg) (l : Bool) (a : SReg) (g : Bool) (w p : BitVec 6) : State → Result :=
  unaryOp d l a fun x => bfxOf g w p x

/-- BFI reads sd as a third source (R345). -/
def execBfi (d : SReg) (l : Bool) (a : SReg) (w p : BitVec 6) : State → Result :=
  scalarOp d [⟨a, l⟩, ⟨d, false⟩] fun vs => bfiOf w p (val1 vs) (val0 vs)

/-- LIH (R367). -/
def execLih (d : SReg) (i : BitVec 20) : State → Result := scalarOp d [] fun _ => upper i

/-- PCREL (R385). -/
def execPcrel (d : SReg) (i : BitVec 20) (s : State) : Result := scalarOp d [] (fun _ => s.ctx.pc + upper i) s

/-- PC + 4 × SignExt(offset) (R325). -/
def branchTarget {n : Nat} (pc : W64) (o : BitVec n) : W64 := pc + 4 * o.signExtend 64

/-- BR (R346). -/
def execBr (p : PReg) (n : Bool) (o : BitVec 21) (s : State) : Result :=
  .next (s.retireTo (if s.ctx.getP p != n then branchTarget s.ctx.pc o else s.ctx.pc + 4))

/-- JAL (R360). -/
def execJal (d : SReg) (o : BitVec 20) (s : State) : Result :=
  finish s (match operands s [] [d] with
    | .error e => .error e
    | .ok (_, s1) => .ok ((s1.writeS d (s.ctx.pc + 4)).retireTo (branchTarget s.ctx.pc o)))

/-- JR reads sa before it writes sd; a target that is no multiple of 4 traps (R360, R320). -/
def execJr (d : SReg) (l : Bool) (a : SReg) (_ : Bool) (s : State) : Result :=
  finish s (match operands s [⟨a, l⟩] [d] with
    | .error e => .error e
    | .ok (vs, s1) =>
      if (val0 vs).toNat % 4 ≠ 0 then raise 0x02 (val0 vs) 0
      else .ok ((s1.writeS d (s.ctx.pc + 4)).retireTo (val0 vs)))

/-- A hint retires and has no other effect (R336). -/
def execHint (_ : BitVec 26) (s : State) : Result := .next s.retire

end Sys2Proof.Machine
end

