-- ==== Sys2Proof/Machine/Dispatch.lean ====
section
/-!
DEFINITION. One arm per constructor of `Instr`: the meaning of every operation and event.
-/
namespace Sys2Proof.Machine

def exec (i : Instr) (s : State) : Host.Outcome State Fault Refusal :=
  match i with
  | .add d l a m b => Sys2Proof.Machine.execAdd d l a m b s
  | .sub d l a m b => Sys2Proof.Machine.execSub d l a m b s
  | .and d l a m b => Sys2Proof.Machine.execAnd d l a m b s
  | .or d l a m b => Sys2Proof.Machine.execOr d l a m b s
  | .xor d l a m b => Sys2Proof.Machine.execXor d l a m b s
  | .shl d l a m b => Sys2Proof.Machine.execShl d l a m b s
  | .shr d l a m b => Sys2Proof.Machine.execShr d l a m b s
  | .shrS d l a m b => Sys2Proof.Machine.execShrS d l a m b s
  | .mul d l a m b => Sys2Proof.Machine.execMul d l a m b s
  | .mulh d l a m b => Sys2Proof.Machine.execMulh d l a m b s
  | .mulhU d l a m b => Sys2Proof.Machine.execMulhU d l a m b s
  | .div d l a m b => Sys2Proof.Machine.execDiv d l a m b s
  | .divU d l a m b => Sys2Proof.Machine.execDivU d l a m b s
  | .rem d l a m b => Sys2Proof.Machine.execRem d l a m b s
  | .remU d l a m b => Sys2Proof.Machine.execRemU d l a m b s
  | .min d l a m b => Sys2Proof.Machine.execMin d l a m b s
  | .minU d l a m b => Sys2Proof.Machine.execMinU d l a m b s
  | .max d l a m b => Sys2Proof.Machine.execMax d l a m b s
  | .maxU d l a m b => Sys2Proof.Machine.execMaxU d l a m b s
  | .clz d l a m => Sys2Proof.Machine.execClz d l a m s
  | .popc d l a m => Sys2Proof.Machine.execPopc d l a m s
  | .addi d l a imm => Sys2Proof.Machine.execAddi d l a imm s
  | .andi d l a imm => Sys2Proof.Machine.execAndi d l a imm s
  | .ori d l a imm => Sys2Proof.Machine.execOri d l a imm s
  | .xori d l a imm => Sys2Proof.Machine.execXori d l a imm s
  | .shli d l a s1 => Sys2Proof.Machine.execShli d l a s1 s
  | .shri d l a s1 => Sys2Proof.Machine.execShri d l a s1 s
  | .shriS d l a s1 => Sys2Proof.Machine.execShriS d l a s1 s
  | .cmp p l a m b c => Sys2Proof.Machine.execCmp p l a m b c s
  | .cmpi p c a imm => Sys2Proof.Machine.execCmpi p c a imm s
  | .sel d l a m b n q => Sys2Proof.Machine.execSel d l a m b n q s
  | .plog d l a m b o => Sys2Proof.Machine.execPlog d l a m b o s
  | .bfx d l a s1 w p => Sys2Proof.Machine.execBfx d l a s1 w p s
  | .bfi d l a w p => Sys2Proof.Machine.execBfi d l a w p s
  | .lih d imm => Sys2Proof.Machine.execLih d imm s
  | .pcrel d imm => Sys2Proof.Machine.execPcrel d imm s
  | .br p n o => Sys2Proof.Machine.execBr p n o s
  | .jal d o => Sys2Proof.Machine.execJal d o s
  | .jr d l a m => Sys2Proof.Machine.execJr d l a m s
  | .start d l a m b p => Sys2Proof.Machine.execStart d l a m b p s
  | .quit l m => Sys2Proof.Machine.execQuit l m s
  | .hwait l a m => Sys2Proof.Machine.execHwait l a m s
  | .yield l m => Sys2Proof.Machine.execYield l m s
  | .idle l a m => Sys2Proof.Machine.execIdle l a m s
  | .ld d l a z g imm => Sys2Proof.Machine.execLd d l a z g imm s
  | .st z l a m b imm => Sys2Proof.Machine.execSt z l a m b imm s
  | .lda d l a z g imm => Sys2Proof.Machine.execLda d l a z g imm s
  | .stl z l a m b c imm => Sys2Proof.Machine.execStl z l a m b c imm s
  | .stOwn z l a m b imm => Sys2Proof.Machine.execStOwn z l a m b imm s
  | .stStk z l a m b imm => Sys2Proof.Machine.execStStk z l a m b imm s
  | .ldsumF32 d l a imm => Sys2Proof.Machine.execLdsumF32 d l a imm s
  | .ldsumF64 d l a imm => Sys2Proof.Machine.execLdsumF64 d l a imm s
  | .ldsumI64 d l a imm => Sys2Proof.Machine.execLdsumI64 d l a imm s
  | .fenceRel l m s1 => Sys2Proof.Machine.execFenceRel l m s1 s
  | .fenceAcq l m s1 => Sys2Proof.Machine.execFenceAcq l m s1 s
  | .fenceFull l m s1 => Sys2Proof.Machine.execFenceFull l m s1 s
  | .amo d l a m b w z o => Sys2Proof.Machine.execAmo d l a m b w z o s
  | .amof d l a m b t o => Sys2Proof.Machine.execAmof d l a m b t o s
  | .redInt l a m b z o => Sys2Proof.Machine.execRedInt l a m b z o s
  | .redFloat l a m b t o => Sys2Proof.Machine.execRedFloat l a m b t o s
  | .mdep l a m b => Sys2Proof.Machine.execMdep l a m b s
  | .msenseMax d l a k => Sys2Proof.Machine.execMsenseMax d l a k s
  | .msenseMin d l a k => Sys2Proof.Machine.execMsenseMin d l a k s
  | .hitch h p l a f => Sys2Proof.Machine.execHitch h p l a f s
  | .unhitch h l s1 => Sys2Proof.Machine.execUnhitch h l s1 s
  | .tbar h d l s1 => Sys2Proof.Machine.execTbar h d l s1 s
  | .tarr h l s1 => Sys2Proof.Machine.execTarr h l s1 s
  | .twait h d l => Sys2Proof.Machine.execTwait h d l s
  | .tvote h d l a o s1 => Sys2Proof.Machine.execTvote h d l a o s1 s
  | .tred h d l a t o s1 => Sys2Proof.Machine.execTred h d l a t o s1 s
  | .tinfo h d l => Sys2Proof.Machine.execTinfo h d l s
  | .tdrop h l => Sys2Proof.Machine.execTdrop h l s
  | .wpush p l a m => Sys2Proof.Machine.execWpush p l a m s
  | .wpushOrd p l a m => Sys2Proof.Machine.execWpushOrd p l a m s
  | .wpop d l a m p => Sys2Proof.Machine.execWpop d l a m p s
  | .wsteal d l a m p n => Sys2Proof.Machine.execWsteal d l a m p n s
  | .wcnt d l m n => Sys2Proof.Machine.execWcnt d l m n s
  | .chput p l a m c => Sys2Proof.Machine.execChput p l a m c s
  | .chget d p m c => Sys2Proof.Machine.execChget d p m c s
  | .cpy d l a m b n s1 => Sys2Proof.Machine.execCpy d l a m b n s1 s
  | .cpyCsr d l a m s1 => Sys2Proof.Machine.execCpyCsr d l a m s1 s
  | .cpym d l a m b s1 => Sys2Proof.Machine.execCpym d l a m b s1 s
  | .subs p l a g => Sys2Proof.Machine.execSubs p l a g s
  | .unsubs l a => Sys2Proof.Machine.execUnsubs l a s
  | .epush p l m b n => Sys2Proof.Machine.execEpush p l m b n s
  | .epop d l p m n => Sys2Proof.Machine.execEpop d l p m n s
  | .sync l m => Sys2Proof.Machine.execSync l m s
  | .xmit n l a m b => Sys2Proof.Machine.execXmit n l a m b s
  | .xsel n l a m b => Sys2Proof.Machine.execXsel n l a m b s
  | .mread d l a m => Sys2Proof.Machine.execMread d l a m s
  | .mtick l a m => Sys2Proof.Machine.execMtick l a m s
  | .launch d l a m p => Sys2Proof.Machine.execLaunch d l a m p s
  | .pace l a m => Sys2Proof.Machine.execPace l a m s
  | .permit l a m => Sys2Proof.Machine.execPermit l a m s
  | .mfs d r => Sys2Proof.Machine.execMfs d r s
  | .mts s1 r => Sys2Proof.Machine.execMts s1 r s
  | .trap c => Sys2Proof.Machine.execTrap c s
  | .eret => Sys2Proof.Machine.execEret s
  | .svctx n => Sys2Proof.Machine.execSvctx n s
  | .ldctx n => Sys2Proof.Machine.execLdctx n s
  | .icflush => Sys2Proof.Machine.execIcflush s
  | .rep c n s1 => Sys2Proof.Machine.execRep c n s1 s
  | .vadd d l a m b r t => Sys2Proof.Machine.execVadd d l a m b r t s
  | .vsub d l a m b r t => Sys2Proof.Machine.execVsub d l a m b r t s
  | .vmul d l a m b r t => Sys2Proof.Machine.execVmul d l a m b r t s
  | .vfma d l a m b r t => Sys2Proof.Machine.execVfma d l a m b r t s
  | .vmax d l a m b t => Sys2Proof.Machine.execVmax d l a m b t s
  | .vmin d l a m b t => Sys2Proof.Machine.execVmin d l a m b t s
  | .vabs d l a m t => Sys2Proof.Machine.execVabs d l a m t s
  | .vneg d l a m t => Sys2Proof.Machine.execVneg d l a m t s
  | .vrcp d l a m r t => Sys2Proof.Machine.execVrcp d l a m r t s
  | .vrsq d l a m r t => Sys2Proof.Machine.execVrsq d l a m r t s
  | .vexp d l a m t => Sys2Proof.Machine.execVexp d l a m t s
  | .vlog d l a m b o t => Sys2Proof.Machine.execVlog d l a m b o t s
  | .vsh d l a m b o t => Sys2Proof.Machine.execVsh d l a m b o t s
  | .vmac d l a m b t => Sys2Proof.Machine.execVmac d l a m b t s
  | .vcmp d l a m b c t => Sys2Proof.Machine.execVcmp d l a m b c t s
  | .vsel d l a m b t => Sys2Proof.Machine.execVsel d l a m b t s
  | .vld d l s1 imm => Sys2Proof.Machine.execVld d l s1 imm s
  | .vst d l s1 imm => Sys2Proof.Machine.execVst d l s1 imm s
  | .vgath d l s1 b t => Sys2Proof.Machine.execVgath d l s1 b t s
  | .vscat d l s1 b t => Sys2Proof.Machine.execVscat d l s1 b t s
  | .vbcast d l s1 t => Sys2Proof.Machine.execVbcast d l s1 t s
  | .vperm d l a m b => Sys2Proof.Machine.execVperm d l a m b s
  | .vred d l a m k f t => Sys2Proof.Machine.execVred d l a m k f t s
  | .vscan d l a m k f t => Sys2Proof.Machine.execVscan d l a m k f t s
  | .vcvt d l a m g r t => Sys2Proof.Machine.execVcvt d l a m g r t s
  | .venc d l a m s1 => Sys2Proof.Machine.execVenc d l a m s1 s
  | .vdec d l a m s1 => Sys2Proof.Machine.execVdec d l a m s1 s
  | .vflip d l a m b g => Sys2Proof.Machine.execVflip d l a m b g s
  | .mma d a b k imm x r p q => Sys2Proof.Machine.execMma d a b k imm x r p q s
  | .mzero d k imm => Sys2Proof.Machine.execMzero d k imm s
  | .mscale d k imm => Sys2Proof.Machine.execMscale d k imm s
  | .msm d g k imm h => Sys2Proof.Machine.execMsm d g k imm h s
  | .mmas d a b k imm t g p q => Sys2Proof.Machine.execMmas d a b k imm t g p q s
  | .mld d s1 k imm t m => Sys2Proof.Machine.execMld d s1 k imm t m s
  | .mst d s1 k imm m => Sys2Proof.Machine.execMst d s1 k imm m s
  | .mmov t s1 v c d m => Sys2Proof.Machine.execMmov t s1 v c d m s
  | .mfmt s1 => Sys2Proof.Machine.execMfmt s1 s
  | .mtab t s1 => Sys2Proof.Machine.execMtab t s1 s
  | .kld k s1 => Sys2Proof.Machine.execKld k s1 s
  | .kop k s1 a o => Sys2Proof.Machine.execKop k s1 a o s
  | .hint h => Sys2Proof.Machine.execHint h s
  | .illegalWord w => Sys2Proof.Machine.execIllegalWord w s
  | .qcfgWrite s1 => Sys2Proof.Machine.execQcfgWrite s1 s
  | .domainWrite s1 => Sys2Proof.Machine.execDomainWrite s1 s
  | .tstampWrite s1 => Sys2Proof.Machine.execTstampWrite s1 s
  | .ringDescriptorWrite g s1 => Sys2Proof.Machine.execRingDescriptorWrite g s1 s
  | .fstatClear s1 => Sys2Proof.Machine.execFstatClear s1 s
  | .fstatRead d => Sys2Proof.Machine.execFstatRead d s
  | .hfaultClear s1 => Sys2Proof.Machine.execHfaultClear s1 s
  | .roleWrite s1 => Sys2Proof.Machine.execRoleWrite s1 s
  | .vshareWrite s1 => Sys2Proof.Machine.execVshareWrite s1 s
  | .frameWrite which s1 => Sys2Proof.Machine.execFrameWrite which s1 s
  | .vectorQueueDispatch core => Sys2Proof.Machine.execVectorQueueDispatch core s
  | .vectorEntryComplete core => Sys2Proof.Machine.execVectorEntryComplete core s
  | .frameStepDispatch core => Sys2Proof.Machine.execFrameStepDispatch core s
  | .commitWindowApply dom => Sys2Proof.Machine.execCommitWindowApply dom s
  | .storeReplay die => Sys2Proof.Machine.execStoreReplay die s
  | .domainArrival core => Sys2Proof.Machine.execDomainArrival core s
  | .superstepRelease dom => Sys2Proof.Machine.execSuperstepRelease dom s
  | .superstepEnd dom => Sys2Proof.Machine.execSuperstepEnd dom s
  | .exchangeTransmit core frame slot => Sys2Proof.Machine.execExchangeTransmit core frame slot s
  | .exchangeArrival core frame slot => Sys2Proof.Machine.execExchangeArrival core frame slot s
  | .gatherServe core => Sys2Proof.Machine.execGatherServe core s
  | .markEndNotice core => Sys2Proof.Machine.execMarkEndNotice core s
  | .markTick tenant region => Sys2Proof.Machine.execMarkTick tenant region s
  | .markDepositApply core => Sys2Proof.Machine.execMarkDepositApply core s
  | .markSenseServe core => Sys2Proof.Machine.execMarkSenseServe core s
  | .teamArrival tenant tid req => Sys2Proof.Machine.execTeamArrival tenant tid req s
  | .teamDeparture slot tid => Sys2Proof.Machine.execTeamDeparture slot tid s
  | .teamParkedNotice slot tid parked => Sys2Proof.Machine.execTeamParkedNotice slot tid parked s
  | .domainResumeRequest dom => Sys2Proof.Machine.execDomainResumeRequest dom s
  | .copySlotReserve core id => Sys2Proof.Machine.execCopySlotReserve core id s
  | .copyStatus core id => Sys2Proof.Machine.execCopyStatus core id s
  | .streamerBatchElement core fifo => Sys2Proof.Machine.execStreamerBatchElement core fifo s
  | .streamerCompletionPush core fifo => Sys2Proof.Machine.execStreamerCompletionPush core fifo s
  | .multicastArrival core => Sys2Proof.Machine.execMulticastArrival core s
  | .reductionBatch stack => Sys2Proof.Machine.execReductionBatch stack s
  | .descriptorWake core => Sys2Proof.Machine.execDescriptorWake core s
  | .pacerPush core => Sys2Proof.Machine.execPacerPush core s
  | .wranglerSample die tenant => Sys2Proof.Machine.execWranglerSample die tenant s
  | .spinGovernorTrip core ctx => Sys2Proof.Machine.execSpinGovernorTrip core ctx s
  | .spinHoldExpiry core ctx => Sys2Proof.Machine.execSpinHoldExpiry core ctx s
  | .idleExpiry core ctx => Sys2Proof.Machine.execIdleExpiry core ctx s
  | .weightRefresh die => Sys2Proof.Machine.execWeightRefresh die s
  | .waitCounterPoll gang => Sys2Proof.Machine.execWaitCounterPoll gang s
  | .gangPlace => Sys2Proof.Machine.execGangPlace s
  | .gangComplete gang => Sys2Proof.Machine.execGangComplete gang s
  | .preemptInterrupt core stat => Sys2Proof.Machine.execPreemptInterrupt core stat s
  | .restoreInterrupt core gang => Sys2Proof.Machine.execRestoreInterrupt core gang s
  | .lendEnd core => Sys2Proof.Machine.execLendEnd core s
  | .spillDivert core p => Sys2Proof.Machine.execSpillDivert core p s
  | .packetResend core => Sys2Proof.Machine.execPacketResend core s
  | .pageFaultRetry die tenant page => Sys2Proof.Machine.execPageFaultRetry die tenant page s
  | .pageFaultFatal die tenant page => Sys2Proof.Machine.execPageFaultFatal die tenant page s
  | .trapQueueRecord die => Sys2Proof.Machine.execTrapQueueRecord die s
  | .doubleFault core => Sys2Proof.Machine.execDoubleFault core s
  | .lostResponse core ctx k => Sys2Proof.Machine.execLostResponse core ctx k s
  | .bridleHalt tenant => Sys2Proof.Machine.execBridleHalt tenant s
  | .bridleResume tenant => Sys2Proof.Machine.execBridleResume tenant s
  | .powerLimit on => Sys2Proof.Machine.execPowerLimit on s
  | .criticalTemperature => Sys2Proof.Machine.execCriticalTemperature s
  | .deviceReset firmware configuration => Sys2Proof.Machine.execDeviceReset firmware configuration s
  | .tenantCreate c spec => Sys2Proof.Machine.execTenantCreate c spec s
  | .tenantTeardown c => Sys2Proof.Machine.execTenantTeardown c s
  | .fabricConfiguration c cal rein link => Sys2Proof.Machine.execFabricConfiguration c cal rein link s
  | .imageLoad c image bytes => Sys2Proof.Machine.execImageLoad c image bytes s
  | .memoryRead c at_ n => Sys2Proof.Machine.execMemoryRead c at_ n s
  | .memoryWrite c at_ bytes => Sys2Proof.Machine.execMemoryWrite c at_ bytes s
  | .hostLaunch c record => Sys2Proof.Machine.execHostLaunch c record s
  | .event c va value => Sys2Proof.Machine.execEvent c va value s
  | .weightStoreFill c va bytes => Sys2Proof.Machine.execWeightStoreFill c va bytes s
  | .regionInstall c region desc => Sys2Proof.Machine.execRegionInstall c region desc s
  | .regionRewrite c region desc => Sys2Proof.Machine.execRegionRewrite c region desc s
  | .regionRemove c region => Sys2Proof.Machine.execRegionRemove c region s
  | .translationInvalidate c => Sys2Proof.Machine.execTranslationInvalidate c s
  | .pageMigrate c va home => Sys2Proof.Machine.execPageMigrate c va home s
  | .journalRead c from_ => Sys2Proof.Machine.execJournalRead c from_ s
  | .capabilityRead c => Sys2Proof.Machine.execCapabilityRead c s
  | .attest c nonce => Sys2Proof.Machine.execAttest c nonce s
  | .layerSleep c die => Sys2Proof.Machine.execLayerSleep c die s
  | .layerWake c die => Sys2Proof.Machine.execLayerWake c die s
  | .bridleQuiesced tenant => Sys2Proof.Machine.execBridleQuiesced tenant s
  | .fatalRecordServed die => Sys2Proof.Machine.execFatalRecordServed die s
  | .tenantFieldError link => Sys2Proof.Machine.execTenantFieldError link s
  | .networkSendElement core fifo => Sys2Proof.Machine.execNetworkSendElement core fifo s
  | .networkInbound core fifo elem writes ack => Sys2Proof.Machine.execNetworkInbound core fifo elem writes ack s

end Sys2Proof.Machine
end

