-- ==== Sys2Proof/Machine/Sched.lean ====
section
/-!
DEFINITION. Who moves next: when a wait is over, which contexts are ready (R44–R47, R279, R287, R292), which events of
the device are due, and the fetch and issue of one instruction (R238, R320, R335). Where several may move, a free
choice decides (log entry 5).
-/
namespace Sys2Proof.Machine

/-! Waits -/

/-- The wait of the context at `cur` of the focused core is over: its instruction is issued again. -/
def waitOver (s : State) : Wait → Bool
  | .ready => true
  | .qRead q n => decide (n ≤ (s.queue q).length) || !s.isCtx (consOf s.core.regs.qcfg q)
  | .qWrite q => decide ((s.queue q).length < Config.queueDepth) || !s.isCtx (prodOf s.core.regs.qcfg q)
  | .copyStatus r => !s.statusPending r
  | .copyDest r => !s.statusPending r
  | .copySlots => decide (outstanding s < Config.copyMax)
  | .vqFull => s.core.vqRoom
  | .frameActive => !frameActive s.core.regs.frame.word
  | .vqEmpty => s.core.entries.isEmpty
  | .ring g true => !((s.ring g).resv.any fun x => x.owner != 0 && !x.done)
  | .ring g false => !queueNames s.core g
  | .fstat => !s.core.owes s.core.cur
  | .scratch a n => !queueTouches s a n
  | .gatherRegs l => !writesPending s.core l
  | .replay => (parkedHere s).isEmpty
  | .helpers => (liveHelpers s.core).isEmpty
  | .exchange => !exchangePending s.cycle.toNat s.core
  | .pageFault a _ => !(s.dieAt s.die).faults.contains (s.core.tenant, pageOf a)
  | .refresh _ => false
  | .layer d => (s.dieAt d).awake
  | .path p w => if w then sendOpen s s.core.tenant s.die p else readOpen s s.core.tenant s.die p && !pushTo s p
  | .unit va => !walkHeld s (.base 0) s.core.tenant va
  | .remote => !remotePending s
  | .red c => !redPending c.toNat s
  | .reduction .. => false
  | .idle _ => false
  | .hold _ => false
  | .hwait .. => false
  | .sync => false
  | .team .. => false
  | .push .. => false
  | .mark .. => false
  | .trapped => false

/-- The context at `cur` may issue. -/
def ctxReady (s : State) : Bool := mayGo s && !spinTripped s.core s.core.cur && waitOver s s.ctx.wait

/-- The context that the focused core issues next: the handler, else the first ready one of the round-robin order (R45). -/
def nextCtx (s : State) : Option (Fin 12) :=
  (handlerIx :: s.core.order).find? fun i => ctxReady (s.modCore fun c => { c with cur := i })

/-! Events that are due -/

/-- The cycle in which an armed reception is over (R237); one to which no slot leads is over at its occurrence. Log entry 67 (DEDUCED). -/
def arrivalOf (s : State) (core : Nat) (x : Xsel) : Nat :=
  let c := s.coreAt core
  (arrivalCycle s c.tenant x.src core (c0Of c x.frame x.slot) x.slot).getD (c0Of c x.frame x.slot)

/-- Receptions that are due, with arrival cycle and occurrence; the first in that order is written first (R429). Log entry 58 (DEDUCED). -/
def arrivalsDue (s : State) : List (Nat × Instr) :=
  let all := s.cores.flatMap fun p => (p.2.xsels.filter fun x => !x.done).map fun x =>
    (arrivalOf s p.1 x * 2 ^ 80 + c0Of p.2 x.frame x.slot, p.1, x)
  (sortBy (·.1) (all.filter fun x => decide (x.1 / 2 ^ 80 ≤ s.cycle.toNat))).map fun x =>
    (x.1, Instr.exchangeArrival x.2.1 x.2.2.frame x.2.2.slot)

/-- Transmissions whose occurrence cycle has come (R236). -/
def transmitsDue (s : State) : List Instr :=
  s.cores.flatMap fun p => (p.2.xmits.filter fun x => !x.sent && decide (c0Of p.2 x.frame x.slot ≤ s.cycle.toNat)).map fun x =>
    Instr.exchangeTransmit p.1 x.frame x.slot

/-- The exchange event that is due: arrival writes come before occurrence reads (R429). -/
def exchangeEvents (s : State) : List Instr :=
  match arrivalsDue s with
  | a :: _ => [a.2]
  | [] => transmitsDue s

/-- The mark request at the front of a core's queue, where it reaches its home. -/
def markEvents (s : State) (p : Nat × Core) : List Instr :=
  match p.2.markQ with
  | [] => []
  | m :: _ => if !markOpen s p.1 m then [] else match m.op with
    | .deposit .. => [.markDepositApply p.1]
    | .sense .. => [.markSenseServe p.1]
    | .read .. => [.markSenseServe p.1]
    | .tick a => [.markTick m.tenant (maRegion a)]
    | .notice .. => [.markEndNotice p.1]

/-- The copies of the focused core that can go on. -/
def copyEvents (s : State) : List Instr :=
  ((s.core.copies.filter (reserveDue s)).map fun k => Instr.copySlotReserve s.coreId k.id) ++
  (s.core.copies.filter fun k => copyDue s s.coreId k).map fun k => Instr.copyStatus s.coreId k.id

def copyMoves (s : State) : List Turn := (s.core.copies.filter (moveDue s)).map fun k => Turn.move s.coreId k.id

/-- A core in focus, as it stands and as the image of every gang that is not on it (R289). -/
def coreViews (s : State) (core : Nat) : List State :=
  let t := s.focus core
  t :: (s.pkg.saved.filter fun v => v.core == core && (s.coreAt core).gang != some v.gang).map fun v => imageState v t

/-- Copies and FIFOs of a core. A halted core's engines take no new element (R292). Log entry 59 (DEDUCED). -/
def engineEvents (s : State) (p : Nat × Core) : List Instr :=
  let fifos := ([0, 1, 2, 3, 4, 5, 6, 7, 8, 9, 10, 11, 12, 13, 14, 15] : List (BitVec 4))
  (coreViews s p.1).flatMap copyEvents ++
  (if (tilesDue (s.focus p.1)).isEmpty then [] else [Instr.multicastArrival p.1]) ++
  (fifos.flatMap fun n =>
    let f := p.2.fifo n.toNat
    (if f.kind = 1 && !f.elems.isEmpty && !p.2.bridled then [Instr.streamerBatchElement p.1 n] else []) ++
    (if (batchDone p.2 n).isSome && decide (f.elems.length < f.depth) then [Instr.streamerCompletionPush p.1 n] else []) ++
    (if f.kind = 3 && !f.elems.isEmpty && !p.2.bridled && networkOpen s p.1 then [Instr.networkSendElement p.1 n] else []))

/-- The counts of a core's contexts. -/
def countEvents (now : Nat) (p : Nat × Core) : List Instr :=
  if p.2.bridled then []
  else allCtxs.flatMap fun i =>
    match (p.2.ctxs[i]).wait with
    | .idle till => if till ≤ now then [Instr.idleExpiry p.1 i] else []
    | .hold till => if till ≤ now then [Instr.spinHoldExpiry p.1 i] else []
    | .refresh till => if till ≤ now then [Instr.weightRefresh (dieOfCore p.1)] else []
    | _ => []

/-- The other events of a core. -/
def coreEvents (s : State) (p : Nat × Core) : List Instr :=
  let t := s.focus p.1
  (if headDue t then [Instr.vectorQueueDispatch p.1] else []) ++
  (if p.2.flying.isSome then [Instr.vectorEntryComplete p.1] else []) ++
  (if frameDue t then [Instr.frameStepDispatch p.1] else []) ++
  (if p.2.arrivals.head?.any (arrivalOpen s p.1) then [Instr.domainArrival p.1] else []) ++
  (if gatherDue s p.1 then [Instr.gatherServe p.1] else []) ++
  markEvents s p ++ engineEvents s p ++
  (if pacerDue p.2 then [Instr.pacerPush p.1] else []) ++
  (allCtxs.filter fun i => (p.2.ctxs[i]).live && spinTripped p.2 i).map (fun i => Instr.spinGovernorTrip p.1 i) ++
  (if p.2.resend.isEmpty then [] else [Instr.packetResend p.1]) ++
  (if doubleDue s p.1 then [Instr.doubleFault p.1] else []) ++
  (if lendDue s p.1 then [Instr.lendEnd p.1] else [])

/-- A message without an answer that may reach its team home: the next of its core there (R232). -/
def noteEvents (s : State) (n : TeamNote) : List Instr :=
  let core := coreOfTid n.tid
  if nextNote s core (quarterOf n.slot) == some n && quarterOpen s core (quarterOf n.slot) then
    match n.parked with
    | none => [.teamDeparture n.slot (BitVec.ofNat 15 n.tid)]
    | some b => [.teamParkedNotice n.slot (BitVec.ofNat 15 n.tid) b]
  else []

/-- Supersteps, teams and marks of the package. -/
def orderEvents (s : State) : List Instr :=
  (s.pkg.steps.flatMap fun x =>
    (if windowDue s x then [Instr.commitWindowApply x.id] else []) ++
    (if releaseDue s x then [Instr.superstepRelease x.id] else []) ++
    (if stepOver s x then [Instr.superstepEnd x.id] else []) ++
    (if stepWants s x && stepResumes s x && !((s.gangOf x.gang).any fun g => g.wanted) then [Instr.domainResumeRequest x.id] else [])) ++
  (s.pkg.markRuns.filter fun r => domainTickDue s r.tenant r.region).map (fun r => Instr.markTick r.tenant r.region) ++
  s.pkg.departs.flatMap (noteEvents s) ++
  (List.range 4).flatMap (fun k => if (nextReduction s k).isSome then [Instr.reductionBatch k] else [])

/-- A sample of a tenant is due on a die (R267). -/
def sampleEvents (s : State) : List Instr :=
  (List.range Config.dies).flatMap fun d =>
    ((s.pkg.host.tenants.map (·.num)).filter fun t => sampleDue s d t).map fun t => Instr.wranglerSample d t

/-- The trap and replay queues of the dies. -/
def dieEvents (s : State) : List Instr :=
  (List.range Config.dies).flatMap fun d =>
    let x := s.dieAt d
    (if (nextReplay d s [] x.replay).isSome then [Instr.storeReplay d] else []) ++
    (if x.tqWait.any fun r => tqRoom x r.kind then [Instr.trapQueueRecord d] else []) ++
    (if x.tq.any fun r => r.kind == 1 || r.kind == 3 || (r.kind == 2 && !doubleDue s (coreOfTid r.tid.toNat)) then
      [Instr.fatalRecordServed d] else [])

/-- The launch unit. -/
def launchEvents (s : State) : List Instr :=
  (s.pkg.launches.filter fun r => r.since.isNone && !r.registered && pollOpen s r).map (fun r => Instr.waitCounterPoll r.gang) ++
  (if (nextPlaced s).isSome || (nextVictims s).isSome then [Instr.gangPlace] else []) ++
  (s.pkg.gangs.filter fun g => gangDone s g && completeOpen s g).map (fun g => Instr.gangComplete g.num) ++
  (s.pkg.preempts.filter fun p => coreReached s (s.coreAt p.1).tenant p.1).map (fun p => Instr.preemptInterrupt p.1 p.2) ++
  (s.pkg.saved.filter fun v => restoreDue s v).map (fun v => Instr.restoreInterrupt v.core v.gang) ++
  (s.pkg.wakes.filter (wakeOpen s)).map fun w => Instr.descriptorWake w.2.1

/-- Events that are due in this very cycle. -/
def timedEvents (s : State) : List Instr :=
  exchangeEvents s ++ s.cores.flatMap (countEvents s.cycle.toNat) ++ sampleEvents s

/-- Every event that is due. -/
def dueEvents (s : State) : List Instr :=
  timedEvents s ++ s.cores.flatMap (coreEvents s) ++ orderEvents s ++ dieEvents s ++ launchEvents s

/-- Answers that are due, to a WPUSH from its counter's home or to an HWAIT, and what is on its way and has a path: REDs to their homes,
completions that a window or a release held, launch wakes and resume requests to the launch unit. -/
def requestTurns (s : State) : List Turn :=
  (s.cores.flatMap fun p => (allCtxs.filter (answerDue s p.1)).map (Turn.answer p.1)) ++
  (((List.range s.pkg.reds.length).filter (redDue s)).map Turn.red) ++
  (if (s.pkg.teamDone.any fun d => !doneWaits s d) || s.pkg.launches.any (wakeArrives s) || s.pkg.resumes.any (resumeOpen s) then
    [Turn.deliver] else [])

/-- The first input that nothing holds up. -/
def nextInput (s : State) : Option Instr := s.inputs.find? fun i => !inboundHeld s i

/-- The inputs without that one. -/
def restInputs (s : State) : List Instr := s.inputs.eraseP fun i => !inboundHeld s i

/-- What the host's side may do: an input is taken, or accepted where it is a command; an accepted command starts or completes
(R307, R310). Log entry 79 (DESIGN CHOICE). -/
def hostTurns (s : State) : List Turn :=
  (match nextInput s with
    | none => []
    | some i => (if commandHeld s i then [] else [Turn.input]) ++ if (commandOf i).isSome then [Turn.accept] else []) ++
  s.pkg.host.accepted.flatMap fun x =>
    if notStarted s x.1 x.2.1 then [Turn.start x.1 x.2.1] else if commandHeld s x.2.2 then [] else [Turn.complete x.1 x.2.1]

/-- Every agent that may move. Time passes only when no event of the cycle is left. Log entry 5 (DESIGN CHOICE). -/
def enabledTurns (s : State) : List Turn :=
  (s.cores.filterMap fun p => (nextCtx (s.focus p.1)).map fun i => Turn.issue p.1 i) ++
  hostTurns s ++ requestTurns s ++
  (dueEvents s).map Turn.event ++
  (s.cores.flatMap fun p => (coreViews s p.1).flatMap copyMoves) ++
  (if (timedEvents s).isEmpty then [Turn.idle] else [])

/-- The turn that a free choice takes among those enabled. -/
def pickTurn (s : State) : Turn × State :=
  let l := enabledTurns s
  (l.getD (Config.pick s.fresh % l.length) .idle, s.useFresh)

/-! The outside world (R284, R292, R294, R303–R319) -/

/-- What comes from outside the device, or from its management processors. -/
def isInput : Instr → Bool
  | .pageFaultRetry .. | .pageFaultFatal .. | .lostResponse .. | .bridleHalt .. | .bridleResume .. | .powerLimit ..
  | .criticalTemperature | .deviceReset .. | .tenantCreate .. | .tenantTeardown .. | .fabricConfiguration .. | .imageLoad ..
  | .memoryRead .. | .memoryWrite .. | .hostLaunch .. | .event .. | .weightStoreFill .. | .regionInstall .. | .regionRewrite ..
  | .regionRemove .. | .translationInvalidate .. | .pageMigrate .. | .journalRead .. | .capabilityRead .. | .attest ..
  | .layerSleep .. | .layerWake .. | .bridleQuiesced .. | .tenantFieldError .. | .networkInbound .. | .spillDivert ..
  | .teamArrival .. | .teamParkedNotice .. => true
  | _ => false

/-- Take the first input that nothing holds up; anything that is none has no effect. -/
def takeInput (s : State) : Result :=
  let t := { s with inputs := restInputs s }
  match nextInput s with
  | none => .next s
  | some i => if isInput i then exec i t else .next t

/-- Accept it where it is a command; any other is taken. -/
def takeCommand (s : State) : Result :=
  match nextInput s with
  | none => .next s
  | some i => match commandOf i with
    | some k => .next (acceptCommand i k { s with inputs := restInputs s })
    | none => takeInput s

/-! Fetch and issue -/

/-- After an issue the order of contexts 0–10 goes on behind the context that issued (R45). -/
def rotateOrder (i : Fin 12) (c : Core) : Core :=
  if i = handlerIx then c
  else { c with order := (c.order.dropWhile (· != i)).drop 1 ++ c.order.takeWhile (· != i) ++ [i] }

/-- An instruction of the exchange itself (R238). -/
def Instr.isExchange : Instr → Bool
  | .xmit .. => true
  | .xsel .. => true
  | _ => false

/-- The instruction that a fetched word is run as: a word that is none is illegal (R335). -/
def instrOf (w : W32) : Instr :=
  match decode w with
  | .ok i => i
  | .error _ => .illegalWord w

/-- Run a fetched word: the control context's first instruction that is no transfer waits for the armed ones and ends
its exchange phase (R238), a word that is no instruction too. Log entry 101 (DESIGN CHOICE). -/
def runWord (w : W32) (s : State) : Result :=
  let i := instrOf w
  if s.core.exch.isSome && s.isControl && !Instr.isExchange i then
    if exchangePending s.cycle.toNat s.core then .next (s.blockOn .exchange) else exec i (endPhase s)
  else exec i s

/-- Issue one instruction of the context at place `i` of core `core`. Log entry 60 (DESIGN CHOICE). -/
def issueTurn (core : Nat) (i : Fin 12) (s : State) : Result :=
  if Config.cores ≤ core then .fault .noSuchCore
  else
    let s := giveBack ((s.focus core).modCore fun c => rotateOrder i { c with cur := i })
    match fetchWord s s.ctx.pc with
    | .error e => finish s (.error e)
    | .ok (w, s1) => runWord w s1

/-- One turn. Log entry 7 (DESIGN CHOICE). -/
def takeTurn (t : Turn) (s : State) : Result :=
  match t with
  | .issue core i => issueTurn core i s
  | .input => takeInput s
  | .accept => takeCommand s
  | .start sp idx => .next (startAccepted sp idx s)
  | .complete sp idx => .next (completeAccepted sp idx s)
  | .event i => exec i s
  | .move core id => .next (moveCopy core id s)
  | .answer core i => .next (answerPush core i s)
  | .deliver => .next (landResumes (landWakes (sendReady s)))
  | .red n => .next (arriveRed n s)
  | .idle => .next { s with cycle := s.cycle + 1 }

end Sys2Proof.Machine
end

