-- ==== Sys2Proof/Machine/Step.lean ====
section
/-!
DEFINITION. The step: the turn that stands in the state, else one of those enabled; and where the host's probe
places an instruction.
-/
namespace Sys2Proof.Machine

/-- ONE STEP. -/
def step (s : State) : Host.Outcome State Fault Refusal :=
  match s.turn with
  | some t => takeTurn t { s with turn := none }
  | none => takeTurn (pickTurn s).1 (pickTurn s).2

/-- The focused core with an instruction word at the start of its scratchpad, its control context resident, ready and
about to fetch there (log entry 6: a program is loaded by the host, R313, R433). -/
def placeWord (w : W32) (c : Core) : Core :=
  { c with gang := some (c.gang.getD 1), scratch := c.scratch.setBytes 0 (toBytesLE 4 w.toNat), badScratch := [],
           icache := [], bridled := false, exch := none, exchLast := none, trap := { c.trap with service := .none, pendIntrs := [], halted := false },
           ctxs := c.ctxs.set 0 { c.ctxs[0] with pc := 0, live := true, wait := .ready } }

/-- The state with an instruction where the next step fetches, and the turn that issues it. Log entry 6 (DEDUCED). -/
def State.withFetchWord (s : State) (_ : Nat) (w : Nat) : State :=
  { s with core := placeWord (BitVec.ofNat 32 w) s.core, turn := some (.issue s.coreId 0), inputs := [] }

end Sys2Proof.Machine
end

