-- ==== Sys2Proof/Safety.lean ====
section
/-!
DEFINITION. What counts as a safe run, in the terms claims use.
-/
namespace Sys2Proof

/-- A step is safe where it answers a next state. -/
def SafeStep (s : Machine.State) : Prop := ∃ t, Machine.step s = .next t

/-- The memories of the device keep their canonical form: layer, weight and far memory, and every scratchpad. -/
def MemoriesCanonical (s : Machine.State) : Prop :=
  Machine.Memory.wf s.mem = true ∧ Machine.Memory.wf s.core.scratch = true ∧
    (∀ p ∈ s.others, Machine.Memory.wf p.2.scratch = true) ∧
    ∀ v ∈ s.pkg.saved, Machine.Memory.wf v.rest.scratch = true

/-- The core in focus is one of the package (R8). -/
def FocusedCore (s : Machine.State) : Prop := s.coreId < Config.cores

end Sys2Proof
end

