-- ==== Sys2Proof/WellFormed.lean ====
section
/-!
DEFINITION. Well-formed instructions: those whose operands the encoding tables and the reference
entries admit (R323, R335). The rules stand in `legal`, beside the decoder that applies them.
-/
namespace Sys2Proof

/-- An instruction whose operands are all legal. -/
def Instr.WellFormed (i : Instr) : Prop := legal i = true

/-- A step that has an encoding (an instruction of R325–R334). -/
def Instr.Encoded (i : Instr) : Prop := (encodeNat i).isSome = true

end Sys2Proof
end

