-- ==== Sys2Proof/Certificates/Slice0/Obligations.lean ====
section
/-!
DEFINITION. The statements for the provers. The namespace `Claims` holds the words they are made of: what a
statement reads of a state, and what an instruction leaves alone. Operands are read by `operands`, which the
statements of the second group fix; what an instruction does is then said of the values read.
-/
namespace Sys2Proof.Claims
open Machine

/-- Only the issuing context, the queue registers of its core and the counter of free values differ: all memories, the other
contexts and cores, every other register of the core and every unit of the package are the same. -/
def ContextOnly (s t : State) : Prop :=
  t = { s with
    core := { s.core with ctxs := s.core.ctxs.set s.core.cur (t.ctxAt s.core.cur), regs := { s.core.regs with q := t.core.regs.q } }
    fresh := t.fresh }

/-- The bytes of layer memory, weight store and far memory, and those of the scratchpad, read as before. -/
def BytesKept (s t : State) : Prop :=
  ∀ a, Memory.get t.mem a = Memory.get s.mem a ∧ Memory.get t.core.scratch a = Memory.get s.core.scratch a

/-- The registers of a context that no scalar instruction writes: harness registers, TSTAMP, FSTAT, rounding mode, store
buffer and log, ordered task, entries taken for an answer. -/
def SideKept (c c' : Ctx) : Prop :=
  c'.h = c.h ∧ c'.tstamp = c.tstamp ∧ c'.fstat = c.fstat ∧ c'.frm = c.frm ∧ c'.buf = c.buf ∧ c'.log = c.log ∧
    c'.ord = c.ord ∧ c'.live = c.live ∧ c'.taken = c.taken

/-- What an instruction with scalar sources `srcs` and the destinations `ds` leaves alone: every other scalar register, its
mark, and every queue that is neither a destination nor popped. -/
def ScalarsKept (srcs : List Src) (ds : List SReg) (s t : State) : Prop :=
  (∀ r : SReg, r ∉ ds → t.ctx.getS r = s.ctx.getS r) ∧
  (∀ r : SReg, r ∉ ds → (∀ x ∈ srcs, x.last = true → x.reg ≠ r) →
    t.ctx.freed.getLsbD r.toNat = s.ctx.freed.getLsbD r.toNat) ∧
  (∀ q : Fin 8, (∀ r ∈ ds, isQueue r = true → queueIx r ≠ q) →
    (∀ x ∈ srcs, x.last = true → isQueue x.reg = true → queueIx x.reg ≠ q) → t.queue q = s.queue q)

/-- The context has gone on to `target` and INSTRET has counted one instruction. -/
def WentTo (target : W64) (s t : State) : Prop := t.ctx.pc = target ∧ t.ctx.instret = s.ctx.instret + 1

/-- A plain source: s0, or a register that is no queue, live, and no pending copy status. -/
def PlainSource (s : State) (r : SReg) : Prop :=
  isQueue r = false ∧ s.statusPending r = false ∧ (r = 0 ∨ s.ctx.freed.getLsbD r.toNat = false)

/-- A plain destination: no queue, no pending copy status. -/
def PlainDest (s : State) (r : SReg) : Prop := isQueue r = false ∧ s.statusPending r = false

/-- Destination and sources of the instructions that compute one scalar from scalars. -/
def scalarShape : Instr → Option (SReg × List Src)
  | .add d l a m b => some (d, [⟨a, l⟩, ⟨b, m⟩])
  | .sub d l a m b => some (d, [⟨a, l⟩, ⟨b, m⟩])
  | .and d l a m b => some (d, [⟨a, l⟩, ⟨b, m⟩])
  | .or d l a m b => some (d, [⟨a, l⟩, ⟨b, m⟩])
  | .xor d l a m b => some (d, [⟨a, l⟩, ⟨b, m⟩])
  | .shl d l a m b => some (d, [⟨a, l⟩, ⟨b, m⟩])
  | .shr d l a m b => some (d, [⟨a, l⟩, ⟨b, m⟩])
  | .shrS d l a m b => some (d, [⟨a, l⟩, ⟨b, m⟩])
  | .mul d l a m b => some (d, [⟨a, l⟩, ⟨b, m⟩])
  | .mulh d l a m b => some (d, [⟨a, l⟩, ⟨b, m⟩])
  | .mulhU d l a m b => some (d, [⟨a, l⟩, ⟨b, m⟩])
  | .div d l a m b => some (d, [⟨a, l⟩, ⟨b, m⟩])
  | .divU d l a m b => some (d, [⟨a, l⟩, ⟨b, m⟩])
  | .rem d l a m b => some (d, [⟨a, l⟩, ⟨b, m⟩])
  | .remU d l a m b => some (d, [⟨a, l⟩, ⟨b, m⟩])
  | .min d l a m b => some (d, [⟨a, l⟩, ⟨b, m⟩])
  | .minU d l a m b => some (d, [⟨a, l⟩, ⟨b, m⟩])
  | .max d l a m b => some (d, [⟨a, l⟩, ⟨b, m⟩])
  | .maxU d l a m b => some (d, [⟨a, l⟩, ⟨b, m⟩])
  | .clz d l a _ => some (d, [⟨a, l⟩])
  | .popc d l a _ => some (d, [⟨a, l⟩])
  | .addi d l a _ => some (d, [⟨a, l⟩])
  | .andi d l a _ => some (d, [⟨a, l⟩])
  | .ori d l a _ => some (d, [⟨a, l⟩])
  | .xori d l a _ => some (d, [⟨a, l⟩])
  | .shli d l a _ => some (d, [⟨a, l⟩])
  | .shri d l a _ => some (d, [⟨a, l⟩])
  | .shriS d l a _ => some (d, [⟨a, l⟩])
  | .sel d l a m b _ _ => some (d, [⟨a, l⟩, ⟨b, m⟩])
  | .bfx d l a _ _ _ => some (d, [⟨a, l⟩])
  | .bfi d l a _ _ => some (d, [⟨a, l⟩, ⟨d, false⟩])
  | .lih d _ => some (d, [])
  | .pcrel d _ => some (d, [])
  | _ => none

/-- Bits `hi:lo` of a register, as a number. -/
def field (x : W64) (hi lo : Nat) : Nat := x.toNat / 2 ^ lo % 2 ^ (hi + 1 - lo)

/-- The register whose fields hold the numbers given, each with the place of its lowest bit. -/
def packed (l : List (Nat × Nat)) : W64 := BitVec.ofNat 64 ((l.map fun x => x.1 * 2 ^ x.2).sum)

/-- What QCFG keeps of a written byte: none, 0xFF, where the producer's or the consumer's number is reserved, or both are one context. -/
def queueByte (b : Nat) : Nat :=
  if b % 16 = 11 ∨ b % 16 = 13 ∨ b % 16 = 14 ∨ (11 ≤ b / 16 ∧ b / 16 ≤ 14) ∨ b % 16 = b / 16 then 255 else b

/-- A ring descriptor in range: BASE a multiple of 64, SLOG at most 8, SIZE 1 to 2,816, and the ring inside the kernel's request and below
the pinned area. -/
def RingInRange (s : State) (x : W64) : Prop :=
  field x 17 0 % 64 = 0 ∧ field x 21 18 ≤ 8 ∧ 1 ≤ field x 33 22 ∧ field x 33 22 ≤ 2816 ∧
    field x 17 0 + 64 * field x 33 22 * 2 ^ field x 21 18 ≤ 0x2C000 ∧ field x 17 0 + 64 * field x 33 22 * 2 ^ field x 21 18 ≤ s.core.scratchReq

/-- The state in which the instruction of context `i` of the focused core is fetched: that context is current, the round-robin order
goes on behind it, and the entries that an instruction took which is issued again are back in their queues. -/
def issuing (i : Fin 12) (s : State) : State :=
  giveBack (({ s with turn := none }).modCore fun c => rotateOrder i { c with cur := i })

/-- The new value of a `w`-bit word under operation `op` of R343. -/
def amoNew (w op old v cmp : Nat) : Nat :=
  match op with
  | 0 => (old + v) % 2 ^ w
  | 1 => old &&& v
  | 2 => old ||| v
  | 3 => old ^^^ v
  | 4 => if (BitVec.ofNat w v).toInt < (BitVec.ofNat w old).toInt then v else old
  | 5 => if (BitVec.ofNat w old).toInt < (BitVec.ofNat w v).toInt then v else old
  | 6 => if v < old then v else old
  | 7 => if old < v then v else old
  | 8 => v
  | _ => if old = cmp then v else old

/-- The byte that a contribution writes last at an address, in program order. -/
def lastWritten (c : Contribution) (p : Nat) : Option Byte :=
  c.entries.foldl (fun (acc : Option Byte) (e : WinEntry) =>
    if e.phys ≤ p ∧ p < e.phys + 8 ∧ e.entry.mask.getLsbD (p - e.phys) = true
    then some ((e.entry.data >>> (8 * (p - e.phys))).setWidth 8) else acc) none

/-- Each byte is as the applied contribution with the largest (TSTAMP, TID) that writes it leaves it, the program-order last inside
one contribution, and stands where no applied contribution writes it (R194). -/
def LargestKey (s t : State) (cs : List Contribution) (applied : Contribution → Prop) : Prop :=
  (∀ c ∈ cs, applied c → cs.count c = 1 → ∀ p v, lastWritten c p = some v →
    (∀ k ∈ cs, applied k → k ≠ c → lastWritten k p ≠ none → k.key.rank < c.key.rank) → t.mem.get p = v) ∧
  ∀ p, (∀ c ∈ cs, applied c → lastWritten c p = none) → t.mem.get p = s.mem.get p

/-- Which contributions a superstep's window applies (R204): all but the ordered tasks whose signature is hit by a line that an applied
ordered task with a smaller key writes. -/
def OrderedRule (cs : List Contribution) (applied : Contribution → Prop) : Prop :=
  ∀ c ∈ cs, (c.ord = none → applied c) ∧ ∀ o, c.ord = some o →
    (applied c ↔ ∀ k ∈ cs, k.ord ≠ none → applied k → k.key.rank < c.key.rank →
      ∀ e ∈ k.entries, sigHit (e.entry.word / 8 * 64) o.sig = false)

/-- The contributions write plain words: no scatters, no ST.OWN, no ST.STK. -/
def PlainWords (cs : List Contribution) : Prop := ∀ c ∈ cs, c.scats = [] ∧ ∀ e ∈ c.entries, e.entry.kind = .plain

/-- The core of a member of a superstep before and after the release of cycle `r`: its SYNC has retired, the exchange phase has begun, the
read cache is empty, and no other context and no byte differs. -/
structure MemberReleased (r : Nat) (c c' : Core) : Prop where
  phase : c'.exch = some r ∧ c'.exchLast = none ∧ c'.rcache = []
  sync : c'.ctxs[0].pc = c.ctxs[0].pc + 4 ∧ c'.ctxs[0].instret = c.ctxs[0].instret + 1 ∧ c'.ctxs[0].wait = .ready
  rest : (∀ i : Fin 12, i ≠ 0 → c'.ctxs[i] = c.ctxs[i]) ∧ c'.scratch = c.scratch ∧ c'.trap = c.trap

/-- The release that a superstep sends to a member (R39). -/
def releasePacket (t : BitVec 3) (gang : W32) (r : Nat) : Packet :=
  { tenant := t, gang := gang.setWidth 16, ctx := 0, body := .release r }

/-- One tick of a region (R96): each of its cells becomes its faded value plus its sum, saturating, a cell in error its sum alone, and its
sum 0; no other cell and no byte changes. -/
structure Ticked (s u : State) (t : BitVec 3) (r : Byte) : Prop where
  inside : ∀ c, c < rdCells (s.region t r) → ∀ k, k = cellKey (s.region t r) c → cellGet u.pkg.marks k =
    (BitVec.ofNat 16 (Nat.min ((if k ∈ s.pkg.badMarks then 0
        else (cellGet s.pkg.marks k).1.toNat * (16 - rdFade (s.region t r)) / 16) + (cellGet s.pkg.marks k).2.toNat) 65535), 0)
  outside : ∀ k, (∀ c, c < rdCells (s.region t r) → k ≠ cellKey (s.region t r) c) → cellGet u.pkg.marks k = cellGet s.pkg.marks k
  bytes : BytesKept s u

/-- The issuing context, resident and no handler, is the one member of the team that its harness register names; it is in the open
generation and has not arrived; nothing is held by the context or by the team's windows, nothing is parked or under way, and the team's
home is reached. -/
structure Alone (s : State) (h : BitVec 4) (e : TeamEntry) (m : Member) : Prop where
  context : s.isHandler = false ∧ s.ctx.ord = none ∧ s.core.resident ⟨s.core.tenant, s.core.tag, s.core.cur, .release 0⟩ = true
  handle : s.ctx.h[h.toNat] = handleOf e.slot (s.incOf e.slot)
  entry : s.pkg.teams = [e] ∧ e.tenant = s.core.tenant ∧ e.members = [m] ∧ e.win = [] ∧ e.winNext = [] ∧ e.withdrawn = []
  member : m.tid = s.tid ∧ m.gang = s.core.tag ∧ m.first ≤ e.gen ∧ m.arrived = none ∧ m.waiting = false ∧ m.tarr = none
  clean : s.ctx.buf = [] ∧ s.ctx.log = [] ∧ s.pkg.teamDone = [] ∧ s.pkg.departs = [] ∧ s.pkg.inFlight = [] ∧
    (∀ u ∈ s.pkg.host.unacked, u.1 = s.tid → u.2 = 0) ∧ ∀ d : Nat, (s.dieAt d).replay = []
  path : readOpen s s.core.tenant s.die (basePlace (quarterOf e.slot)) = true

/-- An instruction of the team has completed: the context goes on with an empty read cache or as it was, the team is one generation
further, no byte has changed. -/
structure Released (s t : State) (e : TeamEntry) : Prop where
  went : WentTo (s.ctx.pc + 4) s t
  next : (t.team? e.slot).map (·.gen) = some (e.gen + 1)
  bytes : BytesKept s t

/-- No other core carries the number of the core in focus. -/
def OthersApart (s : State) : Prop := ∀ p ∈ s.others, p.1 ≠ s.coreId

/-- What every step keeps: canonical memories, a focused core of the package, and other cores under other numbers. -/
def Sound (s : State) : Prop := MemoriesCanonical s ∧ FocusedCore s ∧ OthersApart s

/-- None of `n` bytes from an address lies in the scratchpad at or above the kernel's request and below the pinned area; the handler may
name any. -/
def BelowRequest (s : State) (va n : Nat) : Prop :=
  s.isHandler = true ∨ ∀ j < n, ¬ (s.core.scratchReq ≤ va + j ∧ va + j < Config.pinnedBase)

/-- A copy instruction has retired with one copy more under way; nothing has moved. -/
structure CopySent (s t : State) (d : SReg) (scope : BitVec 3) (form : CopyForm) (src : W64) (len : Nat) (bad : Bool) : Prop where
  copies : ∃ k : Copy, t.core.copies = s.core.copies ++ [k] ∧ k.id = s.core.nextCopy ∧ k.ctx = s.core.cur ∧ k.scope = scope ∧
    k.form = form ∧ k.src = src ∧ k.len = len ∧ k.bad = bad ∧ k.slot = none ∧ k.sd = (if d = 0 then none else some d)
  bytes : BytesKept s t
  went : WentTo (s.ctx.pc + 4) s t
  regs : ∀ r : SReg, t.ctx.getS r = s.ctx.getS r
  unfreed : t.ctx.freed.getLsbD d.toNat = false

/-! The vector queue -/

/-- The vector, matrix and tile words that enter the queue with nothing but their scalar read (R138). -/
def queuedWord : Instr → Bool
  | .vadd .. | .vsub .. | .vmul .. | .vfma .. | .vmax .. | .vmin .. | .vabs .. | .vneg .. | .vrcp .. | .vrsq .. | .vexp .. => true
  | .vlog .. | .vsh .. | .vmac .. | .vcmp .. | .vsel .. | .vld .. | .vst .. | .vbcast .. | .vperm .. | .vred .. | .vscan .. => true
  | .vcvt .. | .venc .. | .vdec .. | .vflip .. => true
  | .mma .. | .mzero .. | .mscale .. | .msm .. | .mmas .. | .mld .. | .mst .. | .mmov .. | .mfmt .. | .kld .. | .kop .. => true
  | _ => false

/-- The entry of a word issued in line, with its scalar value and the trap its scalar read owes. -/
def plainEntry (s : State) (i : Instr) (w : W32) (v : W64) (owed : Option Trap) : VEntry :=
  { word := w, pc := s.ctx.pc, ctx := s.core.cur, sval := v, rm := roundingOf (rhoOf i) s.ctx.frm, image := [], owed := owed, frame := none }

/-- The word has entered the queue and retired. -/
structure Queued (s t : State) (i : Instr) (e : VEntry) : Prop where
  queue : t.core.vq = s.core.vq ++ [e] ∧ t.core.flying = s.core.flying
  vec : t.core.regs.vec = { s.core.regs.vec with
    vfreed := freedAfter i s.core.regs.vec.vfreed, fmtIssued := fmtAfter i e.sval s.core.regs.vec.fmtIssued }
  went : WentTo (s.ctx.pc + 4) s t
  bytes : BytesKept s t
  regs : ∀ r : SReg, t.ctx.getS r = s.ctx.getS r

/-- The started entry has completed with flags `f` for its context; the queue behind it, the other contexts and everything outside the
core are the same. -/
structure EntryDone (s t : State) (e : VEntry) (f : FFlags) : Prop where
  queue : t.core.flying = none ∧ t.core.vq = s.core.vq
  flags : ∀ j : Fin 12, t.ctxAt j =
    { s.ctxAt j with fstat := if j = e.ctx then (s.ctxAt j).fstat ||| f else (s.ctxAt j).fstat }
  rest : t.mem = s.mem ∧ t.pkg = s.pkg ∧ t.others = s.others ∧ t.core.trap = s.core.trap

/-- The started entry completes: the scratchpad becomes `mem`, the vector registers `V` but for the marks of last use, and nothing else
of the core registers changes. -/
def CompletesTo (s : State) (e : VEntry) (i : Instr) (f : FFlags) (mem : Memory) (V : VecRegs) : Prop :=
  ∃ t, exec (.vectorEntryComplete s.coreId) s = .next t ∧ EntryDone s t e f ∧ t.core.scratch = mem ∧
    t.core.regs = { s.core.regs with vec := { V with vgone := freedAfter i s.core.regs.vec.vgone } }

/-- The result of an elementwise word: element e is g e, and the flags are those that some element raises. -/
def Elementwise (t : Nat) (res : Option (VReg × Row × FFlags)) (d : VReg) (g : Nat → FRes) : Prop :=
  ∃ row f, res = some (d, row, f) ∧ (∀ e, e < tyCount t → elemAt (tyWidth t) row e = (g e).1 % 2 ^ tyWidth t) ∧
    ∀ j : Nat, f.getLsbD j = true ↔ ∃ e, e < tyCount t ∧ (g e).2.getLsbD j = true

/-- An operation of three elements x, y, z of a width, or of a floating format. -/
abbrev ElementOp := (Nat → Nat → Nat → Nat → Nat) ⊕ (Fmt → Nat → Nat → Nat → FRes)

/-- What R412 and R418 say of each element: x of va, y of vb, z of vd. -/
def elementTable (r : RMode) (l m : Bool) (q : BitVec 3) (a b d : VReg) (t : BitVec 4) : List (Instr × ElementOp) :=
  let less := fun (x y : Nat) => decide (intOf t.toNat x < intOf t.toNat y)
  [(.vadd d l a m b q t, .inl fun _ x y _ => x + y), (.vadd d l a m b q t, .inr fun f x y _ => fAdd f r x y),
   (.vsub d l a m b q t, .inl fun w x y _ => x + (2 ^ w - y)), (.vsub d l a m b q t, .inr fun f x y _ => fSub f r x y),
   (.vmul d l a m b q t, .inl fun _ x y _ => x * y), (.vmul d l a m b q t, .inr fun f x y _ => fMul f r x y),
   (.vfma d l a m b q t, .inl fun _ x y z => x * y + z), (.vfma d l a m b q t, .inr fun f x y z => fFma f r x y z),
   (.vmax d l a m b t, .inl fun _ x y _ => if less x y then y else x), (.vmax d l a m b t, .inr fun f x y _ => fMax f x y),
   (.vmin d l a m b t, .inl fun _ x y _ => if less y x then y else x), (.vmin d l a m b t, .inr fun f x y _ => fMin f x y),
   (.vneg d l a m t, .inl fun w x _ _ => 2 ^ w - x), (.vneg d l a m t, .inr fun f x _ _ => (fNeg f x, 0)),
   (.vabs d l a m t, .inl fun w x _ _ => if intOf t.toNat x < 0 then 2 ^ w - x else x),
   (.vabs d l a m t, .inr fun f x _ _ => (fAbs f x, 0)),
   (.vrcp d l a m (q.setWidth 5) t, .inr fun f x _ _ => fRcp f r x), (.vrsq d l a m (q.setWidth 5) t, .inr fun f x _ _ => fRsqrt f r x),
   (.vexp d l a m t, .inr fun f x _ _ => (nanOf f [x]).getD (fExp f f x))]

/-- The number m × 2^e. -/
def numberOf (d : Dy) : ℚ := d.m * (2 : ℚ) ^ d.e

/-- A pattern of a format that is neither infinite nor a NaN. -/
def FinitePattern (f : Fmt) (x : Nat) : Prop := x < 2 ^ f.width ∧ f.isNaN x = false ∧ f.isInf x = false

/-- A result with its flags is the correct rounding of an exact nonzero number in a mode (R123, R127). -/
structure Rounded (f : Fmt) (r : RMode) (q : ℝ) (res : FRes) : Prop where
  finite : f.isInf res.1 = false → FinitePattern f res.1 ∧
    (res.2.getLsbD 0 = true ↔ ((numberOf (f.value res.1) : ℚ) : ℝ) ≠ q) ∧ res.2.getLsbD 3 = false ∧ res.2.getLsbD 4 = false ∧
    ∀ (y : Nat) (X Y : ℝ), FinitePattern f y → X = ((numberOf (f.value res.1) : ℚ) : ℝ) → Y = ((numberOf (f.value y) : ℚ) : ℝ) →
      (r = .rne → |X - q| ≤ |Y - q| ∧ (|X - q| = |Y - q| → X ≠ Y → res.1 % 2 = 0)) ∧
      (r = .rtz → |X| ≤ |q| ∧ 0 ≤ X * q ∧ (0 ≤ Y * q → |Y| ≤ |q| → |Y| ≤ |X|)) ∧
      (r = .rup → q ≤ X ∧ (q ≤ Y → X ≤ Y)) ∧
      (r = .rdn → X ≤ q ∧ (Y ≤ q → Y ≤ X))
  infinite : f.isInf res.1 = true → res.2 = fOF ||| fNX ∧ r ≠ .rtz ∧ (f.neg res.1 = true ↔ q < 0) ∧ (r = .rup → 0 < q) ∧
    (r = .rdn → q < 0) ∧ ∀ y, FinitePattern f y → |((numberOf (f.value y) : ℚ) : ℝ)| < |q|

/-- Element `n` of an operand slot at a scratchpad address. -/
def slotTerm (m : Memory) (a fmt : Nat) (t : CodeTable) (n : Nat) : Term :=
  operandTerm fmt t (m.num (a + (if fmt = 2 then 1 else 2) * n) (if fmt = 2 then 1 else 2))

/-- A table slot of the core. -/
def tableSlot (V : VecRegs) (n : Nat) : CodeTable := vget V.tabs n (Vector.replicate 256 0)

/-- Of the rings named, those to be popped have moved on by one slot; every other ring stands. -/
def PopsRings (s t : State) (ops : List (BitVec 3 × Bool)) : Prop :=
  ∀ g : BitVec 3, t.ring g = if (ops.any fun o => o.1 == g && o.2) = true then
    { s.ring g with head := BitVec.ofNat 8 (((s.ring g).head.toNat + 1) % 2 ^ (s.ring g).slog.toNat)
                    filled := (s.ring g).filled - 1, free := (s.ring g).free + 1 } else s.ring g

/-- Of vector registers, tiles, predicates, tables and memories only tile `d` may differ. -/
def TileFrame (s t : State) (d : BitVec 3) : Prop :=
  t.core.regs.vec.v = s.core.regs.vec.v ∧ (∀ k : BitVec 3, k ≠ d → t.core.regs.vec.m[k.toNat] = s.core.regs.vec.m[k.toNat]) ∧
    t.core.regs.vec.k = s.core.regs.vec.k ∧ t.core.regs.vec.fmt = s.core.regs.vec.fmt ∧ t.core.regs.vec.tabs = s.core.regs.vec.tabs ∧
    t.core.scratch = s.core.scratch ∧ t.mem = s.mem

/-! Roles -/

/-- ROLE with a pending move carried out (R268). -/
def movedRole (r : Role) : Role := if r.pend then { r with stage := r.next, pend := false } else r

/-- The occupation of a stage ring (R267). -/
def occupation (g : Stage) : Nat := g.elems.length * 256 / 2 ^ g.dlog.toNat

/-- A core of the die in focus, of tenant `t`'s gangs, that the Wrangler may take from stage `j` (R267). -/
def movable (s : State) (t : BitVec 3) (j k : Nat) : Prop :=
  ∃ c, (k, c) ∈ s.cores ∧ k / 64 = s.die ∧ c.gang ≠ none ∧ c.tenant = t ∧ c.regs.role.en = true ∧ c.regs.role.stage.toNat = j ∧
    c.regs.role.lock = false ∧ c.regs.role.pend = false

/-! The host -/

/-- The host's commands with their operation codes and issuers (R306). -/
def hostCommand : Instr → Option (Cmd × Byte × Issuer)
  | .tenantCreate c _ => some (c, 0x01, .owner)
  | .tenantTeardown c => some (c, 0x02, .owner)
  | .fabricConfiguration c _ _ _ => some (c, 0x03, .owner)
  | .imageLoad c _ _ => some (c, 0x04, .owner)
  | .memoryRead c _ _ => some (c, 0x05, .tenant)
  | .memoryWrite c _ _ => some (c, 0x06, .tenant)
  | .hostLaunch c _ => some (c, 0x07, .tenant)
  | .event c _ _ => some (c, 0x08, .tenant)
  | .weightStoreFill c _ _ => some (c, 0x09, .tenant)
  | .regionInstall c _ _ => some (c, 0x0A, .tenant)
  | .regionRewrite c _ _ => some (c, 0x0A, .tenant)
  | .regionRemove c _ => some (c, 0x0A, .tenant)
  | .translationInvalidate c => some (c, 0x0B, .tenant)
  | .pageMigrate c _ _ => some (c, 0x0C, .tenant)
  | .journalRead c _ => some (c, 0x0D, .either)
  | .capabilityRead c => some (c, 0x0E, .either)
  | .attest c _ => some (c, 0x0F, .either)
  | .layerSleep c _ => some (c, 0x10, .owner)
  | .layerWake c _ => some (c, 0x10, .owner)
  | _ => none

/-- The last thing sent to the host answers the command (R308). -/
def Answered (t : State) (c : Cmd) (op status : Byte) (result : W64) (data : List Byte) : Prop :=
  ∃ idx, t.pkg.host.out.getLast? = some (HostOut.completion c.caddr c.seq op c.slot status result idx data)

/-- The command is not its issuer's to send: the device owner's from another endpoint, a tenant's without the tenant's transport key. -/
def Denied (s : State) (c : Cmd) : Issuer → Prop
  | .owner => isOwner s c = false
  | .tenant => holdsKey s c = false
  | .either => isOwner s c = false ∧ holdsKey s c = false

/-- Only the host's side of the package differs. -/
def HostOnly (s t : State) : Prop := t = { s with pkg := { s.pkg with host := t.pkg.host } }

/-- The command passes the checks that come before its own: the device is ready, the SEQ is new in its space, the slot is free. -/
structure Accepted (s : State) (c : Cmd) (sp : Nat) : Prop where
  ready : s.pkg.host.ready = true
  fresh : ∀ e ∈ s.pkg.host.journal, e.kind = .command → e.space = sp → e.seq = c.seq → e.slot ≠ c.slot
  above : ∀ q, usedSeq s sp = some q → q.toNat < c.seq.toNat
  slot : slotTaken s sp c.slot = false
  again : ∀ x ∈ s.pkg.host.again, x.1 = sp → x.2.1 ≠ nextIdx s sp

/-- The home that a leaf entry of a table names (R165). -/
def homeOfLeaf (e : Nat) : Loc := { space := bitsOf e 6 5, die := bitsOf e 11 7, off := bitsOf e 51 12 * 4096 }


/-! Words -/

/-- Bits `hi:lo` of an instruction word. -/
def wordField (w : W32) (hi lo : Nat) : Nat := w.toNat / 2 ^ lo % 2 ^ (hi + 1 - lo)

/-- The word is no instruction. -/
def refusedWord (w : W32) : Prop := ∃ e, decode w = .error e

/-- A word of format 3R, and one of format I (R321). -/
def word3R (op d a b fn : Nat) (l m : Bool) : W32 :=
  BitVec.ofNat 32 (op * 2 ^ 26 + d * 2 ^ 20 + boolNat l * 2 ^ 19 + a * 2 ^ 13 + boolNat m * 2 ^ 12 + b * 2 ^ 6 + fn)
def wordI (op d a : Nat) (l : Bool) (imm : Nat) : W32 :=
  BitVec.ofNat 32 (op * 2 ^ 26 + d * 2 ^ 20 + boolNat l * 2 ^ 19 + a * 2 ^ 13 + imm)

/-- The function codes of R341. -/
def integerTable (d : SReg) (l : Bool) (a : SReg) (m : Bool) (b : SReg) : List (Nat × Instr) :=
  [(0x00, .add d l a m b), (0x01, .sub d l a m b), (0x02, .and d l a m b), (0x03, .or d l a m b), (0x04, .xor d l a m b),
   (0x05, .shl d l a m b), (0x06, .shr d l a m b), (0x07, .shrS d l a m b), (0x08, .mul d l a m b), (0x09, .mulh d l a m b),
   (0x0A, .mulhU d l a m b), (0x0B, .div d l a m b), (0x0C, .divU d l a m b), (0x0D, .rem d l a m b), (0x0E, .remU d l a m b),
   (0x0F, .min d l a m b), (0x10, .minU d l a m b), (0x11, .max d l a m b), (0x12, .maxU d l a m b)]

end Sys2Proof.Claims

open Sys2Proof Machine Claims

/-! Decoding, the step, the machine as a whole -/

/-- Words written out in the reference entries decode to the instructions they stand for (R341, R342, R363, R392, R346,
R360, R343, R348, R391). -/
def Obligations.DecodesReferenceWords : Prop :=
  decode 0x0488D1C0 = .ok (.add 8 true 6 true 7) ∧ decode 0x0899_0064 = .ok (.addi 9 true 8 100) ∧
  decode 0x54F1_B01F = .ok (.ld 15 false 13 2 false 31) ∧ decode 0x5B92_23FF = .ok (.st 3 true 9 false 8 1023) ∧
  decode 0x4060_0003 = .ok (.br 1 true 3) ∧ decode 0x480B_E000 = .ok (.jr 0 true 31 false) ∧
  decode 0x6C60_E230 = .ok (.amo 6 false 7 false 8 true true 0) ∧ decode 0x2508_C000 = .ok (.cmpi 4 1 6 0) ∧
  decode 0x2880_C1D2 = .ok (.sel 8 false 6 false 7 true 2)

/-- Decoding an encoded well-formed instruction gives it back, with every operand at every value the encoding admits. -/
def Obligations.DecodeOfEncode : Prop :=
  ∀ (i : Instr) (w : W32), i.WellFormed → encode i = some w → decode w = .ok i

/-- Every word that decodes has one reading: the instruction is well-formed and its encoding is that word, so no bit of a
word is dropped and reserved encodings are refused. -/
def Obligations.EncodeOfDecode : Prop :=
  ∀ (w : W32) (i : Instr), decode w = .ok i → i.WellFormed ∧ encode i = some w

/-- A step whose turn is that a context issues runs the instruction that the fetched word decodes to, in the state that the
fetch leaves; a word that decodes to none runs as an illegal word. The first instruction of the control context in an exchange phase that is
neither XMIT nor XSEL waits for armed transfers, or ends the phase and runs. -/
def Obligations.StepRunsDecoded : Prop :=
  ∀ (s u : State) (i : Fin 12) (w : W32) (ins : Instr),
    s.coreId < Config.cores → s.turn = some (.issue s.coreId i) →
    fetchWord (issuing i s) (s.ctxAt i).pc = .ok (w, u) →
    (decode w = .ok ins ∨ (∃ e, decode w = .error e) ∧ ins = .illegalWord w) →
    ((u.core.exch = none ∨ i ≠ 0 ∨ Instr.isExchange ins = true) → step s = exec ins u) ∧
    ((u.core.exch ≠ none ∧ i = 0 ∧ Instr.isExchange ins = false) →
      (exchangePending u.cycle.toNat u.core = true → step s = .next (u.blockOn .exchange)) ∧
      (exchangePending u.cycle.toNat u.core = false → step s = exec ins (endPhase u)))

/-- The word fetched from the scratchpad is the little-endian word at the program counter, unless the core has fetched that
address before and keeps what it fetched (R188, R320); the fetch changes nothing but the words kept. -/
def Sys2Proof.Claims.FetchReadsScratchpad : Prop :=
  ∀ (s : State) (pc : W64),
    pc.toNat % 4 = 0 → pc.toNat + 4 ≤ s.core.scratchReq → pc.toNat + 4 ≤ Config.pinnedBase →
    badBytes s.core.badScratch pc.toNat 4 = false → s.core.icache.lookup pc.toNat = none →
    ∃ u, fetchWord s pc = .ok (BitVec.ofNat 32
        ((s.core.scratch.get pc.toNat).toNat + 2 ^ 8 * (s.core.scratch.get (pc.toNat + 1)).toNat +
          2 ^ 16 * (s.core.scratch.get (pc.toNat + 2)).toNat + 2 ^ 24 * (s.core.scratch.get (pc.toNat + 3)).toNat), u) ∧
      u = { s with core := { s.core with icache := u.core.icache } }

/-- No instruction and no event stops the device: each answers a next state. -/
def Sys2Proof.Claims.EveryInstructionAnswers : Prop := ∀ (i : Instr) (s : State), ∃ t, exec i s = .next t

/-- Every step is safe, but for a turn that names a core the package does not have. -/
def Sys2Proof.Claims.StepAnswers : Prop :=
  ∀ s : State, (∀ c i, s.turn = some (.issue c i) → c < Config.cores) →
    (∀ p ∈ s.cores, p.1 < Config.cores) → SafeStep s

/-- An encoded instruction moves neither the clock nor the inputs nor the turn, and free values are used up, never given
back. -/
def Obligations.InstructionsKeepClockAndInputs : Prop :=
  ∀ (i : Instr) (s t : State), i.Encoded → exec i s = .next t →
    t.cycle = s.cycle ∧ t.inputs = s.inputs ∧ t.turn = s.turn ∧ t.coreId = s.coreId ∧ s.fresh ≤ t.fresh

/-- Every step keeps the device sound: layer, weight and far memory, every scratchpad and every save area in canonical form, the focused
core one of the 1,536, and no other core under its number. -/
def Obligations.EveryStepKeepsSound : Prop := ∀ s t : State, Sound s → step s = .next t → Sound t

/-- The device is sound at reset. -/
def Obligations.SoundAtReset : Prop := Sound State.reset

/-- Reading back: a byte written is the byte read, every other address reads as before. -/
def Sys2Proof.Claims.MemoryReadAfterWrite : Prop :=
  ∀ (m : Memory) (a b : Nat) (v : Byte), Memory.wf m = true →
    Memory.get (Memory.set a v m) a = v ∧
      (b ≠ a → Memory.get (Memory.set a v m) b = Memory.get m b)

/-! Operands -/

/-- Plain sources are read as they stand, s0 as zero, and a set last-use bit frees its register after both are read. -/
def Sys2Proof.Claims.PlainOperandsRead : Prop :=
  ∀ (s : State) (a b d : SReg) (l m : Bool), PlainSource s a → PlainSource s b → PlainDest s d →
    ∃ u, operands s [⟨a, l⟩, ⟨b, m⟩] [d] = .ok ([s.ctx.getS a, s.ctx.getS b], u) ∧ s.ctx.getS 0 = 0 ∧
      ContextOnly s u ∧ u.core.regs.q = s.core.regs.q ∧ u.fresh = s.fresh ∧
      (∀ r : SReg, u.ctx.getS r = s.ctx.getS r) ∧
      ∀ r : SReg, u.ctx.freed.getLsbD r.toNat =
        (s.ctx.freed.getLsbD r.toNat || (r != 0 && ((l && r == a) || (m && r == b))))

/-- A queue source reads the head entry; with the last-use bit it pops it, without it peeks. A pop followed by a read takes
entries 0 and 1; too few entries block the reader until there are as many as its sources need. -/
def Sys2Proof.Claims.QueueSourcesPopOrPeek : Prop :=
  ∀ (s : State) (q : Fin 8) (r : SReg) (l m : Bool) (x y : W64) (rest : List W64),
    isQueue r = true → queueIx r = q → s.isCtx (consOf s.core.regs.qcfg q) = true →
    (s.queue q = x :: rest →
      (∃ u, operands s [⟨r, l⟩] [] = .ok ([x], u) ∧ u.queue q = (if l then rest else x :: rest)) ∧
      ∃ u, operands s [⟨r, false⟩, ⟨r, m⟩] [] = .ok ([x, x], u) ∧ u.queue q = (if m then rest else x :: rest)) ∧
    (s.queue q = x :: y :: rest →
      ∃ u, operands s [⟨r, true⟩, ⟨r, m⟩] [] = .ok ([x, y], u) ∧ u.queue q = (if m then rest else y :: rest)) ∧
    (s.queue q = [] → operands s [⟨r, l⟩] [] = .error (.block (.qRead q 1))) ∧
    (s.queue q = [x] → operands s [⟨r, true⟩, ⟨r, m⟩] [] = .error (.block (.qRead q 2)))

/-- A context that is not PROD(i) and writes qi, or is not CONS(i) and reads qi, takes *queue access* with no effect; a
full queue blocks its writer. -/
def Sys2Proof.Claims.QueueAccessChecked : Prop :=
  ∀ (s : State) (q : Fin 8) (r : SReg) (l : Bool), isQueue r = true → queueIx r = q →
    (s.isCtx (consOf s.core.regs.qcfg q) = false →
      operands s [⟨r, l⟩] [] = .error (.trap ⟨0x05, 0, BitVec.ofNat 64 q.val⟩)) ∧
    (s.isCtx (prodOf s.core.regs.qcfg q) = false →
      operands s [] [r] = .error (.trap ⟨0x05, 0, BitVec.ofNat 64 q.val⟩)) ∧
    (s.isCtx (prodOf s.core.regs.qcfg q) = true → Config.queueDepth ≤ (s.queue q).length →
      operands s [] [r] = .error (.block (.qWrite q)))

/-- A read of a freed register traps under LUMODE 0, and before every other check of operands; under LUMODE 1 it reads some
value that its context has held, and nothing else is lost. That the values held are those written to its scalars, and 0, is log entry 66, the model's reading
of R43; which of them is read is a free value, log entry 4. -/
def Sys2Proof.Claims.FreedRegisterReads : Prop :=
  ∀ (s : State) (r : SReg) (l : Bool) (more : List Src) (ds : List SReg),
    isQueue r = false → r ≠ 0 → s.ctx.freed.getLsbD r.toNat = true →
    (s.core.regs.lumode = false →
      operands s (⟨r, l⟩ :: more) ds = .error (.trap ⟨0x04, 0, r.setWidth 64⟩)) ∧
    (s.core.regs.lumode = true → s.statusPending r = false →
      ∃ u v, operands s [⟨r, l⟩] [] = .ok ([v], u) ∧ (s.ctx.past ≠ [] → v ∈ s.ctx.past) ∧ ContextOnly s u ∧
        u.fresh = s.fresh + 1 ∧ ∀ k : SReg, u.ctx.getS k = s.ctx.getS k)

/-- Writing a scalar: s0 discards, a queue takes the value at its tail, any other register holds it, is live, and has from then on
held it (R43). -/
def Sys2Proof.Claims.ScalarWrites : Prop :=
  ∀ (s : State) (r : SReg) (v : W64),
    s.writeS 0 v = s ∧
    (isQueue r = true → ContextOnly s (s.writeS r v) ∧ (s.writeS r v).queue (queueIx r) = s.queue (queueIx r) ++ [v] ∧
      (∀ q, q ≠ queueIx r → (s.writeS r v).queue q = s.queue q) ∧ (s.writeS r v).ctx = s.ctx) ∧
    (isQueue r = false → r ≠ 0 → ContextOnly s (s.writeS r v) ∧ (s.writeS r v).core.regs.q = s.core.regs.q ∧
      (s.writeS r v).ctx.getS r = v ∧ (s.writeS r v).ctx.past = v :: s.ctx.past ∧ (s.writeS r v).ctx.freed.getLsbD r.toNat = false ∧
      ∀ k : SReg, k ≠ r → (s.writeS r v).ctx.getS k = s.ctx.getS k)

/-! Scalar instructions -/

/-- ADD, SUB, AND, OR, XOR, MUL, MULH and MULH.U complete with the values of R341 wherever their operands can be read. -/
def Sys2Proof.Claims.ArithmeticResults : Prop :=
  ∀ (s u : State) (d a b : SReg) (l m : Bool) (x y : W64), operands s [⟨a, l⟩, ⟨b, m⟩] [d] = .ok ([x, y], u) →
    exec (.add d l a m b) s = .next (u.writeS d (BitVec.ofNat 64 (x.toNat + y.toNat))).retire ∧
    exec (.sub d l a m b) s = .next (u.writeS d (BitVec.ofInt 64 ((x.toNat : Int) - y.toNat))).retire ∧
    exec (.mul d l a m b) s = .next (u.writeS d (BitVec.ofNat 64 (x.toNat * y.toNat))).retire ∧
    exec (.mulhU d l a m b) s = .next (u.writeS d (BitVec.ofNat 64 (x.toNat * y.toNat / 2 ^ 64))).retire ∧
    exec (.mulh d l a m b) s = .next (u.writeS d (BitVec.ofInt 64 (x.toInt * y.toInt / 2 ^ 64))).retire ∧
    (∃ r, exec (.and d l a m b) s = .next (u.writeS d r).retire ∧ ∀ k, r.getLsbD k = (x.getLsbD k && y.getLsbD k)) ∧
    (∃ r, exec (.or d l a m b) s = .next (u.writeS d r).retire ∧ ∀ k, r.getLsbD k = (x.getLsbD k || y.getLsbD k)) ∧
    ∃ r, exec (.xor d l a m b) s = .next (u.writeS d r).retire ∧ ∀ k, r.getLsbD k = (x.getLsbD k != y.getLsbD k)

/-- DIV, DIV.U, REM and REM.U: a zero divisor gives all ones, or the dividend; elsewhere the truncated quotient and its
remainder, −2^63 ÷ −1 wrapping. -/
def Sys2Proof.Claims.DivisionResults : Prop :=
  ∀ (s u : State) (d a b : SReg) (l m : Bool) (x y : W64), operands s [⟨a, l⟩, ⟨b, m⟩] [d] = .ok ([x, y], u) →
    exec (.divU d l a m b) s = .next (u.writeS d (if y = 0 then BitVec.allOnes 64 else BitVec.ofNat 64 (x.toNat / y.toNat))).retire ∧
    exec (.remU d l a m b) s = .next (u.writeS d (if y = 0 then x else BitVec.ofNat 64 (x.toNat % y.toNat))).retire ∧
    exec (.div d l a m b) s =
      .next (u.writeS d (if y = 0 then BitVec.allOnes 64 else BitVec.ofInt 64 (x.toInt.tdiv y.toInt))).retire ∧
    exec (.rem d l a m b) s = .next (u.writeS d (if y = 0 then x else BitVec.ofInt 64 (x.toInt.tmod y.toInt))).retire

/-- Shifts by bits 5:0 of sb, the minima and maxima, CLZ and POPC. -/
def Sys2Proof.Claims.ShiftAndOrderResults : Prop :=
  ∀ (s u : State) (d a b : SReg) (l m : Bool) (x y : W64),
    (operands s [⟨a, l⟩, ⟨b, m⟩] [d] = .ok ([x, y], u) →
      exec (.shl d l a m b) s = .next (u.writeS d (BitVec.ofNat 64 (x.toNat * 2 ^ (y.toNat % 64)))).retire ∧
      exec (.shr d l a m b) s = .next (u.writeS d (BitVec.ofNat 64 (x.toNat / 2 ^ (y.toNat % 64)))).retire ∧
      exec (.shrS d l a m b) s = .next (u.writeS d (BitVec.ofInt 64 (x.toInt / 2 ^ (y.toNat % 64)))).retire ∧
      exec (.min d l a m b) s = .next (u.writeS d (if x.toInt ≤ y.toInt then x else y)).retire ∧
      exec (.max d l a m b) s = .next (u.writeS d (if x.toInt ≤ y.toInt then y else x)).retire ∧
      exec (.minU d l a m b) s = .next (u.writeS d (if x.toNat ≤ y.toNat then x else y)).retire ∧
      exec (.maxU d l a m b) s = .next (u.writeS d (if x.toNat ≤ y.toNat then y else x)).retire) ∧
    (operands s [⟨a, l⟩] [d] = .ok ([x], u) →
      (∃ n, exec (.clz d l a m) s = .next (u.writeS d (BitVec.ofNat 64 n)).retire ∧ n ≤ 64 ∧ x.toNat < 2 ^ (64 - n) ∧
        (n < 64 → 2 ^ (63 - n) ≤ x.toNat)) ∧
      exec (.popc d l a m) s =
        .next (u.writeS d (BitVec.ofNat 64 ((List.range 64).filter fun k => x.getLsbD k).length)).retire)

/-- The immediate group, LIH, PCREL, BFX, BFI and SEL. -/
def Sys2Proof.Claims.ImmediateAndFieldResults : Prop :=
  ∀ (s u : State) (d a b : SReg) (l m : Bool) (x y : W64) (i : BitVec 13) (k : BitVec 6),
    (operands s [⟨a, l⟩] [d] = .ok ([x], u) →
      exec (.addi d l a i) s = .next (u.writeS d (BitVec.ofInt 64 (x.toNat + i.toInt))).retire ∧
      exec (.andi d l a i) s = .next (u.writeS d (x &&& BitVec.ofInt 64 i.toInt)).retire ∧
      exec (.ori d l a i) s = .next (u.writeS d (x ||| BitVec.ofInt 64 i.toInt)).retire ∧
      exec (.xori d l a i) s = .next (u.writeS d (x ^^^ BitVec.ofInt 64 i.toInt)).retire ∧
      exec (.shli d l a k) s = .next (u.writeS d (BitVec.ofNat 64 (x.toNat * 2 ^ k.toNat))).retire ∧
      exec (.shri d l a k) s = .next (u.writeS d (BitVec.ofNat 64 (x.toNat / 2 ^ k.toNat))).retire ∧
      exec (.shriS d l a k) s = .next (u.writeS d (BitVec.ofInt 64 (x.toInt / 2 ^ k.toNat))).retire ∧
      ∀ w p : BitVec 6, p.toNat + w.toNat < 64 →
        exec (.bfx d l a false w p) s = .next (u.writeS d (BitVec.ofNat 64 (field x (p.toNat + w.toNat) p.toNat))).retire ∧
        exec (.bfx d l a true w p) s = .next (u.writeS d (BitVec.ofInt 64
          (if field x (p.toNat + w.toNat) p.toNat < 2 ^ w.toNat then (field x (p.toNat + w.toNat) p.toNat : Int)
           else (field x (p.toNat + w.toNat) p.toNat : Int) - 2 ^ (w.toNat + 1)))).retire) ∧
    (operands s [⟨a, l⟩, ⟨d, false⟩] [d] = .ok ([x, y], u) →
      ∀ w p : BitVec 6, p.toNat + w.toNat < 64 → ∃ r, exec (.bfi d l a w p) s = .next (u.writeS d r).retire ∧
        ∀ j < 64, r.getLsbD j =
          if p.toNat ≤ j ∧ j ≤ p.toNat + w.toNat then x.getLsbD (j - p.toNat) else y.getLsbD j) ∧
    (operands s [⟨a, l⟩, ⟨b, m⟩] [d] = .ok ([x, y], u) → ∀ (n : Bool) (q : PReg),
      exec (.sel d l a m b n q) s = .next (u.writeS d (if (s.ctx.getP q ^^ n) = true then x else y)).retire) ∧
    (operands s [] [d] = .ok ([], u) → ∀ c : BitVec 20,
      exec (.lih d c) s = .next (u.writeS d (BitVec.ofInt 64 (c.toInt * 4096))).retire ∧
      exec (.pcrel d c) s = .next (u.writeS d (BitVec.ofInt 64 (s.ctx.pc.toNat + c.toInt * 4096))).retire)

/-- CMP, CMPI and PLOG write one predicate, p0 discarding; every scalar register is kept. -/
def Sys2Proof.Claims.PredicateResults : Prop :=
  ∀ (s u : State) (p pa pb : PReg) (a b : SReg) (l m : Bool) (x y : W64) (i : BitVec 13) (o : BitVec 3),
    (operands s [⟨a, l⟩, ⟨b, m⟩] [] = .ok ([x, y], u) → ∀ c : BitVec 3,
      exec (.cmp p l a m b c) s = .next (u.writeP p (match c.toNat with
        | 0 => decide (x.toNat = y.toNat)
        | 1 => decide (x.toNat ≠ y.toNat)
        | 2 => decide (x.toInt < y.toInt)
        | 3 => decide (y.toInt ≤ x.toInt)
        | 4 => decide (x.toInt ≤ y.toInt)
        | 5 => decide (y.toInt < x.toInt)
        | 6 => decide (x.toNat < y.toNat)
        | _ => decide (y.toNat ≤ x.toNat))).retire) ∧
    (operands s [⟨a, false⟩] [] = .ok ([x], u) → ∀ c : BitVec 3,
      exec (.cmpi p c a i) s = .next (u.writeP p (condHolds c x (BitVec.ofInt 64 i.toInt))).retire) ∧
    exec (.plog p l pa m pb o) s = .next (s.writeP p (match o.toNat with
        | 0 => s.ctx.getP pa && s.ctx.getP pb
        | 1 => s.ctx.getP pa || s.ctx.getP pb
        | 2 => s.ctx.getP pa ^^ s.ctx.getP pb
        | 3 => s.ctx.getP pa && !s.ctx.getP pb
        | 4 => s.ctx.getP pa || !s.ctx.getP pb
        | _ => !(s.ctx.getP pa ^^ s.ctx.getP pb))).retire ∧
    s.ctx.getP 0 = true ∧ s.writeP 0 l = s ∧ (p ≠ 0 → (s.writeP p l).ctx.getP p = l) ∧
    (∀ q : PReg, q ≠ p → (s.writeP p l).ctx.getP q = s.ctx.getP q) ∧
    (∀ r : SReg, (s.writeP p l).ctx.getS r = s.ctx.getS r) ∧ BytesKept s (s.writeP p l)

/-- The instructions that compute one scalar change their destination, the marks of last-used sources, popped queues, the program
counter and INSTRET, and nothing else. -/
def Obligations.ScalarFrame : Prop :=
  ∀ (i : Instr) (s u : State) (d : SReg) (srcs : List Src) (vs : List W64), scalarShape i = some (d, srcs) →
    operands s srcs [d] = .ok (vs, u) →
    ∃ t, exec i s = .next t ∧ ContextOnly s t ∧ ScalarsKept srcs [d] s t ∧ SideKept s.ctx t.ctx ∧ t.ctx.p = s.ctx.p ∧
      WentTo (s.ctx.pc + 4) s t ∧ BytesKept s t ∧ (isQueue d = false → d ≠ 0 → t.ctx.freed.getLsbD d.toNat = false)

/-- BR, JAL and JR: where they go, the link, and that JR reads sa before it writes sd and traps on a target that is no
multiple of 4. -/
def Obligations.BranchesAndJumps : Prop :=
  ∀ (s u : State) (d a : SReg) (l m : Bool) (x : W64),
    (∀ (p : PReg) (n : Bool) (o : BitVec 21), exec (.br p n o) s = .next (s.retireTo
      (if (s.ctx.getP p ^^ n) = true then BitVec.ofInt 64 (s.ctx.pc.toNat + 4 * o.toInt) else s.ctx.pc + 4))) ∧
    (operands s [] [d] = .ok ([], u) → ∀ o : BitVec 20, exec (.jal d o) s =
      .next ((u.writeS d (s.ctx.pc + 4)).retireTo (BitVec.ofInt 64 (s.ctx.pc.toNat + 4 * o.toInt)))) ∧
    (operands s [⟨a, l⟩] [d] = .ok ([x], u) → field x 1 0 = 0 →
      exec (.jr d l a m) s = .next ((u.writeS d (s.ctx.pc + 4)).retireTo x)) ∧
    (operands s [⟨a, l⟩] [d] = .ok ([x], u) → field x 1 0 ≠ 0 →
      exec (.jr d l a m) s = .next (takeTrap ⟨0x02, x, 0⟩ s)) ∧
    (s.retireTo x).ctx.pc = x ∧ ContextOnly s (s.retireTo x) ∧ ∀ r : SReg, (s.retireTo x).ctx.getS r = s.ctx.getS r

/-! Helpers and waiting -/

/-- START: the lowest free slot becomes a live helper at the target with s1 and s2 set and everything else cleared; with none
free it answers 0 and false; a misaligned target traps and no helper starts. -/
def Obligations.StartStartsHelper : Prop :=
  ∀ (s u : State) (d a b : SReg) (l m : Bool) (p : PReg) (x y : W64), s.isControl = true →
    operands s [⟨a, l⟩, ⟨b, m⟩] [d] = .ok ([x, y], u) →
    (field x 1 0 ≠ 0 → exec (.start d l a m b p) s = .next (takeTrap ⟨0x02, x, 0⟩ s)) ∧
    (field x 1 0 = 0 → (∀ k : Fin 12, 1 ≤ k.val → k.val ≤ 10 → k.val ≤ s.core.helpers → (s.ctxAt k).live = true) →
      exec (.start d l a m b p) s = .next ((u.writeS d 0).writeP p false).retire) ∧
    (field x 1 0 = 0 → ∀ k : Fin 12, 1 ≤ k.val → k.val ≤ 10 → k.val ≤ s.core.helpers → (s.ctxAt k).live = false →
      (∀ j : Fin 12, 1 ≤ j.val → j.val < k.val → (s.ctxAt j).live = true) →
      ∃ t, exec (.start d l a m b p) s = .next t ∧ (t.ctxAt k).live = true ∧ (t.ctxAt k).pc = x ∧
        (t.ctxAt k).getS 1 = y ∧ (t.ctxAt k).getS 2 = BitVec.ofNat 64 k.val ∧
        (∀ r : SReg, r ≠ 1 → r ≠ 2 → (t.ctxAt k).getS r = 0) ∧ (t.ctxAt k).freed = 0 ∧
        (∀ q : PReg, (t.ctxAt k).getP q = (q == 0)) ∧ (t.ctxAt k).h = Vector.replicate 16 0 ∧
        (t.ctxAt k).tstamp = s.ctx.tstamp ∧ (t.ctxAt k).buf = [] ∧ (t.ctxAt k).log = [] ∧
        (∀ j : Fin 12, j ≠ k → j ≠ s.core.cur → t.ctxAt j = s.ctxAt j) ∧ BytesKept s t ∧
        (isQueue d = false → d ≠ 0 → t.ctx.getS d = BitVec.ofNat 64 k.val) ∧ (p ≠ 0 → t.ctx.getP p = true))

/-- HWAIT completes where no helper it names is live and else blocks, its queue entry taken (R42), and completes when the helpers have
ended; YIELD goes behind the other contexts; IDLE is not ready for min(sa, 65535) cycles, with 0 it is YIELD; a hint only retires. -/
def Obligations.WaitingInstructions : Prop :=
  ∀ (s u : State) (a : SReg) (l m : Bool) (x : W64) (h : BitVec 26),
    (operands s [⟨a, l⟩] [] = .ok ([x], u) →
      (s.isControl = true → (∀ i ∈ liveHelpers s.core, x.getLsbD i.val = false) → exec (.hwait l a m) s = .next u.retire) ∧
      (s.isControl = true → ∀ i ∈ liveHelpers s.core, x.getLsbD i.val = true →
        ∃ t, ∃ mask : BitVec 11, exec (.hwait l a m) s = .next t ∧ t.ctx.wait = .hwait mask [⟨a, l⟩] ∧ mask.getLsbD i.val = true ∧
          t.ctx.pc = s.ctx.pc ∧ t.ctx.instret = s.ctx.instret ∧ BytesKept s t ∧ (∀ r : SReg, t.ctx.getS r = s.ctx.getS r) ∧
          (isQueue a = true → t.queue (queueIx a) = if l then (s.queue (queueIx a)).tail else s.queue (queueIx a))) ∧
      (x.toNat ≠ 0 → exec (.idle l a m) s =
        .next (u.retire.blockOn (.idle (s.cycle.toNat + (if x.toNat ≤ 65535 then x.toNat else 65535))))) ∧
      (x = 0 → exec (.idle l a m) s = .next (yieldOrder u).retire)) ∧
    exec (.yield l m) s = .next (yieldOrder s).retire ∧
    (s.isHandler = false → (yieldOrder s).core.order.getLast? = some s.core.cur) ∧
    (∀ mask, s.ctx.wait = .hwait mask [⟨a, l⟩] → (∀ i ∈ liveHelpers s.core, mask.getLsbD i.val = false) → s.pkg.saved = [] →
      ∃ t, step { s with turn := some (.answer s.coreId s.core.cur) } = .next t ∧ WentTo (s.ctx.pc + 4) s t ∧ t.ctx.wait = .ready ∧
        t.ctx.taken = [] ∧ t.core.regs = s.core.regs ∧ BytesKept s t) ∧
    exec (.hint h) s = .next s.retire

/-! Loads and stores -/

/-- A load from the scratchpad below the kernel's request answers the little-endian value at the address, extended, and
changes no byte; LDA is an acquire point and empties the read cache. -/
def Sys2Proof.Claims.LoadsFromScratchpad : Prop :=
  ∀ (s u : State) (d a : SReg) (l g : Bool) (z : BitVec 2) (i : BitVec 10) (x : W64) (at_ : Nat),
    operands s [⟨a, l⟩] [d] = .ok ([x], u) →
    (BitVec.ofInt 64 (x.toNat + i.toInt * 2 ^ z.toNat)).toNat = at_ → at_ % 2 ^ z.toNat = 0 →
    at_ + 2 ^ z.toNat ≤ s.core.scratchReq → at_ + 2 ^ z.toNat ≤ Config.pinnedBase →
    queueTouches s at_ (2 ^ z.toNat) = false → badBytes s.core.badScratch at_ (2 ^ z.toNat) = false →
    ∃ v, exec (.ld d l a z g i) s = .next (u.writeS d v).retire ∧
      exec (.lda d l a z g i) s = .next ((acquire u).writeS d v).retire ∧ (acquire u).core.rcache = [] ∧
      (∀ k < 2 ^ z.toNat, (v >>> (8 * k)).setWidth 8 = Memory.get s.core.scratch (at_ + k)) ∧
      ∀ k, 8 * 2 ^ z.toNat ≤ k → k < 64 → v.getLsbD k = (g && v.getLsbD (8 * 2 ^ z.toNat - 1))

/-- A load from a home returns, byte by byte, the context's own held value where it holds one, else the committed byte, when
the core holds no line of the address, a path to the home is open and no line read is in error; it changes no byte of memory and no register but its
destination, and after LDA the read cache is empty. -/
def Sys2Proof.Claims.LoadsFromHome : Prop :=
  ∀ (s u v1 : State) (d a : SReg) (l g : Bool) (z : BitVec 2) (i : BitVec 10) (x va : W64) (p : Nat) (nc : Bool),
    operands s [⟨a, l⟩] [d] = .ok ([x], u) → va = BitVec.ofInt 64 (x.toNat + i.toInt * 2 ^ z.toNat) →
    checkAddress u .load (2 ^ z.toNat) true .readable va = .ok (.home p nc, v1) →
    refreshing v1.cycle p = none → badLines v1.badMem p (2 ^ z.toNat) = false → readOpen v1 v1.core.tenant v1.die p = true →
    (v1.core.rcache.all fun line => line.line != lineOf p) = true →
    ∃ t t1 v, exec (.ld d l a z g i) s = .next t ∧ exec (.lda d l a z g i) s = .next t1 ∧ t1.core.rcache = [] ∧
      (∀ x ∈ [t, t1], (isQueue d = false → d ≠ 0 → x.ctx.getS d = v) ∧ x.ctx.pc = s.ctx.pc + 4 ∧ BytesKept s x ∧
        ∀ r : SReg, r ≠ d → x.ctx.getS r = s.ctx.getS r) ∧
      ∀ k < 2 ^ z.toNat, (v >>> (8 * k)).setWidth 8 =
        (lastHeld (heldEntries u) (va.toNat + k)).getD (Memory.get s.mem (p + k))

/-- ST to the scratchpad writes the low bytes of sb at the address and nothing else. -/
def Sys2Proof.Claims.StoresToScratchpad : Prop :=
  ∀ (s u : State) (a b : SReg) (l m : Bool) (z : BitVec 2) (i : BitVec 10) (x y : W64) (at_ : Nat),
    operands s [⟨a, l⟩, ⟨b, m⟩] [] = .ok ([x, y], u) →
    (BitVec.ofInt 64 (x.toNat + i.toInt * 2 ^ z.toNat)).toNat = at_ → at_ % 2 ^ z.toNat = 0 →
    at_ + 2 ^ z.toNat ≤ s.core.scratchReq → at_ + 2 ^ z.toNat ≤ Config.pinnedBase →
    queueTouches s at_ (2 ^ z.toNat) = false → Memory.wf s.core.scratch = true →
    ∃ t, exec (.st z l a m b i) s = .next t ∧ t.mem = s.mem ∧ t.ctx.buf = s.ctx.buf ∧ t.ctx.log = s.ctx.log ∧
      (∀ k < 2 ^ z.toNat, Memory.get t.core.scratch (at_ + k) = (y >>> (8 * k)).setWidth 8) ∧
      (∀ k, (k < at_ ∨ at_ + 2 ^ z.toNat ≤ k) → Memory.get t.core.scratch k = Memory.get s.core.scratch k) ∧
      (∀ r : SReg, t.ctx.getS r = s.ctx.getS r) ∧ t.ctx.p = s.ctx.p ∧ WentTo (s.ctx.pc + 4) s t

/-- A global store, and ST.OWN and ST.STK in the replicated region, goes to the store buffer: no byte of any memory changes,
and the context holds the bytes stored at their address, the other held bytes as before. -/
def Sys2Proof.Claims.StoresAreBuffered : Prop :=
  ∀ (s u v1 : State) (a b : SReg) (l m : Bool) (z : BitVec 2) (i : BitVec 10) (j : BitVec 7) (x y va : W64) (pl : Place)
    (which : StKind) (c : Ctx),
    operands s [⟨a, l⟩, ⟨b, m⟩] [] = .ok ([x, y], u) →
    va = BitVec.ofInt 64 (x.toNat + (if which = .plain then i.toInt else j.toInt) * 2 ^ z.toNat) →
    checkAddress u .store (2 ^ z.toNat) true (if which = .plain then .outside else .inside) va = .ok (pl, v1) →
    (∀ k, pl ≠ .scratch k) →
    storeEntry (parkedHere v1).length va.toNat (toBytesLE (2 ^ z.toNat) y.toNat) which v1.ctx = some c →
    ∃ t, exec (match which with | .plain => .st z l a m b i | .own => .stOwn z l a m b j | .stk => .stStk z l a m b j) s = .next t ∧
      BytesKept s t ∧ t.ctx.buf = c.buf ∧ t.ctx.log = c.log ∧ (∀ r : SReg, t.ctx.getS r = s.ctx.getS r) ∧
      t.ctx.p = s.ctx.p ∧ t.ctx.fstat = s.ctx.fstat ∧ WentTo (s.ctx.pc + 4) s t

/-- The store buffer: after a store the context's last value of each byte stored is that byte, and every other byte is held as
before; the buffer holds at most 64 entries and the log at most 2,048 where they held no more. -/
def Obligations.StoreBufferHoldsLastValue : Prop :=
  ∀ (c c' : Ctx) (parked va : Nat) (bs : List Byte) (kind : StKind),
    bs ≠ [] → va % 8 + bs.length ≤ 8 → storeEntry parked va bs kind c = some c' →
    (∀ k, (h : k < bs.length) → lastHeld (c'.log ++ c'.buf) (va + k) = some bs[k]) ∧
    (∀ a, (a < va ∨ va + bs.length ≤ a) → lastHeld (c'.log ++ c'.buf) a = lastHeld (c.log ++ c.buf) a) ∧
    (c.buf.length ≤ Config.bufEntries → c'.buf.length ≤ Config.bufEntries) ∧
    (c.log.length ≤ Config.logStoreEntries → c'.log.length ≤ Config.logStoreEntries)

/-- FENCE.ACQ is an acquire point; ICFLUSH discards the fetched words and the lines that fetches filled, and no later fetch of its
context is served by a line that stays. -/
def Sys2Proof.Claims.AcquireAndFlush : Prop :=
  ∀ (s : State) (l m : Bool) (c : BitVec 3),
    exec (.fenceAcq l m c) s = .next (acquire s).retire ∧ (acquire s).core.rcache = [] ∧
    ∃ t, exec .icflush s = .next t ∧ t.core.icache = [] ∧
      (∀ x ∈ t.core.rcache, x.byFetch = false ∧ x.serves true s.core.cur = false ∧
        ∃ y ∈ s.core.rcache, y.line = x.line ∧ y.bytes = x.bytes) ∧
      (∀ y ∈ s.core.rcache, y.byFetch = false → ∃ x ∈ t.core.rcache, x.line = y.line ∧ x.bytes = y.bytes) ∧
      BytesKept s t ∧ WentTo (s.ctx.pc + 4) s t

/-- FENCE.REL and FENCE.FULL retire once their release is done, the latter as an acquire point, and wait while it waits; in an ordered
task both trap. A release with nothing held and nothing outstanding is done at once and changes no byte and no register. -/
def Sys2Proof.Claims.FencesRelease : Prop :=
  ∀ (s t : State) (l m : Bool) (c : BitVec 3),
    (s.ctx.ord = none → release c.toNat s = .done t →
      exec (.fenceRel l m c) s = .next t.retire ∧ exec (.fenceFull l m c) s = .next (acquire t).retire) ∧
    (s.ctx.ord.isSome = true → ∀ w, encode (.fenceRel l m c) = some w →
      exec (.fenceRel l m c) s = .next (takeTrap ⟨0x1C, 0, w.setWidth 64⟩ s)) ∧
    (s.ctx.ord.isSome = true → ∀ w, encode (.fenceFull l m c) = some w →
      exec (.fenceFull l m c) s = .next (takeTrap ⟨0x1C, 0, w.setWidth 64⟩ s)) ∧
    (s.ctx.ord = none → ∀ x, release c.toNat s = .hold x t →
      exec (.fenceRel l m c) s = .next (t.blockOn x) ∧ exec (.fenceFull l m c) s = .next (t.blockOn x)) ∧
    (s.ctx.buf = [] → s.ctx.log = [] → (parkedHere s).isEmpty = true → redPending c.toNat s = false → c ≠ 5 →
      ∃ r, release c.toNat s = .done r ∧ BytesKept s r ∧ ∀ k : SReg, r.ctx.getS k = s.ctx.getS k)

/-- STL: after its release steps the flag's bytes stand at the home, or in the scratchpad, and no other byte differs from what the
release left. That it waits while no calendar, rein or link slot leads to the home is the model's choice, log entry 67; its sources' queue entries have
then left their queues (R42). -/
def Obligations.StlWritesFlagAfterRelease : Prop :=
  ∀ (s u t1 v1 : State) (z : BitVec 2) (a b : SReg) (l m : Bool) (c : BitVec 3) (i : BitVec 7) (x : (List Byte × Place)) (bs : List Byte) (p : Nat)
    (nc : Bool),
    stlCheck z l a m b c i s = .ok (x, u) → release c.toNat s = .done t1 →
    (stlCheck z l a m b c i t1 = .ok ((bs, .home p nc), v1) → sendOpen v1 v1.core.tenant v1.die p = true → Memory.wf v1.mem = true →
      ∃ t, exec (.stl z l a m b c i) s = .next t ∧ (∀ k, (h : k < bs.length) → Memory.get t.mem (p + k) = bs[k]) ∧
        (∀ k, (k < p ∨ p + bs.length ≤ k) → Memory.get t.mem k = Memory.get v1.mem k) ∧ t.core.scratch = v1.core.scratch ∧
        (∀ r : SReg, t.ctx.getS r = v1.ctx.getS r) ∧ t.ctx.pc = v1.ctx.pc + 4) ∧
    (stlCheck z l a m b c i t1 = .ok ((bs, .home p nc), v1) → sendOpen v1 v1.core.tenant v1.die p = false →
      exec (.stl z l a m b c i) s = .next ((takeEntries [⟨a, l⟩, ⟨b, m⟩] t1).blockOn (.path p true))) ∧
    (stlCheck z l a m b c i t1 = .ok ((bs, .scratch p), v1) → Memory.wf v1.core.scratch = true →
      ∃ t, exec (.stl z l a m b c i) s = .next t ∧ (∀ k, (h : k < bs.length) → Memory.get t.core.scratch (p + k) = bs[k]) ∧
        (∀ k, (k < p ∨ p + bs.length ≤ k) → Memory.get t.core.scratch k = Memory.get v1.core.scratch k) ∧ t.mem = v1.mem ∧
        (∀ r : SReg, t.ctx.getS r = v1.ctx.getS r) ∧ t.ctx.pc = v1.ctx.pc + 4)

/-! Atomics, reductions, marks -/

/-- AMO away from the reduction window: one indivisible step at the home, behind the core's own earlier REDs to the word. The old
value returns, sign-extended for .W MIN and MAX; the word takes the new value, every other byte of memory stands, and CAS writes where
the comparison holds. -/
def Sys2Proof.Claims.AtomicsAtHome : Prop :=
  ∀ (s u v : State) (d a b : SReg) (l m z w : Bool) (o : BitVec 4) (vs : List W64) (p : Nat),
    operands s ([⟨a, l⟩, ⟨b, m⟩] ++ if o = 9 then [⟨d, false⟩] else []) [d] = .ok (vs, u) →
    atomicCheck u z w (val0 vs) = .ok (p, v) → atomicPath u z false (val0 vs) p = .ok () →
    s.inReduction s.core.tenant (val0 vs) = false → Memory.wf s.mem = true →
    ((∀ r ∈ s.pkg.reds, r.core = s.coreId → r.tenant = s.core.tenant → r.phys / 8 ≠ p / 8) → (flushReds p v).mem = s.mem) ∧
    ∀ home, home = (flushReds p v).mem → ∃ t, exec (.amo d l a m b w z o) s = .next t ∧ t.ctx.pc = s.ctx.pc + 4 ∧
      (isQueue d = false → d ≠ 0 → t.ctx.getS d =
        (if z = false ∧ (o = 4 ∨ o = 5) then (BitVec.ofNat 32 (home.num p 4)).signExtend 64
         else BitVec.ofNat 64 (home.num p (if z then 8 else 4)))) ∧
      t.mem.num p (if z then 8 else 4) =
        amoNew (if z then 64 else 32) o.toNat (home.num p (if z then 8 else 4)) (operandBits z (val1 vs)) (operandBits z (val2 vs)) ∧
      (∀ k, (k < p ∨ p + (if z then 8 else 4) ≤ k) → t.mem.get k = home.get k) ∧
      (∀ k, t.core.scratch.get k = s.core.scratch.get k) ∧
      (∀ r : SReg, r ≠ d → t.ctx.getS r = s.ctx.getS r) ∧ t.ctx.fstat = s.ctx.fstat ∧ t.ctx.p = s.ctx.p

/-- AMOF and both forms of RED away from the reduction window: an AMOF writes the result of the operation, memory value first,
returns the old value and raises flags. A RED is sent and retires with no register or byte changed; when it reaches its home the word
takes the result and the request is gone. -/
def Sys2Proof.Claims.FloatAtomicsAndReductions : Prop :=
  ∀ (s u v : State) (d a b : SReg) (l m z : Bool) (o : BitVec 2) (x y : W64) (p : Nat) (ds : List SReg),
    (operands s [⟨a, l⟩, ⟨b, m⟩] ds = .ok ([x, y], u) →
    atomicCheck u z false x = .ok (p, v) → s.inReduction s.core.tenant x = false → Memory.wf s.mem = true →
    (ds = [d] → atomicPath u z false x p = .ok () → ∀ home, home = (flushReds p v).mem →
      ∃ t, exec (.amof d l a m b z o) s = .next t ∧ t.ctx.pc = s.ctx.pc + 4 ∧
      (isQueue d = false → d ≠ 0 → t.ctx.getS d = BitVec.ofNat 64 (home.num p (if z then 8 else 4))) ∧
      t.mem = home.setBytes p (toBytesLE (if z then 8 else 4)
        (floatAtomic z o.toNat (home.num p (if z then 8 else 4)) (operandBits z y)).1) ∧
      t.ctx.fstat = s.ctx.fstat ||| (floatAtomic z o.toNat (home.num p (if z then 8 else 4)) (operandBits z y)).2 ∧
      ∀ r : SReg, r ≠ d → t.ctx.getS r = s.ctx.getS r) ∧
    (ds = [] → ∀ k : BitVec 4,
      (∃ t, exec (.redInt l a m b z k) s = .next t ∧ WentTo (s.ctx.pc + 4) s t ∧ BytesKept s t ∧
        t.pkg.reds = s.pkg.reds ++ [redReq s x p false z k y 0 false] ∧
        (∀ r : SReg, t.ctx.getS r = s.ctx.getS r) ∧ t.ctx.fstat = s.ctx.fstat) ∧
      ∃ t, exec (.redFloat l a m b z o) s = .next t ∧ WentTo (s.ctx.pc + 4) s t ∧ BytesKept s t ∧
        t.pkg.reds = s.pkg.reds ++ [redReq s x p true z (o.setWidth 4) y 0 false] ∧
        (∀ r : SReg, t.ctx.getS r = s.ctx.getS r) ∧ t.ctx.fstat = s.ctx.fstat)) ∧
    ∀ (n : Nat) (r : RedReq), s.pkg.reds[n]? = some r → redDue s n = true →
      ∃ t, step { s with turn := some (.red n) } = .next t ∧ t.pkg.reds = s.pkg.reds.eraseIdx n ∧
        ∀ old, old = s.mem.num r.phys (if r.wide then 8 else 4) →
          t.mem = s.mem.setBytes r.phys (toBytesLE (if r.wide then 8 else 4)
            (if r.float then (floatAtomic r.wide r.op.toNat old (operandBits r.wide r.operand)).1
             else amoNew (if r.wide then 64 else 32) r.op.toNat old (operandBits r.wide r.operand) 0))

/-- In the reduction window an atomic is sent to the switch of the issuer's own stack and its context waits; with .WAKE it
traps. A request that stands alone at the switches, with its paths open, is applied as a batch of its own: the word takes the operation's
result and nothing else in memory changes; of the cores only the sender's counts of messages do. That MSGRECV rises by 1 for a request
without an answer is log entry 28, the model's choice. -/
def Sys2Proof.Claims.ReductionWindow : Prop :=
  ∀ (s u v : State) (d a b : SReg) (l m z : Bool) (o : BitVec 4) (x y : W64) (p : Nat),
    (operands s [⟨a, l⟩, ⟨b, m⟩] [d] = .ok ([x, y], u) → o ≠ 9 → atomicCheck u z false x = .ok (p, v) →
      atomicPath u z true x p = .ok () → s.inReduction s.core.tenant x = true →
      exec (.amo d l a m b true z o) s = .next (takeTrap ⟨0x46, x, 0⟩ s) ∧
      ∃ t, exec (.amo d l a m b false z o) s = .next t ∧ t.ctx.wait = .reduction d [⟨a, l⟩, ⟨b, m⟩] ∧ t.ctx.pc = s.ctx.pc ∧
        (s.coreId < 1536 → (t.stackAt (stackOfDie s.die)).switch =
          (s.stackAt (stackOfDie s.die)).switch ++ [redReq s x p false z o y 0 true]) ∧ BytesKept s t ∧ (∀ r : SReg, t.ctx.getS r = s.ctx.getS r)) ∧
    ∀ (st : Nat) (k : RedReq), st < 4 → (s.stackAt st).switch = [k] → (∀ j < 4, j ≠ st → (s.stackAt j).switch = []) →
      k.answer = false → reductionOpen s k = true → k.die < 24 → OthersApart s →
      ∃ t, exec (.reductionBatch st) s = .next t ∧ (t.stackAt st).switch = [] ∧
        t.mem = s.mem.setBytes k.phys (toBytesLE (if k.wide then 8 else 4)
          (if k.float then (floatAtomic k.wide k.op.toNat (s.mem.num k.phys (if k.wide then 8 else 4)) (operandBits k.wide k.operand)).1
           else amoNew (if k.wide then 64 else 32) k.op.toNat (s.mem.num k.phys (if k.wide then 8 else 4))
            (operandBits k.wide k.operand) (operandBits k.wide k.cmp))) ∧
        t.coreAt k.core = (s.coreAt k.core).received 1 ∧ ∀ c, c ≠ k.core → t.coreAt c = s.coreAt c

/-- LDSUM answers the sum of the words of the six layers of the stack, in layer order: modulo 2^64, or added one by one
to nearest even; it changes no byte, and the stack's SEQ rises. -/
def Sys2Proof.Claims.LdsumSumsLayers : Prop :=
  ∀ (s u v : State) (d a : SReg) (l wide float : Bool) (i : BitVec 10) (x : W64) (off : Nat) (w : Nat → Nat),
    operands s [⟨a, l⟩] [d] = .ok ([x], u) → (float = false → wide = true) →
    checkAddress u .load (if wide then 8 else 4) false .inside
      (BitVec.ofInt 64 (x.toNat + i.toInt * (if wide then 8 else 4))) = .ok (.replica off, v) →
    (∀ k ∈ diesOfStack (stackOfDie s.die), (v.dieAt k).awake = true) →
    sumClosed s off = none → s.badMem = [] → heldEntries s = [] →
    (∀ k, w k = s.mem.num (replicaPhys (6 * stackOfDie s.die + k) off) (if wide then 8 else 4)) →
    isQueue d = false → d ≠ 0 →
    ∃ t, exec (if float then (if wide then .ldsumF64 d l a i else .ldsumF32 d l a i) else .ldsumI64 d l a i) s = .next t ∧
      t.ctx.pc = s.ctx.pc + 4 ∧ BytesKept s t ∧ (∀ r : SReg, r ≠ d → t.ctx.getS r = s.ctx.getS r) ∧
      (t.stackAt (stackOfDie s.die)).seq = (if stackOfDie s.die < 4 then (s.stackAt (stackOfDie s.die)).seq + 1
        else (s.stackAt (stackOfDie s.die)).seq) ∧
      (float = false → t.ctx.getS d = BitVec.ofNat 64 (w 0 + w 1 + w 2 + w 3 + w 4 + w 5) ∧ t.ctx.fstat = s.ctx.fstat) ∧
      (float = true → ∀ f, f = (if wide then f64 else f32) → ∀ r1 r2 r3 r4 r5,
        fAdd f .rne (w 0) (w 1) = r1 → fAdd f .rne r1.1 (w 2) = r2 → fAdd f .rne r2.1 (w 3) = r3 →
        fAdd f .rne r3.1 (w 4) = r4 → fAdd f .rne r4.1 (w 5) = r5 → f.isNaN r5.1 = false →
        t.ctx.getS d = BitVec.ofNat 64 r5.1 ∧ t.ctx.fstat = s.ctx.fstat ||| (r1.2 ||| r2.2 ||| r3.2 ||| r4.2 ||| r5.2))

/-- MDEP and MTICK send their request behind the core's earlier ones and retire; the deposit's amount saturates at 65,535. That
one queue of the core takes them, whatever their region, is log entry 13, the model's reading of R98. -/
def Sys2Proof.Claims.MarkPostsRetire : Prop :=
  ∀ (s u : State) (a b : SReg) (l m : Bool) (x y : W64) (rd : BitVec 128),
    (operands s [⟨a, l⟩, ⟨b, m⟩] [] = .ok ([x, y], u) → markCheck u x true = .ok rd →
      ∃ t, exec (.mdep l a m b) s = .next t ∧ t.core.markQ = s.core.markQ ++
          [{ tenant := s.core.tenant, gang := s.core.tag, ctx := s.core.cur,
             op := .deposit x (if y.toNat ≤ 65535 then y.toNat else 65535) }] ∧
        t.pkg = s.pkg ∧ BytesKept s t ∧ (∀ r : SReg, t.ctx.getS r = s.ctx.getS r) ∧ WentTo (s.ctx.pc + 4) s t) ∧
    (operands s [⟨a, l⟩] [] = .ok ([x], u) → markCheck u x false = .ok rd →
      ∃ t, exec (.mtick l a m) s = .next t ∧ t.core.markQ = s.core.markQ ++
          [{ tenant := s.core.tenant, gang := s.core.tag, ctx := s.core.cur, op := .tick x }] ∧
        t.pkg = s.pkg ∧ BytesKept s t ∧ (∀ r : SReg, t.ctx.getS r = s.ctx.getS r) ∧ WentTo (s.ctx.pc + 4) s t)

/-- A sense or read by a resident context whose core has no earlier request and reaches the region's home: it is sent and the context waits; when it is
served the value is written, the context goes on, and no cell, no byte and no other register changes. -/
def Sys2Proof.Claims.MarkSensesServed : Prop :=
  ∀ (s u : State) (d a : SReg) (l m : Bool) (k : BitVec 12) (x : W64) (rd : BitVec 128) (i : Instr) (op : MarkOp),
    operands s [⟨a, l⟩] [d] = .ok ([x], u) → markCheck s x true = .ok rd → isQueue d = false → d ≠ 0 →
    (i = .msenseMax d l a k ∧ op = .sense x k false ∨ i = .msenseMin d l a k ∧ op = .sense x k true ∨
      i = .mread d l a m ∧ op = .read x) →
    s.core.markQ = [] → s.core.resident ⟨s.core.tenant, s.core.tag, s.core.cur, .release 0⟩ = true →
    markOpen s s.coreId { tenant := s.core.tenant, gang := s.core.tag, ctx := s.core.cur, op := op } = true →
    (s.markRun s.core.tenant (maRegion x)).waitsFor s.coreId s.core.tag = [] → s.pkg.badMarks = [] →
    ∃ t1 t2, exec i s = .next t1 ∧ t1.ctx.wait = .mark d [⟨a, l⟩] ∧ exec (.markSenseServe s.coreId) t1 = .next t2 ∧
      t2.ctx.getS d = cellsValue rd s.tid s.pkg.marks op ∧ WentTo (s.ctx.pc + 4) s t2 ∧ t2.ctx.wait = .ready ∧
      t2.pkg.marks = s.pkg.marks ∧ BytesKept s t2 ∧ ∀ r : SReg, r ≠ d → t2.ctx.getS r = s.ctx.getS r

/-- A sense answers, of its candidates, one with the greatest (least) value: valid in bit 20, its offset in bits 19:16,
its value in bits 15:0; without rotation the first of them in offset order. No candidate answers 0. -/
def Sys2Proof.Claims.SenseChoosesBest : Prop :=
  ∀ (rot wantMin : Bool) (tid : Nat) (cs : List (Nat × Nat)),
    senseResult rot wantMin tid [] = 0 ∧
    (cs ≠ [] → ∃ p ∈ cs, senseResult rot wantMin tid cs = BitVec.ofNat 64 (2 ^ 20 + p.1 * 2 ^ 16 + p.2) ∧
      (∀ q ∈ cs, if wantMin then p.2 ≤ q.2 else q.2 ≤ p.2) ∧
      (rot = false → ∃ before after, cs = before ++ p :: after ∧ ∀ q ∈ before, q.2 ≠ p.2))

/-- A deposit that reaches its home is added to the cell's D, saturating, and leaves V and every other cell; behind an end notice of its
core it is held for the ticks that its gang's notices from that core belong to (by gang: log entry 85, the model's choice). An end notice is
counted for the superstep that it ends, and for no other. Each has a path to the home. -/
def Sys2Proof.Claims.MarkRequestsArrive : Prop :=
  ∀ (s : State) (m : MarkMsg) (rest : List MarkMsg) (x : W64) (n : Nat) (r : Byte) (id : Nat) (ids : List Nat), s.core.markQ = m :: rest → markOpen s s.coreId m = true →
    (m.op = .deposit x n → (s.markRun m.tenant (maRegion x)).waitsFor s.coreId m.gang = [] →
      ∃ t, exec (.markDepositApply s.coreId) s = .next t ∧ t.core.markQ = rest ∧
        (∀ key, key = cellKey (s.region m.tenant (maRegion x)) (maCell x) →
          (cellGet t.pkg.marks key).1 = (cellGet s.pkg.marks key).1 ∧
          (cellGet t.pkg.marks key).2 = BitVec.ofNat 16 (Nat.min ((cellGet s.pkg.marks key).2.toNat + n) 65535) ∧
          ∀ other, other ≠ key → cellGet t.pkg.marks other = cellGet s.pkg.marks other) ∧ BytesKept s t) ∧
    (m.op = .deposit x n → (s.markRun m.tenant (maRegion x)).waitsFor s.coreId m.gang = ids → ids ≠ [] →
      ∃ t, exec (.markDepositApply s.coreId) s = .next t ∧ t.core.markQ = rest ∧ t.pkg.marks = s.pkg.marks ∧ BytesKept s t ∧
        (t.markRun m.tenant (maRegion x)).held = (s.markRun m.tenant (maRegion x)).held ++ [(s.coreId, m, ids)]) ∧
    (m.op = .notice r id → ((s.markRun m.tenant r).trigs.map (·.id)).Nodup →
      ∃ t, exec (.markEndNotice s.coreId) s = .next t ∧ t.core.markQ = rest ∧ t.pkg.marks = s.pkg.marks ∧ BytesKept s t ∧
        (t.markRun m.tenant r).trigs.Perm ((s.markRun m.tenant r).trigs.map fun y =>
          if y.id = id then { y with notices := s.coreId :: y.notices } else y))

/-- A domain tick whose notices are complete fades every cell of its region once; the other triggered ticks are still to come. A superstep
whose members have all departed ticks nothing. A deposit held for that tick alone is served behind it, a held MTICK is one more tick. The tick
that an MTICK asks for comes at once where no domain tick is due, or is held like any request (held by gang: log entry 85, the model's choice). -/
def Sys2Proof.Claims.TickFadesCells : Prop :=
  ∀ (s : State) (t : BitVec 3) (r : Byte), (s.pkg.marks.map (·.1)).Nodup →
    (∀ x, nextTick s t r = some x →
      ((s.markRun t r).held = [] → ∃ u, exec (.markTick t r) s = .next u ∧
        (x.notices ≠ [] → Ticked s u t r ∧ (u.markRun t r).tick = (s.markRun t r).tick + 1) ∧
        (x.notices = [] → u.pkg.marks = s.pkg.marks ∧ BytesKept s u) ∧
        (u.markRun t r).trigs = (s.markRun t r).trigs.filter (·.id != x.id)) ∧
      ∀ core m a n, x.notices ≠ [] → (s.markRun t r).held = [(core, m, [x.id])] → m.tenant = t → maRegion a = r →
        (m.op = .deposit a n → maCell a < rdCells (s.region t r) → ∃ v u, Ticked s v t r ∧ exec (.markTick t r) s = .next u ∧
          (u.markRun t r).held = [] ∧ BytesKept s u ∧ ∀ k, cellGet u.pkg.marks k =
            if k = cellKey (s.region t r) (maCell a) then ((cellGet v.pkg.marks k).1, BitVec.ofNat 16 (Nat.min n 65535))
            else cellGet v.pkg.marks k) ∧
        (m.op = .tick a → ∃ v u, Ticked s v t r ∧ v.region t r = s.region t r ∧ Ticked v u t r ∧ exec (.markTick t r) s = .next u ∧
          (u.markRun t r).held = [] ∧ (u.markRun t r).tick = (s.markRun t r).tick + 2)) ∧
    ∀ m rest a, domainTickDue s t r = false → s.others = [] → s.core.markQ = m :: rest → m.op = .tick a → m.tenant = t → maRegion a = r →
      markOpen s s.coreId m = true →
      ((s.markRun t r).waitsFor s.coreId m.gang = [] → ∃ u, exec (.markTick t r) s = .next u ∧ Ticked s u t r ∧ u.core.markQ = rest ∧
        (u.markRun t r).tick = (s.markRun t r).tick + 1) ∧
      ∀ ids, (s.markRun t r).waitsFor s.coreId m.gang = ids → ids ≠ [] → ∃ u, exec (.markTick t r) s = .next u ∧ u.core.markQ = rest ∧
        u.pkg.marks = s.pkg.marks ∧ BytesKept s u ∧ (u.markRun t r).held = (s.markRun t r).held ++ [(s.coreId, m, ids)]

/-! Teams -/

/-- HITCH. A valid register traps, harness busy; the name 0 traps, team name. A name no team of the tenant has: a free entry of the name's
quarter is made with the issuer as its one member and the register holds its handle; with .OLD nothing changes but the predicate, which is
false. A name that a team has: with .NEW the predicate is false and nothing else changes; a member traps, already hitched; any other issuer
becomes the last member, its first generation the one after the present, its departures counted from now, and the register holds the team's
handle. The name's home is reached. -/
def Obligations.HitchMakesTeam : Prop :=
  ∀ (s u : State) (h : BitVec 4) (p : PReg) (l : Bool) (a : SReg) (f : BitVec 2) (x : W64),
    s.isHandler = false → s.ctx.ord = none → operands s [⟨a, l⟩] [] = .ok ([x], u) → s.pkg.departs = [] →
    ((s.ctx.h[h.toNat]).getLsbD 31 = true → exec (.hitch h p l a f) s = .next (takeTrap ⟨0x20, 0, 0⟩ s)) ∧
    ((s.ctx.h[h.toNat]).getLsbD 31 = false → (x.setWidth 32 : W32) = 0 → exec (.hitch h p l a f) s = .next (takeTrap ⟨0x21, 0, 0⟩ s)) ∧
    ((s.ctx.h[h.toNat]).getLsbD 31 = false → (x.setWidth 32 : W32) ≠ 0 →
      readOpen s s.core.tenant s.die (basePlace (homeStack (x.setWidth 32)).toNat) = true →
      ((∀ e ∈ s.pkg.teams, e.tenant = s.core.tenant → e.name ≠ x.setWidth 32) →
        (f.getLsbD 0 = true → ∃ t, exec (.hitch h p l a f) s = .next t ∧ t.pkg = s.pkg ∧ (p ≠ 0 → t.ctx.getP p = false) ∧
          t.ctx.h = s.ctx.h ∧ WentTo (s.ctx.pc + 4) s t) ∧
        (f.getLsbD 0 = false → ∀ ten, s.tenant? s.core.tenant = some ten → ten.spec.teamQuota > s.pkg.teams.length →
          s.pkg.teams.length < Config.quarterEntries →
          ∃ t e, exec (.hitch h p l a f) s = .next t ∧ t.pkg.teams = s.pkg.teams ++ [e] ∧ e.tenant = s.core.tenant ∧
            e.name = x.setWidth 32 ∧ e.gen = 0 ∧ e.dep = 0 ∧ e.members.map (fun m => (m.tid, m.gang)) = [(s.tid, s.core.tag)] ∧
            e.slot.toNat / 4096 = (homeStack (x.setWidth 32)).toNat ∧ (∀ k ∈ s.pkg.teams, k.slot ≠ e.slot) ∧
            t.ctx.h[h.toNat] = handleOf e.slot (s.incOf e.slot) ∧ (p ≠ 0 → t.ctx.getP p = true) ∧ BytesKept s t ∧
            WentTo (s.ctx.pc + 4) s t)) ∧
      (∀ e, s.team? e.slot = some e → (s.pkg.teams.find? fun k => k.tenant == s.core.tenant && k.name == x.setWidth 32) = some e →
        (f.getLsbD 1 = true → ∃ t, exec (.hitch h p l a f) s = .next t ∧ t.pkg = s.pkg ∧ (p ≠ 0 → t.ctx.getP p = false) ∧
          t.ctx.h = s.ctx.h ∧ WentTo (s.ctx.pc + 4) s t) ∧
        (f.getLsbD 1 = false → (∃ m ∈ e.members, m.tid = s.tid ∧ m.gang = s.core.tag) →
          exec (.hitch h p l a f) s = .next (takeTrap ⟨0x22, 0, 0⟩ s)) ∧
        (f.getLsbD 1 = false → (∀ m ∈ e.members, ¬ (m.tid = s.tid ∧ m.gang = s.core.tag)) →
          ∃ t m, exec (.hitch h p l a f) s = .next t ∧ t.team? e.slot = some { e with members := e.members ++ [m] } ∧ m.tid = s.tid ∧
            m.gang = s.core.tag ∧ m.first = e.gen + 1 ∧ m.dlast = e.dep ∧ m.arrived = none ∧ m.tarr = none ∧
            t.ctx.h[h.toNat] = handleOf e.slot (s.incOf e.slot) ∧ (p ≠ 0 → t.ctx.getP p = true) ∧ BytesKept s t ∧
            WentTo (s.ctx.pc + 4) s t)))

/-- A team whose one member is the issuer, with nothing held anywhere: TBAR, TVOTE and TRED complete at once and write the status, and
with it the vote's or the reduction's result, of type .F32 the low half of the operand; the generation rises by 1. TARR retires, and a TWAIT after it takes its status. -/
def Obligations.LoneMemberCompletes : Prop :=
  ∀ (s u : State) (h : BitVec 4) (d a : SReg) (l : Bool) (o t2 : BitVec 2) (c : BitVec 3) (e : TeamEntry) (m : Member)
    (x y : W64),
    Alone s h e m → isQueue d = false → d.toNat % 2 = 0 → 2 ≤ d.toNat → d.toNat ≤ 54 → s.statusPending d = false →
    s.statusPending (d + 1) = false →
    (∃ t, exec (.tbar h d l c) s = .next t ∧ Released s t e ∧ t.ctx.getS d = statusWord (departedOf e m) false false false e.gen) ∧
    (operands s [⟨a, l⟩] [d, d + 1] = .ok ([x], u) → o.toNat ≤ 2 →
      ∃ t, exec (.tvote h d l a o c) s = .next t ∧ Released s t e ∧
        t.ctx.getS d = (if x = 0 then 0 else 1) ∧
        t.ctx.getS (d + 1) = statusWord (departedOf e m) false false false e.gen) ∧
    (operands s [⟨a, l⟩, ⟨a + 1, l⟩] [d, d + 1] = .ok ([x, y], u) →
      ∃ t, exec (.tred h d l a t2 o c) s = .next t ∧ Released s t e ∧ t.ctx.getS d = (if t2 = 1 then BitVec.ofNat 64 (field x 31 0) else x) ∧
        t.ctx.getS (d + 1) = statusWord (departedOf e m) false false false e.gen) ∧
    (∃ t t3, exec (.tarr h l c) s = .next t ∧ Released s t e ∧ exec (.twait h d l) t = .next t3 ∧
      t3.ctx.getS d = statusWord (departedOf e m) false false false e.gen ∧ t3.ctx.pc = s.ctx.pc + 8)

/-- TINFO writes the numbers of present and pending members, the departures and the generation; TDROP frees the entry, raises its
incarnation and clears the register; UNHITCH of the one member does the same. -/
def Sys2Proof.Claims.TeamInfoAndEnd : Prop :=
  ∀ (s u : State) (h : BitVec 4) (d : SReg) (l : Bool) (c : BitVec 3) (e : TeamEntry) (m : Member),
    Alone s h e m →
    (operands s [] [d] = .ok ([], u) → exec (.tinfo h d l) s = .next ((u.roundTrips 1).writeS d (BitVec.ofNat 64
        (1 + 2 ^ 32 * (if e.dep.toNat ≤ 65535 then e.dep.toNat else 65535) + 2 ^ 48 * (e.gen % 2 ^ 16)))).retire) ∧
    (∀ i, i = .tdrop h l ∨ i = .unhitch h l c →
      ∃ t, exec i s = .next t ∧ t.team? e.slot = none ∧ t.incOf e.slot = s.incOf e.slot + 1 ∧
        t.ctx.h[h.toNat] = 0 ∧ (∀ k : BitVec 4, k ≠ h → t.ctx.h[k.toNat] = s.ctx.h[k.toNat]) ∧
        (∀ r : SReg, t.ctx.getS r = s.ctx.getS r) ∧ BytesKept s t ∧ WentTo (s.ctx.pc + 4) s t)

/-- The events of a home: an arrival of the last missing member of a team completes its generation; a departed leave raises DEP and takes the
member out; a parked notice marks its member. An arrival, or a notice that is on no way, of a TID that names no resident thread has no effect
(that it arrives at all is log entry 15, the model's choice). -/
def Sys2Proof.Claims.TeamHomeEvents : Prop :=
  ∀ (s : State) (slot : BitVec 14) (tid : BitVec 15) (gang : Half) (e : TeamEntry) (parked : Bool) (scope : BitVec 3),
    s.team? slot = some e →
    (isResident s tid.toNat = false → ∀ req, exec (.teamArrival e.tenant tid req) s = .next s) ∧
    (isResident s tid.toNat = false → s.pkg.departs = [] → exec (.teamParkedNotice slot tid parked) s = .next s) ∧
    (∀ m, isResident s tid.toNat = true → e.members = [m] → m.tid = tid.toNat → m.gang = tagOfTid s tid.toNat → m.first ≤ e.gen → s.pkg.departs = [] →
      ∃ t, exec (.teamArrival e.tenant tid (.arrive slot .plain scope)) s = .next t ∧
        (t.team? slot).map (·.gen) = some (e.gen + 1)) ∧
    (∀ m n, e.members = [m, n] → m.tid = tid.toNat → m.gang = gang → n.tid ≠ tid.toNat → n.arrived = none → n.first ≤ e.gen →
      s.pkg.departs = [⟨slot, tid.toNat, gang, none⟩] →
      ∃ t, exec (.teamDeparture slot tid) s = .next t ∧ t.pkg.departs = [] ∧
        (t.team? slot).map (fun x => (x.dep, x.members)) = some (e.dep + 1, [n])) ∧
    (∀ k, (s.pkg.departs = [] ∧ isResident s tid.toNat = true ∧ k = tagOfTid s tid.toNat ∨ s.pkg.departs = [⟨slot, tid.toNat, k, some parked⟩]) →
      ∃ t, exec (.teamParkedNotice slot tid parked) s = .next t ∧ t.pkg.departs = [] ∧
      (t.team? slot).map (·.members) = some (e.members.map fun m =>
        if m.tid == tid.toNat && m.gang == k then { m with parked := parked } else m))

/-! Commit windows and supersteps -/

/-- A commit window gives each byte the value of the contribution with the largest (TSTAMP, TID) that writes it, the
program-order last inside one contribution, and leaves every byte that no contribution writes. -/
def Obligations.CommitWindowLargestKeyWins : Prop :=
  ∀ (s : State) (id : Nat) (cs : List Contribution), Memory.wf s.mem = true → PlainWords cs →
    LargestKey s (applyWindow id cs s) cs fun _ => True

/-- SYNC with no frame, an empty vector queue and nothing held sends its arrival, with the scatters of the last phase that have a path
to their homes; no byte changes but by the core's own earlier REDs to words of those scatters, which come first (R232). A repeat frame or
queued entries make it wait, and a context other than control traps. -/
def Sys2Proof.Claims.SyncSendsArrival : Prop :=
  ∀ (s : State) (l m : Bool), (s.isControl = true → frameActive s.core.regs.frame.word = false → s.core.entries = [] →
      s.ctx.buf = [] → s.ctx.log = [] → (∀ e ∈ (serveScatters s.core.regs).scats, closedPath s s.core.tenant s.die e = none) →
      ∃ t a, exec (.sync l m) s = .next t ∧ t.core.arrivals = s.core.arrivals ++ [a] ∧ a.gang = s.core.gang.getD 0 ∧
        a.level = s.core.regs.level ∧ a.contrib.key = ⟨s.ctx.tstamp, s.tid⟩ ∧ a.contrib.scats = (serveScatters s.core.regs).scats ∧
        t.ctx.wait = .sync ∧ t.ctx.pc = s.ctx.pc ∧ (∀ r : SReg, t.ctx.getS r = s.ctx.getS r) ∧
        ((∀ k ∈ s.pkg.reds, k.core ≠ s.coreId) → BytesKept s t) ∧ BytesKept (flushAhead (serveScatters s.core.regs).scats s) t) ∧
    (s.isControl = true → frameActive s.core.regs.frame.word = true → exec (.sync l m) s = .next (s.blockOn .frameActive)) ∧
    (s.isControl = true → frameActive s.core.regs.frame.word = false → s.core.entries ≠ [] →
      exec (.sync l m) s = .next (s.blockOn .vqEmpty)) ∧
    (s.isControl = false → ∀ w, encode (.sync l m) = some w →
      exec (.sync l m) s = .next (takeTrap ⟨0x03, 0, w.setWidth 64⟩ s))

/-- The steps of a superstep at its home: an arrival is counted with its contribution. When every member has arrived the window applies: each
byte takes the value of the largest key among the contributions, of which an ordered task is left out, and its descriptor returned to its
core's queue, where an applied one with a smaller key writes a line of its signature and its context has not ended by a fault. The release lets every member that is on its core retire
its SYNC in an exchange phase that begins in its cycle, with an empty read cache, and goes into the spill buffer of one that is saved. When all
phases have ended SSTEP of every member rises by 1, in its image where it is saved. -/
def Obligations.SuperstepSteps : Prop :=
  ∀ (s : State) (x : Superstep),
    (∀ a rest, s.core.arrivals = a :: rest → s.pkg.steps = [x] → x.gang = a.gang → x.level = a.level → x.applied = false →
      x.unit = s.coreId / unitSize a.level.toNat → arrivalOpen s s.coreId a = true → (∀ g, s.gangOf a.gang = some g → s.coreId ∉ g.ended) →
      ∃ t, exec (.domainArrival s.coreId) s = .next t ∧ t.core.arrivals = rest ∧
        t.pkg.steps = [{ x with arrived := x.arrived ++ [(s.coreId, a.level)], contribs := x.contribs ++ [a.contrib] }]) ∧
    (s.step? x.id = some x → windowDue s x = true →
      ∃ t, exec (.commitWindowApply x.id) s = .next t ∧
        (t.step? x.id).map (fun y => (y.applied, y.contribs, y.arrived)) = some (true, [], x.arrived) ∧
        (PlainWords x.contribs → s.pkg.inFlight = [] → (x.contribs.map (·.key.rank)).Nodup → (∀ d : Nat, (s.dieAt d).replay = []) → Memory.wf s.mem = true →
          OthersApart s → ∃ applied : Contribution → Prop, OrderedRule x.contribs applied ∧ LargestKey s t x.contribs applied ∧
            ∀ c ∈ x.contribs, ∀ o, c.ord = some o → o.ended = false → ¬ applied c → (s.coreAt c.core).gang = some c.gang → o.desc ∈ (t.coreAt c.core).work)) ∧
    (s.step? x.id = some x → releaseDue s x = true → (x.arrived.map (·.1)).Nodup → OthersApart s → ∀ g, s.gangOf x.gang = some g →
      ∃ t, exec (.superstepRelease x.id) s = .next t ∧ BytesKept s t ∧ (t.step? x.id).map (·.released) = some true ∧
        ∀ c ∈ x.arrived.map (·.1), ∀ p, p = releasePacket g.tenant x.gang s.cycle.toNat →
          ((s.coreAt c).resident p = true → (s.coreAt c).ctxs[0].wait = .sync →
            MemberReleased s.cycle.toNat (s.coreAt c) (t.coreAt c)) ∧
          ((s.coreAt c).resident p = false → ∀ v, s.pkg.saved.find? (savedFor c p) = some v → v.spill.length < spillRoom →
            ∃ w, t.pkg.saved.find? (savedFor c p) = some w ∧ w.spill = v.spill ++ [p] ∧ w.ctxs = v.ctxs)) ∧
    (s.step? x.id = some x → stepOver s x = true → OthersApart s → ∀ g, s.gangOf x.gang = some g → g.cores.Nodup →
      ∃ t, exec (.superstepEnd x.id) s = .next t ∧ t.step? x.id = none ∧ BytesKept s t ∧
        ∀ c ∈ g.cores, c / unitSize x.level.toNat = x.unit → c ∈ x.arrived.map (·.1) →
          ((s.coreAt c).gang = some x.gang ∨ (imageOf s c x.gang).isSome = true) →
          (regsOf t c x.gang).sstep = (regsOf s c x.gang).sstep + 1) ∧
    (s.step? x.id = some x → stepWants s x = true → ∀ g, s.gangOf x.gang = some g →
      ∃ t, exec (.domainResumeRequest x.id) s = .next t ∧ (t.gangOf x.gang).map (·.wanted) = some true)

/-- QUIT of a helper that holds nothing and is in no team ends it: its slot is free, INSTRET counts, nothing else of the core's registers
changes. A control context waits for its helpers. -/
def Sys2Proof.Claims.QuitEndsContext : Prop :=
  ∀ (s : State) (l m : Bool),
    (s.isHelper = true → s.ctx.ord = none → s.ctx.buf = [] → s.ctx.log = [] → (parkedHere s).isEmpty = true →
      (∀ h : BitVec 4, (s.ctx.h[h.toNat]).getLsbD 31 = false) →
      ∃ t, exec (.quit l m) s = .next t ∧ t.ctx.live = false ∧ t.ctx.instret = s.ctx.instret + 1 ∧ t.core.regs = s.core.regs ∧
        BytesKept s t ∧ ∀ j : Fin 12, j ≠ s.core.cur → t.ctxAt j = s.ctxAt j) ∧
    (s.isControl = true → liveHelpers s.core ≠ [] → exec (.quit l m) s = .next (s.blockOn .helpers))

/-! The exchange, gathers -/

/-- XMIT and XSEL inside an exchange phase arm a transfer and retire; outside one they trap. -/
def Sys2Proof.Claims.ExchangeArming : Prop :=
  ∀ (s u : State) (n : BitVec 6) (a b : SReg) (l m : Bool) (x y : W64) (r : Nat),
    s.isControl = true → operands s [⟨a, l⟩, ⟨b, m⟩] [] = .ok ([x, y], u) →
    (s.core.exch = none → exec (.xmit n l a m b) s = .next (takeTrap ⟨0x38, 0, BitVec.ofNat 64 n.toNat⟩ s) ∧
      exec (.xsel n l a m b) s = .next (takeTrap ⟨0x38, 0, BitVec.ofNat 64 n.toNat⟩ s)) ∧
    (s.core.exch = some r → isExchSlot (vget (s.dieAt s.die).cal n.toNat 0) s.core.tenant = true →
      (s.cycle.toNat + 4 ≤ r + 64 * (field y 15 8 + 1) + n.toNat →
        (∀ k ∈ s.core.xmits, k.slot ≠ n ∨ k.frame.toNat ≠ field y 15 8) →
        (s.core.xmits.filter fun k => !k.sent).length < 64 → x.toNat % 8 = 0 →
        x.toNat + 8 * (field y 4 0 + 1) ≤ 0x2C000 → x.toNat + 8 * (field y 4 0 + 1) ≤ s.core.scratchReq →
        ∃ t k, exec (.xmit n l a m b) s = .next t ∧ t.core.xmits = s.core.xmits ++ [k] ∧ k.slot = n ∧
          k.frame.toNat = field y 15 8 ∧ k.addr = x ∧ k.words = field y 4 0 + 1 ∧ k.sent = false ∧
          k.pkg = y.getLsbD 17 ∧ k.stk = (y.getLsbD 16 || y.getLsbD 17) ∧ BytesKept s t ∧ WentTo (s.ctx.pc + 4) s t) ∧
      (s.cycle.toNat + 4 ≤ r + 64 * (field x 23 16 + 1) + n.toNat →
        (∀ k ∈ s.core.xsels, k.slot ≠ n ∨ k.frame.toNat ≠ field x 23 16) →
        (s.core.xsels.filter fun k => !k.done).length < 64 → y.toNat % 8 = 0 → y.toNat + 256 ≤ 0x2C000 →
        y.toNat + 256 ≤ s.core.scratchReq → field x 10 0 < 1536 →
        ∃ t k, exec (.xsel n l a m b) s = .next t ∧ t.core.xsels = s.core.xsels ++ [k] ∧ k.slot = n ∧
          k.frame.toNat = field x 23 16 ∧ k.src = field x 10 0 ∧ k.addr = y ∧ k.done = false ∧ BytesKept s t ∧
          WentTo (s.ctx.pc + 4) s t))

/-- An armed transmission reads its words at its occurrence and is sent; an armed reception that a transfer reaches takes the words at its
address and is done. Served gathers hold the values of their homes. -/
def Sys2Proof.Claims.ExchangeAndGatherEvents : Prop :=
  ∀ (s : State) (f : Byte) (n : BitVec 6),
    (∀ x, s.core.xmits = [x] → x.frame = f → x.slot = n → x.sent = false → badXmit s.core x = none →
      ∃ t k, exec (.exchangeTransmit s.coreId f n) s = .next t ∧ t.core.xmits = [{ x with sent := true }] ∧ k ∈ t.pkg.transfers ∧
        k.src = s.coreId ∧ k.slot = n ∧ k.words.length = x.words ∧
        (∀ j, (h : j < k.words.length) → k.words[j] = BitVec.ofNat 64 (s.core.scratch.num (x.addr.toNat + 8 * j) 8)) ∧
        BytesKept s t) ∧
    (∀ x k, s.core.xsels = [x] → x.frame = f → x.slot = n → x.done = false → Memory.wf s.core.scratch = true →
      OthersApart s → received s x s.coreId (c0Of s.core f n) = some k →
      ∃ t, exec (.exchangeArrival s.coreId f n) s = .next t ∧ t.core.xsels = [{ x with done := true }] ∧ t.mem = s.mem ∧
        (∀ j, (h : j < k.words.length) → BitVec.ofNat 64 (t.core.scratch.num (x.addr.toNat + 8 * j) 8) = k.words[j]) ∧
        ∀ q, (q < x.addr.toNat ∨ x.addr.toNat + 8 * k.words.length ≤ q) → t.core.scratch.get q = s.core.scratch.get q) ∧
    (∀ g, s.core.regs.gathers = [g] → g.scat = false → g.sent = true → g.served = false → gatherDue s s.coreId = true →
      s.core.gang ≠ none → (∀ v ∈ s.pkg.saved, v.core ≠ s.coreId) → (∀ k ∈ g.lanes, laneBad s g.wide k = false) →
      ∃ t v, exec (.gatherServe s.coreId) s = .next t ∧ t.core.regs.gathers = [v] ∧ v.served = true ∧ BytesKept s t ∧
        v.values = g.lanes.map fun k => (k.elem, BitVec.ofNat 64 (s.mem.num k.home (if g.wide then 8 else 4))))

/-! System registers -/

/-- MFS writes the value of the register named: the trap registers for the handler, the reader's TID, tenant, contexts (CTX), level, superstep,
queue configuration, LUMODE, SPINLIM, flags, rounding mode, VSHARE, FMT, frame, ring, FIFO and stage-ring registers, WSRF, store-buffer counts, TSTAMP,
windows, ROLE, PACER, cycle and counters, and CAPP; a trap register traps for any other context, and FSTAT waits for the reader's own queued or held
entries. THE MODEL'S CHOICES, no rule of the spec: QOCC in VSHARE counts a dispatched entry until it completes (log entry 10); FMT shows an
MFMT that is held to the context that issued it and to no other (log entry 97); FSTAT does not wait for steps of a frame still to come (log entry 75). -/
def Obligations.SystemRegisterReads : Prop :=
  ∀ (s u : State) (d : SReg), operands s [] [d] = .ok ([], u) →
    (∀ n : BitVec 12, n.toNat ≤ 6 → s.isHandler = false → ∀ w, encode (.mfs d n) = some w →
      exec (.mfs d n) s = .next (takeTrap ⟨0x03, 0, w.setWidth 64⟩ s)) ∧
    (∀ (n : BitVec 12) (v : W64), (s.isHandler = true ∨ 6 < n.toNat) →
      (n = 0x000 ∧ v = s.core.trap.tcause ∨ n = 0x001 ∧ v = s.core.trap.taddr ∨ n = 0x002 ∧ v = s.core.trap.tepc ∨
        n = 0x003 ∧ v = s.core.trap.tnpc ∨ n = 0x004 ∧ v = s.core.trap.tstat ∨
        n = 0x005 ∧ v = BitVec.ofNat 64 (64 * s.core.trap.tvec.toNat) ∨ n = 0x006 ∧ v = s.core.trap.tact.setWidth 64 ∨
        n = 0x008 ∧ v = BitVec.ofNat 64 (16 * s.coreId + ctxNum s.core.cur) ∨ n = 0x009 ∧ v = s.core.tenant.setWidth 64 ∨
        n = 0x011 ∧ v = s.core.regs.levelNext.setWidth 64 ∨ n = 0x012 ∧ v = s.core.regs.sstep.setWidth 64 ∨
        n = 0x013 ∧ v = s.core.regs.qcfg ∨ n = 0x014 ∧ v = (if s.core.regs.lumode then 1 else 0) ∨
        n = 0x015 ∧ v = BitVec.ofNat 64 (s.core.regs.spinCount.toNat + 2 ^ 16 * s.core.regs.spinHold.toNat) ∨
        n = 0x017 ∧ v = s.ctx.frm.setWidth 64 ∨ n = 0x018 ∧ v = packed [(s.core.regs.weight.toNat, 0), (s.core.entries.length, 4)] ∨
        n = 0x019 ∧ v = s.core.fmtShown s.core.cur &&& 0xFFFFFFFFEFFFFFFF ∨ n = 0x01A ∧ v = s.core.regs.frame.word ∨
        n = 0x01B ∧ v = s.core.regs.frame.base ∨ n = 0x01C ∧ v = s.core.regs.frame.pc ∨
        n = 0x01D ∧ v = (if s.cycle.toNat % 4096 < 256 then
            packed [(s.cycle.toNat % 65536 / 4096, 0), (1, 4), (256 - s.cycle.toNat % 4096, 16)]
          else packed [((s.cycle.toNat % 65536 / 4096 + 1) % 16, 0), (4096 - s.cycle.toNat % 4096, 16)]) ∨
        n = 0x030 ∧ v = s.srwin s.core.tenant ∨ n = 0x031 ∧ v = s.rwwin s.core.tenant ∨
        n = 0x050 ∧ v = packed [(s.core.regs.role.stage.toNat, 0), (boolNat s.core.regs.role.en, 4), (boolNat s.core.regs.role.lock, 5),
          (boolNat s.core.regs.role.pend, 6), (s.core.regs.role.next.toNat, 8)] ∨
        n = 0x051 ∧ v = packed [(s.core.regs.pacer.permits.toNat, 0), (boolNat s.core.regs.pacer.active, 16),
          (min (paceRemain s.core.regs.pacer) (2 ^ 32 - 1), 32)] ∨
        (∃ g : BitVec 3, n.toNat = 0x020 + 2 * g.toNat ∧
          v = packed [((s.ring g).base.toNat, 0), ((s.ring g).slog.toNat, 18), ((s.ring g).size.toNat, 22)]) ∨
        (∃ g : BitVec 3, n.toNat = 0x021 + 2 * g.toNat ∧
          v = packed [((s.ring g).head.toNat, 0), ((s.ring g).tail.toNat, 8), ((s.ring g).filled.toNat, 16), ((s.ring g).free.toNat, 25)]) ∨
        (∃ k : Fin 16, n.toNat = 0x040 + k.val ∧
          v = packed [(s.core.efifo[k].kind.toNat, 0), (boolNat s.core.efifo[k].pops, 4), (s.core.efifo[k].scope.toNat, 5),
            (s.core.efifo[k].elems.length, 16), (s.core.efifo[k].depth, 32)]) ∨
        (∃ k : Fin 16, n.toNat = 0x060 + k.val ∧ s.die < 24 ∧
          v = (if (s.dieAt s.die).stages[k].valid = true ∧ (s.dieAt s.die).stages[k].tenant = s.core.tenant then
              packed [((s.dieAt s.die).stages[k].dlog.toNat, 0), (1, 5), ((s.dieAt s.die).stages[k].hi.toNat, 8),
                ((s.dieAt s.die).stages[k].elems.length, 24)]
            else 0)) ∨
        n = 0x01E ∧ v = BitVec.ofNat 64 (s.ctx.buf.length + 2 ^ 8 * (s.ctx.log.length + (parkedHere s).length)) ∨
        n = 0x01F ∧ v = s.ctx.tstamp ∨ n = 0x070 ∧ v = s.cycle ∨ n = 0x071 ∧ v = s.ctx.instret ∨
        n = 0x072 ∧ v = s.core.msgSent ∨ n = 0x073 ∧ v = s.core.msgRecv ∨
        n = 0x074 ∧ ∃ ten, s.tenant? s.core.tenant = some ten ∧ v = BitVec.ofNat 64 (field ten.spec.capVA 47 0)) →
      exec (.mfs d n) s = .next (u.writeS d v).retire) ∧
    (∃ v, exec (.mfs d 0x010) s = .next (u.writeS d v).retire ∧ field v 3 0 = ctxNum s.core.cur ∧
      (∀ k : Fin 12, k ≠ handlerIx → v.getLsbD (16 + k.val) = (s.ctxAt k).live) ∧
      ∀ k, 1 ≤ k → k ≤ 10 → v.getLsbD (32 + k) = s.core.hfault.getLsbD k) ∧
    (s.core.owes s.core.cur = false →
      exec (.fstatRead d) s = .next (u.writeS d (s.ctx.fstat.setWidth 64)).retire ∧
      exec (.mfs d 0x016) s = .next (u.writeS d (s.ctx.fstat.setWidth 64)).retire) ∧
    (s.core.owes s.core.cur = true → exec (.fstatRead d) s = .next (s.blockOn .fstat))

/-- MTS, and the writes that have a row of their own, change the fields the register has and nothing else: DOMAIN (levels 0–4),
TSTAMP (not of an ordered task), FSTAT and HFAULT (a written 1 clears), ROLE, VSHARE (0 stores 1), LUMODE, SPINLIM, FRM, TVEC, TACT;
a write of CYCLE is ignored, and a helper's write of DOMAIN traps. -/
def Obligations.SystemRegisterWrites : Prop :=
  ∀ (s u : State) (r : SReg) (x : W64), operands s [⟨r, false⟩] [] = .ok ([x], u) →
    exec (.tstampWrite r) s = .next (if s.ctx.ord.isSome then u else u.modCtx fun c => { c with tstamp := x }).retire ∧
    exec (.fstatClear r) s = .next (u.modCtx fun c => { c with fstat := c.fstat &&& ~~~(x.setWidth 5) }).retire ∧
    exec (.roleWrite r) s = .next (u.modRegs fun k => { k with
      role := { stage := x.setWidth 4, en := x.getLsbD 4, lock := x.getLsbD 5, pend := false, next := 0 } }).retire ∧
    exec (.vshareWrite r) s = .next (u.modRegs fun k => { k with weight := if field x 3 0 = 0 then 1 else x.setWidth 4 }).retire ∧
    exec (.mts r 0x017) s = .next (u.modCtx fun c => { c with frm := x.setWidth 2 }).retire ∧
    exec (.mts r 0x070) s = .next u.retire ∧
    (s.isHelper = false →
      exec (.domainWrite r) s =
        .next (if field x 2 0 ≤ 4 then u.modRegs fun k => { k with levelNext := x.setWidth 3 } else u).retire ∧
      exec (.hfaultClear r) s = .next (u.modCore fun c => { c with hfault := c.hfault &&& ~~~((x >>> 32).setWidth 11) }).retire ∧
      exec (.mts r 0x014) s = .next (u.modRegs fun k => { k with lumode := x.getLsbD 0 }).retire ∧
      exec (.mts r 0x015) s = .next (u.modRegs fun k =>
        { k with spinCount := BitVec.ofNat 16 (field x 15 0), spinHold := BitVec.ofNat 16 (field x 31 16) }).retire) ∧
    (s.isHandler = true →
      exec (.mts r 0x005) s = .next (u.modTrap fun t => { t with tvec := BitVec.ofNat 8 (field x 13 6) }).retire ∧
      exec (.mts r 0x006) s = .next (u.modTrap fun t => { t with tact := x.setWidth 3 }).retire) ∧
    (s.isHelper = true → ∀ w, encode (.mts r 0x011) = some w →
      exec (.domainWrite r) s = .next (takeTrap ⟨0x03, 0, w.setWidth 64⟩ s))

/-- QCFG: each byte is stored, or 0xFF for a reserved number or one context at both ends; a changed queue is emptied, the others keep their entries. A ring descriptor
in range, written with the queue empty and no reserved slot, makes the ring empty with all slots free; out of range (BASE no multiple of 64, SLOG above 8, SIZE 0 or above
2,816, or an end above the request or the pinned area) it traps. A helper's write of a frame register is ignored; the handler's is stored. That a write of FRAME or FRBASE
drops the captured words, which are fetched again at FRBASE, and that FRAME gives the frame to the control context is log entry 41, the model's choice. -/
def Obligations.QueueRingAndFrameWrites : Prop :=
  ∀ (s u : State) (r : SReg) (x : W64) (g : BitVec 3) (which : BitVec 2), operands s [⟨r, false⟩] [] = .ok ([x], u) →
    (s.isHelper = false → (∀ i : Fin 12, (s.ctxAt i).wait = .ready) →
      ∃ t, exec (.qcfgWrite r) s = .next t ∧ WentTo (s.ctx.pc + 4) s t ∧ BytesKept s t ∧
        ∀ (q : Fin 8) (b : Nat), b = queueByte (field x (8 * q.val + 7) (8 * q.val)) → field t.core.regs.qcfg (8 * q.val + 7) (8 * q.val) = b ∧
          (field s.core.regs.qcfg (8 * q.val + 7) (8 * q.val) ≠ b → t.queue q = []) ∧
          (field s.core.regs.qcfg (8 * q.val + 7) (8 * q.val) = b → t.queue q = u.queue q)) ∧
    (s.core.entries = [] → ((s.ring g).resv.all fun k => k.owner == 0 || k.done) = true →
      (RingInRange s x →
        ∃ t, exec (.ringDescriptorWrite g r) s = .next t ∧ (t.ring g).base.toNat = field x 17 0 ∧
          (t.ring g).slog.toNat = field x 21 18 ∧ (t.ring g).size.toNat = field x 33 22 ∧ (t.ring g).head = 0 ∧
          (t.ring g).tail = 0 ∧ (t.ring g).filled = 0 ∧ (t.ring g).free.toNat = 2 ^ field x 21 18 ∧
          (∀ k : BitVec 3, k ≠ g → t.ring k = s.ring k) ∧ BytesKept s t ∧ WentTo (s.ctx.pc + 4) s t) ∧
      (¬ RingInRange s x →
        exec (.ringDescriptorWrite g r) s = .next (takeTrap ⟨0x31, 0, g.setWidth 64⟩ s))) ∧
    (s.isHelper = true → exec (.frameWrite which r) s = .next u.retire) ∧
    (s.isHandler = true →
      exec (.frameWrite 0 r) s = .next (u.modFrame fun f => { f with word := x &&& 0x3FFF01FFFFFF, body := [], ctx := 0, fault := none }).retire ∧
      exec (.frameWrite 1 r) s = .next (u.modFrame fun f => { f with base := x &&& 0xFFFFFFFFFFFF, body := [], fault := none }).retire ∧
      exec (.frameWrite 2 r) s = .next (u.modFrame fun f => { f with pc := x &&& 0xFFFFFFFFFFFF }).retire)

/-! Work queues and channels -/

/-- WPUSH and WPUSH.ORD put a descriptor without WAIT at the head of the core's own queue, marked ordered by the second, and answer true; a full
queue answers false and changes nothing else. A malformed descriptor traps. One with WAIT reserves its entry and stalls for the counter's home, whose
answer completes it: at the head for a counter of 0, refused where the waiter list is full, else registered with its entry kept. The die that
counts the registrations of a far-memory word is log entry 22, the model's choice. -/
def Sys2Proof.Claims.WorkPushes : Prop :=
  ∀ (s u : State) (p : PReg) (a : SReg) (l m : Bool) (d : BitVec 256),
    (∀ x w v, operands s [⟨a, l⟩] [] = .ok ([x], u) → scratchArea u 32 32 true x = .ok () →
      d = BitVec.ofNat 256 (s.core.scratch.num x.toNat 32) → descBad d = none → counterPlace u d = .ok (some w, v) →
      s.core.ordf + 1 ≤ s.core.workFree →
      ∃ t, exec (.wpush p l a m) s = .next t ∧ t.ctx.wait = .push w d p ⟨a, l⟩ ∧ t.core.parked = s.core.parked + 1 ∧
        t.core.work = s.core.work ∧ t.ctx.pc = s.ctx.pc ∧ t.ctx.instret = s.ctx.instret ∧ BytesKept s t ∧
        (isQueue a = true → t.queue (queueIx a) = if l then (s.queue (queueIx a)).tail else s.queue (queueIx a)) ∧
        t.pkg.pushQ = s.pkg.pushQ ++ [{ core := s.coreId, gang := s.core.tag, ctx := s.core.cur, home := w, seq := s.pkg.nextId }]) ∧
    (∀ w, s.ctx.wait = .push w d p ⟨a, l⟩ → homeDie w < 24 →
      ∃ t, step { s with turn := some (.answer s.coreId s.core.cur) } = .next t ∧ WentTo (s.ctx.pc + 4) s t ∧ BytesKept s t ∧
        t.core.regs = s.core.regs ∧ t.ctx.taken = [] ∧ t.pkg.pushQ = s.pkg.pushQ.filter (fun r => !s.pushMine s.core.cur r) ∧
        (s.mem.num w 8 = 0 → t.core.work = d :: s.core.work ∧ t.core.parked = s.core.parked - 1 ∧ (p ≠ 0 → t.ctx.getP p = true)) ∧
        (s.mem.num w 8 ≠ 0 → 4096 ≤ (s.dieAt (homeDie w)).waiters.length →
          t.core.work = s.core.work ∧ t.core.parked = s.core.parked - 1 ∧ (p ≠ 0 → t.ctx.getP p = false)) ∧
        (s.mem.num w 8 ≠ 0 → (s.dieAt (homeDie w)).waiters.length < 4096 →
          t.core.work = s.core.work ∧ t.core.parked = s.core.parked ∧ (p ≠ 0 → t.ctx.getP p = true) ∧
          (t.dieAt (homeDie w)).waiters = (s.dieAt (homeDie w)).waiters ++ [(w, .desc s.coreId (s.core.gang.getD 0) d)])) ∧
    ∀ x, operands s [⟨a, l⟩] [] = .ok ([x], u) →
    scratchArea u 32 32 true x = .ok () → d = BitVec.ofNat 256 (s.core.scratch.num x.toNat 32) → descWAIT d = false →
    (∀ b, descBad d = some b → exec (.wpush p l a m) s = .next (takeTrap ⟨0x42, x, BitVec.ofNat 64 b⟩ s)) ∧
    (descBad d = none → s.core.workFree < s.core.ordf + 1 →
      ∃ t, exec (.wpush p l a m) s = .next t ∧ t.core.work = s.core.work ∧ (p ≠ 0 → t.ctx.getP p = false) ∧
        WentTo (s.ctx.pc + 4) s t ∧ BytesKept s t) ∧
    (descBad d = none → s.core.ordf + 1 ≤ s.core.workFree → ∀ i k,
      (i = .wpush p l a m ∧ k = d ∨ i = .wpushOrd p l a m ∧ k = d ||| (1 <<< 192)) →
      ∃ t, exec i s = .next t ∧ t.core.work = k :: s.core.work ∧ (p ≠ 0 → t.ctx.getP p = true) ∧
        WentTo (s.ctx.pc + 4) s t ∧ BytesKept s t ∧ ∀ r : SReg, t.ctx.getS r = s.ctx.getS r)

/-- WPOP takes the head of the own queue, WSTEAL the tail of a neighbour's of the same gang: the 32 bytes go to the scratchpad, the PC field
to sd, true to the predicate; an empty queue, or one of no core of the gang, answers 0 and false. WCNT answers the own counts, or a neighbour's of
the same gang. A released descriptor enters its queue at the head. What goes to another core or comes from a home has a path. -/
def Sys2Proof.Claims.WorkTakes : Prop :=
  ∀ (s u : State) (d a : SReg) (l m : Bool) (p : PReg) (n : BitVec 3) (x : W64),
    (operands s [⟨a, l⟩] [d] = .ok ([x], u) → scratchArea u 32 32 false x = .ok () → isQueue d = false → d ≠ 0 →
      (s.core.work = [] → ∃ t, exec (.wpop d l a m p) s = .next t ∧ t.ctx.getS d = 0 ∧ (p ≠ 0 → t.ctx.getP p = false) ∧
        BytesKept s t ∧ WentTo (s.ctx.pc + 4) s t) ∧
      (∀ k rest, s.core.work = k :: rest → descORD k = false → Memory.wf s.core.scratch = true →
        ∃ t, exec (.wpop d l a m p) s = .next t ∧ t.core.work = rest ∧ t.ctx.getS d = k.setWidth 64 ∧
          (p ≠ 0 → t.ctx.getP p = true) ∧ t.core.scratch.num x.toNat 32 = k.toNat ∧ t.mem = s.mem ∧
          (∀ q, (q < x.toNat ∨ x.toNat + 32 ≤ q) → t.core.scratch.get q = s.core.scratch.get q) ∧ WentTo (s.ctx.pc + 4) s t) ∧
      (readOpen s s.core.tenant s.die (diePlace (dieOfCore (neighbourCore s.coreId n.toNat))) = true → ∀ k rest, s.core.gang ≠ none → (s.coreAt (neighbourCore s.coreId n.toNat)).gang = s.core.gang →
        neighbourCore s.coreId n.toNat ≠ s.coreId → OthersApart s → (s.coreAt (neighbourCore s.coreId n.toNat)).work = rest ++ [k] →
        descORD k = false → Memory.wf s.core.scratch = true →
        ∃ t, exec (.wsteal d l a m p n) s = .next t ∧ (t.coreAt (neighbourCore s.coreId n.toNat)).work = rest ∧
          t.core.work = s.core.work ∧ t.ctx.getS d = k.setWidth 64 ∧ (p ≠ 0 → t.ctx.getP p = true) ∧ t.mem = s.mem ∧
          t.core.scratch.num x.toNat 32 = k.toNat ∧
          (∀ q, (q < x.toNat ∨ x.toNat + 32 ≤ q) → t.core.scratch.get q = s.core.scratch.get q) ∧ WentTo (s.ctx.pc + 4) s t) ∧
      (readOpen s s.core.tenant s.die (diePlace (dieOfCore (neighbourCore s.coreId n.toNat))) = true →
        s.core.gang = none ∨ (s.coreAt (neighbourCore s.coreId n.toNat)).gang ≠ s.core.gang ∨
          (s.coreAt (neighbourCore s.coreId n.toNat)).work = [] →
        ∃ t, exec (.wsteal d l a m p n) s = .next t ∧ t.ctx.getS d = 0 ∧ (p ≠ 0 → t.ctx.getP p = false) ∧
          t.core.work = s.core.work ∧ t.others = s.others ∧ BytesKept s t ∧ WentTo (s.ctx.pc + 4) s t)) ∧
    (operands s [] [d] = .ok ([], u) → exec (.wcnt d l m 8) s = .next (u.writeS d
      (packed [(s.core.work.length, 0), (s.core.parked, 16), (s.core.ordf, 32)])).retire ∧
      ∀ c, s.coreAt (neighbourCore s.coreId n.toNat) = c → readOpen s s.core.tenant s.die (diePlace (dieOfCore (neighbourCore s.coreId n.toNat))) = true → exec (.wcnt d l m (n.setWidth 4)) s = .next ((u.roundTrips 1).writeS d
        (if s.core.gang ≠ none ∧ c.gang = s.core.gang then packed [(c.work.length, 0), (c.parked, 16), (c.ordf, 32)] else 0)).retire) ∧
    (∀ w g k, s.pkg.wakes = [(w, s.coreId, g, k)] → wakeOpen s (w, s.coreId, g, k) = true → s.core.gang = some g →
      ∃ t, exec (.descriptorWake s.coreId) s = .next t ∧ t.pkg.wakes = [] ∧ t.core.work = k :: s.core.work ∧
        t.core.parked = s.core.parked - 1 ∧ BytesKept s t)

/-- CHPUT and CHGET on a stage ring of the tenant, or on a ring register: the value goes in at the tail, comes out at the head, true to the
predicate; a full or empty stage ring answers false. A ring that is not the tenant's traps. The tenant has a slot in its die's calendar. A sample of the Wrangler is noted; one that makes no move
changes no core, and one that moves a core gives it a pending stage: from a stage less occupied than the receiving one, which is over its threshold, the
highest-numbered core whose ROLE has EN 1, LOCK 0 and PEND 0. A CHGET or WPOP that fails carries a pending move out, and a CHGET that does not, leaves ROLE. -/
def Obligations.Channels : Prop :=
  ∀ (s u : State) (d a : SReg) (l m : Bool) (p : PReg) (n : Fin 16) (c : BitVec 6) (x : W64) (g : Stage),
    c.toNat = n.val + 8 → s.die < 24 → (s.dieAt s.die).stages[n] = g → calSends s s.core.tenant s.die = true →
    (operands s [⟨a, l⟩] [] = .ok ([x], u) →
      ((g.valid = false ∨ g.tenant ≠ s.core.tenant) →
        exec (.chput p l a m c) s = .next (takeTrap ⟨0x43, 0, BitVec.ofNat 64 n.val⟩ s)) ∧
      (g.valid = true → g.tenant = s.core.tenant →
        ∃ t, exec (.chput p l a m c) s = .next t ∧ (t.dieAt s.die).stages[n] =
            { g with elems := if g.elems.length < 2 ^ g.dlog.toNat then g.elems ++ [x] else g.elems } ∧
          (p ≠ 0 → t.ctx.getP p = decide (g.elems.length < 2 ^ g.dlog.toNat)) ∧ BytesKept s t ∧ WentTo (s.ctx.pc + 4) s t)) ∧
    (operands s [] [d] = .ok ([], u) → g.valid = true → g.tenant = s.core.tenant → isQueue d = false → d ≠ 0 →
      ∃ t, exec (.chget d p m c) s = .next t ∧ (t.dieAt s.die).stages[n] = { g with elems := g.elems.tail } ∧
        t.ctx.getS d = g.elems.headD 0 ∧ (p ≠ 0 → t.ctx.getP p = !g.elems.isEmpty) ∧ BytesKept s t ∧
        t.core.regs.role = (if g.elems = [] then movedRole s.core.regs.role else s.core.regs.role) ∧ WentTo (s.ctx.pc + 4) s t) ∧
    (∀ (k : BitVec 3) (r : Ring), s.ring k = r → queueNames s.core k = false → r.size ≠ 0 → r.resv = [] →
      (operands s [⟨a, l⟩] [] = .ok ([x], u) → r.free ≠ 0 → Memory.wf s.core.scratch = true →
          queueTouches s (r.base.toNat + 64 * r.size.toNat * r.tail.toNat) 8 = false →
        ∃ t, exec (.chput p l a m (k.setWidth 6)) s = .next t ∧
          t.core.scratch.num (r.base.toNat + 64 * r.size.toNat * r.tail.toNat) 8 = x.toNat ∧
          (t.ring k).tail = BitVec.ofNat 8 ((r.tail.toNat + 1) % 2 ^ r.slog.toNat) ∧ (t.ring k).free = r.free - 1 ∧
          (t.ring k).filled = r.filled + 1 ∧ (p ≠ 0 → t.ctx.getP p = true) ∧ t.mem = s.mem ∧ WentTo (s.ctx.pc + 4) s t) ∧
      (operands s [] [d] = .ok ([], u) → r.filled = 0 → isQueue d = false → d ≠ 0 →
        ∃ t, exec (.chget d p m (k.setWidth 6)) s = .next t ∧ t.ctx.getS d = 0 ∧ (p ≠ 0 → t.ctx.getP p = false) ∧
          t.core.regs = { s.core.regs with role := movedRole s.core.regs.role } ∧ BytesKept s t ∧ WentTo (s.ctx.pc + 4) s t) ∧
      (operands s [] [d] = .ok ([], u) → r.filled ≠ 0 → isQueue d = false → d ≠ 0 →
        badBytes s.core.badScratch (r.base.toNat + 64 * r.size.toNat * r.head.toNat) 8 = false →
        queueTouches s (r.base.toNat + 64 * r.size.toNat * r.head.toNat) 8 = false →
        ∃ t, exec (.chget d p m (k.setWidth 6)) s = .next t ∧ BytesKept s t ∧
          t.ctx.getS d = BitVec.ofNat 64 (s.core.scratch.num (r.base.toNat + 64 * r.size.toNat * r.head.toNat) 8) ∧
          (t.ring k).head = BitVec.ofNat 8 ((r.head.toNat + 1) % 2 ^ r.slog.toNat) ∧ (t.ring k).filled = r.filled - 1 ∧
          (t.ring k).free = r.free + 1 ∧ t.core.regs.role = s.core.regs.role ∧ (p ≠ 0 → t.ctx.getP p = true) ∧ WentTo (s.ctx.pc + 4) s t)) ∧
    (operands s [⟨a, l⟩] [d] = .ok ([x], u) → scratchArea u 32 32 false x = .ok () → s.core.work = [] → isQueue d = false → d ≠ 0 →
      ∃ t, exec (.wpop d l a m p) s = .next t ∧ t.ctx.getS d = 0 ∧ (p ≠ 0 → t.ctx.getP p = false) ∧
        t.core.regs.role = movedRole s.core.regs.role ∧ BytesKept s t ∧ WentTo (s.ctx.pc + 4) s t) ∧
    (∀ t, wranglerMove s s.die t (s.cycle.toNat / 1024) = none →
      ∃ v, exec (.wranglerSample s.die t) s = .next v ∧ (v.dieAt s.die).sampled.lookup t = some (s.cycle.toNat / 1024) ∧
        v.core = s.core ∧ v.mem = s.mem) ∧
    ∀ t k i j, wranglerMove s s.die t (s.cycle.toNat / 1024) = some (k, i, j) →
      (∃ I J : Stage, (s.dieAt s.die).stages[i]? = some I ∧ (s.dieAt s.die).stages[j]? = some J ∧ I.hi.toNat < occupation I ∧
        occupation J < occupation I) ∧ movable s t j k ∧ (∀ q, movable s t j q → q ≤ k) ∧
      ∃ v, exec (.wranglerSample s.die t) s = .next v ∧ (v.dieAt s.die).sampled.lookup t = some (s.cycle.toNat / 1024) ∧ v.mem = s.mem ∧
        (i, s.cycle.toNat / 1024) ∈ (v.dieAt s.die).moves ∧ (j, s.cycle.toNat / 1024) ∈ (v.dieAt s.die).moves ∧
        (OthersApart s → (v.coreAt k).regs = { (s.coreAt k).regs with
            role := { (s.coreAt k).regs.role with next := BitVec.ofNat 4 i, pend := true } } ∧ ∀ q, q ≠ k → v.coreAt q = s.coreAt q)

/-! Traps -/

/-- TAKING A TRAP of a handled cause with the handler idle: the context pauses at its instruction, TCAUSE, TADDR, TEPC, TNPC and TSTAT say what and where,
the handler is ready at 0x2C000 + 64 × TVEC, and no register and no byte changes; TRAP raises *software trap* with its code. A replayable fault is noted and the
instruction waits; a handled cause in the handler is a double fault. -/
def Obligations.TakingATrap : Prop :=
  ∀ (s : State) (t : Trap) (code : BitVec 12),
    exec (.trap code) s = .next (takeTrap ⟨0x08, 0, code.setWidth 64⟩ s) ∧
    (trapClass t.code = .handled → s.isHandler = false → s.core.trap.halted = false → s.core.trap.service = .none →
      s.core.trap.pendTraps = [] →
      ∃ v, takeTrap t s = v ∧ v.ctx.wait = .trapped ∧ v.ctx.pc = s.ctx.pc ∧ v.ctx.instret = s.ctx.instret ∧
        (v.ctxAt handlerIx).pc = 0x2C000 + 64 * s.core.trap.tvec.setWidth 64 ∧ (v.ctxAt handlerIx).wait = .ready ∧
        v.core.trap.tcause = BitVec.ofNat 64 (t.code.toNat + 4096 * ctxNum s.core.cur) ∧ v.core.trap.taddr = t.addr ∧
        v.core.trap.tepc = s.ctx.pc ∧ v.core.trap.tnpc = s.ctx.pc ∧ v.core.trap.tstat = t.stat ∧ v.core.regs = s.core.regs ∧
        v.mem = s.mem ∧ v.pkg = s.pkg ∧ BytesKept s v ∧ (∀ r : SReg, v.ctx.getS r = s.ctx.getS r) ∧ v.ctx.freed = s.ctx.freed) ∧
    (t.code = 0x14 → s.die < 24 → ∃ v, takeTrap t s = v ∧ v.ctx.wait = .pageFault t.addr t.stat ∧ v.ctx.pc = s.ctx.pc ∧
      (s.core.tenant, pageOf t.addr) ∈ (v.dieAt s.die).faults ∧ v.core.trap = s.core.trap ∧ BytesKept s v) ∧
    (trapClass t.code = .handled → s.isHandler = true →
      (takeTrap t s).core.trap.halted = true ∧ (takeTrap t s).core.trap.shadowCause = s.core.trap.tcause ∧
        (takeTrap t s).core.trap.shadowAddr = s.core.trap.taddr)

/-- ERET by the handler in the service of a trap taken at issue: action 0 issues the instruction again at TEPC, action 1 goes on behind it, action 2 ends
the context; TACT clears, and with nothing pending the handler sleeps. Any other action is a double fault. -/
def Obligations.ReturningFromATrap : Prop :=
  ∀ (s : State) (r : TrapRec), s.isHandler = true → s.core.trap.service = .trap r → r.qhead = false → r.frame = none → r.entry = none →
    r.ctx ≠ handlerIx → s.core.trap.halted = false → s.core.trap.pendTraps = [] → s.core.trap.pendIntrs = [] →
    (∀ v, s.core.gang = some v → (s.pkg.saved.all fun x => x.core != s.coreId || x.gang != v) = true) →
    (s.core.trap.tact = 0 → ∃ t, exec .eret s = .next t ∧ (t.ctxAt r.ctx).pc = s.core.trap.tepc ∧ (t.ctxAt r.ctx).wait = .ready ∧
      t.core.trap.tact = 0 ∧ t.core.trap.service = .none ∧ BytesKept s t ∧ t.core.regs = s.core.regs) ∧
    (s.core.trap.tact = 1 → ∃ t, exec .eret s = .next t ∧ (t.ctxAt r.ctx).pc = s.core.trap.tepc + 4 ∧
      (t.ctxAt r.ctx).wait = .ready ∧ t.core.trap.tact = 0 ∧ t.core.trap.service = .none ∧ BytesKept s t) ∧
    (s.core.trap.tact = 2 → ∃ t, exec .eret s = .next t ∧ (t.ctxAt r.ctx).live = false ∧ (t.ctxAt r.ctx).buf = [] ∧
      (t.ctxAt r.ctx).log = [] ∧ t.core.trap.service = .none ∧ BytesKept s t) ∧
    (3 ≤ s.core.trap.tact.toNat → ∃ t, exec .eret s = .next t ∧ t.core.trap.halted = true)

/-- SVCTX of a live helper in a pre-empt service saves it and frees its slot; LDCTX of the same context by the handler brings it back: registers, marks, predicates,
harness registers and buffered stores as they were. A context other than the handler traps at either. -/
def Obligations.SaveAndRestoreContext : Prop :=
  ∀ (s : State) (n : BitVec 4) (i : Fin 12) (g : W32), ctxIx n.toNat = some i → i ≠ 0 → i ≠ handlerIx → s.core.gang = some g →
    (s.isHandler = true → s.core.trap.service.saving = true → (s.ctxAt i).live = true → s.core.trap.saved.getLsbD i.val = false →
      (∀ h ∈ (s.ctxAt i).h.toList, handleValid h = false) →
      ∃ t v, exec (.svctx n) s = .next t ∧ (t.ctxAt i).live = false ∧ t.core.trap.saved.getLsbD i.val = true ∧ BytesKept s t ∧
        exec (.ldctx n) t = .next v ∧ (v.ctxAt i).live = true ∧ (v.ctxAt i).pc = (s.ctxAt i).pc ∧
        (∀ r : SReg, (s.ctxAt i).freed.getLsbD r.toNat = false → (v.ctxAt i).getS r = (s.ctxAt i).getS r) ∧
        (v.ctxAt i).freed = (s.ctxAt i).freed ∧ (v.ctxAt i).p = (s.ctxAt i).p ∧ (v.ctxAt i).h = (s.ctxAt i).h ∧
        (v.ctxAt i).tstamp = (s.ctxAt i).tstamp ∧ (v.ctxAt i).log ++ (v.ctxAt i).buf = (s.ctxAt i).log ++ (s.ctxAt i).buf) ∧
    (s.isHandler = false → (∀ w, encode (.svctx n) = some w → exec (.svctx n) s = .next (takeTrap ⟨0x03, 0, w.setWidth 64⟩ s)) ∧
      ∀ w, encode (.ldctx n) = some w → exec (.ldctx n) s = .next (takeTrap ⟨0x03, 0, w.setWidth 64⟩ s))

/-- Interrupts: a pre-empt reaches a core whose control context runs and is served with its TSTAT; a core whose image is due takes the restore interrupt with
its saved contexts in TSTAT; a lend that is over is ended. -/
def Obligations.PreemptRestoreLend : Prop :=
  ∀ s : State, s.core.trap.halted = false → s.core.trap.service = .none → s.core.trap.pendTraps = [] → s.core.trap.pendIntrs = [] →
    s.core.exch = none → s.core.bridled = false →
    (∀ st : BitVec 2, coreReached s s.core.tenant s.coreId = true → controlRuns s s.coreId = true → s.pkg.preempts = [(s.coreId, st)] →
      ∃ t, exec (.preemptInterrupt s.coreId st) s = .next t ∧ t.pkg.preempts = [] ∧ t.core.trap.tcause = 0x101 ∧
        t.core.trap.tstat = st.setWidth 64 ∧ (t.ctxAt handlerIx).pc = handlerEntry s.core.trap ∧
        (t.ctxAt handlerIx).wait = .ready ∧ BytesKept s t) ∧
    (∀ v, s.pkg.saved = [v] → v.core = s.coreId → restoreDue s v = true → v.rest.trap.halted = false → v.rest.trap.service = .none →
      v.rest.trap.pendTraps = [] → v.rest.trap.pendIntrs = [] →
      ∃ t, exec (.restoreInterrupt s.coreId v.gang) s = .next t ∧ t.core.gang = some v.gang ∧ t.core.trap.tcause = 0x102 ∧
        t.core.trap.tstat = (savedMask v).setWidth 64 ∧ t.core.scratch = v.rest.scratch ∧ t.core.rcache = [] ∧ t.mem = s.mem) ∧
    (lendDue s s.coreId = true →
      ∃ t, exec (.lendEnd s.coreId) s = .next t ∧ (∀ v ∈ t.pkg.saved, v.core = s.coreId → v.lent = none) ∧ t.mem = s.mem ∧
        (s.core.gang = none → t.core = s.core ∧ t.pkg.preempts = s.pkg.preempts) ∧
        (controlRuns s s.coreId = true → t.core = s.core ∧ t.pkg.preempts = s.pkg.preempts ++ [(s.coreId, 2)]) ∧
        (s.core.gang ≠ none → controlRuns s s.coreId = false → t.core.gang = none ∧ t.pkg.preempts = s.pkg.preempts))

/-- The management processor: a retry answers a fault and lets the stores parked for it go on; a fatal answer ends a context that waits on the page; a waiting record
is written with the next SEQ; a fatal record is taken from its queue; a double fault ends the control context and the helpers of the core. -/
def Obligations.ManagementAnswers : Prop :=
  ∀ (s : State) (tn : BitVec 3) (page : BitVec 32), s.die < 24 →
    (faultDue (s.dieAt s.die) tn page = true → (∃ t, exec (.pageFaultRetry s.die tn page) s = .next t ∧
      (tn, page) ∉ (t.dieAt s.die).faults ∧ (∀ r ∈ (t.dieAt s.die).replay, r.tenant = tn → r.page = page → r.resolved = true) ∧
      (t.dieAt s.die).replay.length = (s.dieAt s.die).replay.length ∧ t.core = s.core ∧ BytesKept s t)) ∧
    (faultDue (s.dieAt s.die) tn page = true → ∀ (i : Fin 12) (addr stat : W64), s.others = [] → s.core.tenant = tn →
      (s.dieAt s.die).replay = [] → i ≠ handlerIx → (s.ctxAt i).live = true → (s.ctxAt i).wait = .pageFault addr stat →
      pageOf addr = page → ∃ t, exec (.pageFaultFatal s.die tn page) s = .next t ∧ (t.ctxAt i).live = false) ∧
    (∀ r rest, (s.dieAt s.die).tqWait = r :: rest → tqRoom (s.dieAt s.die) r.kind = true →
      ∃ t, exec (.trapQueueRecord s.die) s = .next t ∧ (t.dieAt s.die).tqWait = rest ∧
        (t.dieAt s.die).tq = (s.dieAt s.die).tq ++ [{ r with seq := (s.dieAt s.die).tqSeq }] ∧
        (t.dieAt s.die).tqSeq = (s.dieAt s.die).tqSeq + 1) ∧
    (∀ r rest, (s.dieAt s.die).tq = r :: rest → r.kind = 1 →
      ∃ t, exec (.fatalRecordServed s.die) s = .next t ∧ (t.dieAt s.die).tq = rest ∧ t.core = s.core) ∧
    (doubleDue s s.coreId = true → (∀ v ∈ s.pkg.saved, v.core ≠ s.coreId) → ∃ t, exec (.doubleFault s.coreId) s = .next t ∧ (t.ctxAt 0).live = false ∧ liveHelpers t.core = [])

/-- Halting latches the counters once and stops a core's issue; resuming lets it issue again. A lost answer traps its waiting instruction at the request's
address, TSTAT bit 0 clear for an idempotent request and set for another, its queue entries given back and what its release drained not undone; a
waiting push gives back its reservation, a waiting mark request is withdrawn;
a lost request is sent again. Power and temperature limits and the end of a refresh. The counts of a request sent again (log entry 28), the cycle at which
a hold ends (log entry 32) and the journal entry of a critical temperature (log entry 48) are the model's choices. -/
def Obligations.BridleAndLosses : Prop :=
  ∀ (s : State) (on : Bool), s.others = [] → s.coreId < 1536 →
    (s.core.bridled = false → ∃ t, exec (.bridleHalt none) s = .next t ∧ t.core.bridled = true ∧
      t.core.latched = s.cycle :: (s.core.ctxs.toList.map (·.instret) ++ [s.core.msgSent, s.core.msgRecv]) ∧ t.core.ctxs = s.core.ctxs ∧
      BytesKept s t) ∧
    (s.core.bridled = true → ∃ t, exec (.bridleResume none) s = .next t ∧ t.core.bridled = false ∧ BytesKept s t) ∧
    (∃ t, exec (.powerLimit on) s = .next t ∧ t.pkg.host.powerHold = on ∧ t.core = s.core ∧ t.mem = s.mem) ∧
    (∃ t, exec .criticalTemperature s = .next t ∧ t.pkg.host.journal.getLast?.map (fun e => (e.kind, e.space)) = some (.thermal, 8) ∧
      t.core.bridled = true) ∧
    (∀ w, quiet s w = true → ∃ t, exec (.bridleQuiesced w) s = .next t ∧ t.pkg.host.out = s.pkg.host.out ++ [.quiesced w]) ∧
    (s.ctx.live = true → ∀ done v, v = exec (.lostResponse s.coreId s.core.cur (.waiting done)) s →
      (∀ w d p x, s.ctx.wait = .push w d p x →
        v = .next (takeTrap ⟨0x1D, descCTR d, 1⟩ (dropPush s.core.cur ((giveBack s).modCore fun c => { c with parked := c.parked - 1 })))) ∧
      (s.ctx.wait = .remote → v = .next (takeTrap ⟨0x1D, 0, 1⟩ (giveBack s))) ∧
      (∀ d x m, s.ctx.wait = .mark d x → s.core.markQ = [m] → m.awaited s.core.cur s.core.tag = true → (∀ r ∈ s.pkg.markRuns, r.held = []) →
        ∃ u, v = .next (takeTrap ⟨0x1D, BitVec.ofNat 64 (field m.op.addr 31 0), 0⟩ u) ∧ u.core.markQ = [] ∧ u.core.ctxs = (giveBack s).core.ctxs ∧
          u.core.regs = (giveBack s).core.regs ∧ u.pkg.marks = s.pkg.marks ∧ BytesKept s u)) ∧
    (∀ w i (f : Request) t, s.ctx.live = true → s.ctx.wait = .ready → fetchedWord s = some (w, false) → decode w = .ok i →
      requestOf i = some f → f.run s = .next t → (t.core.msgSent ≠ s.core.msgSent ∨ f.leaves = false) → t.ctx.instret ≠ s.ctx.instret →
      (f.idem = true → ∀ done, exec (.lostResponse s.coreId s.core.cur (.waiting done)) s = .next (takeTrap ⟨0x1D, f.addr s, 0⟩ s)) ∧
      (f.idem = false → exec (.lostResponse s.coreId s.core.cur (.waiting false)) s = .next (takeTrap ⟨0x1D, f.addr s, 1⟩ s)) ∧
      (f.idem = false → t.core.cur = s.core.cur → t.coreId = s.coreId →
        exec (.lostResponse s.coreId s.core.cur (.waiting true)) s = .next (takeTrap ⟨0x1D, f.addr s, 1⟩ (answerLost s t)) ∧
        (answerLost s t).ctx = { s.ctx with buf := t.ctx.buf, log := t.ctx.log } ∧ (answerLost s t).mem = t.mem)) ∧
    (∃ t, exec (.lostResponse s.coreId s.core.cur .resend) s = .next t ∧ t.core.msgSent = s.core.msgSent + 1 ∧
      t.core.msgRecv = s.core.msgRecv + 1) ∧
    (∀ (i : Fin 12) (till : Nat), till ≤ s.cycle.toNat →
      ((s.ctxAt i).wait = .refresh till → ∃ t, exec (.weightRefresh s.die) s = .next t ∧ (t.ctxAt i).wait = .ready) ∧
      ((s.ctxAt i).wait = .idle till → ∃ t, exec (.idleExpiry s.coreId i) s = .next t ∧ (t.ctxAt i).wait = .ready) ∧
      ((s.ctxAt i).wait = .hold till → ∃ t, exec (.spinHoldExpiry s.coreId i) s = .next t ∧ (t.ctxAt i).wait = .ready)) ∧
    (∀ i : Fin 12, spinTripped s.core i = true → coreHasSaved s s.coreId = false →
      ∃ t, exec (.spinGovernorTrip s.coreId i) s = .next t ∧ (t.ctxAt i).spin = 0 ∧ (t.ctxAt i).wait =
        .hold (s.cycle.toNat + (if s.core.regs.spinHold = 0 then 1 else s.core.regs.spinHold.toNat)))

/-! Copies, multicast, engine FIFOs -/

/-- CPY under a descriptor, CPY to a ring, CPY.CSR and CPYM retire at issue: one copy is outstanding more, with the fields of its operands, its status
register pending (s0 takes none) and freed no more, and no byte has moved yet. Its bytes lie below the kernel's request, as the model asks (log entry 68);
a byte above it traps. Of CPY.CSR the issue checks the first bytes of SRC and VAL and the bytes that it reads and writes in all its arrays, by its source as
it stands (log entries 68 and 76, the model's choice). -/
def Sys2Proof.Claims.CopiesIssue : Prop :=
  ∀ (s u v1 v2 : State) (d a b : SReg) (l m n fs fd : Bool) (c g : BitVec 3) (x y : W64) (desc : Nat),
    outstanding u < 64 →
    (operands s [⟨a, l⟩] [d] = .ok ([x], u) →
      (descriptorAt u 32 x = .ok desc → firstByte u false (BitVec.ofNat 64 (descBytes desc 7 0)) = .ok (fs, v1) →
        firstByte v1 true (BitVec.ofNat 64 (descBytes desc 15 8)) = .ok (fd, v2) → ∀ k : BitVec 6, 8 ≤ k.toNat →
        (copyShape desc = true → (n && fs == fd) = false →
          BelowRequest u (BitVec.ofNat 64 (descBytes desc 7 0) : W64).toNat (if n && fs then descBytes desc 19 16 / 2 else descBytes desc 19 16) ∧
          BelowRequest u (BitVec.ofNat 64 (descBytes desc 15 8) : W64).toNat (if n && fd then descBytes desc 19 16 / 2 else descBytes desc 19 16)) →
        ∃ t, exec (.cpy d l a m k n c) s = .next t ∧ CopySent s t d c (.plain (BitVec.ofNat 64 (descBytes desc 15 8)))
          (BitVec.ofNat 64 (descBytes desc 7 0)) (descBytes desc 19 16) (!copyShape desc || (n && fs == fd))) ∧
      (descriptorAt u 32 x = .ok desc → firstByte u false (BitVec.ofNat 64 (descBytes desc 7 0)) = .ok (fs, v1) →
        firstByte v1 true (BitVec.ofNat 64 (descBytes desc 15 8)) = .ok (fd, v2) → copyShape desc = true → s.isHandler = false →
        ∀ (k : BitVec 6) (q : W64), 8 ≤ k.toNat → (BitVec.ofNat 64 (descBytes desc 7 0) : W64).toNat ≤ q.toNat →
          q.toNat < (BitVec.ofNat 64 (descBytes desc 7 0) : W64).toNat + descBytes desc 19 16 → q.toNat = s.core.scratchReq →
          q.toNat < Config.pinnedBase → exec (.cpy d l a m k false c) s = .next (takeTrap ⟨0x12, q, 0⟩ s)) ∧
      ((s.ring g).size ≠ 0 → x.toNat % 64 = 0 → firstByte u false x = .ok (fs, v1) →
        (n = false → BelowRequest u x.toNat (64 * (s.ring g).size.toNat)) →
        ∃ t, exec (.cpy d l a m (g.setWidth 6) n c) s = .next t ∧
          CopySent s t d c (.ring g) x (64 * (s.ring g).size.toNat) (n && !fs)) ∧
      (descriptorAt u 64 x = .ok desc → firstByte u false (csrOf desc).src = .ok (fs, v1) →
        firstByte v1 true (csrOf desc).val = .ok (fd, v2) →
        ((csrOf desc).fine = true → (∀ r, (csrOf desc).first ≤ r → r < (csrOf desc).rows →
            BelowRequest u ((csrOf desc).src.toNat + r * (csrOf desc).stride) ((csrOf desc).cols * (csrOf desc).size)) ∧
          BelowRequest u ((csrOf desc).rowptr.toNat + 4 * (csrOf desc).first) (4 * ((csrOf desc).rows - (csrOf desc).first) + 4) ∧
          BelowRequest u ((csrOf desc).val.toNat + (csrOf desc).size * (csrOf desc).baseidx) ((csrOf desc).size * keptNow u (csrOf desc)) ∧
          BelowRequest u ((csrOf desc).colidx.toNat + 4 * (csrOf desc).baseidx) (4 * keptNow u (csrOf desc))) →
        ∃ t, exec (.cpyCsr d l a m c) s = .next t ∧
          CopySent s t d c (.csr (BitVec.ofNat 512 desc)) (csrOf desc).src 0 (!(csrOf desc).fine)) ∧
      (descriptorAt u 64 x = .ok desc → firstByte u false (csrOf desc).src = .ok (fs, v1) →
        firstByte v1 true (csrOf desc).val = .ok (fd, v2) → (csrOf desc).fine = true → s.isHandler = false →
        (∀ r, (csrOf desc).first ≤ r → r < (csrOf desc).rows →
          BelowRequest u ((csrOf desc).src.toNat + r * (csrOf desc).stride) ((csrOf desc).cols * (csrOf desc).size)) →
        BelowRequest u ((csrOf desc).rowptr.toNat + 4 * (csrOf desc).first) (4 * ((csrOf desc).rows - (csrOf desc).first) + 4) →
        ∀ q : W64, q.toNat = Nat.max ((csrOf desc).val.toNat + (csrOf desc).size * (csrOf desc).baseidx) s.core.scratchReq →
          q.toNat < Config.pinnedBase →
          q.toNat < (csrOf desc).val.toNat + (csrOf desc).size * (csrOf desc).baseidx + (csrOf desc).size * keptNow u (csrOf desc) →
          exec (.cpyCsr d l a m c) s = .next (takeTrap ⟨0x12, q, 0⟩ s))) ∧
    (operands s [⟨a, l⟩, ⟨b, m⟩] [d] = .ok ([x, y], u) → field y 15 0 ≠ 0 → x.toNat % 64 = 0 → firstByte u false x = .ok (fs, v1) →
      (field y 51 32 ≠ 0 → field y 51 32 % 64 = 0 → BelowRequest u x.toNat (field y 51 32)) →
      ∃ t, exec (.cpym d l a m b c) s = .next t ∧ CopySent s t d c (.multi (BitVec.ofNat 16 (field y 15 0))) x (field y 51 32)
        (field y 51 32 == 0 || field y 51 32 % 64 != 0))

/-- A copy ends with its status word: an invalid descriptor moves nothing and answers ERR 1; 8 bytes between scratchpad addresses below the request arrive and
answer COUNT 8 with bit 63 set. The status comes once the path to the source and back is open. A ring-form copy reserves the tail slot; a tile of a multicast lands in the ring of its tag. -/
def Sys2Proof.Claims.CopiesComplete : Prop :=
  ∀ (s : State) (k : Copy) (d : SReg), (∀ v ∈ s.pkg.saved, v.core ≠ s.coreId) → k.batch = none → k.result = none → k.sd = some d → d ≠ 0 → isQueue d = false →
    (s.core.copies = [k] → k.bad = true → (∀ x, k.form ≠ .csr x) → statusOpen s k = true →
      ∃ t, exec (.copyStatus s.coreId k.id) s = .next t ∧ t.core.copies = [] ∧ (t.ctxAt k.ctx).getS d = BitVec.ofNat 64 (2 ^ 48) ∧
        BytesKept s t) ∧
    (∀ dst : W64, s.core.copies = [k] → k.bad = false → k.form = .plain dst → k.mode = 0 → k.len = 8 → k.moved = [] → Memory.wf s.core.scratch = true →
      k.src.toNat % 8 = 0 → dst.toNat % 8 = 0 → k.src.toNat + 8 ≤ s.core.scratchReq → dst.toNat + 8 ≤ s.core.scratchReq →
      s.core.scratchReq ≤ Config.pinnedBase → s.core.badScratch = [] →
      ∃ t, exec (.copyStatus s.coreId k.id) s = .next t ∧ t.core.copies = [] ∧ t.mem = s.mem ∧
        (t.ctxAt k.ctx).getS d = BitVec.ofNat 64 (8 + 2 ^ 63) ∧
        (∀ j < 8, t.core.scratch.get (dst.toNat + j) = s.core.scratch.get (k.src.toNat + j)) ∧
        ∀ q, (q < dst.toNat ∨ dst.toNat + 8 ≤ q) → t.core.scratch.get q = s.core.scratch.get q) ∧
    (∀ g : BitVec 3, s.core.copies = [k] → k.form = .ring g → k.bad = false → k.slot = none → (s.ring g).free ≠ 0 →
      ∃ t, exec (.copySlotReserve s.coreId k.id) s = .next t ∧ t.core.copies = [{ k with slot := some (s.ring g).tail.toNat }] ∧
        (t.ring g).free = (s.ring g).free - 1 ∧ (t.ring g).filled = (s.ring g).filled ∧
        (t.ring g).tail = BitVec.ofNat 8 (((s.ring g).tail.toNat + 1) % 2 ^ (s.ring g).slog.toNat) ∧ BytesKept s t) ∧
    (∀ (x : Tile) (g : BitVec 3), s.core.tiles = [x] → s.core.matchTab.lookup x.tag = some g → (s.ring g).free ≠ 0 → (s.ring g).resv = [] →
      replyOpen s s.core.tenant s.die x.port = true →
      Memory.wf s.core.scratch = true → x.bytes.length ≤ 64 * (s.ring g).size.toNat →
      ∃ t, exec (.multicastArrival s.coreId) s = .next t ∧ t.core.tiles = [] ∧ t.mem = s.mem ∧ (t.ring g).free = (s.ring g).free - 1 ∧
        (t.ring g).filled = (s.ring g).filled + 1 ∧ ∀ j, (h : j < x.bytes.length) →
          t.core.scratch.get ((s.ring g).base.toNat + 64 * (s.ring g).size.toNat * (s.ring g).tail.toNat + j) = x.bytes[j])

/-- SUBS joins a tag to a ring, UNSUBS leaves it, each reaching every base die; EPUSH releases and puts one element into a FIFO with room; EPOP takes the oldest as an acquire point,
or answers 0 and false. -/
def Sys2Proof.Claims.TagsAndFifos : Prop :=
  ∀ (s u : State) (p : PReg) (d a : SReg) (l m : Bool) (g : BitVec 3) (n : BitVec 4) (x : W64), s.isHandler = false →
    (operands s [⟨a, l⟩] [] = .ok ([x], u) → field x 15 0 ≠ 0 →
      ((s.ring g).size ≠ 0 → (∀ k < 4, readOpen s s.core.tenant s.die (basePlace k) = true) → s.core.matchTab = [] → s.others = [] → s.pkg.saved = [] →
        ∃ t, exec (.subs p l a g) s = .next t ∧ t.core.matchTab = [(BitVec.ofNat 16 (field x 15 0), g)] ∧ (p ≠ 0 → t.ctx.getP p = true) ∧
          BytesKept s t ∧ WentTo (s.ctx.pc + 4) s t) ∧
      ((∀ k < 4, readOpen s s.core.tenant s.die (basePlace k) = true) ∨ (∀ e ∈ s.core.matchTab, e.1.toNat ≠ field x 15 0) →
      ∃ t, exec (.unsubs l a) s = .next t ∧ (∀ e ∈ t.core.matchTab, e.1.toNat ≠ field x 15 0 ∧ e ∈ s.core.matchTab) ∧
        (∀ e ∈ s.core.matchTab, e.1.toNat ≠ field x 15 0 → e ∈ t.core.matchTab) ∧ BytesKept s t ∧ WentTo (s.ctx.pc + 4) s t)) ∧
    (∀ t1 v, s.ctx.ord = none → (s.core.fifo n.toNat).kind = 1 → operands s [⟨a, m⟩] [] = .ok ([x], u) →
      release (s.core.fifo n.toNat).scope.toNat s = .done t1 → operands t1 [⟨a, m⟩] [] = .ok ([x], v) →
      t1.core.efifo = s.core.efifo → (s.core.fifo n.toNat).elems.length < (s.core.fifo n.toNat).depth →
      ∃ t, exec (.epush p l m a n) s = .next t ∧ (t.core.fifo n.toNat).elems = (s.core.fifo n.toNat).elems ++ [x] ∧
        (p ≠ 0 → t.ctx.getP p = true) ∧ t.ctx.pc = t1.ctx.pc + 4 ∧ BytesKept t1 t) ∧
    (operands s [] [d] = .ok ([], u) → (s.core.fifo n.toNat).kind = 2 → isQueue d = false → d ≠ 0 →
      ∃ t, exec (.epop d l p m n) s = .next t ∧ (t.core.fifo n.toNat).elems = (s.core.fifo n.toNat).elems.tail ∧
        t.ctx.getS d = (s.core.fifo n.toNat).elems.headD 0 ∧ (p ≠ 0 → t.ctx.getP p = !(s.core.fifo n.toNat).elems.isEmpty) ∧
        ((s.core.fifo n.toNat).elems ≠ [] → t.core.rcache = []) ∧ BytesKept s t ∧ WentTo (s.ctx.pc + 4) s t)

/-- The engines: the streamer takes a batch element and makes its copy; a finished one goes to the completion FIFO with its tag; a send FIFO's element leaves over an
open path; a peer's element arrives; a packet with a bad tenant field is counted on its link. -/
def Sys2Proof.Claims.EngineEvents : Prop :=
  ∀ (s : State) (n : BitVec 4) (e : W64) (rest : List W64) (f : Fifo), s.core.fifo n.toNat = f →
    (∀ k, f.kind = 1 → f.elems = e :: rest → batchCopy s f e = some k →
      ∃ t, exec (.streamerBatchElement s.coreId n) s = .next t ∧ (t.core.fifo n.toNat).elems = rest ∧ t.core.copies = s.core.copies ++ [k] ∧
        k.id = s.core.nextCopy ∧ k.batch = some (BitVec.ofNat 4 f.completion, BitVec.ofNat 16 (field e 63 48)) ∧ k.sd = none ∧
        BytesKept s t) ∧
    (∀ k v tag, s.core.copies = [k] → k.batch = some (n, tag) → k.result = some v → f.elems.length < f.depth →
      ∃ t, exec (.streamerCompletionPush s.coreId n) s = .next t ∧ t.core.copies = [] ∧
        (t.core.fifo n.toNat).elems = f.elems ++ [v ||| (tag.setWidth 64 <<< 32)] ∧ BytesKept s t) ∧
    (f.kind = 3 → f.elems = e :: rest → networkOpen s s.coreId = true →
      ∃ t, exec (.networkSendElement s.coreId n) s = .next t ∧ (t.core.fifo n.toNat).elems = rest ∧
        t.pkg.host.netOut = s.pkg.host.netOut ++ [(s.coreId, e)] ∧ BytesKept s t) ∧
    ((f.kind = 4 ∨ f.kind = 5) → f.elems.length < f.depth →
      ∃ t, exec (.networkInbound s.coreId n e [] none) s = .next t ∧ (t.core.fifo n.toNat).elems = f.elems ++ [e] ∧ BytesKept s t) ∧
    ∀ link : Nat, ∃ t, exec (.tenantFieldError link) s = .next t ∧
      t.pkg.host.linkErrors.lookup link = some ((s.pkg.host.linkErrors.lookup link).getD 0 + 1) ∧ t.core = s.core ∧ t.mem = s.mem

/-! Launch and the Pacer -/

/-- LAUNCH with a good record and room in the tenant's quota is accepted behind its release: sd takes the gang's number, true to the predicate, and
the record is pending. A counter that has reached 0 makes a pending record eligible. -/
def Sys2Proof.Claims.LaunchAccepted : Prop :=
  ∀ (s t1 u v : State) (d a : SReg) (l m : Bool) (p : PReg) (x : W64) (r : BitVec 512) (ten : Tenant) (pl nc : Nat) (b : Bool),
    (s.isHelper = false → s.ctx.ord = none → (∃ u0, operands s [⟨a, l⟩] [d] = .ok ([x], u0)) → x.toNat % 64 = 0 →
      Config.scratchBytes ≤ x.toNat → release 4 s = .done t1 → operands t1 [⟨a, l⟩] [d] = .ok ([x], u) →
      checkAddress u .load 64 false .readable x = .ok (.home pl b, v) → readOpen v v.core.tenant v.die pl = true → refreshing v.cycle pl = none → badLines v.badMem pl 64 = false →
      r = BitVec.ofNat 512 (v.mem.num pl 64) → recHeld v v.core.tenant r = none → recBad v v.core.tenant r = none → coreReached v v.core.tenant v.coreId = true → recWAIT r = 0 → v.tenant? v.core.tenant = some ten →
      (v.pkg.launches.filter fun k => k.tenant == v.core.tenant).length < ten.spec.launchQuota →
      v.pkg.launches.length < Config.launchRecords → isQueue d = false → d ≠ 0 →
      ∃ t k, exec (.launch d l a m p) s = .next t ∧ t.pkg.launches = v.pkg.launches ++ [k] ∧ k.record = r ∧
        k.gang = v.pkg.nextGang ∧ k.since = some v.cycle.toNat ∧ t.ctx.getS d = v.pkg.nextGang.setWidth 64 ∧
        (p ≠ 0 → v.pkg.nextGang ≠ 0 → t.ctx.getP p = true) ∧ t.pkg.nextGang ≠ 0 ∧ BytesKept v t) ∧
    (∀ k, s.pkg.launches = [k] → k.since = none → k.registered = false → recWAIT k.record ≠ 0 → pollOpen s k = true →
      translateFor s k.tenant (recWAIT k.record) false = .ok nc → s.mem.num nc 8 = 0 →
      ∃ t, exec (.waitCounterPoll k.gang) s = .next t ∧ t.pkg.launches = [{ k with since := some s.cycle.toNat }] ∧ t.mem = s.mem)

/-- The launch unit places a record on its cores: the control context starts at the record's PC with ARG, group, rank, CPG and GROUPS in s1–s5 and
everything else cleared. A gang whose cores have all ended is removed, its completion record written, its cores free. -/
def Sys2Proof.Claims.GangsPlacedAndCompleted : Prop :=
  ∀ s : State,
    (∀ r, nextPlaced s = some (r, [[s.coreId]]) → recMCOUNT r.record = 0 →
      ∃ t g, exec .gangPlace s = .next t ∧ t.core.gang = some r.gang ∧ t.core.tenant = r.tenant ∧ (t.ctxAt 0).pc = recPC r.record ∧
        (t.ctxAt 0).getS 1 = recARG r.record ∧ (t.ctxAt 0).getS 2 = 0 ∧ (t.ctxAt 0).getS 3 = 0 ∧
        (t.ctxAt 0).getS 4 = BitVec.ofNat 64 (recCPG r.record) ∧ (t.ctxAt 0).getS 5 = BitVec.ofNat 64 (recGROUPS r.record) ∧
        (∀ k : SReg, 6 ≤ k.toNat → (t.ctxAt 0).getS k = 0) ∧ (t.ctxAt 0).live = true ∧ (t.ctxAt 0).freed = 0 ∧
        t.core.vq = [] ∧ t.core.regs.qcfg = 0xFFFFFFFFFFFFFFFF ∧ t.core.work = [] ∧ t.mem = s.mem ∧
        t.pkg.gangs = s.pkg.gangs ++ [g] ∧ g.num = r.gang ∧ g.cores = [s.coreId] ∧ g.status = 0 ∧ g.ended = []) ∧
    (∀ g, s.gangOf g.num = some g → gangDone s g = true → completeOpen s g = true → g.cores = [s.coreId] → s.core.gang = some g.num →
      ∃ t, exec (.gangComplete g.num) s = .next t ∧ t.core.gang = none ∧ t.gangOf g.num = none ∧
        (g.compl = 0 → BytesKept s t) ∧
        ∀ p, g.compl ≠ 0 → translateFor s g.tenant g.compl true = .ok p → (isWeight p = true → t.mem = s.mem) ∧
          (isWeight p = false → t.mem = s.mem.setBytes p
            (toBytesLE 4 g.num.toNat ++ [g.status, 0, 0, 0] ++ toBytesLE 8 (Nat.min (s.cycle.toNat - g.placed) (2 ^ 64 - 1)))))

/-- PACE loads a good descriptor, and with a descriptor running traps, TADDR 0 being log entry 21, the model's choice; PERMIT adds permits,
saturating; the Pacer pushes base plus index times stride to its queue. -/
def Obligations.PacerRuns : Prop :=
  ∀ (s u : State) (a : SReg) (l m : Bool) (x : W64), s.isHelper = false →
    (operands s [⟨a, l⟩] [] = .ok ([x], u) → ∀ d, scratchArea u 128 128 true x = .ok () → d = s.core.scratch.num x.toNat 128 →
      (s.core.regs.pacer.active = false → paceBad d = none → paceQueue s.core.regs.qcfg d = none →
        ∃ t, exec (.pace l a m) s = .next t ∧ t.core.regs.pacer.active = true ∧ t.core.regs.pacer.permits.toNat = d / 2 ^ 16 % 2 ^ 16 ∧
          t.core.regs.pacer.levels = d % 4 + 1 ∧ t.core.regs.pacer.streams = d / 4 % 4 + 1 ∧ t.core.regs.pacer.qbase = d / 16 % 8 ∧
          t.core.regs.pacer.i = Vector.replicate 4 0 ∧ BytesKept s t ∧ WentTo (s.ctx.pc + 4) s t) ∧
      (s.core.regs.pacer.active = true → exec (.pace l a m) s = .next (takeTrap ⟨0x44, 0, 0⟩ s))) ∧
    (operands s [⟨a, l⟩] [] = .ok ([x], u) →
      ∃ t, exec (.permit l a m) s = .next t ∧ t.core.regs.pacer.permits.toNat =
          (if s.core.regs.pacer.permits.toNat + field x 15 0 ≤ 65535 then s.core.regs.pacer.permits.toNat + field x 15 0 else 65535) ∧
        t.core.regs.pacer.active = s.core.regs.pacer.active ∧ BytesKept s t ∧ WentTo (s.ctx.pc + 4) s t) ∧
    (∀ q : Fin 8, pacerDue s.core = true → s.core.regs.pacer.stream = some 0 → s.core.regs.pacer.streams = 1 →
      s.core.regs.pacer.levels = 1 → s.core.regs.pacer.qbase = q.val →
      ∃ t, exec (.pacerPush s.coreId) s = .next t ∧ BytesKept s t ∧ t.queue q = s.queue q ++
        [s.core.regs.pacer.base[0] + BitVec.ofNat 64 s.core.regs.pacer.i[0] * (s.core.regs.pacer.stride[0]).signExtend 64])

/-! The vector queue -/

/-- Every vector, matrix and tile word other than VGATH, VSCAT and MTAB enters the queue behind the earlier entries and retires: its scalar is read at
issue, the marks of last use and the format word in issue order follow it, and no vector, tile or predicate register and no byte changes. A guarded
word enters without its checks, and a trap of its scalar read is owed; a helper traps; a full queue and a repeat frame make it wait. That a
dispatched entry counts among the 16 until it completes is the model's choice, log entry 10. -/
def Obligations.VectorWordsQueue : Prop :=
  ∀ (i : Instr) (w : W32) (s : State), queuedWord i = true → encode i = some w →
    (s.isHelper = true → exec i s = .next (takeTrap ⟨0x03, 0, w.setWidth 64⟩ s)) ∧
    (s.isHelper = false → frameHolds s = true → exec i s = .next (s.blockOn .frameActive)) ∧
    (s.isHelper = false → frameHolds s = false →
      (∀ u v, guarded w = false → vecOperands s i = .ok (v, u) → entryChecks s s.isHandler (fmtInForce s) v i = .ok () →
        (16 ≤ s.core.entries.length → exec i s = .next (s.blockOn .vqFull)) ∧
        (s.core.entries.length < 16 → ∃ t, exec i s = .next t ∧ Queued s t i (plainEntry s i w v none))) ∧
      (∀ u vs, guarded w = true → operands s (vecScalar i) [] = .ok (vs, u) → s.core.entries.length < 16 →
        ∃ t, exec i s = .next t ∧ Queued s t i (plainEntry s i w (vs.getD 0 0) none)) ∧
      (∀ x, guarded w = true → operands s (vecScalar i) [] = .error (.trap x) → s.core.entries.length < 16 →
        ∃ t, exec i s = .next t ∧ Queued s t i (plainEntry s i w 0 (some x))))

/-- THE HEAD OF THE QUEUE: a word whose guard bit is 0 retires with no effect; a word with nothing to wait for starts; one that writes a vector register from
vector registers always may. A trap at the head pauses its context with QHEAD set, the program counter it had and one instruction uncounted, and holds its later entries,
whose marks of last use and format words go with them. A started word writes
its register, ORs its flags into the issuing context's FSTAT, and changes nothing else. -/
def Obligations.VectorWordsComplete : Prop :=
  ∀ (s : State) (e : VEntry) (rest : List VEntry),
    (s.core.flying = none → s.core.vq = e :: rest →
      (guardHolds s.core.regs.vec e = false →
        exec (.vectorQueueDispatch s.coreId) s = .next (s.modCore fun c => { c with vq := rest })) ∧
      (∀ i, decode e.word = .ok i → guarded e.word = false → (rowResult s.core.regs.vec (fun r => s.core.regs.vec.v[r.toNat]) .rne 0 i).isSome = true →
        exec (.vectorQueueDispatch s.coreId) s = .next (s.modCore fun c => { c with vq := rest, flying := some e })) ∧
      (∀ i, decode e.word = .ok i → headState s e = .go → (∀ d g k n h, i ≠ .msm d g k n h) →
        exec (.vectorQueueDispatch s.coreId) s = .next (s.modCore fun c => { c with vq := rest, flying := some e })) ∧
      (∀ x, headState s e = .trap x → e.frame = none → e.ctx ≠ handlerIx → s.core.trap.halted = false → s.core.trap.service = .none →
        s.core.trap.pendTraps = [] → ∃ t, exec (.vectorQueueDispatch s.coreId) s = .next t ∧ t.core.flying = none ∧
          t.core.vq = rest.filter (fun k => k.ctx != e.ctx) ∧ t.core.trap.held = rest.filter (fun k => k.ctx == e.ctx) ++ s.core.trap.held ∧
          (t.ctxAt e.ctx).wait = .trapped ∧ (t.ctxAt e.ctx).pc = (s.ctxAt e.ctx).pc ∧
          t.core.trap.tcause = BitVec.ofNat 64 (x.code.toNat + 4096 * ctxNum e.ctx + 65536) ∧ t.core.trap.taddr = x.addr ∧
          t.core.trap.tepc = e.pc ∧ t.core.trap.tnpc = (s.ctxAt e.ctx).pc ∧ t.core.trap.tstat = x.stat ∧
          t.core.regs = (reissued { s.core with vq := rest.filter (fun k => k.ctx != e.ctx) }).regs ∧ (t.ctxAt e.ctx).instret = (s.ctxAt e.ctx).instret - 1 ∧
          BytesKept s t)) ∧
    (∀ i d row f, s.core.flying = some e → decode e.word = .ok i →
      rowResult s.core.regs.vec (readRow s.core.regs.vec s.fresh) (modeOf e.rm) e.sval i = some (d, row, f) →
      ∃ t, exec (.vectorEntryComplete s.coreId) s = .next t ∧ EntryDone s t e f ∧ t.core.scratch = s.core.scratch ∧
        t.core.regs = { s.core.regs with vec := { s.core.regs.vec with
          v := s.core.regs.vec.v.set d.toNat row, past := row :: s.core.regs.vec.past, vgone := freedAfter i s.core.regs.vec.vgone } }) ∧
    (∀ r : VReg, s.core.regs.vec.vgone.getLsbD r.toNat = false → readRow s.core.regs.vec s.fresh r = s.core.regs.vec.v[r.toNat])

/-- ELEMENTS. Integer add, subtract, multiply and multiply-add wrap in the element's width; minimum, maximum, comparison and absolute value go by the type's
sign; logic, shifts by the count's low bits, select by a nonzero mask, broadcast. Floating elements are the operations fAdd, fSub, fMul, fFma and so on of each format, which another statement ties to
the rounding of the exact result, and the flags are those of all elements. -/
def Sys2Proof.Claims.ElementResults : Prop :=
  ∀ (v : VecRegs) (rd : VReg → Row) (r : RMode) (x : W64) (d a b : VReg) (l m : Bool) (q : BitVec 3) (c : BitVec 3) (t : BitVec 4)
    (w : Nat) (A B D : Nat → Nat), w = tyWidth t.toNat →
    (∀ e, A e = elemAt w (rd a) e ∧ B e = elemAt w (rd b) e ∧ D e = elemAt w (rd d) e) →
    (∀ g, g ∈ elementTable r l m q a b d t →
      (∀ o, g.2 = .inl o → tyFmt t.toNat = none → Elementwise t.toNat (rowResult v rd r x g.1) d fun e => (o w (A e) (B e) (D e), 0)) ∧
      (∀ o, g.2 = .inr o → ∀ f, tyFmt t.toNat = some f →
        Elementwise t.toNat (rowResult v rd r x g.1) d fun e => o f (A e) (B e) (D e))) ∧
    (Elementwise t.toNat (rowResult v rd r x (.vcmp d l a m b c t)) d fun e => match tyFmt t.toNat with
      | some f => (if (fCompare f c.toNat (A e) (B e)).1 then 2 ^ w - 1 else 0, (fCompare f c.toNat (A e) (B e)).2)
      | none => (if (match c.toNat with
          | 0 => decide (A e = B e)
          | 1 => decide (A e ≠ B e)
          | 2 => decide (intOf t.toNat (A e) < intOf t.toNat (B e))
          | 3 => decide (intOf t.toNat (A e) ≤ intOf t.toNat (B e))
          | 4 => decide (intOf t.toNat (B e) < intOf t.toNat (A e))
          | _ => decide (intOf t.toNat (B e) ≤ intOf t.toNat (A e))) then 2 ^ w - 1 else 0, 0)) ∧
    (∀ o : BitVec 3, Elementwise t.toNat (rowResult v rd r x (.vlog d l a m b o t)) d fun e => (match o.toNat with
      | 0 => A e &&& B e
      | 1 => A e ||| B e
      | 2 => A e ^^^ B e
      | 3 => A e &&& (2 ^ w - 1 - B e)
      | _ => 2 ^ w - 1 - A e, 0)) ∧
    (∀ o : BitVec 2, 32 ≤ w → Elementwise t.toNat (rowResult v rd r x (.vsh d l a m b o t)) d fun e => (match o.toNat with
      | 0 => A e * 2 ^ (B e % w)
      | 1 => A e / 2 ^ (B e % w)
      | _ => ((BitVec.ofNat w (A e)).sshiftRight (B e % w)).toNat, 0)) ∧
    (Elementwise t.toNat (rowResult v rd r x (.vsel d l a m b t)) d fun e => (if D e = 0 then B e else A e, 0)) ∧
    Elementwise t.toNat (rowResult v rd r x (.vbcast d l 0 t)) d fun _ => (x.toNat, 0)

/-- REDUCTIONS, SCANS, PERMUTATION, CONVERSION, CODES, BYTES, FLIPS: an integer VRED puts the sum of the present elements into element 0 and zero elsewhere, VSCAN the
running sums; VPERM takes slots by index; VCVT converts elements one by one; VDEC and VENC go through the decode table; VMAC multiplies bytes; VFLIP flips at most one
variable. -/
def Sys2Proof.Claims.RowResults : Prop :=
  ∀ (v : VecRegs) (rd : VReg → Row) (r : RMode) (x : W64) (d a b : VReg) (l m : Bool) (q : BitVec 3) (g : BitVec 5) (n : BitVec 2)
    (t : BitVec 4) (w : Nat) (here : Nat → Bool), w = tyWidth t.toNat →
    (∀ e, here e = (b == 0 || (rd b)[0].getLsbD e)) →
    (tyFmt t.toNat = none → 32 ≤ w → q.toNat ≤ 4 →
      (Elementwise t.toNat (rowResult v rd r x (.vred d l a m b q t)) d fun e =>
        (if e = 0 then (((List.range (tyCount t.toNat)).filter here).map (elemAt w (rd a))).sum else 0, 0)) ∧
      Elementwise t.toNat (rowResult v rd r x (.vscan d l a m b q t)) d fun e =>
        ((((List.range (e + 1)).filter here).map (elemAt w (rd a))).sum, 0)) ∧
    (∃ row, rowResult v rd r x (.vperm d l a m b) = some (d, row, 0) ∧
      ∀ k : Fin 32, row[k] = (rd a)[(rd b)[k].toNat % 32]'(Nat.mod_lt _ (by decide))) ∧
    (∃ row f, rowResult v rd r x (.vcvt d l a m g q t) = some (d, row, f) ∧
      ∀ e, elemAt (tyWidth g.toNat) row e =
        if e < (if w = 64 ∨ tyWidth g.toNat = 64 then 16 else 32)
        then (eConvert t.toNat g.toNat r (elemAt w (rd a) e)).1 % 2 ^ tyWidth g.toNat else 0) ∧
    (∃ row, rowResult v rd r x (.vdec d l a m n) = some (d, row, 0) ∧
      ∀ e < 32, elemAt 32 row e = e8m10ToF32 (decodeCode v.tabs[n.toNat] (elemAt 8 (rd a) e)) % 2 ^ 32) ∧
    (∃ row f, rowResult v rd r x (.venc d l a m n) = some (d, row, f) ∧
      ∀ e, elemAt 8 row e = if e < 32 then (encodeCode v.tabs[n.toNat] (encodeList v.tabs[n.toNat]) (elemAt 32 (rd a) e)).1 % 2 ^ 8 else 0) ∧
    (∃ row, rowResult v rd r x (.vmac d l a m b t) = some (d, row, 0) ∧ (t = 7 → ∀ e < 32,
      BitVec.ofNat 32 (elemAt 32 row e) = BitVec.ofNat 32 (elemAt 32 (rd d) e) +
        (BitVec.ofNat 8 (elemAt 8 (rd a) e)).signExtend 32 * (BitVec.ofNat 8 (elemAt 8 (rd b) e)).signExtend 32) ∧
      (t = 8 → ∀ e < 32, BitVec.ofNat 32 (elemAt 32 row e) = BitVec.ofNat 32 (elemAt 32 (rd d) e +
        elemAt 8 (rd a) e * elemAt 8 (rd b) e))) ∧
    ∃ row f, rowResult v rd r x (.vflip d l a m b q) = some (d, row, f) ∧ (∀ k : Fin 32, 4 ≤ k.val → row[k] = 0) ∧
      ((row[1].toNat < 32 ∧ row[0] = (rd b)[0]) ∨
        (32 ≤ row[1].toNat ∧ row[1].toNat < 64 ∧ row[0] = (rd b)[0] ^^^ ((1 : BitVec 32) <<< (row[1].toNat - 32))))

/-- Elementwise results and the rows made from a whole register. -/
def Obligations.VectorElementResults : Prop := Claims.ElementResults ∧ Claims.RowResults

/-- ROUNDING of an exact value in each of the four modes. To nearest even: no finite pattern lies nearer, and of two equally near the even one is taken;
toward zero: no larger in magnitude, on its side of zero, and no finite pattern between; upward and downward: the least finite pattern not below it, the greatest not
above. NX is set exactly when the result is not the exact value. Infinity with OF and NX comes only for what lies beyond every finite pattern. An exact zero takes the
sign given. -/
def Sys2Proof.Claims.RoundsCorrectly : Prop :=
  ∀ (f : Fmt) (r : RMode) (z : Bool) (d : Dy), f ∈ [f16, bf16, f32, f64] →
    (d.m = 0 → roundDy f r z d = (f.withSign z 0, 0)) ∧ (d.m ≠ 0 → Claims.Rounded f r (Claims.numberOf d) (roundDy f r z d))

/-- FLOATING OPERATIONS on finite operands: the sum, difference, product and multiply-add are the rounding of every exact form of the exact result, with the sign of
IEEE 754 for a zero; the quotient, reciprocal and reciprocal square root are correctly rounded, and at zero infinite with DZ. A NaN operand comes back quieted, the first
of them, with NV where one is signalling. -/
def Sys2Proof.Claims.FloatOperations : Prop :=
  ∀ (f : Fmt) (r : RMode) (a b c : Nat) (A B C : ℚ), f ∈ [f16, bf16, f32, f64] →
    (Claims.FinitePattern f a → Claims.FinitePattern f b → Claims.FinitePattern f c →
      A = Claims.numberOf (f.value a) → B = Claims.numberOf (f.value b) → C = Claims.numberOf (f.value c) →
      (∀ d : Dy,
        (Claims.numberOf d = A + B → fAdd f r a b = roundDy f r (if f.neg a = f.neg b then f.neg a else r == .rdn) d) ∧
        (Claims.numberOf d = A - B → fSub f r a b = roundDy f r (if f.neg a = f.neg b then r == .rdn else f.neg a) d) ∧
        (Claims.numberOf d = A * B → fMul f r a b = roundDy f r (f.neg a != f.neg b) d) ∧
        (Claims.numberOf d = A * B + C → fFma f r a b c =
          roundDy f r (if A * B = 0 ∧ C = 0 ∧ (f.neg a != f.neg b) = f.neg c then f.neg c else r == .rdn) d)) ∧
      (A ≠ 0 → B ≠ 0 → Claims.Rounded f r ((A / B : ℚ) : ℝ) (fDiv f r a b)) ∧
      (A ≠ 0 → Claims.Rounded f r ((1 / A : ℚ) : ℝ) (fRcp f r a)) ∧
      (0 < A → Claims.Rounded f r (1 / Real.sqrt (A : ℝ)) (fRsqrt f r a)) ∧
      (A = 0 → fRcp f r a = (f.withSign (f.neg a) f.infBits, fDZ) ∧ fRsqrt f r a = (f.withSign (f.neg a) f.infBits, fDZ)) ∧
      (A < 0 → fRsqrt f r a = (f.qnan, fNV))) ∧
    ∀ op ∈ [fAdd f r, fSub f r, fMul f r],
      (f.isNaN a = true → op a b = (f.quiet a, if f.isSNaN a || f.isSNaN b then fNV else 0)) ∧
      (f.isNaN a = false → f.isNaN b = true → op a b = (f.quiet b, if f.isSNaN b then fNV else 0))

/-- Rounding in every mode, and the operations as roundings of exact results. -/
def Obligations.RoundingIsCorrect : Prop := Claims.RoundsCorrectly ∧ Claims.FloatOperations

/-- TILES, FORMATS, PREDICATES and the scratchpad: MZERO, MLD (as it stands or transposed), MST in FP32, MMOV into a tile, MFMT with CLRS, KLD, KOP (k0 stays all ones),
VLD and VST. Each changes the piece it names and nothing else of the registers or memories. -/
def Sys2Proof.Claims.TileWords : Prop :=
  ∀ (s : State) (e : VEntry) (i : Instr) (V : VecRegs), s.core.flying = some e → decode e.word = .ok i → V = s.core.regs.vec →
    (∀ d k n, i = .mzero d k n → CompletesTo s e i 0 s.core.scratch { V with
      m := V.m.set d.toNat (Vector.replicate 1024 0), smx := V.smx.set d.toNat none }) ∧
    (∀ d x k n tr j, i = .mld d x k n tr j → ∃ tile, CompletesTo s e i 0 s.core.scratch { V with
        m := V.m.set d.toNat tile, smx := V.smx.set d.toNat none } ∧
      ∀ row < 32, ∀ col < 32, tileAt tile row col = s.core.scratch.num
        ((e.sval + 64 * j.setWidth 64).toNat + if tr then 128 * col + 4 * row else 128 * row + 4 * col) 4 % 2 ^ 32) ∧
    (∀ d x k n j, i = .mst d x k n j → fmtOTYPE V.fmt = 0 → Memory.wf s.core.scratch = true →
      ∃ mem, CompletesTo s e i 0 mem V ∧
        (∀ row < 32, ∀ col < 32, mem.num ((e.sval + 64 * j.setWidth 64).toNat + 128 * row + 4 * col) 4 = tileAt V.m[d.toNat] row col) ∧
        ∀ q, (q < (e.sval + 64 * j.setWidth 64).toNat ∨ (e.sval + 64 * j.setWidth 64).toNat + 4096 ≤ q) →
          mem.get q = s.core.scratch.get q) ∧
    (∀ g x r c j, i = .mmov g x r c true j → ∃ tile, CompletesTo s e i 0 s.core.scratch { V with
        m := V.m.set g.toNat tile, smx := V.smx.set g.toNat none } ∧
      ∀ row < 32, ∀ col < 32, tileAt tile row col =
        if (if c then col else row) = (e.sval.toNat % 32 + j.toNat) % 32
        then (vget (readRow V s.fresh r) (if c then row else col) 0).toNat else tileAt V.m[g.toNat] row col) ∧
    (∀ g x r c j, i = .mmov g x r c false j → ∃ row, CompletesTo s e i 0 s.core.scratch { V with
        v := V.v.set r.toNat row, past := row :: V.past } ∧
      ∀ k : Fin 32, row[k].toNat = if c then tileAt V.m[g.toNat] k.val ((e.sval.toNat % 32 + j.toNat) % 32)
        else tileAt V.m[g.toNat] ((e.sval.toNat % 32 + j.toNat) % 32) k.val) ∧
    (∀ x, i = .mfmt x → CompletesTo s e i 0 s.core.scratch { V with
      fmt := e.sval &&& ~~~((1 : W64) <<< 28)
      smax := if e.sval.getLsbD 28 then Vector.replicate 32 0xFF800000 else V.smax
      ssum := if e.sval.getLsbD 28 then Vector.replicate 32 0 else V.ssum
      sfac := if e.sval.getLsbD 28 then Vector.replicate 32 0x3F800000 else V.sfac }) ∧
    (∀ k x, i = .kld k x → CompletesTo s e i 0 s.core.scratch { V with
      k := if k = 0 then V.k else V.k.set k.toNat e.sval }) ∧
    (∀ k x a o y, i = .kop k x a o → y = (if a = 0 then BitVec.allOnes 64 else V.k[a.toNat]) →
      CompletesTo s e i 0 s.core.scratch { V with k := if k = 0 then V.k else V.k.set k.toNat (match o.toNat with
        | 0 => y &&& e.sval
        | 1 => y ||| e.sval
        | 2 => y ^^^ e.sval
        | _ => y &&& ~~~e.sval) }) ∧
    (∀ d l x n, i = .vld d l x n → ∃ row, CompletesTo s e i 0 s.core.scratch { V with
        v := V.v.set d.toNat row, past := row :: V.past } ∧
      ∀ k : Fin 32, row[k] = BitVec.ofNat 32 (s.core.scratch.num ((e.sval + 128 * n.signExtend 64).toNat + 4 * k.val) 4)) ∧
    (∀ d l x n, i = .vst d l x n → Memory.wf s.core.scratch = true → ∃ mem, CompletesTo s e i 0 mem V ∧
      (∀ k : Fin 32, mem.num ((e.sval + 128 * n.signExtend 64).toNat + 4 * k.val) 4 = (vget (readRow V s.fresh d) k.val 0).toNat) ∧
      ∀ q, (q < (e.sval + 128 * n.signExtend 64).toNat ∨ (e.sval + 128 * n.signExtend 64).toNat + 128 ≤ q) →
        mem.get q = s.core.scratch.get q)

/-- MATRIX WORDS. MMA adds, element by element, the products of a row of the A slot and a column of the B slot to the accumulator in one rounding, with .RESC scaled
by SFAC; MMA and MMAS change the one tile and pop the rings they are told to. MSCALE divides by SSUM. MSM updates maxima, factors and sums row by row and completes its slot with the second half. MTAB fills its
slot from the image read at issue. -/
def Sys2Proof.Claims.MatrixWords : Prop :=
  ∀ (s t : State) (e : VEntry) (i : Instr) (V : VecRegs), s.core.flying = some e → decode e.word = .ok i → V = s.core.regs.vec →
    exec (.vectorEntryComplete s.coreId) s = .next t →
    (∀ d a b k n x r p q, i = .mma d a b k n x r p q → a ≠ b → ∀ row < 32, ∀ col < 32,
      BitVec.ofNat 32 (tileAt t.core.regs.vec.m[d.toNat] row col) = BitVec.ofNat 32 (sumTerms
        ((if r then termMul (termOf f32 (tileAt V.m[d.toNat] row col)) (termOf f32 (vget V.sfac row 0).toNat)
          else termOf f32 (tileAt V.m[d.toNat] row col)) ::
        (List.range 64).map fun j => termScale (fmtSA V.fmt + fmtSB V.fmt) (termMul
          (slotTerm s.core.scratch ((s.ring a).slotAddr ((s.ring a).fromHead 0)) (fmtAFMT V.fmt) (tableSlot V (fmtATAB V.fmt)) (64 * row + j))
          (slotTerm s.core.scratch ((s.ring b).slotAddr ((s.ring b).fromHead 0)) (fmtBFMT V.fmt) (tableSlot V (fmtBTAB V.fmt)) (32 * j + col))))).1) ∧
    (∀ d a b k n x r p q, i = .mma d a b k n x r p q → a ≠ b → PopsRings s t [(a, p), (b, q)] ∧ TileFrame s t d) ∧
    (∀ d a b k n ty g p q, i = .mmas d a b k n ty g p q → a ≠ b → a ≠ g → b ≠ g → PopsRings s t [(a, p), (b, q), (g, p)] ∧ TileFrame s t d) ∧
    (∀ d k n, i = .mscale d k n → TileFrame s t d ∧ t.core.regs.vec.rings = V.rings ∧ ∀ row < 32, ∀ col < 32,
      BitVec.ofNat 32 (tileAt t.core.regs.vec.m[d.toNat] row col) =
        BitVec.ofNat 32 (fDiv f32 .rne (tileAt V.m[d.toNat] row col) (vget V.ssum row 0).toNat).1) ∧
    (∀ d g k n h o, i = .msm d g k n h → outType V V.fmt = some o → t.core.regs.vec.m = V.m ∧ t.core.regs.vec.v = V.v ∧
      (∀ row : Fin 32, ∀ y, y = msmRow o V.smax[row].toNat V.ssum[row].toNat ((List.range 32).map fun j => tileAt V.m[d.toNat] row.val j) →
        t.core.regs.vec.smax[row] = BitVec.ofNat 32 y.smax ∧ t.core.regs.vec.sfac[row] = BitVec.ofNat 32 y.sfac ∧
        t.core.regs.vec.ssum[row] = BitVec.ofNat 32 y.ssum) ∧
      (h = false → t.core.regs.vec.rings = V.rings) ∧
      ∀ z, h = true → (s.ring g).resv = [z] → z.owner = 0 → z.done = false →
        (t.ring g).filled = (s.ring g).filled + 1 ∧ (t.ring g).resv = []) ∧
    (∀ n x, i = .mtab n x → t.core.regs.vec.tabs = V.tabs.set n.toNat (tableOf e.image) ∧ t.core.regs.vec.m = V.m ∧
      t.core.regs.vec.v = V.v ∧ t.core.scratch = s.core.scratch)

/-- Tile words and matrix words. -/
def Obligations.TileAndMatrixResults : Prop := Claims.TileWords ∧ Claims.MatrixWords

/-- VGATH and VSCAT are held with the lanes that are not off, checked in ascending order, the register of a gather is pending, and the word enters the queue; MTAB enters the queue with the image
it reads at issue; a word that is no instruction raises *illegal instruction* with itself in TSTAT, but a guarded one enters the queue, the scalar of an MST form
read at issue. -/
def Sys2Proof.Claims.HeldAndIllegalWords : Prop :=
  ∀ (s u v : State) (d b : VReg) (l : Bool) (a : SReg) (ty : BitVec 4) (n : BitVec 2) (w : W32) (base : W64) (lanes : List Lane)
    (image : List W32), s.isHelper = false → frameHolds s = false →
    (∀ i scat, (i = .vgath d l a b ty ∧ scat = false ∨ i = .vscat d l a b ty ∧ scat = true) → encode i = some w →
      writesPending s.core (if scat then [b, d] else [b]) = false → vecOperands s i = .ok (base, u) →
      checkLanes scat (tyWidth ty.toNat / 8) (if scat then elems (tyWidth ty.toNat) (tyCount ty.toNat) (readRow s.core.regs.vec s.fresh d) else [])
        (lanesOf base ty.toNat (readRow s.core.regs.vec s.fresh b)) u.useFresh = .ok (lanes, v) →
      (s.core.regs.gathers.filter fun g => !g.sent).length < 64 → v.core.entries.length < 16 →
      ∃ t g, exec i s = .next t ∧ t.core.regs.gathers = s.core.regs.gathers ++ [g] ∧ g.scat = scat ∧ g.vd = d ∧ g.lanes = lanes ∧
        g.sent = false ∧ g.served = false ∧ t.core.regs.vec.v = s.core.regs.vec.v ∧
        (∀ r : VReg, t.core.regs.gpend.getLsbD r.toNat = (s.core.regs.gpend.getLsbD r.toNat || (!scat && r == d))) ∧
        t.core.vq = v.core.vq ++ [plainEntry s i w base none] ∧ WentTo (v.ctx.pc + 4) v t ∧ t.mem = v.mem) ∧
    (encode (.mtab n a) = some w → vecOperands s (.mtab n a) = .ok (base, u) → readImage u base (.mtab n a) = .ok (image, v) →
      v.core.entries.length < 16 → ∃ t, exec (.mtab n a) s = .next t ∧
        t.core.vq = v.core.vq ++ [{ plainEntry s (.mtab n a) w base none with image := image }] ∧ WentTo (v.ctx.pc + 4) v t ∧ t.mem = v.mem) ∧
    (guarded w = false → exec (.illegalWord w) s = .next (takeTrap ⟨0x01, 0, w.setWidth 64⟩ s)) ∧
    (guarded w = true → s.core.entries.length < 16 →
      (∀ vs, operands s (illegalScalar w) [] = .ok (vs, u) → ∃ t, exec (.illegalWord w) s = .next t ∧
        Queued s t (.illegalWord w) (plainEntry s (.illegalWord w) w (vs.getD 0 0) none)) ∧
      (∀ x, operands s (illegalScalar w) [] = .error (.trap x) → ∃ t, exec (.illegalWord w) s = .next t ∧
        Queued s t (.illegalWord w) (plainEntry s (.illegalWord w) w 0 (some x))) ∧
      (∀ x, operands s (illegalScalar w) [] = .error (.block x) → exec (.illegalWord w) s = .next (s.blockOn x)) ∧
      (illegalScalar w = if w.toNat / 2 ^ 26 = 0x36 then [⟨w.extractLsb' 17 6, false⟩] else []))

/-- REP captures the words behind it and goes on behind them, with the frame at step 0, index 0; a word of another class traps with its place. Each dispatch of the frame
puts one staggered body word into the queue and moves on: the next word, then the next step, then the frame ends. That INSTRET rises by one with each word that
is dispatched is log entry 56, the model's choice. -/
def Sys2Proof.Claims.RepeatFrames : Prop :=
  ∀ (s u : State) (c : BitVec 4) (n : BitVec 8) (x : BitVec 14) (ws : List W32), s.isHelper = false →
    (frameActive s.core.regs.frame.word = false → fetchBody (s.ctx.pc + 4) (c.toNat + 1) s = .ok (ws, u) →
      ((∀ w ∈ ws, frameWord w = true) → ∃ t, exec (.rep c n x) s = .next t ∧ t.core.regs.frame.body = ws ∧
        t.core.regs.frame.base = (s.ctx.pc + 4) &&& 0xFFFFFFFFFFFF ∧ t.core.regs.frame.pc = t.ctx.pc &&& 0xFFFFFFFFFFFF ∧ t.core.regs.frame.ctx = s.core.cur ∧
        frameStep t.core.regs.frame.word = 0 ∧ frameIndex t.core.regs.frame.word = 0 ∧ frameCount t.core.regs.frame.word = c.toNat ∧
        frameLast t.core.regs.frame.word = n.toNat ∧ frameActive t.core.regs.frame.word = true ∧
        field t.core.regs.frame.word 45 32 = x.toNat ∧ t.ctx.pc = s.ctx.pc + 4 + BitVec.ofNat 64 (4 * (c.toNat + 1)) ∧ t.core.vq = u.core.vq ∧
        t.mem = u.mem) ∧
      (∀ k, (ws.findIdx? fun w => !frameWord w) = some k → exec (.rep c n x) s = .next (takeTrap ⟨0x34, 0, BitVec.ofNat 64 k⟩ s))) ∧
    (∀ f r w w' i j y v, f = s.core.regs.frame → r = s.modCore (fun k => { k with cur := f.ctx }) → frameMay s.core = true →
      r.isHelper = false → s.core.trap.held = [] → s.core.trap.later = none → f.body[frameIndex f.word]? = some w → frameWord w = true → decode w = .ok i →
      stagger (field f.word 45 32) (frameStep f.word) i = j → queuedWord j = true → encode j = some w' → guarded w' = false →
      vecOperands r j = .ok (y, v) → entryChecks r r.isHandler (fmtInForce r) y j = .ok () → s.core.entries.length < 16 →
      ∃ t, exec (.frameStepDispatch s.coreId) s = .next t ∧ t.core.vq = s.core.vq ++ [
          { plainEntry r j w' y none with pc := f.base + BitVec.ofNat 64 (4 * frameIndex f.word), frame := some f }] ∧
        t.core.cur = s.core.cur ∧ BytesKept s t ∧ (t.ctxAt f.ctx).instret = (s.ctxAt f.ctx).instret + 1 ∧
        (frameIndex f.word < frameCount f.word → frameActive t.core.regs.frame.word = true ∧
          frameStep t.core.regs.frame.word = frameStep f.word ∧ frameIndex t.core.regs.frame.word = frameIndex f.word + 1) ∧
        (frameIndex f.word = frameCount f.word → frameStep f.word < frameLast f.word → frameActive t.core.regs.frame.word = true ∧
          frameStep t.core.regs.frame.word = frameStep f.word + 1 ∧ frameIndex t.core.regs.frame.word = 0) ∧
        (frameIndex f.word = frameCount f.word → frameStep f.word = frameLast f.word → frameActive t.core.regs.frame.word = false))

/-- Words held for their lanes, illegal words, and repeat frames. -/
def Obligations.HeldWordsAndFrames : Prop := Claims.HeldAndIllegalWords ∧ Claims.RepeatFrames

/-! The host -/

/-- EVERY COMMAND: before the ready entry it is refused with BUSY; a SEQ not above those of its space with STALE; one whose slot holds an incomplete command with SLOT BUSY; an
opcode that is not the command's with INVALID; one that its issuer may not send, by endpoint or transport key, with DENIED. A command sent again gets its recorded answer, or will get it when it completes. Nothing else of the
device changes. Only the owner's commands stand in the device's space. INVALID for another opcode, DENIED for a wrong endpoint or key, and the order of these checks are log
entry 47, the model's choice. -/
def Sys2Proof.Claims.CommandProtocol : Prop :=
  ∀ (s : State) (i : Instr) (c : Cmd) (op : Byte) (who : Issuer), hostCommand i = some (c, op, who) →
    (isOwner s c = false → spaceOf s c = c.tenant.toNat) ∧
    ∃ t, exec i s = .next t ∧
      (s.pkg.host.ready = false → Answered t c c.opcode 1 0 [] ∧ HostOnly s t) ∧
      (s.pkg.host.ready = true →
        (∀ e ∈ s.pkg.host.journal, e.kind = .command → e.space = spaceOf s c → e.seq = c.seq → e.slot ≠ c.slot) →
        ((∃ q, usedSeq s (spaceOf s c) = some q ∧ c.seq.toNat ≤ q.toNat) → Answered t c c.opcode 8 0 [] ∧ HostOnly s t) ∧
        ((∀ q, usedSeq s (spaceOf s c) = some q → q.toNat < c.seq.toNat) →
          (slotTaken s (spaceOf s c) c.slot = true → Answered t c c.opcode 7 0 [] ∧ HostOnly s t) ∧
          (slotTaken s (spaceOf s c) c.slot = false → c.opcode ≠ op → Answered t c c.opcode 2 0 [] ∧ HostOnly s t) ∧
          (slotTaken s (spaceOf s c) c.slot = false → c.opcode = op → Denied s c who → Answered t c op 6 0 [] ∧ HostOnly s t))) ∧
      (∀ e, s.pkg.host.ready = true →
        s.pkg.host.journal.find? (fun x => x.kind == .command && x.space == spaceOf s c && x.seq == c.seq && x.slot == c.slot) = some e →
        (2 ≤ e.state.toNat → t = s.modHost fun h => { h with
          out := h.out ++ [HostOut.completion c.caddr e.seq e.opcode e.slot e.status e.result e.idx []] }) ∧
        (e.state.toNat < 2 → t = s.modHost fun h => { h with again := h.again ++ [(e.space, e.idx, c.caddr)] }))

/-- MEMORY COMMANDS: a read answers the bytes of the places of the range, a write puts its bytes there and nothing elsewhere, a weight fill likewise while no gang of the tenant
runs, and an event adds its value to the word at its home. An address that does not translate answers FAULT (log entry 47). -/
def Sys2Proof.Claims.HostMemory : Prop :=
  ∀ (s : State) (c : Cmd) (va value : W64) (p n : Nat) (bytes : List Byte), Accepted s c c.tenant.toNat → holdsKey s c = true →
    Memory.wf s.mem = true → dataFits c bytes.length = true →
    (c.opcode = 0x05 → hostPlaces s c.tenant false va n = some ((List.range n).map fun k => .home (p + k)) → s.badMem = [] →
      ∃ t, exec (.memoryRead c (.va va) n) s = .next t ∧
        Answered t c 0x05 0 (BitVec.ofNat 64 n) ((List.range n).map fun k => s.mem.get (p + k)) ∧ HostOnly s t) ∧
    (c.opcode = 0x05 → hostPlaces s c.tenant false va n = none →
      ∃ t, exec (.memoryRead c (.va va) n) s = .next t ∧ Answered t c 0x05 4 0 [] ∧ HostOnly s t) ∧
    (c.opcode = 0x06 → hostPlaces s c.tenant true va bytes.length = some ((List.range bytes.length).map fun k => .home (p + k)) →
      ∃ t, exec (.memoryWrite c (.va va) bytes) s = .next t ∧ Answered t c 0x06 0 0 [] ∧ t.core = s.core ∧
        (∀ k, (h : k < bytes.length) → t.mem.get (p + k) = bytes[k]) ∧
        ∀ q, (q < p ∨ p + bytes.length ≤ q) → t.mem.get q = s.mem.get q) ∧
    (c.opcode = 0x09 → tenantRuns s c.tenant = true → ∃ t, exec (.weightStoreFill c va bytes) s = .next t ∧ Answered t c 0x09 1 0 [] ∧ HostOnly s t) ∧
    (c.opcode = 0x09 → tenantRuns s c.tenant = false → fillPlaces s c.tenant va bytes.length = some ((List.range bytes.length).map fun k => p + k) →
      ∃ t data, exec (.weightStoreFill c va bytes) s = .next t ∧ Answered t c 0x09 0 0 data ∧ t.core = s.core ∧
        (∀ k, (h : k < bytes.length) → t.mem.get (p + k) = bytes[k]) ∧
        ∀ q, (q < p ∨ p + bytes.length ≤ q) → t.mem.get q = s.mem.get q) ∧
    (c.opcode = 0x08 → va.toNat % 8 = 0 → s.inReduction c.tenant va = false → s.inReplicated c.tenant va = false →
      hostPlace s c.tenant true va = some (.home p) → ∃ t, exec (.event c va value) s = .next t ∧ Answered t c 0x08 0 0 [] ∧
        t.mem.num p 8 = (s.mem.num p 8 + value.toNat) % 2 ^ 64 ∧ (∀ q, (q < p ∨ p + 8 ≤ q) → t.mem.get q = s.mem.get q) ∧ t.core = s.core)

/-- TENANTS, LAUNCHES, REGIONS, TRANSLATIONS: a good creation makes the tenant; teardown removes it with its gangs and teams and zeroes its replicated memory; a launch is pending under its gang
number; a region is installed with its cells 0, or removed; an invalidation leaves no translation of the tenant in any core or die. INVALID for a bad
launch record is log entry 47, that a creation brings the tenant's page tables log entry 93, the model's choices. -/
def Sys2Proof.Claims.HostTenants : Prop :=
  ∀ (s : State) (c : Cmd) (spec : TenantSpec) (x : Tenant) (record : BitVec 512) (rg : Byte) (rdesc : BitVec 128),
    (Accepted s c 8 → isOwner s c = true →
      (c.opcode = 0x01 → specFine s c.tenant spec = true → specFits s spec = true → ∃ t, exec (.tenantCreate c spec) s = .next t ∧ Answered t c 0x01 0 0 [] ∧
        t.tenant? c.tenant = some { num := c.tenant, spec := spec, memKey := Config.drawKey s.fresh, regions := [] } ∧
        (spec.capVA = 0 → (spec.tables.map (·.1)).Nodup → Memory.wf s.mem = true → ∀ w ∈ spec.tables, t.mem.get w.1 = w.2)) ∧
      (c.opcode = 0x01 → specFine s c.tenant spec = false → ∃ t, exec (.tenantCreate c spec) s = .next t ∧ Answered t c 0x01 2 0 [] ∧ HostOnly s t) ∧
      (c.opcode = 0x02 → s.tenant? c.tenant = some x → ∃ t, exec (.tenantTeardown c) s = .next t ∧ Answered t c 0x02 0 0 [] ∧ t.tenant? c.tenant = none ∧
        (∀ g ∈ t.pkg.gangs, g.tenant ≠ c.tenant) ∧ (∀ e ∈ t.pkg.teams, e.tenant ≠ c.tenant) ∧
        ∀ h ∈ heldReplicas x.spec, ∀ q, h.1 ≤ q → q < h.1 + h.2 → t.mem.get q = 0)) ∧
    (Accepted s c c.tenant.toNat → holdsKey s c = true → s.tenant? c.tenant = some x →
      (c.opcode = 0x07 → recBad s c.tenant record = none → recWAIT record = 0 → (s.pkg.launches.filter fun k => k.tenant == c.tenant).length < x.spec.launchQuota →
        s.pkg.launches.length < Config.launchRecords → s.pkg.nextGang ≠ 0 →
        ∃ t k, exec (.hostLaunch c record) s = .next t ∧ Answered t c 0x07 0 (s.pkg.nextGang.setWidth 64) [] ∧
          t.pkg.launches = s.pkg.launches ++ [k] ∧ k.record = record ∧ k.gang = s.pkg.nextGang ∧ k.tenant = c.tenant ∧ k.caddr = some c.caddr) ∧
      (∀ b, c.opcode = 0x07 → recBad s c.tenant record = some b → ∃ t, exec (.hostLaunch c record) s = .next t ∧ Answered t c 0x07 2 0 [] ∧ HostOnly s t) ∧
      (c.opcode = 0x0A → tenantRuns s c.tenant = false → regionFine s c.tenant rg rdesc = true → ∀ i, i = .regionInstall c rg rdesc ∨ i = .regionRewrite c rg rdesc →
        ∃ t, exec i s = .next t ∧ Answered t c 0x0A 0 0 [] ∧ t.region c.tenant rg = rdesc &&& 0xFFFFFF3FFFFFFFFFFFFFFF ∧
          (rdValid rdesc = true → ∀ k, cellKey rdesc 0 ≤ k → k < cellKey rdesc (rdCells rdesc) → cellGet t.pkg.marks k = (0, 0)) ∧ t.mem = s.mem) ∧
      (c.opcode = 0x0A → tenantRuns s c.tenant = true → ∀ i, (i = .regionInstall c rg rdesc ∨ i = .regionRewrite c rg rdesc ∨ i = .regionRemove c rg) →
        ∃ t, exec i s = .next t ∧ Answered t c 0x0A 1 0 [] ∧ HostOnly s t) ∧
      (c.opcode = 0x0A → tenantRuns s c.tenant = false → ∃ t, exec (.regionRemove c rg) s = .next t ∧ Answered t c 0x0A 0 0 [] ∧ t.region c.tenant rg = 0) ∧
      (c.opcode = 0x0B → OthersApart s → ∃ t, exec (.translationInvalidate c) s = .next t ∧ Answered t c 0x0B 0 0 [] ∧ (∀ e ∈ t.core.tlb, e.tenant ≠ c.tenant) ∧ t.mem = s.mem ∧
        ∀ d : Fin 24, ∀ e ∈ (t.pkg.dies[d]).tcache, e.tenant ≠ c.tenant))

/-- THE REST: a page moves whole to its new home; journal, capabilities and reports are answered; an image that verifies is loaded while no gang runs; a fabric entry is
stored in its implemented bits; a layer sleeps when nothing needs it, and on waking hears the writes of the rein log; a device reset leaves the reset state. That
memory is empty after a device reset, and that a loaded image is the running one at once, is log entry 48, the model's choice. -/
def Sys2Proof.Claims.HostDevice : Prop :=
  ∀ (s : State) (c : Cmd) (va from_ : W64) (home : Loc) (nonce : BitVec 512) (image image' : Image) (bytes die slot : Nat) (b : Byte),
    (Accepted s c c.tenant.toNat → holdsKey s c = true → c.opcode = 0x0C → ∀ x entry, s.tenant? c.tenant = some x →
      leafAt s va.toNat [1, 2, 3, 4] x.spec.root = some (entry, 4) → home.space = 0 → home.die < 24 → home.off % 65536 = 0 →
      fitsSpace s home 65536 = true → ∀ old, old = physOf (homeOfLeaf (s.mem.num entry 8)) → (entry + 8 ≤ old ∨ old + 65536 ≤ entry) →
      (entry + 8 ≤ physOf home ∨ physOf home + 65536 ≤ entry) → (physOf home + 65536 ≤ old ∨ old + 65536 ≤ physOf home) →
      Memory.wf s.mem = true →
      ∃ t, exec (.pageMigrate c va home) s = .next t ∧ Answered t c 0x0C 0 0 [] ∧
        (∀ k < 65536, t.mem.get (physOf home + k) = s.mem.get (old + k)) ∧ physOf (homeOfLeaf (t.mem.num entry 8)) = physOf home) ∧
    (Accepted s c (spaceOf s c) → (isOwner s c = true ∨ holdsKey s c = true) →
      (c.opcode = 0x0D → ∃ t d, exec (.journalRead c from_) s = .next t ∧ Answered t c 0x0D 0 0 d ∧ HostOnly s t ∧
        d.length % 32 = 0 ∧ d.length ≤ 4064) ∧
      (c.opcode = 0x0E → ∃ t, exec (.capabilityRead c) s = .next t ∧ Answered t c 0x0E 0 0 (capList s) ∧ HostOnly s t) ∧
      (c.opcode = 0x0F → ∃ t d, exec (.attest c nonce) s = .next t ∧ Answered t c 0x0F 0 0 d ∧ HostOnly { s with fresh := t.fresh } t ∧
        d.length = 64 * 4 + (Config.keyBytes Config.identityModulus Config.identityExponent).length + 512 ∧
        d.take 64 = toBytesLE 64 nonce.toNat)) ∧
    (Accepted s c 8 → isOwner s c = true →
      (c.opcode = 0x04 → dataFits c bytes = true → s.pkg.gangs ≠ [] →
        ∃ t, exec (.imageLoad c image bytes) s = .next t ∧ Answered t c 0x04 1 0 [] ∧ HostOnly s t) ∧
      (c.opcode = 0x04 → dataFits c bytes = true → s.pkg.gangs = [] → ∃ t, exec (.imageLoad c image bytes) s = .next t ∧
        if imageFine s image then Answered t c 0x04 0 0 [] ∧
          (if image.configuration then t.pkg.host.configuration else t.pkg.host.firmware) = some image
        else Answered t c 0x04 5 0 [] ∧ HostOnly s t) ∧
      (c.opcode = 0x03 → die < 24 → slot < 64 → s.pkg.gangs = [] → ∃ t, exec (.fabricConfiguration c [(die, slot, b)] [] []) s = .next t ∧
        Answered t c 0x03 0 0 [] ∧ vget (t.dieAt die).cal slot 0 = b &&& 0x1F ∧ (s.pkg.inFlight = [] → t.core = s.core ∧ t.mem = s.mem)) ∧
      (c.opcode = 0x10 → die < 24 → (s.dieAt die).awake = true → sleepBusy s die = true →
        ∃ t, exec (.layerSleep c die) s = .next t ∧ Answered t c 0x10 1 0 [] ∧ HostOnly s t) ∧
      (c.opcode = 0x10 → die < 24 → (s.dieAt die).awake = true → sleepBusy s die = false → ∃ t, exec (.layerSleep c die) s = .next t ∧
        Answered t c 0x10 0 0 [] ∧ (t.dieAt die).awake = false ∧ (t.dieAt die).lastSeq = (s.stackAt (stackOfDie die)).seq ∧ t.mem = s.mem) ∧
      (c.opcode = 0x10 → die < 24 → (s.dieAt die).awake = false → Memory.wf s.mem = true → ∃ t, exec (.layerWake c die) s = .next t ∧
        Answered t c 0x10 0 0 [] ∧ (t.dieAt die).awake = true ∧ (s.pkg.inFlight = [] → (t.dieAt die).lastSeq = (s.stackAt (stackOfDie die)).seq ∧
        ∀ q off v, (s.stackAt (stackOfDie die)).log = [(q, [(off, v)])] → (s.dieAt die).lastSeq.toNat < q.toNat →
          (s.stackAt (stackOfDie die)).seq = q → q.toNat ≤ (s.dieAt die).lastSeq.toNat + 65536 → t.mem.get (replicaPhys die off) = v))) ∧
    ∃ t, exec (.deviceReset image image') s = .next t ∧ t.core = State.reset.core ∧ t.others = [] ∧ t.mem = [] ∧ t.cycle = 0 ∧
      t.pkg = { State.reset.pkg with host := t.pkg.host } ∧ t.pkg.host.ready = bootFine s image image' ∧ t.pkg.host.tenants = [] ∧
      t.pkg.host.accepted = [] ∧ t.pkg.host.out = [] ∧ t.pkg.host.rollback = s.pkg.host.rollback ∧
      t.pkg.host.journal.map (fun e => (e.kind, e.space)) = (if bootFine s image image' then [(.ready, 8)] else []) ∧
      (bootFine s image image' = true → t.pkg.host.firmware = some image ∧ t.pkg.host.configuration = some image')

/-- What every command checks first, and the commands on memory. -/
def Obligations.HostCommands : Prop := Claims.CommandProtocol ∧ Claims.HostMemory
/-- The commands on tenants, launches and regions, and on the device. -/
def Obligations.HostTenantsAndDevice : Prop := Claims.HostTenants ∧ Claims.HostDevice

/-- PACKETS AND PARKED STORES: a packet whose tag is not resident waits in its gang's spill buffer and is counted where the gang's counters stand, a refused one is sent
again; a resolved parked store is written at its home, behind its core's own REDs to that word (R232), and its entry goes. What a packet counts is log entry 28, the model's choice. -/
def Obligations.PacketsAndReplays : Prop :=
  ∀ (s : State) (p : Packet) (v : Saved) (tag : Half) (bytes : List Byte) (sender copy port : Nat),
    (s.core.resident p = false → s.pkg.saved = [v] → v.core = s.coreId → v.gang.setWidth 16 = p.gang → v.spill.length < spillRoom →
      ∃ t, exec (.spillDivert s.coreId p) s = .next t ∧ BytesKept s t ∧ ∃ w, t.pkg.saved = [w] ∧ w.spill = v.spill ++ [p] ∧ w.ctxs = v.ctxs ∧
        w.regs = v.regs ∧ (s.core.gang = some v.gang → w.rest = v.rest ∧ t.core = packetCount p s.core) ∧
        (s.core.gang ≠ some v.gang → w.rest = packetCount p v.rest ∧ t.core = s.core)) ∧
    (∀ rest, s.core.resend = p :: rest → s.core.resident p = true → p.body = .tile tag bytes sender copy port →
      ∃ t, exec (.packetResend s.coreId) s = .next t ∧ t.core.resend = rest ∧
        t.core.tiles = s.core.tiles ++ [{ tag := tag, bytes := bytes, sender := sender, copy := copy, port := port }] ∧ BytesKept s t) ∧
    (∀ r q u, (s.dieAt s.die).replay = [r] → s.die < 24 → r.resolved = true → r.core = s.coreId → r.entry.mask = 0xFF → r.entry.kind = .plain →
      drainPlace r.tenant r.entry s = .place q u → sendOpen u r.tenant s.die q = true → winPending u r.win = false → u.mem = s.mem → s.pkg.openWins = [] → s.pkg.teamDone = [] →
      Memory.wf s.mem = true →
      ∃ t, exec (.storeReplay s.die) s = .next t ∧ (t.dieAt s.die).replay = [] ∧ t.mem.num q 8 = r.entry.data.toNat ∧
        (∀ k, (k < q ∨ q + 8 ≤ k) → t.mem.get k = (flushReds q u).mem.get k) ∧
        ((∀ x ∈ s.pkg.reds, x.core ≠ s.coreId) → (flushReds q u).mem = s.mem))

/-! Reset -/

/-- THE RESET STATE: the control and handler contexts live and no helper; queue registers empty with no producer or consumer, LUMODE 0, SPINLIM 64 and 1,024, VSHARE 1, no
frame, ROLE 0, an unconfigured ring at every number, maxima −∞, sums 0 and factors 1, rein slots to no tenant, no gang, the clock at 0; and, by the model's choice (log entries 1 and 2), domain level 0, every layer awake, every
memory empty. -/
def Obligations.ResetState : Prop :=
  (∀ i : Fin 12, (State.reset.ctxAt i).live = (i == 0 || i == 11)) ∧ State.reset.core.regs.qcfg = 0xFFFFFFFFFFFFFFFF ∧
    (∀ q : Fin 8, State.reset.queue q = []) ∧ State.reset.core.regs.lumode = false ∧ State.reset.core.regs.spinCount = 64 ∧
    State.reset.core.regs.spinHold = 1024 ∧ State.reset.core.regs.weight = 1 ∧ State.reset.core.regs.frame.word = 0 ∧
    State.reset.core.regs.role = ⟨0, false, false, false, 0⟩ ∧ (∀ g : BitVec 3, (State.reset.ring g).size = 0) ∧
    (∀ k : Fin 32, State.reset.core.regs.vec.smax[k] = 0xFF800000 ∧ State.reset.core.regs.vec.ssum[k] = 0 ∧
      State.reset.core.regs.vec.sfac[k] = 0x3F800000) ∧ State.reset.core.regs.level = 0 ∧ State.reset.core.gang = none ∧
    State.reset.core.hfault = 0 ∧ State.reset.mem = [] ∧ State.reset.core.scratch = [] ∧ (∀ d : Fin 24, (State.reset.pkg.dies[d]).awake = true) ∧
    (∀ (k : Fin 4) (n : Fin 64), ((State.reset.pkg.stackUnits[k]).slots[n]).setWidth 3 = (7 : BitVec 3)) ∧ State.reset.pkg.gangs = [] ∧
    State.reset.pkg.host.ready = false ∧ State.reset.cycle = 0

/-! Encodings of the scalar groups -/

/-- THE INTEGER REGISTER GROUP in words: format 3R with OP 0x01 and the function codes of R341; fn 0x15–0x3F and a nonzero b in CLZ or POPC are no
instruction. -/
def Sys2Proof.Claims.IntegerGroupEncoding : Prop :=
  (∀ (d a b : SReg) (l m : Bool), ∀ k ∈ integerTable d l a m b, encode k.2 = some (word3R 0x01 d.toNat a.toNat b.toNat k.1 l m)) ∧
  (∀ (d a : SReg) (l m : Bool), encode (.clz d l a m) = some (word3R 0x01 d.toNat a.toNat 0 0x13 l m) ∧
    encode (.popc d l a m) = some (word3R 0x01 d.toNat a.toNat 0 0x14 l m)) ∧
  ∀ w : W32, wordField w 31 26 = 0x01 → (0x15 ≤ wordField w 5 0 → refusedWord w) ∧
    (0x13 ≤ wordField w 5 0 → wordField w 11 6 ≠ 0 → refusedWord w)

/-- What the operands of an instruction that computes one scalar raise, it raises; what they wait for, it waits for. -/
def Sys2Proof.Claims.OperandStops : Prop :=
  ∀ (i : Instr) (s : State) (d : SReg) (srcs : List Src), scalarShape i = some (d, srcs) →
    (∀ x, operands s srcs [d] = .error (.trap x) → exec i s = .next (takeTrap x s)) ∧
    ∀ w, operands s srcs [d] = .error (.block w) → exec i s = .next (s.blockOn w)

/-- R341: the words, the results and the stops. -/
def Obligations.IntegerRegisterGroup : Prop :=
  Claims.IntegerGroupEncoding ∧ Claims.ArithmeticResults ∧ Claims.DivisionResults ∧ Claims.ShiftAndOrderResults ∧ Claims.OperandStops

/-- The immediate group, LIH, PCREL, BFX, BFI and SEL in words, and the words that are no instruction. -/
def Sys2Proof.Claims.ImmediateEncodings : Prop :=
  (∀ (d a b : SReg) (l m n : Bool) (i : BitVec 13) (k p w : BitVec 6) (c : BitVec 20) (q : PReg),
    encode (.addi d l a i) = some (wordI 0x02 d.toNat a.toNat l i.toNat) ∧ encode (.andi d l a i) = some (wordI 0x03 d.toNat a.toNat l i.toNat) ∧
    encode (.ori d l a i) = some (wordI 0x04 d.toNat a.toNat l i.toNat) ∧ encode (.xori d l a i) = some (wordI 0x05 d.toNat a.toNat l i.toNat) ∧
    encode (.shli d l a k) = some (wordI 0x06 d.toNat a.toNat l k.toNat) ∧ encode (.shri d l a k) = some (wordI 0x07 d.toNat a.toNat l k.toNat) ∧
    encode (.shriS d l a k) = some (wordI 0x07 d.toNat a.toNat l (k.toNat + 2 ^ 12)) ∧
    encode (.bfx d l a n w p) = some (wordI 0x0C d.toNat a.toNat l (p.toNat + w.toNat * 2 ^ 6 + boolNat n * 2 ^ 12)) ∧
    encode (.bfi d l a w p) = some (wordI 0x0D d.toNat a.toNat l (p.toNat + w.toNat * 2 ^ 6)) ∧
    encode (.lih d c) = some (BitVec.ofNat 32 (0x0E * 2 ^ 26 + d.toNat * 2 ^ 20 + c.toNat)) ∧
    encode (.pcrel d c) = some (BitVec.ofNat 32 (0x0F * 2 ^ 26 + d.toNat * 2 ^ 20 + c.toNat)) ∧
    encode (.sel d l a m b n q) = some (word3R 0x0A d.toNat a.toNat b.toNat (q.toNat + 16 * boolNat n) l m)) ∧
  ∀ w : W32, (wordField w 31 26 = 0x06 → wordField w 12 6 ≠ 0 → refusedWord w) ∧
    (wordField w 31 26 = 0x07 → wordField w 11 6 ≠ 0 → refusedWord w) ∧
    (wordField w 31 26 = 0x0C ∨ wordField w 31 26 = 0x0D → 64 < wordField w 5 0 + wordField w 11 6 + 1 → refusedWord w) ∧
    (wordField w 31 26 = 0x0D → wordField w 12 12 = 1 ∨ 56 ≤ wordField w 25 20 → refusedWord w) ∧
    (wordField w 31 26 = 0x0A → wordField w 5 5 = 1 → refusedWord w)

/-- R342, R345, R367, R391: the words and the results. -/
def Obligations.ImmediateGroup : Prop := Claims.ImmediateEncodings ∧ Claims.ImmediateAndFieldResults

/-- CMP, CMPI and PLOG in words, and the words that are no instruction. -/
def Sys2Proof.Claims.PredicateEncodings : Prop :=
  (∀ (p pa pb : PReg) (a b : SReg) (l m : Bool) (c : BitVec 3) (i : BitVec 13),
    encode (.cmp p l a m b c) = some (word3R 0x08 p.toNat a.toNat b.toNat c.toNat l m) ∧
    encode (.cmpi p c a i) = some (BitVec.ofNat 32 (0x09 * 2 ^ 26 + p.toNat * 2 ^ 22 + c.toNat * 2 ^ 19 + a.toNat * 2 ^ 13 + i.toNat)) ∧
    (c.toNat ≤ 5 → encode (.plog p l pa m pb c) = some (word3R 0x0B p.toNat pa.toNat pb.toNat c.toNat l m))) ∧
  ∀ w : W32, (wordField w 31 26 = 0x08 → 8 ≤ wordField w 5 0 ∨ wordField w 25 24 ≠ 0 → refusedWord w) ∧
    (wordField w 31 26 = 0x0B → 6 ≤ wordField w 5 0 ∨ wordField w 25 24 ≠ 0 ∨ wordField w 18 17 ≠ 0 ∨ wordField w 11 10 ≠ 0 → refusedWord w)

/-- R348, R386: the words and the results. -/
def Obligations.PredicateGroup : Prop := Claims.PredicateEncodings ∧ Claims.PredicateResults

/-- HINTS: every word with OP 0x3F decodes to a hint, which retires as one instruction and has no other effect in any context; it is neither XMIT nor XSEL, so it ends an
exchange phase; in a repeat frame's body it makes the REP raise *repeat frame* at its place. -/
def Obligations.HintsOnlyRetire : Prop :=
  ∀ (w : W32) (s : State), wordField w 31 26 = 0x3F →
    decode w = .ok (.hint (w.setWidth 26)) ∧ exec (.hint (w.setWidth 26)) s = .next s.retire ∧ WentTo (s.ctx.pc + 4) s s.retire ∧
      s.retire = s.modCtxAt s.core.cur (fun c => { c with pc := s.retire.ctx.pc, instret := s.retire.ctx.instret,
                                                          spin := s.retire.ctx.spin, wait := .ready, blocked := false }) ∧
      Instr.isExchange (.hint (w.setWidth 26)) = false ∧
      (∀ u : State, s.coreId < Config.cores → s.turn = some (.issue s.coreId 0) → fetchWord (issuing 0 s) (s.ctxAt 0).pc = .ok (w, u) →
        u.core.exch ≠ none → exchangePending u.cycle.toNat u.core = false → step s = .next (endPhase u).retire) ∧
      frameWord w = false ∧
      ∀ (c : BitVec 4) (n : BitVec 8) (x : BitVec 14) (u : State) (ws : List W32) (k : Nat), s.isHelper = false →
        frameActive s.core.regs.frame.word = false → fetchBody (s.ctx.pc + 4) (c.toNat + 1) s = .ok (ws, u) →
        (ws.findIdx? fun y => !frameWord y) = some k → ws[k]? = some w →
        exec (.rep c n x) s = .next (takeTrap ⟨0x34, 0, BitVec.ofNat 64 k⟩ s)

/-! The parts together -/

/-- Every instruction and event answers a next state, and every step is safe. -/
def Obligations.DeviceNeverStops : Prop :=
  Claims.EveryInstructionAnswers ∧ Claims.StepAnswers

/-- A fetched word is the word in memory; a byte written is the byte read. -/
def Obligations.FetchAndMemory : Prop :=
  Claims.FetchReadsScratchpad ∧ Claims.MemoryReadAfterWrite

/-- Queue registers: pop, peek, block, and the access check. -/
def Obligations.QueueRegisters : Prop :=
  Claims.QueueSourcesPopOrPeek ∧ Claims.QueueAccessChecked

/-- Scalar registers: reading, freeing by last use, reading what is freed (the values held: log entry 66; the one read: log entry 4), writing. -/
def Obligations.ScalarRegisters : Prop :=
  Claims.PlainOperandsRead ∧ Claims.FreedRegisterReads ∧ Claims.ScalarWrites

/-- Fences and ICFLUSH. -/
def Obligations.FencesAndFlush : Prop :=
  Claims.AcquireAndFlush ∧ Claims.FencesRelease

/-- A deposit adds to the pending sum of its cell; a tick gives every cell its faded value plus the sum. -/
def Obligations.DepositsAndTicks : Prop :=
  Claims.MarkRequestsArrive ∧ Claims.TickFadesCells

/-- The state of a team, its end, and the events of its home. -/
def Obligations.TeamStateAndEvents : Prop :=
  Claims.TeamInfoAndEnd ∧ Claims.TeamHomeEvents

/-- Stores to the scratchpad and into the store buffer. -/
def Obligations.Stores : Prop :=
  Claims.StoresToScratchpad ∧ Claims.StoresAreBuffered

/-- Loads from the scratchpad and from a home. -/
def Obligations.Loads : Prop :=
  Claims.LoadsFromScratchpad ∧ Claims.LoadsFromHome

/-- Arming and performing exchange transfers; serving gathers. -/
def Obligations.ExchangePhase : Prop :=
  Claims.ExchangeArming ∧ Claims.ExchangeAndGatherEvents

/-- Work queues. -/
def Obligations.WorkQueues : Prop :=
  Claims.WorkPushes ∧ Claims.WorkTakes

/-- Copies from issue to completion. -/
def Obligations.Copies : Prop :=
  Claims.CopiesIssue ∧ Claims.CopiesComplete

/-- Multicast tags, engine FIFOs and the engines. -/
def Obligations.EngineFifos : Prop :=
  Claims.TagsAndFifos ∧ Claims.EngineEvents

/-- SYNC and QUIT. -/
def Obligations.SyncAndQuit : Prop :=
  Claims.SyncSendsArrival ∧ Claims.QuitEndsContext

/-- Mark requests: sent, in one queue of the core (log entry 13), served, and what a sense answers. -/
def Obligations.MarkRequests : Prop :=
  Claims.MarkPostsRetire ∧ Claims.MarkSensesServed ∧ Claims.SenseChoosesBest

/-- A launch record from acceptance to its completion record. -/
def Obligations.LaunchAndPlace : Prop :=
  Claims.LaunchAccepted ∧ Claims.GangsPlacedAndCompleted

/-- Atomics and reductions at the home. -/
def Obligations.Atomics : Prop :=
  Claims.AtomicsAtHome ∧ Claims.FloatAtomicsAndReductions

/-- The reduction window and LDSUM. -/
def Obligations.SwitchesAndLayers : Prop :=
  Claims.ReductionWindow ∧ Claims.LdsumSumsLayers
end

