-- ==== Sys2Proof/Laws/Engines.lean ====
section
/-!
SUPPORT. What the issue checks of copies allow, byte by byte (R58).
-/
namespace Sys2Proof.Machine

/-- WHAT A COPY'S REQUEST CHECK ALLOWS: the handler, or bytes none of which lies at or above the request and below the pinned area. -/
theorem insideRequest_ok (s : State) (va n : Nat) :
    insideRequest s va n = .ok () ↔ s.isHandler = true ∨ ∀ j < n, ¬ (s.core.scratchReq ≤ va + j ∧ va + j < Config.pinnedBase) := by
  unfold insideRequest unlessStop
  cases hh : s.isHandler with
  | true => simp
  | false =>
    simp only [Bool.not_false, Bool.true_and, Bool.false_eq_true, false_or]
    split
    · rename_i h
      simp only [decide_eq_true_eq] at h
      constructor
      · intro k; simp [raise] at k
      · intro k
        refine absurd ?_ (k (Nat.max va s.core.scratchReq - va) ?_)
        · have : va ≤ Nat.max va s.core.scratchReq := Nat.le_max_left ..
          have : s.core.scratchReq ≤ Nat.max va s.core.scratchReq := Nat.le_max_right ..
          omega
        · have : va ≤ Nat.max va s.core.scratchReq := Nat.le_max_left ..
          omega
    · rename_i h
      simp only [decide_eq_true_eq] at h
      refine ⟨fun _ j hj ⟨h1, h2⟩ => h ?_, fun _ => rfl⟩
      have : Nat.max va s.core.scratchReq ≤ va + j := Nat.max_le.mpr ⟨Nat.le_add_right .., h1⟩
      omega

/-- The rows of a conversion: each row that it reads passes the same check. -/
theorem rowsInside_ok (s : State) (c : Csr) (h0 : 1 ≤ c.cols * c.size) (h1 : c.cols * c.size ≤ c.stride) :
    rowsInside s c = .ok () ↔ ∀ r, c.first ≤ r → r < c.rows → insideRequest s (c.src.toNat + r * c.stride) (c.cols * c.size) = .ok () := by
  unfold rowsInside
  simp only
  have hs : 0 < c.stride := by omega
  have q0 : ∀ r, c.first ≤ r → s.core.scratchReq < c.src.toNat + r * c.stride + c.cols * c.size →
      Nat.max c.first ((s.core.scratchReq + c.stride - c.cols * c.size - c.src.toNat) / c.stride) ≤ r := by
    intro r hr h
    refine Nat.max_le.mpr ⟨hr, ?_⟩
    refine Nat.le_of_lt_succ ((Nat.div_lt_iff_lt_mul hs).mpr ?_)
    rw [Nat.succ_mul]
    omega
  constructor
  · intro h r hr hlt
    rw [insideRequest_ok]
    by_cases hh : s.isHandler = true
    · exact .inl hh
    · refine .inr fun j hj ⟨k1, k2⟩ => ?_
      have hi := q0 r hr (by omega)
      rw [if_pos (by omega), insideRequest_ok] at h
      rcases h with h | h
      · exact hh h
      · generalize hq : Nat.max c.first ((s.core.scratchReq + c.stride - c.cols * c.size - c.src.toNat) / c.stride) = i at h hi
        have hge : s.core.scratchReq < c.src.toNat + i * c.stride + c.cols * c.size := by
          have : (s.core.scratchReq + c.stride - c.cols * c.size - c.src.toNat) / c.stride ≤ i := hq ▸ Nat.le_max_right ..
          have := Nat.lt_of_lt_of_le (Nat.lt_mul_div_succ (s.core.scratchReq + c.stride - c.cols * c.size - c.src.toNat) hs)
            (Nat.mul_le_mul_left c.stride (Nat.succ_le_succ this))
          rw [Nat.mul_succ, Nat.mul_comm c.stride i] at this
          omega
        have hm : i * c.stride ≤ r * c.stride := Nat.mul_le_mul_right _ hi
        refine h (Nat.max (c.src.toNat + i * c.stride) s.core.scratchReq - (c.src.toNat + i * c.stride)) ?_ ?_
        · rcases Nat.le_total (c.src.toNat + i * c.stride) s.core.scratchReq with k | k
          · rw [show Nat.max (c.src.toNat + i * c.stride) s.core.scratchReq = _ from Nat.max_eq_right k]; omega
          · rw [show Nat.max (c.src.toNat + i * c.stride) s.core.scratchReq = _ from Nat.max_eq_left k]; omega
        · rcases Nat.le_total (c.src.toNat + i * c.stride) s.core.scratchReq with k | k
          · rw [show Nat.max (c.src.toNat + i * c.stride) s.core.scratchReq = _ from Nat.max_eq_right k]; omega
          · rw [show Nat.max (c.src.toNat + i * c.stride) s.core.scratchReq = _ from Nat.max_eq_left k]; omega
  · intro h
    split
    · rename_i hlt
      exact h _ (Nat.le_max_left ..) hlt
    · rfl

end Sys2Proof.Machine
end

