-- ==== Sys2Proof/Laws/Memory.lean ====
section
/-!
SUPPORT. The canonical form of a memory is kept by every operation, and a canonical memory lists an address at most once.
-/
namespace Sys2Proof.Machine

/-- Every address of a list lies above a bound. -/
def Memory.above (a : Nat) (m : Memory) : Prop := ∀ c ∈ m, a < c.1

theorem Memory.wf_cons (a : Nat) (b : Byte) (m : Memory) :
    Memory.wf ((a, b) :: m) = true ↔ b ≠ 0 ∧ Memory.above a m ∧ Memory.wf m = true := by
  induction m generalizing a b with
  | nil => simp [Memory.wf, Memory.above]
  | cons c m ih =>
    obtain ⟨a', b'⟩ := c
    simp only [Memory.wf, Bool.and_eq_true, bne_iff_ne, ne_eq, decide_eq_true_eq]
    constructor
    · rintro ⟨⟨hb, hlt⟩, h⟩
      refine ⟨hb, ?_, h⟩
      intro c hc
      rcases List.mem_cons.mp hc with rfl | hc
      · exact hlt
      · exact Nat.lt_trans hlt (((ih a' b').mp h).2.1 c hc)
    · rintro ⟨hb, hab, h⟩
      exact ⟨⟨hb, hab _ List.mem_cons_self⟩, h⟩

theorem Memory.above_mono {a b : Nat} {m : Memory} (h : a ≤ b) (hm : Memory.above b m) : Memory.above a m :=
  fun c hc => Nat.lt_of_le_of_lt h (hm c hc)

theorem Memory.above_set {x a : Nat} {b : Byte} {m : Memory} (ha : x < a) (hm : Memory.above x m) :
    Memory.above x (Memory.set a b m) := by
  induction m with
  | nil => unfold Memory.set; split <;> simp [Memory.above, ha]
  | cons c m ih =>
    obtain ⟨y, z⟩ := c
    have hy : x < y := hm _ List.mem_cons_self
    have hm' : Memory.above x m := fun c hc => hm c (List.mem_cons_of_mem _ hc)
    unfold Memory.set
    intro c hc
    split at hc
    · split at hc
      · exact hm c hc
      · rcases List.mem_cons.mp hc with rfl | hc
        · exact ha
        · exact hm c hc
    · split at hc
      · split at hc
        · exact hm' c hc
        · rcases List.mem_cons.mp hc with rfl | hc
          · exact ha
          · exact hm' c hc
      · rcases List.mem_cons.mp hc with rfl | hc
        · exact hy
        · exact ih hm' c hc

/-- Writing a byte keeps the canonical form. -/
theorem Memory.wf_set (m : Memory) (a : Nat) (b : Byte) (h : Memory.wf m = true) : Memory.wf (Memory.set a b m) = true := by
  induction m with
  | nil => unfold Memory.set; split <;> simp_all [Memory.wf]
  | cons c m ih =>
    obtain ⟨y, z⟩ := c
    obtain ⟨hz, habove, hm⟩ := (Memory.wf_cons y z m).mp h
    unfold Memory.set
    split
    · split
      · exact h
      · rename_i hlt hb
        refine (Memory.wf_cons a b _).mpr ⟨hb, ?_, h⟩
        intro c hc
        rcases List.mem_cons.mp hc with rfl | hc
        · exact hlt
        · exact Nat.lt_trans hlt (habove c hc)
    · split
      · rename_i _ heq
        split
        · exact hm
        · rename_i hb
          exact (Memory.wf_cons a b m).mpr ⟨hb, heq ▸ habove, hm⟩
      · rename_i hge hne
        exact (Memory.wf_cons y z _).mpr ⟨hz, Memory.above_set (by omega) habove, ih hm⟩

/-- Writing bytes keeps the canonical form. -/
theorem Memory.wf_setBytes (bs : List Byte) (a : Nat) (m : Memory) (h : Memory.wf m = true) :
    Memory.wf (Memory.setBytes a bs m) = true := by
  induction bs generalizing a m with
  | nil => exact h
  | cons b bs ih => exact ih (a + 1) _ (Memory.wf_set m a b h)

/-- Leaving entries out keeps the canonical form. -/
theorem Memory.wf_filter (p : Host.Cell → Bool) (m : Memory) (h : Memory.wf m = true) : Memory.wf (m.filter p) = true := by
  induction m with
  | nil => rfl
  | cons c m ih =>
    obtain ⟨a, b⟩ := c
    obtain ⟨hb, habove, hm⟩ := (Memory.wf_cons a b m).mp h
    simp only [List.filter_cons]
    split
    · exact (Memory.wf_cons a b _).mpr ⟨hb, fun c hc => habove c (List.mem_of_mem_filter hc), ih hm⟩
    · exact ih hm

theorem Memory.wf_clear (m : Memory) (a n : Nat) (h : Memory.wf m = true) : Memory.wf (m.clear a n) = true :=
  Memory.wf_filter _ m h

/-- Writing a list of cells one by one keeps the canonical form. -/
theorem Memory.wf_foldl_set (cells : List Host.Cell) (m : Memory) (h : Memory.wf m = true) :
    Memory.wf (cells.foldl (fun (m : Memory) (c : Host.Cell) => Memory.set c.1 c.2 m) m) = true := by
  induction cells generalizing m with
  | nil => exact h
  | cons c cs ih => exact ih _ (Memory.wf_set m c.1 c.2 h)

/-- The memories after reset are canonical. -/
theorem Memory.wf_reset : Memory.wf State.reset.mem = true ∧ Memory.wf State.reset.core.scratch = true := ⟨rfl, rfl⟩

/-- A byte that is not listed reads as zero. -/
theorem Memory.get_of_above (m : Memory) (a : Nat) (h : Memory.above a m) : m.get a = 0 := by
  have : m.lookup a = none := by
    rw [List.lookup_eq_none_iff]
    intro c hc
    have := h c hc
    simp
    omega
  simp [Memory.get, this]

@[simp] theorem Memory.get_nil (a : Nat) : Memory.get [] a = 0 := rfl

theorem Memory.get_cons (x a : Nat) (y : Byte) (m : Memory) :
    Memory.get ((x, y) :: m) a = if a = x then y else Memory.get m a := by
  unfold Memory.get
  by_cases h : a = x
  · subst h; simp
  · have : (a == x) = false := by simpa using h
    simp [List.lookup_cons, this, h]

/-- The bytes of a range are as many as asked for. -/
@[simp] theorem Memory.length_bytes (m : Memory) (a n : Nat) : (m.bytes a n).length = n := by
  induction n generalizing a with
  | zero => rfl
  | succ n ih => simp [Memory.bytes, ih]

theorem Memory.getElem_bytes (m : Memory) (a n k : Nat) (h : k < (m.bytes a n).length) : (m.bytes a n)[k] = m.get (a + k) := by
  induction n generalizing a k with
  | zero => simp [Memory.bytes] at h
  | succ n ih =>
    cases k with
    | zero => rfl
    | succ k => simp only [Memory.bytes, List.getElem_cons_succ, ih]; congr 1; omega

@[simp] theorem State.setPhys_mem (s : State) (p : Nat) (b : Byte) : (s.setPhys p b).mem = s.mem.set p b := rfl
@[simp] theorem State.setPhys_core (s : State) (p : Nat) (b : Byte) : (s.setPhys p b).core = s.core := rfl
@[simp] theorem State.setPhys_pkg (s : State) (p : Nat) (b : Byte) : (s.setPhys p b).pkg = s.pkg := rfl
@[simp] theorem State.setPhysBytes_mem (s : State) (p : Nat) (bs : List Byte) : (s.setPhysBytes p bs).mem = s.mem.setBytes p bs := rfl
@[simp] theorem State.setPhysBytes_core (s : State) (p : Nat) (bs : List Byte) : (s.setPhysBytes p bs).core = s.core := rfl
@[simp] theorem State.setPhysBytes_pkg (s : State) (p : Nat) (bs : List Byte) : (s.setPhysBytes p bs).pkg = s.pkg := rfl
@[simp] theorem State.setPhys_owners (s : State) (p : Nat) (b : Byte) : (s.setPhys p b).owners = s.owners := rfl
@[simp] theorem State.setPhysBytes_owners (s : State) (p : Nat) (bs : List Byte) : (s.setPhysBytes p bs).owners = s.owners := rfl

/-- Claiming lines for a tenant changes their owners and nothing else. -/
theorem State.claim_frame (t : BitVec 3) (p n : Nat) (s : State) : s.claim t p n = { s with owners := (s.claim t p n).owners } := by
  unfold State.claim; split <;> rfl

@[simp] theorem State.claim_mem (t : BitVec 3) (p n : Nat) (s : State) : (s.claim t p n).mem = s.mem := by rw [State.claim_frame]
@[simp] theorem State.claim_core (t : BitVec 3) (p n : Nat) (s : State) : (s.claim t p n).core = s.core := by rw [State.claim_frame]
@[simp] theorem State.claim_coreId (t : BitVec 3) (p n : Nat) (s : State) : (s.claim t p n).coreId = s.coreId := by rw [State.claim_frame]
@[simp] theorem State.claim_others (t : BitVec 3) (p n : Nat) (s : State) : (s.claim t p n).others = s.others := by rw [State.claim_frame]
@[simp] theorem State.claim_pkg (t : BitVec 3) (p n : Nat) (s : State) : (s.claim t p n).pkg = s.pkg := by rw [State.claim_frame]
@[simp] theorem State.claim_badMem (t : BitVec 3) (p n : Nat) (s : State) : (s.claim t p n).badMem = s.badMem := by rw [State.claim_frame]
@[simp] theorem State.claim_cycle (t : BitVec 3) (p n : Nat) (s : State) : (s.claim t p n).cycle = s.cycle := by rw [State.claim_frame]
@[simp] theorem State.claim_fresh (t : BitVec 3) (p n : Nat) (s : State) : (s.claim t p n).fresh = s.fresh := by rw [State.claim_frame]
@[simp] theorem State.writeFor_mem (t : BitVec 3) (p : Nat) (bs : List Byte) (s : State) :
    (s.writeFor t p bs).mem = s.mem.setBytes p bs := by simp [State.writeFor]
@[simp] theorem State.writeFor_core (t : BitVec 3) (p : Nat) (bs : List Byte) (s : State) : (s.writeFor t p bs).core = s.core := by
  simp [State.writeFor]
@[simp] theorem State.writeFor_pkg (t : BitVec 3) (p : Nat) (bs : List Byte) (s : State) : (s.writeFor t p bs).pkg = s.pkg := by
  simp [State.writeFor]

/-- A tenant's write at a home keeps the canonical form. -/
theorem State.wf_writeFor (t : BitVec 3) (p : Nat) (bs : List Byte) (s : State) (h : Memory.wf s.mem = true) :
    Memory.wf (s.writeFor t p bs).mem = true := by rw [State.writeFor_mem]; exact Memory.wf_setBytes bs p s.mem h

/-- The owner of a line after a claim of one line: the claimant there, as before elsewhere. -/
theorem ownLine_lookup (line k : Nat) (t : BitVec 3) (l : List (Nat × BitVec 3)) :
    (ownLine line t l).lookup k = if k = line then some t else l.lookup k := by
  have put : ∀ m : List (Nat × BitVec 3), ((line, t) :: m).lookup k = if k = line then some t else m.lookup k := by
    intro m
    by_cases e : k = line
    · simp [e]
    · rw [List.lookup_cons, beq_eq_false_iff_ne.mpr e, if_neg e]
  induction l with
  | nil => exact put []
  | cons x xs ih =>
    obtain ⟨a, b⟩ := x
    unfold ownLine
    split
    · exact put _
    · split
      · rename_i _ e1
        simp only at e1
        subst e1
        rw [put]
        by_cases e : k = line
        · simp [e]
        · rw [if_neg e, if_neg e, List.lookup_cons, beq_eq_false_iff_ne.mpr e]
      · rename_i _ e1
        simp only at e1
        by_cases e : k = a
        · subst e
          rw [if_neg fun c => e1 c.symm, List.lookup_cons_self, List.lookup_cons_self]
        · rw [List.lookup_cons, List.lookup_cons, beq_eq_false_iff_ne.mpr e]
          exact ih

@[simp] theorem State.setScratch_scratch (s : State) (a : Nat) (bs : List Byte) :
    (s.setScratch a bs).core.scratch = s.core.scratch.setBytes a bs := rfl

/-- The number of `n` bytes is below 256^n. -/
theorem ofBytesLE_lt (bs : List Byte) : ofBytesLE bs < 256 ^ bs.length := by
  induction bs with
  | nil => simp [ofBytesLE]
  | cons b bs ih =>
    have := b.isLt
    simp only [ofBytesLE, List.length_cons, Nat.pow_succ]
    omega

theorem Memory.num_lt (m : Memory) (a n : Nat) : m.num a n < 256 ^ n := by
  simpa [Memory.num] using ofBytesLE_lt (m.bytes a n)

@[simp] theorem length_toBytesLE (n x : Nat) : (toBytesLE n x).length = n := by
  induction n generalizing x with
  | zero => rfl
  | succ n ih => simp [toBytesLE, ih]

/-- Little-endian bytes of a number read back as the number modulo 256^n. -/
theorem ofBytesLE_toBytesLE (n x : Nat) : ofBytesLE (toBytesLE n x) = x % 256 ^ n := by
  induction n generalizing x with
  | zero => simp [toBytesLE, ofBytesLE, Nat.mod_one]
  | succ n ih =>
    have e : 256 ^ (n + 1) = 256 * 256 ^ n := by rw [Nat.pow_succ, Nat.mul_comm]
    have m : x % (256 * 256 ^ n) = x % 256 + 256 * (x / 256 % 256 ^ n) := Nat.mod_mul
    have b : (BitVec.ofNat 8 x).toNat = x % 256 := BitVec.toNat_ofNat x 8
    rw [toBytesLE, ofBytesLE, ih, b, e, m]

end Sys2Proof.Machine
end

