-- ==== Sys2Proof/Laws/State.lean ====
section
/-!
SUPPORT. One lemma per field per update of the state, so that no proof unfolds a record update.
-/
namespace Sys2Proof.Machine

/-! What updates of the focused core leave of the rest of the device -/

@[simp] theorem State.modCore_coreId (s : State) (f : Core → Core) : (s.modCore f).coreId = s.coreId := rfl
@[simp] theorem State.modCore_others (s : State) (f : Core → Core) : (s.modCore f).others = s.others := rfl
@[simp] theorem State.modCore_mem (s : State) (f : Core → Core) : (s.modCore f).mem = s.mem := rfl
@[simp] theorem State.modCore_badMem (s : State) (f : Core → Core) : (s.modCore f).badMem = s.badMem := rfl
@[simp] theorem State.modCore_owners (s : State) (f : Core → Core) : (s.modCore f).owners = s.owners := rfl
@[simp] theorem State.modCore_pkg (s : State) (f : Core → Core) : (s.modCore f).pkg = s.pkg := rfl
@[simp] theorem State.modCore_cycle (s : State) (f : Core → Core) : (s.modCore f).cycle = s.cycle := rfl
@[simp] theorem State.modCore_fresh (s : State) (f : Core → Core) : (s.modCore f).fresh = s.fresh := rfl
@[simp] theorem State.modCore_turn (s : State) (f : Core → Core) : (s.modCore f).turn = s.turn := rfl
@[simp] theorem State.modCore_inputs (s : State) (f : Core → Core) : (s.modCore f).inputs = s.inputs := rfl
@[simp] theorem State.modCtxAt_coreId (s : State) (i : Fin 12) (f : Ctx → Ctx) : (s.modCtxAt i f).coreId = s.coreId := rfl
@[simp] theorem State.modCtxAt_others (s : State) (i : Fin 12) (f : Ctx → Ctx) : (s.modCtxAt i f).others = s.others := rfl
@[simp] theorem State.modCtxAt_mem (s : State) (i : Fin 12) (f : Ctx → Ctx) : (s.modCtxAt i f).mem = s.mem := rfl
@[simp] theorem State.modCtxAt_badMem (s : State) (i : Fin 12) (f : Ctx → Ctx) : (s.modCtxAt i f).badMem = s.badMem := rfl
@[simp] theorem State.modCtxAt_owners (s : State) (i : Fin 12) (f : Ctx → Ctx) : (s.modCtxAt i f).owners = s.owners := rfl
@[simp] theorem State.modCtxAt_pkg (s : State) (i : Fin 12) (f : Ctx → Ctx) : (s.modCtxAt i f).pkg = s.pkg := rfl
@[simp] theorem State.modCtxAt_cycle (s : State) (i : Fin 12) (f : Ctx → Ctx) : (s.modCtxAt i f).cycle = s.cycle := rfl
@[simp] theorem State.modCtxAt_fresh (s : State) (i : Fin 12) (f : Ctx → Ctx) : (s.modCtxAt i f).fresh = s.fresh := rfl
@[simp] theorem State.modCtxAt_turn (s : State) (i : Fin 12) (f : Ctx → Ctx) : (s.modCtxAt i f).turn = s.turn := rfl
@[simp] theorem State.modCtxAt_inputs (s : State) (i : Fin 12) (f : Ctx → Ctx) : (s.modCtxAt i f).inputs = s.inputs := rfl
@[simp] theorem State.modCtx_coreId (s : State) (f : Ctx → Ctx) : (s.modCtx f).coreId = s.coreId := rfl
@[simp] theorem State.modCtx_others (s : State) (f : Ctx → Ctx) : (s.modCtx f).others = s.others := rfl
@[simp] theorem State.modCtx_mem (s : State) (f : Ctx → Ctx) : (s.modCtx f).mem = s.mem := rfl
@[simp] theorem State.modCtx_badMem (s : State) (f : Ctx → Ctx) : (s.modCtx f).badMem = s.badMem := rfl
@[simp] theorem State.modCtx_owners (s : State) (f : Ctx → Ctx) : (s.modCtx f).owners = s.owners := rfl
@[simp] theorem State.modCtx_pkg (s : State) (f : Ctx → Ctx) : (s.modCtx f).pkg = s.pkg := rfl
@[simp] theorem State.modCtx_cycle (s : State) (f : Ctx → Ctx) : (s.modCtx f).cycle = s.cycle := rfl
@[simp] theorem State.modCtx_fresh (s : State) (f : Ctx → Ctx) : (s.modCtx f).fresh = s.fresh := rfl
@[simp] theorem State.modCtx_turn (s : State) (f : Ctx → Ctx) : (s.modCtx f).turn = s.turn := rfl
@[simp] theorem State.modCtx_inputs (s : State) (f : Ctx → Ctx) : (s.modCtx f).inputs = s.inputs := rfl
@[simp] theorem State.modRegs_coreId (s : State) (f : CoreRegs → CoreRegs) : (s.modRegs f).coreId = s.coreId := rfl
@[simp] theorem State.modRegs_others (s : State) (f : CoreRegs → CoreRegs) : (s.modRegs f).others = s.others := rfl
@[simp] theorem State.modRegs_mem (s : State) (f : CoreRegs → CoreRegs) : (s.modRegs f).mem = s.mem := rfl
@[simp] theorem State.modRegs_badMem (s : State) (f : CoreRegs → CoreRegs) : (s.modRegs f).badMem = s.badMem := rfl
@[simp] theorem State.modRegs_owners (s : State) (f : CoreRegs → CoreRegs) : (s.modRegs f).owners = s.owners := rfl
@[simp] theorem State.modRegs_pkg (s : State) (f : CoreRegs → CoreRegs) : (s.modRegs f).pkg = s.pkg := rfl
@[simp] theorem State.modRegs_cycle (s : State) (f : CoreRegs → CoreRegs) : (s.modRegs f).cycle = s.cycle := rfl
@[simp] theorem State.modRegs_fresh (s : State) (f : CoreRegs → CoreRegs) : (s.modRegs f).fresh = s.fresh := rfl
@[simp] theorem State.modRegs_turn (s : State) (f : CoreRegs → CoreRegs) : (s.modRegs f).turn = s.turn := rfl
@[simp] theorem State.modRegs_inputs (s : State) (f : CoreRegs → CoreRegs) : (s.modRegs f).inputs = s.inputs := rfl
@[simp] theorem State.modVec_coreId (s : State) (f : VecRegs → VecRegs) : (s.modVec f).coreId = s.coreId := rfl
@[simp] theorem State.modVec_others (s : State) (f : VecRegs → VecRegs) : (s.modVec f).others = s.others := rfl
@[simp] theorem State.modVec_mem (s : State) (f : VecRegs → VecRegs) : (s.modVec f).mem = s.mem := rfl
@[simp] theorem State.modVec_badMem (s : State) (f : VecRegs → VecRegs) : (s.modVec f).badMem = s.badMem := rfl
@[simp] theorem State.modVec_owners (s : State) (f : VecRegs → VecRegs) : (s.modVec f).owners = s.owners := rfl
@[simp] theorem State.modVec_pkg (s : State) (f : VecRegs → VecRegs) : (s.modVec f).pkg = s.pkg := rfl
@[simp] theorem State.modVec_cycle (s : State) (f : VecRegs → VecRegs) : (s.modVec f).cycle = s.cycle := rfl
@[simp] theorem State.modVec_fresh (s : State) (f : VecRegs → VecRegs) : (s.modVec f).fresh = s.fresh := rfl
@[simp] theorem State.modVec_turn (s : State) (f : VecRegs → VecRegs) : (s.modVec f).turn = s.turn := rfl
@[simp] theorem State.modVec_inputs (s : State) (f : VecRegs → VecRegs) : (s.modVec f).inputs = s.inputs := rfl
@[simp] theorem State.modTrap_coreId (s : State) (f : TrapUnit → TrapUnit) : (s.modTrap f).coreId = s.coreId := rfl
@[simp] theorem State.modTrap_others (s : State) (f : TrapUnit → TrapUnit) : (s.modTrap f).others = s.others := rfl
@[simp] theorem State.modTrap_mem (s : State) (f : TrapUnit → TrapUnit) : (s.modTrap f).mem = s.mem := rfl
@[simp] theorem State.modTrap_badMem (s : State) (f : TrapUnit → TrapUnit) : (s.modTrap f).badMem = s.badMem := rfl
@[simp] theorem State.modTrap_owners (s : State) (f : TrapUnit → TrapUnit) : (s.modTrap f).owners = s.owners := rfl
@[simp] theorem State.modTrap_pkg (s : State) (f : TrapUnit → TrapUnit) : (s.modTrap f).pkg = s.pkg := rfl
@[simp] theorem State.modTrap_cycle (s : State) (f : TrapUnit → TrapUnit) : (s.modTrap f).cycle = s.cycle := rfl
@[simp] theorem State.modTrap_fresh (s : State) (f : TrapUnit → TrapUnit) : (s.modTrap f).fresh = s.fresh := rfl
@[simp] theorem State.modTrap_turn (s : State) (f : TrapUnit → TrapUnit) : (s.modTrap f).turn = s.turn := rfl
@[simp] theorem State.modTrap_inputs (s : State) (f : TrapUnit → TrapUnit) : (s.modTrap f).inputs = s.inputs := rfl
@[simp] theorem State.modFrame_coreId (s : State) (f : Frame → Frame) : (s.modFrame f).coreId = s.coreId := rfl
@[simp] theorem State.modFrame_others (s : State) (f : Frame → Frame) : (s.modFrame f).others = s.others := rfl
@[simp] theorem State.modFrame_mem (s : State) (f : Frame → Frame) : (s.modFrame f).mem = s.mem := rfl
@[simp] theorem State.modFrame_badMem (s : State) (f : Frame → Frame) : (s.modFrame f).badMem = s.badMem := rfl
@[simp] theorem State.modFrame_owners (s : State) (f : Frame → Frame) : (s.modFrame f).owners = s.owners := rfl
@[simp] theorem State.modFrame_pkg (s : State) (f : Frame → Frame) : (s.modFrame f).pkg = s.pkg := rfl
@[simp] theorem State.modFrame_cycle (s : State) (f : Frame → Frame) : (s.modFrame f).cycle = s.cycle := rfl
@[simp] theorem State.modFrame_fresh (s : State) (f : Frame → Frame) : (s.modFrame f).fresh = s.fresh := rfl
@[simp] theorem State.modFrame_turn (s : State) (f : Frame → Frame) : (s.modFrame f).turn = s.turn := rfl
@[simp] theorem State.modFrame_inputs (s : State) (f : Frame → Frame) : (s.modFrame f).inputs = s.inputs := rfl
@[simp] theorem State.modRing_coreId (s : State) (g : BitVec 3) (f : Ring → Ring) : (s.modRing g f).coreId = s.coreId := rfl
@[simp] theorem State.modRing_others (s : State) (g : BitVec 3) (f : Ring → Ring) : (s.modRing g f).others = s.others := rfl
@[simp] theorem State.modRing_mem (s : State) (g : BitVec 3) (f : Ring → Ring) : (s.modRing g f).mem = s.mem := rfl
@[simp] theorem State.modRing_badMem (s : State) (g : BitVec 3) (f : Ring → Ring) : (s.modRing g f).badMem = s.badMem := rfl
@[simp] theorem State.modRing_owners (s : State) (g : BitVec 3) (f : Ring → Ring) : (s.modRing g f).owners = s.owners := rfl
@[simp] theorem State.modRing_pkg (s : State) (g : BitVec 3) (f : Ring → Ring) : (s.modRing g f).pkg = s.pkg := rfl
@[simp] theorem State.modRing_cycle (s : State) (g : BitVec 3) (f : Ring → Ring) : (s.modRing g f).cycle = s.cycle := rfl
@[simp] theorem State.modRing_fresh (s : State) (g : BitVec 3) (f : Ring → Ring) : (s.modRing g f).fresh = s.fresh := rfl
@[simp] theorem State.modRing_turn (s : State) (g : BitVec 3) (f : Ring → Ring) : (s.modRing g f).turn = s.turn := rfl
@[simp] theorem State.modRing_inputs (s : State) (g : BitVec 3) (f : Ring → Ring) : (s.modRing g f).inputs = s.inputs := rfl
@[simp] theorem State.setQueue_coreId (s : State) (i : Fin 8) (l : List W64) : (s.setQueue i l).coreId = s.coreId := rfl
@[simp] theorem State.setQueue_others (s : State) (i : Fin 8) (l : List W64) : (s.setQueue i l).others = s.others := rfl
@[simp] theorem State.setQueue_mem (s : State) (i : Fin 8) (l : List W64) : (s.setQueue i l).mem = s.mem := rfl
@[simp] theorem State.setQueue_badMem (s : State) (i : Fin 8) (l : List W64) : (s.setQueue i l).badMem = s.badMem := rfl
@[simp] theorem State.setQueue_owners (s : State) (i : Fin 8) (l : List W64) : (s.setQueue i l).owners = s.owners := rfl
@[simp] theorem State.setQueue_pkg (s : State) (i : Fin 8) (l : List W64) : (s.setQueue i l).pkg = s.pkg := rfl
@[simp] theorem State.setQueue_cycle (s : State) (i : Fin 8) (l : List W64) : (s.setQueue i l).cycle = s.cycle := rfl
@[simp] theorem State.setQueue_fresh (s : State) (i : Fin 8) (l : List W64) : (s.setQueue i l).fresh = s.fresh := rfl
@[simp] theorem State.setQueue_turn (s : State) (i : Fin 8) (l : List W64) : (s.setQueue i l).turn = s.turn := rfl
@[simp] theorem State.setQueue_inputs (s : State) (i : Fin 8) (l : List W64) : (s.setQueue i l).inputs = s.inputs := rfl
@[simp] theorem State.writeP_coreId (s : State) (r : PReg) (b : Bool) : (s.writeP r b).coreId = s.coreId := rfl
@[simp] theorem State.writeP_others (s : State) (r : PReg) (b : Bool) : (s.writeP r b).others = s.others := rfl
@[simp] theorem State.writeP_mem (s : State) (r : PReg) (b : Bool) : (s.writeP r b).mem = s.mem := rfl
@[simp] theorem State.writeP_badMem (s : State) (r : PReg) (b : Bool) : (s.writeP r b).badMem = s.badMem := rfl
@[simp] theorem State.writeP_owners (s : State) (r : PReg) (b : Bool) : (s.writeP r b).owners = s.owners := rfl
@[simp] theorem State.writeP_pkg (s : State) (r : PReg) (b : Bool) : (s.writeP r b).pkg = s.pkg := rfl
@[simp] theorem State.writeP_cycle (s : State) (r : PReg) (b : Bool) : (s.writeP r b).cycle = s.cycle := rfl
@[simp] theorem State.writeP_fresh (s : State) (r : PReg) (b : Bool) : (s.writeP r b).fresh = s.fresh := rfl
@[simp] theorem State.writeP_turn (s : State) (r : PReg) (b : Bool) : (s.writeP r b).turn = s.turn := rfl
@[simp] theorem State.writeP_inputs (s : State) (r : PReg) (b : Bool) : (s.writeP r b).inputs = s.inputs := rfl
@[simp] theorem State.retire_coreId (s : State) : (s.retire).coreId = s.coreId := rfl
@[simp] theorem State.retire_others (s : State) : (s.retire).others = s.others := rfl
@[simp] theorem State.retire_mem (s : State) : (s.retire).mem = s.mem := rfl
@[simp] theorem State.retire_badMem (s : State) : (s.retire).badMem = s.badMem := rfl
@[simp] theorem State.retire_owners (s : State) : (s.retire).owners = s.owners := rfl
@[simp] theorem State.retire_pkg (s : State) : (s.retire).pkg = s.pkg := rfl
@[simp] theorem State.retire_cycle (s : State) : (s.retire).cycle = s.cycle := rfl
@[simp] theorem State.retire_fresh (s : State) : (s.retire).fresh = s.fresh := rfl
@[simp] theorem State.retire_turn (s : State) : (s.retire).turn = s.turn := rfl
@[simp] theorem State.retire_inputs (s : State) : (s.retire).inputs = s.inputs := rfl
@[simp] theorem State.retireTo_coreId (s : State) (t : W64) : (s.retireTo t).coreId = s.coreId := rfl
@[simp] theorem State.retireTo_others (s : State) (t : W64) : (s.retireTo t).others = s.others := rfl
@[simp] theorem State.retireTo_mem (s : State) (t : W64) : (s.retireTo t).mem = s.mem := rfl
@[simp] theorem State.retireTo_badMem (s : State) (t : W64) : (s.retireTo t).badMem = s.badMem := rfl
@[simp] theorem State.retireTo_owners (s : State) (t : W64) : (s.retireTo t).owners = s.owners := rfl
@[simp] theorem State.retireTo_pkg (s : State) (t : W64) : (s.retireTo t).pkg = s.pkg := rfl
@[simp] theorem State.retireTo_cycle (s : State) (t : W64) : (s.retireTo t).cycle = s.cycle := rfl
@[simp] theorem State.retireTo_fresh (s : State) (t : W64) : (s.retireTo t).fresh = s.fresh := rfl
@[simp] theorem State.retireTo_turn (s : State) (t : W64) : (s.retireTo t).turn = s.turn := rfl
@[simp] theorem State.retireTo_inputs (s : State) (t : W64) : (s.retireTo t).inputs = s.inputs := rfl
@[simp] theorem State.blockOn_coreId (s : State) (w : Wait) : (s.blockOn w).coreId = s.coreId := rfl
@[simp] theorem State.blockOn_others (s : State) (w : Wait) : (s.blockOn w).others = s.others := rfl
@[simp] theorem State.blockOn_mem (s : State) (w : Wait) : (s.blockOn w).mem = s.mem := rfl
@[simp] theorem State.blockOn_badMem (s : State) (w : Wait) : (s.blockOn w).badMem = s.badMem := rfl
@[simp] theorem State.blockOn_owners (s : State) (w : Wait) : (s.blockOn w).owners = s.owners := rfl
@[simp] theorem State.blockOn_pkg (s : State) (w : Wait) : (s.blockOn w).pkg = s.pkg := rfl
@[simp] theorem State.blockOn_cycle (s : State) (w : Wait) : (s.blockOn w).cycle = s.cycle := rfl
@[simp] theorem State.blockOn_fresh (s : State) (w : Wait) : (s.blockOn w).fresh = s.fresh := rfl
@[simp] theorem State.blockOn_turn (s : State) (w : Wait) : (s.blockOn w).turn = s.turn := rfl
@[simp] theorem State.blockOn_inputs (s : State) (w : Wait) : (s.blockOn w).inputs = s.inputs := rfl
@[simp] theorem State.orFlags_coreId (s : State) (i : Fin 12) (f : FFlags) : (s.orFlags i f).coreId = s.coreId := rfl
@[simp] theorem State.orFlags_others (s : State) (i : Fin 12) (f : FFlags) : (s.orFlags i f).others = s.others := rfl
@[simp] theorem State.orFlags_mem (s : State) (i : Fin 12) (f : FFlags) : (s.orFlags i f).mem = s.mem := rfl
@[simp] theorem State.orFlags_badMem (s : State) (i : Fin 12) (f : FFlags) : (s.orFlags i f).badMem = s.badMem := rfl
@[simp] theorem State.orFlags_owners (s : State) (i : Fin 12) (f : FFlags) : (s.orFlags i f).owners = s.owners := rfl
@[simp] theorem State.orFlags_pkg (s : State) (i : Fin 12) (f : FFlags) : (s.orFlags i f).pkg = s.pkg := rfl
@[simp] theorem State.orFlags_cycle (s : State) (i : Fin 12) (f : FFlags) : (s.orFlags i f).cycle = s.cycle := rfl
@[simp] theorem State.orFlags_fresh (s : State) (i : Fin 12) (f : FFlags) : (s.orFlags i f).fresh = s.fresh := rfl
@[simp] theorem State.orFlags_turn (s : State) (i : Fin 12) (f : FFlags) : (s.orFlags i f).turn = s.turn := rfl
@[simp] theorem State.orFlags_inputs (s : State) (i : Fin 12) (f : FFlags) : (s.orFlags i f).inputs = s.inputs := rfl
@[simp] theorem State.setScratch_coreId (s : State) (a : Nat) (bs : List Byte) : (s.setScratch a bs).coreId = s.coreId := rfl
@[simp] theorem State.setScratch_others (s : State) (a : Nat) (bs : List Byte) : (s.setScratch a bs).others = s.others := rfl
@[simp] theorem State.setScratch_mem (s : State) (a : Nat) (bs : List Byte) : (s.setScratch a bs).mem = s.mem := rfl
@[simp] theorem State.setScratch_badMem (s : State) (a : Nat) (bs : List Byte) : (s.setScratch a bs).badMem = s.badMem := rfl
@[simp] theorem State.setScratch_owners (s : State) (a : Nat) (bs : List Byte) : (s.setScratch a bs).owners = s.owners := rfl
@[simp] theorem State.setScratch_pkg (s : State) (a : Nat) (bs : List Byte) : (s.setScratch a bs).pkg = s.pkg := rfl
@[simp] theorem State.setScratch_cycle (s : State) (a : Nat) (bs : List Byte) : (s.setScratch a bs).cycle = s.cycle := rfl
@[simp] theorem State.setScratch_fresh (s : State) (a : Nat) (bs : List Byte) : (s.setScratch a bs).fresh = s.fresh := rfl
@[simp] theorem State.setScratch_turn (s : State) (a : Nat) (bs : List Byte) : (s.setScratch a bs).turn = s.turn := rfl
@[simp] theorem State.setScratch_inputs (s : State) (a : Nat) (bs : List Byte) : (s.setScratch a bs).inputs = s.inputs := rfl

/-! What updates of contexts leave of the core -/

@[simp] theorem State.modCtxAt_core_regs (s : State) (i : Fin 12) (f : Ctx → Ctx) : (s.modCtxAt i f).core.regs = s.core.regs := rfl
@[simp] theorem State.modCtxAt_core_cur (s : State) (i : Fin 12) (f : Ctx → Ctx) : (s.modCtxAt i f).core.cur = s.core.cur := rfl
@[simp] theorem State.modCtxAt_core_order (s : State) (i : Fin 12) (f : Ctx → Ctx) : (s.modCtxAt i f).core.order = s.core.order := rfl
@[simp] theorem State.modCtxAt_core_gang (s : State) (i : Fin 12) (f : Ctx → Ctx) : (s.modCtxAt i f).core.gang = s.core.gang := rfl
@[simp] theorem State.modCtxAt_core_tenant (s : State) (i : Fin 12) (f : Ctx → Ctx) : (s.modCtxAt i f).core.tenant = s.core.tenant := rfl
@[simp] theorem State.modCtxAt_core_helpers (s : State) (i : Fin 12) (f : Ctx → Ctx) : (s.modCtxAt i f).core.helpers = s.core.helpers := rfl
@[simp] theorem State.modCtxAt_core_scratchReq (s : State) (i : Fin 12) (f : Ctx → Ctx) : (s.modCtxAt i f).core.scratchReq = s.core.scratchReq := rfl
@[simp] theorem State.modCtxAt_core_hfault (s : State) (i : Fin 12) (f : Ctx → Ctx) : (s.modCtxAt i f).core.hfault = s.core.hfault := rfl
@[simp] theorem State.modCtxAt_core_scratch (s : State) (i : Fin 12) (f : Ctx → Ctx) : (s.modCtxAt i f).core.scratch = s.core.scratch := rfl
@[simp] theorem State.modCtxAt_core_badScratch (s : State) (i : Fin 12) (f : Ctx → Ctx) : (s.modCtxAt i f).core.badScratch = s.core.badScratch := rfl
@[simp] theorem State.modCtxAt_core_rcache (s : State) (i : Fin 12) (f : Ctx → Ctx) : (s.modCtxAt i f).core.rcache = s.core.rcache := rfl
@[simp] theorem State.modCtxAt_core_icache (s : State) (i : Fin 12) (f : Ctx → Ctx) : (s.modCtxAt i f).core.icache = s.core.icache := rfl
@[simp] theorem State.modCtxAt_core_tlb (s : State) (i : Fin 12) (f : Ctx → Ctx) : (s.modCtxAt i f).core.tlb = s.core.tlb := rfl
@[simp] theorem State.modCtxAt_core_efifo (s : State) (i : Fin 12) (f : Ctx → Ctx) : (s.modCtxAt i f).core.efifo = s.core.efifo := rfl
@[simp] theorem State.modCtxAt_core_matchTab (s : State) (i : Fin 12) (f : Ctx → Ctx) : (s.modCtxAt i f).core.matchTab = s.core.matchTab := rfl
@[simp] theorem State.modCtxAt_core_copies (s : State) (i : Fin 12) (f : Ctx → Ctx) : (s.modCtxAt i f).core.copies = s.core.copies := rfl
@[simp] theorem State.modCtxAt_core_nextCopy (s : State) (i : Fin 12) (f : Ctx → Ctx) : (s.modCtxAt i f).core.nextCopy = s.core.nextCopy := rfl
@[simp] theorem State.modCtxAt_core_vq (s : State) (i : Fin 12) (f : Ctx → Ctx) : (s.modCtxAt i f).core.vq = s.core.vq := rfl
@[simp] theorem State.modCtxAt_core_flying (s : State) (i : Fin 12) (f : Ctx → Ctx) : (s.modCtxAt i f).core.flying = s.core.flying := rfl
@[simp] theorem State.modCtxAt_core_work (s : State) (i : Fin 12) (f : Ctx → Ctx) : (s.modCtxAt i f).core.work = s.core.work := rfl
@[simp] theorem State.modCtxAt_core_parked (s : State) (i : Fin 12) (f : Ctx → Ctx) : (s.modCtxAt i f).core.parked = s.core.parked := rfl
@[simp] theorem State.modCtxAt_core_ordf (s : State) (i : Fin 12) (f : Ctx → Ctx) : (s.modCtxAt i f).core.ordf = s.core.ordf := rfl
@[simp] theorem State.modCtxAt_core_exch (s : State) (i : Fin 12) (f : Ctx → Ctx) : (s.modCtxAt i f).core.exch = s.core.exch := rfl
@[simp] theorem State.modCtxAt_core_exchLast (s : State) (i : Fin 12) (f : Ctx → Ctx) : (s.modCtxAt i f).core.exchLast = s.core.exchLast := rfl
@[simp] theorem State.modCtxAt_core_lineErrors (s : State) (i : Fin 12) (f : Ctx → Ctx) : (s.modCtxAt i f).core.lineErrors = s.core.lineErrors := rfl
@[simp] theorem State.modCtxAt_core_msgSent (s : State) (i : Fin 12) (f : Ctx → Ctx) : (s.modCtxAt i f).core.msgSent = s.core.msgSent := rfl
@[simp] theorem State.modCtxAt_core_msgRecv (s : State) (i : Fin 12) (f : Ctx → Ctx) : (s.modCtxAt i f).core.msgRecv = s.core.msgRecv := rfl
@[simp] theorem State.modCtxAt_core_latched (s : State) (i : Fin 12) (f : Ctx → Ctx) : (s.modCtxAt i f).core.latched = s.core.latched := rfl
@[simp] theorem State.modCtxAt_core_xmits (s : State) (i : Fin 12) (f : Ctx → Ctx) : (s.modCtxAt i f).core.xmits = s.core.xmits := rfl
@[simp] theorem State.modCtxAt_core_xsels (s : State) (i : Fin 12) (f : Ctx → Ctx) : (s.modCtxAt i f).core.xsels = s.core.xsels := rfl
@[simp] theorem State.modCtxAt_core_arrivals (s : State) (i : Fin 12) (f : Ctx → Ctx) : (s.modCtxAt i f).core.arrivals = s.core.arrivals := rfl
@[simp] theorem State.modCtxAt_core_markQ (s : State) (i : Fin 12) (f : Ctx → Ctx) : (s.modCtxAt i f).core.markQ = s.core.markQ := rfl
@[simp] theorem State.modCtxAt_core_tiles (s : State) (i : Fin 12) (f : Ctx → Ctx) : (s.modCtxAt i f).core.tiles = s.core.tiles := rfl
@[simp] theorem State.modCtxAt_core_trap (s : State) (i : Fin 12) (f : Ctx → Ctx) : (s.modCtxAt i f).core.trap = s.core.trap := rfl
@[simp] theorem State.modCtxAt_core_bridled (s : State) (i : Fin 12) (f : Ctx → Ctx) : (s.modCtxAt i f).core.bridled = s.core.bridled := rfl
@[simp] theorem State.modCtxAt_core_resend (s : State) (i : Fin 12) (f : Ctx → Ctx) : (s.modCtxAt i f).core.resend = s.core.resend := rfl
@[simp] theorem State.modCtx_core_regs (s : State) (f : Ctx → Ctx) : (s.modCtx f).core.regs = s.core.regs := rfl
@[simp] theorem State.modCtx_core_cur (s : State) (f : Ctx → Ctx) : (s.modCtx f).core.cur = s.core.cur := rfl
@[simp] theorem State.modCtx_core_order (s : State) (f : Ctx → Ctx) : (s.modCtx f).core.order = s.core.order := rfl
@[simp] theorem State.modCtx_core_gang (s : State) (f : Ctx → Ctx) : (s.modCtx f).core.gang = s.core.gang := rfl
@[simp] theorem State.modCtx_core_tenant (s : State) (f : Ctx → Ctx) : (s.modCtx f).core.tenant = s.core.tenant := rfl
@[simp] theorem State.modCtx_core_helpers (s : State) (f : Ctx → Ctx) : (s.modCtx f).core.helpers = s.core.helpers := rfl
@[simp] theorem State.modCtx_core_scratchReq (s : State) (f : Ctx → Ctx) : (s.modCtx f).core.scratchReq = s.core.scratchReq := rfl
@[simp] theorem State.modCtx_core_hfault (s : State) (f : Ctx → Ctx) : (s.modCtx f).core.hfault = s.core.hfault := rfl
@[simp] theorem State.modCtx_core_scratch (s : State) (f : Ctx → Ctx) : (s.modCtx f).core.scratch = s.core.scratch := rfl
@[simp] theorem State.modCtx_core_badScratch (s : State) (f : Ctx → Ctx) : (s.modCtx f).core.badScratch = s.core.badScratch := rfl
@[simp] theorem State.modCtx_core_rcache (s : State) (f : Ctx → Ctx) : (s.modCtx f).core.rcache = s.core.rcache := rfl
@[simp] theorem State.modCtx_core_icache (s : State) (f : Ctx → Ctx) : (s.modCtx f).core.icache = s.core.icache := rfl
@[simp] theorem State.modCtx_core_tlb (s : State) (f : Ctx → Ctx) : (s.modCtx f).core.tlb = s.core.tlb := rfl
@[simp] theorem State.modCtx_core_efifo (s : State) (f : Ctx → Ctx) : (s.modCtx f).core.efifo = s.core.efifo := rfl
@[simp] theorem State.modCtx_core_matchTab (s : State) (f : Ctx → Ctx) : (s.modCtx f).core.matchTab = s.core.matchTab := rfl
@[simp] theorem State.modCtx_core_copies (s : State) (f : Ctx → Ctx) : (s.modCtx f).core.copies = s.core.copies := rfl
@[simp] theorem State.modCtx_core_nextCopy (s : State) (f : Ctx → Ctx) : (s.modCtx f).core.nextCopy = s.core.nextCopy := rfl
@[simp] theorem State.modCtx_core_vq (s : State) (f : Ctx → Ctx) : (s.modCtx f).core.vq = s.core.vq := rfl
@[simp] theorem State.modCtx_core_flying (s : State) (f : Ctx → Ctx) : (s.modCtx f).core.flying = s.core.flying := rfl
@[simp] theorem State.modCtx_core_work (s : State) (f : Ctx → Ctx) : (s.modCtx f).core.work = s.core.work := rfl
@[simp] theorem State.modCtx_core_parked (s : State) (f : Ctx → Ctx) : (s.modCtx f).core.parked = s.core.parked := rfl
@[simp] theorem State.modCtx_core_ordf (s : State) (f : Ctx → Ctx) : (s.modCtx f).core.ordf = s.core.ordf := rfl
@[simp] theorem State.modCtx_core_exch (s : State) (f : Ctx → Ctx) : (s.modCtx f).core.exch = s.core.exch := rfl
@[simp] theorem State.modCtx_core_exchLast (s : State) (f : Ctx → Ctx) : (s.modCtx f).core.exchLast = s.core.exchLast := rfl
@[simp] theorem State.modCtx_core_lineErrors (s : State) (f : Ctx → Ctx) : (s.modCtx f).core.lineErrors = s.core.lineErrors := rfl
@[simp] theorem State.modCtx_core_msgSent (s : State) (f : Ctx → Ctx) : (s.modCtx f).core.msgSent = s.core.msgSent := rfl
@[simp] theorem State.modCtx_core_msgRecv (s : State) (f : Ctx → Ctx) : (s.modCtx f).core.msgRecv = s.core.msgRecv := rfl
@[simp] theorem State.modCtx_core_latched (s : State) (f : Ctx → Ctx) : (s.modCtx f).core.latched = s.core.latched := rfl
@[simp] theorem State.modCtx_core_xmits (s : State) (f : Ctx → Ctx) : (s.modCtx f).core.xmits = s.core.xmits := rfl
@[simp] theorem State.modCtx_core_xsels (s : State) (f : Ctx → Ctx) : (s.modCtx f).core.xsels = s.core.xsels := rfl
@[simp] theorem State.modCtx_core_arrivals (s : State) (f : Ctx → Ctx) : (s.modCtx f).core.arrivals = s.core.arrivals := rfl
@[simp] theorem State.modCtx_core_markQ (s : State) (f : Ctx → Ctx) : (s.modCtx f).core.markQ = s.core.markQ := rfl
@[simp] theorem State.modCtx_core_tiles (s : State) (f : Ctx → Ctx) : (s.modCtx f).core.tiles = s.core.tiles := rfl
@[simp] theorem State.modCtx_core_trap (s : State) (f : Ctx → Ctx) : (s.modCtx f).core.trap = s.core.trap := rfl
@[simp] theorem State.modCtx_core_bridled (s : State) (f : Ctx → Ctx) : (s.modCtx f).core.bridled = s.core.bridled := rfl
@[simp] theorem State.modCtx_core_resend (s : State) (f : Ctx → Ctx) : (s.modCtx f).core.resend = s.core.resend := rfl
@[simp] theorem State.writeP_core_regs (s : State) (r : PReg) (b : Bool) : (s.writeP r b).core.regs = s.core.regs := rfl
@[simp] theorem State.writeP_core_cur (s : State) (r : PReg) (b : Bool) : (s.writeP r b).core.cur = s.core.cur := rfl
@[simp] theorem State.writeP_core_order (s : State) (r : PReg) (b : Bool) : (s.writeP r b).core.order = s.core.order := rfl
@[simp] theorem State.writeP_core_gang (s : State) (r : PReg) (b : Bool) : (s.writeP r b).core.gang = s.core.gang := rfl
@[simp] theorem State.writeP_core_tenant (s : State) (r : PReg) (b : Bool) : (s.writeP r b).core.tenant = s.core.tenant := rfl
@[simp] theorem State.writeP_core_helpers (s : State) (r : PReg) (b : Bool) : (s.writeP r b).core.helpers = s.core.helpers := rfl
@[simp] theorem State.writeP_core_scratchReq (s : State) (r : PReg) (b : Bool) : (s.writeP r b).core.scratchReq = s.core.scratchReq := rfl
@[simp] theorem State.writeP_core_hfault (s : State) (r : PReg) (b : Bool) : (s.writeP r b).core.hfault = s.core.hfault := rfl
@[simp] theorem State.writeP_core_scratch (s : State) (r : PReg) (b : Bool) : (s.writeP r b).core.scratch = s.core.scratch := rfl
@[simp] theorem State.writeP_core_badScratch (s : State) (r : PReg) (b : Bool) : (s.writeP r b).core.badScratch = s.core.badScratch := rfl
@[simp] theorem State.writeP_core_rcache (s : State) (r : PReg) (b : Bool) : (s.writeP r b).core.rcache = s.core.rcache := rfl
@[simp] theorem State.writeP_core_icache (s : State) (r : PReg) (b : Bool) : (s.writeP r b).core.icache = s.core.icache := rfl
@[simp] theorem State.writeP_core_tlb (s : State) (r : PReg) (b : Bool) : (s.writeP r b).core.tlb = s.core.tlb := rfl
@[simp] theorem State.writeP_core_efifo (s : State) (r : PReg) (b : Bool) : (s.writeP r b).core.efifo = s.core.efifo := rfl
@[simp] theorem State.writeP_core_matchTab (s : State) (r : PReg) (b : Bool) : (s.writeP r b).core.matchTab = s.core.matchTab := rfl
@[simp] theorem State.writeP_core_copies (s : State) (r : PReg) (b : Bool) : (s.writeP r b).core.copies = s.core.copies := rfl
@[simp] theorem State.writeP_core_nextCopy (s : State) (r : PReg) (b : Bool) : (s.writeP r b).core.nextCopy = s.core.nextCopy := rfl
@[simp] theorem State.writeP_core_vq (s : State) (r : PReg) (b : Bool) : (s.writeP r b).core.vq = s.core.vq := rfl
@[simp] theorem State.writeP_core_flying (s : State) (r : PReg) (b : Bool) : (s.writeP r b).core.flying = s.core.flying := rfl
@[simp] theorem State.writeP_core_work (s : State) (r : PReg) (b : Bool) : (s.writeP r b).core.work = s.core.work := rfl
@[simp] theorem State.writeP_core_parked (s : State) (r : PReg) (b : Bool) : (s.writeP r b).core.parked = s.core.parked := rfl
@[simp] theorem State.writeP_core_ordf (s : State) (r : PReg) (b : Bool) : (s.writeP r b).core.ordf = s.core.ordf := rfl
@[simp] theorem State.writeP_core_exch (s : State) (r : PReg) (b : Bool) : (s.writeP r b).core.exch = s.core.exch := rfl
@[simp] theorem State.writeP_core_exchLast (s : State) (r : PReg) (b : Bool) : (s.writeP r b).core.exchLast = s.core.exchLast := rfl
@[simp] theorem State.writeP_core_lineErrors (s : State) (r : PReg) (b : Bool) : (s.writeP r b).core.lineErrors = s.core.lineErrors := rfl
@[simp] theorem State.writeP_core_msgSent (s : State) (r : PReg) (b : Bool) : (s.writeP r b).core.msgSent = s.core.msgSent := rfl
@[simp] theorem State.writeP_core_msgRecv (s : State) (r : PReg) (b : Bool) : (s.writeP r b).core.msgRecv = s.core.msgRecv := rfl
@[simp] theorem State.writeP_core_latched (s : State) (r : PReg) (b : Bool) : (s.writeP r b).core.latched = s.core.latched := rfl
@[simp] theorem State.writeP_core_xmits (s : State) (r : PReg) (b : Bool) : (s.writeP r b).core.xmits = s.core.xmits := rfl
@[simp] theorem State.writeP_core_xsels (s : State) (r : PReg) (b : Bool) : (s.writeP r b).core.xsels = s.core.xsels := rfl
@[simp] theorem State.writeP_core_arrivals (s : State) (r : PReg) (b : Bool) : (s.writeP r b).core.arrivals = s.core.arrivals := rfl
@[simp] theorem State.writeP_core_markQ (s : State) (r : PReg) (b : Bool) : (s.writeP r b).core.markQ = s.core.markQ := rfl
@[simp] theorem State.writeP_core_tiles (s : State) (r : PReg) (b : Bool) : (s.writeP r b).core.tiles = s.core.tiles := rfl
@[simp] theorem State.writeP_core_trap (s : State) (r : PReg) (b : Bool) : (s.writeP r b).core.trap = s.core.trap := rfl
@[simp] theorem State.writeP_core_bridled (s : State) (r : PReg) (b : Bool) : (s.writeP r b).core.bridled = s.core.bridled := rfl
@[simp] theorem State.writeP_core_resend (s : State) (r : PReg) (b : Bool) : (s.writeP r b).core.resend = s.core.resend := rfl
@[simp] theorem State.retire_core_regs (s : State) : (s.retire).core.regs = s.core.regs := rfl
@[simp] theorem State.retire_core_cur (s : State) : (s.retire).core.cur = s.core.cur := rfl
@[simp] theorem State.retire_core_order (s : State) : (s.retire).core.order = s.core.order := rfl
@[simp] theorem State.retire_core_gang (s : State) : (s.retire).core.gang = s.core.gang := rfl
@[simp] theorem State.retire_core_tenant (s : State) : (s.retire).core.tenant = s.core.tenant := rfl
@[simp] theorem State.retire_core_helpers (s : State) : (s.retire).core.helpers = s.core.helpers := rfl
@[simp] theorem State.retire_core_scratchReq (s : State) : (s.retire).core.scratchReq = s.core.scratchReq := rfl
@[simp] theorem State.retire_core_hfault (s : State) : (s.retire).core.hfault = s.core.hfault := rfl
@[simp] theorem State.retire_core_scratch (s : State) : (s.retire).core.scratch = s.core.scratch := rfl
@[simp] theorem State.retire_core_badScratch (s : State) : (s.retire).core.badScratch = s.core.badScratch := rfl
@[simp] theorem State.retire_core_rcache (s : State) : (s.retire).core.rcache = s.core.rcache := rfl
@[simp] theorem State.retire_core_icache (s : State) : (s.retire).core.icache = s.core.icache := rfl
@[simp] theorem State.retire_core_tlb (s : State) : (s.retire).core.tlb = s.core.tlb := rfl
@[simp] theorem State.retire_core_efifo (s : State) : (s.retire).core.efifo = s.core.efifo := rfl
@[simp] theorem State.retire_core_matchTab (s : State) : (s.retire).core.matchTab = s.core.matchTab := rfl
@[simp] theorem State.retire_core_copies (s : State) : (s.retire).core.copies = s.core.copies := rfl
@[simp] theorem State.retire_core_nextCopy (s : State) : (s.retire).core.nextCopy = s.core.nextCopy := rfl
@[simp] theorem State.retire_core_vq (s : State) : (s.retire).core.vq = s.core.vq := rfl
@[simp] theorem State.retire_core_flying (s : State) : (s.retire).core.flying = s.core.flying := rfl
@[simp] theorem State.retire_core_work (s : State) : (s.retire).core.work = s.core.work := rfl
@[simp] theorem State.retire_core_parked (s : State) : (s.retire).core.parked = s.core.parked := rfl
@[simp] theorem State.retire_core_ordf (s : State) : (s.retire).core.ordf = s.core.ordf := rfl
@[simp] theorem State.retire_core_exch (s : State) : (s.retire).core.exch = s.core.exch := rfl
@[simp] theorem State.retire_core_exchLast (s : State) : (s.retire).core.exchLast = s.core.exchLast := rfl
@[simp] theorem State.retire_core_lineErrors (s : State) : (s.retire).core.lineErrors = s.core.lineErrors := rfl
@[simp] theorem State.retire_core_msgSent (s : State) : (s.retire).core.msgSent = s.core.msgSent := rfl
@[simp] theorem State.retire_core_msgRecv (s : State) : (s.retire).core.msgRecv = s.core.msgRecv := rfl
@[simp] theorem State.retire_core_latched (s : State) : (s.retire).core.latched = s.core.latched := rfl
@[simp] theorem State.retire_core_xmits (s : State) : (s.retire).core.xmits = s.core.xmits := rfl
@[simp] theorem State.retire_core_xsels (s : State) : (s.retire).core.xsels = s.core.xsels := rfl
@[simp] theorem State.retire_core_arrivals (s : State) : (s.retire).core.arrivals = s.core.arrivals := rfl
@[simp] theorem State.retire_core_markQ (s : State) : (s.retire).core.markQ = s.core.markQ := rfl
@[simp] theorem State.retire_core_tiles (s : State) : (s.retire).core.tiles = s.core.tiles := rfl
@[simp] theorem State.retire_core_trap (s : State) : (s.retire).core.trap = s.core.trap := rfl
@[simp] theorem State.retire_core_bridled (s : State) : (s.retire).core.bridled = s.core.bridled := rfl
@[simp] theorem State.retire_core_resend (s : State) : (s.retire).core.resend = s.core.resend := rfl
@[simp] theorem State.retireTo_core_regs (s : State) (t : W64) : (s.retireTo t).core.regs = s.core.regs := rfl
@[simp] theorem State.retireTo_core_cur (s : State) (t : W64) : (s.retireTo t).core.cur = s.core.cur := rfl
@[simp] theorem State.retireTo_core_order (s : State) (t : W64) : (s.retireTo t).core.order = s.core.order := rfl
@[simp] theorem State.retireTo_core_gang (s : State) (t : W64) : (s.retireTo t).core.gang = s.core.gang := rfl
@[simp] theorem State.retireTo_core_tenant (s : State) (t : W64) : (s.retireTo t).core.tenant = s.core.tenant := rfl
@[simp] theorem State.retireTo_core_helpers (s : State) (t : W64) : (s.retireTo t).core.helpers = s.core.helpers := rfl
@[simp] theorem State.retireTo_core_scratchReq (s : State) (t : W64) : (s.retireTo t).core.scratchReq = s.core.scratchReq := rfl
@[simp] theorem State.retireTo_core_hfault (s : State) (t : W64) : (s.retireTo t).core.hfault = s.core.hfault := rfl
@[simp] theorem State.retireTo_core_scratch (s : State) (t : W64) : (s.retireTo t).core.scratch = s.core.scratch := rfl
@[simp] theorem State.retireTo_core_badScratch (s : State) (t : W64) : (s.retireTo t).core.badScratch = s.core.badScratch := rfl
@[simp] theorem State.retireTo_core_rcache (s : State) (t : W64) : (s.retireTo t).core.rcache = s.core.rcache := rfl
@[simp] theorem State.retireTo_core_icache (s : State) (t : W64) : (s.retireTo t).core.icache = s.core.icache := rfl
@[simp] theorem State.retireTo_core_tlb (s : State) (t : W64) : (s.retireTo t).core.tlb = s.core.tlb := rfl
@[simp] theorem State.retireTo_core_efifo (s : State) (t : W64) : (s.retireTo t).core.efifo = s.core.efifo := rfl
@[simp] theorem State.retireTo_core_matchTab (s : State) (t : W64) : (s.retireTo t).core.matchTab = s.core.matchTab := rfl
@[simp] theorem State.retireTo_core_copies (s : State) (t : W64) : (s.retireTo t).core.copies = s.core.copies := rfl
@[simp] theorem State.retireTo_core_nextCopy (s : State) (t : W64) : (s.retireTo t).core.nextCopy = s.core.nextCopy := rfl
@[simp] theorem State.retireTo_core_vq (s : State) (t : W64) : (s.retireTo t).core.vq = s.core.vq := rfl
@[simp] theorem State.retireTo_core_flying (s : State) (t : W64) : (s.retireTo t).core.flying = s.core.flying := rfl
@[simp] theorem State.retireTo_core_work (s : State) (t : W64) : (s.retireTo t).core.work = s.core.work := rfl
@[simp] theorem State.retireTo_core_parked (s : State) (t : W64) : (s.retireTo t).core.parked = s.core.parked := rfl
@[simp] theorem State.retireTo_core_ordf (s : State) (t : W64) : (s.retireTo t).core.ordf = s.core.ordf := rfl
@[simp] theorem State.retireTo_core_exch (s : State) (t : W64) : (s.retireTo t).core.exch = s.core.exch := rfl
@[simp] theorem State.retireTo_core_exchLast (s : State) (t : W64) : (s.retireTo t).core.exchLast = s.core.exchLast := rfl
@[simp] theorem State.retireTo_core_lineErrors (s : State) (t : W64) : (s.retireTo t).core.lineErrors = s.core.lineErrors := rfl
@[simp] theorem State.retireTo_core_msgSent (s : State) (t : W64) : (s.retireTo t).core.msgSent = s.core.msgSent := rfl
@[simp] theorem State.retireTo_core_msgRecv (s : State) (t : W64) : (s.retireTo t).core.msgRecv = s.core.msgRecv := rfl
@[simp] theorem State.retireTo_core_latched (s : State) (t : W64) : (s.retireTo t).core.latched = s.core.latched := rfl
@[simp] theorem State.retireTo_core_xmits (s : State) (t : W64) : (s.retireTo t).core.xmits = s.core.xmits := rfl
@[simp] theorem State.retireTo_core_xsels (s : State) (t : W64) : (s.retireTo t).core.xsels = s.core.xsels := rfl
@[simp] theorem State.retireTo_core_arrivals (s : State) (t : W64) : (s.retireTo t).core.arrivals = s.core.arrivals := rfl
@[simp] theorem State.retireTo_core_markQ (s : State) (t : W64) : (s.retireTo t).core.markQ = s.core.markQ := rfl
@[simp] theorem State.retireTo_core_tiles (s : State) (t : W64) : (s.retireTo t).core.tiles = s.core.tiles := rfl
@[simp] theorem State.retireTo_core_trap (s : State) (t : W64) : (s.retireTo t).core.trap = s.core.trap := rfl
@[simp] theorem State.retireTo_core_bridled (s : State) (t : W64) : (s.retireTo t).core.bridled = s.core.bridled := rfl
@[simp] theorem State.retireTo_core_resend (s : State) (t : W64) : (s.retireTo t).core.resend = s.core.resend := rfl
@[simp] theorem State.blockOn_core_regs (s : State) (w : Wait) : (s.blockOn w).core.regs = s.core.regs := rfl
@[simp] theorem State.blockOn_core_cur (s : State) (w : Wait) : (s.blockOn w).core.cur = s.core.cur := rfl
@[simp] theorem State.blockOn_core_order (s : State) (w : Wait) : (s.blockOn w).core.order = s.core.order := rfl
@[simp] theorem State.blockOn_core_gang (s : State) (w : Wait) : (s.blockOn w).core.gang = s.core.gang := rfl
@[simp] theorem State.blockOn_core_tenant (s : State) (w : Wait) : (s.blockOn w).core.tenant = s.core.tenant := rfl
@[simp] theorem State.blockOn_core_helpers (s : State) (w : Wait) : (s.blockOn w).core.helpers = s.core.helpers := rfl
@[simp] theorem State.blockOn_core_scratchReq (s : State) (w : Wait) : (s.blockOn w).core.scratchReq = s.core.scratchReq := rfl
@[simp] theorem State.blockOn_core_hfault (s : State) (w : Wait) : (s.blockOn w).core.hfault = s.core.hfault := rfl
@[simp] theorem State.blockOn_core_scratch (s : State) (w : Wait) : (s.blockOn w).core.scratch = s.core.scratch := rfl
@[simp] theorem State.blockOn_core_badScratch (s : State) (w : Wait) : (s.blockOn w).core.badScratch = s.core.badScratch := rfl
@[simp] theorem State.blockOn_core_rcache (s : State) (w : Wait) : (s.blockOn w).core.rcache = s.core.rcache := rfl
@[simp] theorem State.blockOn_core_icache (s : State) (w : Wait) : (s.blockOn w).core.icache = s.core.icache := rfl
@[simp] theorem State.blockOn_core_tlb (s : State) (w : Wait) : (s.blockOn w).core.tlb = s.core.tlb := rfl
@[simp] theorem State.blockOn_core_efifo (s : State) (w : Wait) : (s.blockOn w).core.efifo = s.core.efifo := rfl
@[simp] theorem State.blockOn_core_matchTab (s : State) (w : Wait) : (s.blockOn w).core.matchTab = s.core.matchTab := rfl
@[simp] theorem State.blockOn_core_copies (s : State) (w : Wait) : (s.blockOn w).core.copies = s.core.copies := rfl
@[simp] theorem State.blockOn_core_nextCopy (s : State) (w : Wait) : (s.blockOn w).core.nextCopy = s.core.nextCopy := rfl
@[simp] theorem State.blockOn_core_vq (s : State) (w : Wait) : (s.blockOn w).core.vq = s.core.vq := rfl
@[simp] theorem State.blockOn_core_flying (s : State) (w : Wait) : (s.blockOn w).core.flying = s.core.flying := rfl
@[simp] theorem State.blockOn_core_work (s : State) (w : Wait) : (s.blockOn w).core.work = s.core.work := rfl
@[simp] theorem State.blockOn_core_parked (s : State) (w : Wait) : (s.blockOn w).core.parked = s.core.parked := rfl
@[simp] theorem State.blockOn_core_ordf (s : State) (w : Wait) : (s.blockOn w).core.ordf = s.core.ordf := rfl
@[simp] theorem State.blockOn_core_exch (s : State) (w : Wait) : (s.blockOn w).core.exch = s.core.exch := rfl
@[simp] theorem State.blockOn_core_exchLast (s : State) (w : Wait) : (s.blockOn w).core.exchLast = s.core.exchLast := rfl
@[simp] theorem State.blockOn_core_lineErrors (s : State) (w : Wait) : (s.blockOn w).core.lineErrors = s.core.lineErrors := rfl
@[simp] theorem State.blockOn_core_msgSent (s : State) (w : Wait) : (s.blockOn w).core.msgSent = s.core.msgSent := rfl
@[simp] theorem State.blockOn_core_msgRecv (s : State) (w : Wait) : (s.blockOn w).core.msgRecv = s.core.msgRecv := rfl
@[simp] theorem State.blockOn_core_latched (s : State) (w : Wait) : (s.blockOn w).core.latched = s.core.latched := rfl
@[simp] theorem State.blockOn_core_xmits (s : State) (w : Wait) : (s.blockOn w).core.xmits = s.core.xmits := rfl
@[simp] theorem State.blockOn_core_xsels (s : State) (w : Wait) : (s.blockOn w).core.xsels = s.core.xsels := rfl
@[simp] theorem State.blockOn_core_arrivals (s : State) (w : Wait) : (s.blockOn w).core.arrivals = s.core.arrivals := rfl
@[simp] theorem State.blockOn_core_markQ (s : State) (w : Wait) : (s.blockOn w).core.markQ = s.core.markQ := rfl
@[simp] theorem State.blockOn_core_tiles (s : State) (w : Wait) : (s.blockOn w).core.tiles = s.core.tiles := rfl
@[simp] theorem State.blockOn_core_trap (s : State) (w : Wait) : (s.blockOn w).core.trap = s.core.trap := rfl
@[simp] theorem State.blockOn_core_bridled (s : State) (w : Wait) : (s.blockOn w).core.bridled = s.core.bridled := rfl
@[simp] theorem State.blockOn_core_resend (s : State) (w : Wait) : (s.blockOn w).core.resend = s.core.resend := rfl
@[simp] theorem State.orFlags_core_regs (s : State) (i : Fin 12) (f : FFlags) : (s.orFlags i f).core.regs = s.core.regs := rfl
@[simp] theorem State.orFlags_core_cur (s : State) (i : Fin 12) (f : FFlags) : (s.orFlags i f).core.cur = s.core.cur := rfl
@[simp] theorem State.orFlags_core_order (s : State) (i : Fin 12) (f : FFlags) : (s.orFlags i f).core.order = s.core.order := rfl
@[simp] theorem State.orFlags_core_gang (s : State) (i : Fin 12) (f : FFlags) : (s.orFlags i f).core.gang = s.core.gang := rfl
@[simp] theorem State.orFlags_core_tenant (s : State) (i : Fin 12) (f : FFlags) : (s.orFlags i f).core.tenant = s.core.tenant := rfl
@[simp] theorem State.orFlags_core_helpers (s : State) (i : Fin 12) (f : FFlags) : (s.orFlags i f).core.helpers = s.core.helpers := rfl
@[simp] theorem State.orFlags_core_scratchReq (s : State) (i : Fin 12) (f : FFlags) : (s.orFlags i f).core.scratchReq = s.core.scratchReq := rfl
@[simp] theorem State.orFlags_core_hfault (s : State) (i : Fin 12) (f : FFlags) : (s.orFlags i f).core.hfault = s.core.hfault := rfl
@[simp] theorem State.orFlags_core_scratch (s : State) (i : Fin 12) (f : FFlags) : (s.orFlags i f).core.scratch = s.core.scratch := rfl
@[simp] theorem State.orFlags_core_badScratch (s : State) (i : Fin 12) (f : FFlags) : (s.orFlags i f).core.badScratch = s.core.badScratch := rfl
@[simp] theorem State.orFlags_core_rcache (s : State) (i : Fin 12) (f : FFlags) : (s.orFlags i f).core.rcache = s.core.rcache := rfl
@[simp] theorem State.orFlags_core_icache (s : State) (i : Fin 12) (f : FFlags) : (s.orFlags i f).core.icache = s.core.icache := rfl
@[simp] theorem State.orFlags_core_tlb (s : State) (i : Fin 12) (f : FFlags) : (s.orFlags i f).core.tlb = s.core.tlb := rfl
@[simp] theorem State.orFlags_core_efifo (s : State) (i : Fin 12) (f : FFlags) : (s.orFlags i f).core.efifo = s.core.efifo := rfl
@[simp] theorem State.orFlags_core_matchTab (s : State) (i : Fin 12) (f : FFlags) : (s.orFlags i f).core.matchTab = s.core.matchTab := rfl
@[simp] theorem State.orFlags_core_copies (s : State) (i : Fin 12) (f : FFlags) : (s.orFlags i f).core.copies = s.core.copies := rfl
@[simp] theorem State.orFlags_core_nextCopy (s : State) (i : Fin 12) (f : FFlags) : (s.orFlags i f).core.nextCopy = s.core.nextCopy := rfl
@[simp] theorem State.orFlags_core_vq (s : State) (i : Fin 12) (f : FFlags) : (s.orFlags i f).core.vq = s.core.vq := rfl
@[simp] theorem State.orFlags_core_flying (s : State) (i : Fin 12) (f : FFlags) : (s.orFlags i f).core.flying = s.core.flying := rfl
@[simp] theorem State.orFlags_core_work (s : State) (i : Fin 12) (f : FFlags) : (s.orFlags i f).core.work = s.core.work := rfl
@[simp] theorem State.orFlags_core_parked (s : State) (i : Fin 12) (f : FFlags) : (s.orFlags i f).core.parked = s.core.parked := rfl
@[simp] theorem State.orFlags_core_ordf (s : State) (i : Fin 12) (f : FFlags) : (s.orFlags i f).core.ordf = s.core.ordf := rfl
@[simp] theorem State.orFlags_core_exch (s : State) (i : Fin 12) (f : FFlags) : (s.orFlags i f).core.exch = s.core.exch := rfl
@[simp] theorem State.orFlags_core_exchLast (s : State) (i : Fin 12) (f : FFlags) : (s.orFlags i f).core.exchLast = s.core.exchLast := rfl
@[simp] theorem State.orFlags_core_lineErrors (s : State) (i : Fin 12) (f : FFlags) : (s.orFlags i f).core.lineErrors = s.core.lineErrors := rfl
@[simp] theorem State.orFlags_core_msgSent (s : State) (i : Fin 12) (f : FFlags) : (s.orFlags i f).core.msgSent = s.core.msgSent := rfl
@[simp] theorem State.orFlags_core_msgRecv (s : State) (i : Fin 12) (f : FFlags) : (s.orFlags i f).core.msgRecv = s.core.msgRecv := rfl
@[simp] theorem State.orFlags_core_latched (s : State) (i : Fin 12) (f : FFlags) : (s.orFlags i f).core.latched = s.core.latched := rfl
@[simp] theorem State.orFlags_core_xmits (s : State) (i : Fin 12) (f : FFlags) : (s.orFlags i f).core.xmits = s.core.xmits := rfl
@[simp] theorem State.orFlags_core_xsels (s : State) (i : Fin 12) (f : FFlags) : (s.orFlags i f).core.xsels = s.core.xsels := rfl
@[simp] theorem State.orFlags_core_arrivals (s : State) (i : Fin 12) (f : FFlags) : (s.orFlags i f).core.arrivals = s.core.arrivals := rfl
@[simp] theorem State.orFlags_core_markQ (s : State) (i : Fin 12) (f : FFlags) : (s.orFlags i f).core.markQ = s.core.markQ := rfl
@[simp] theorem State.orFlags_core_tiles (s : State) (i : Fin 12) (f : FFlags) : (s.orFlags i f).core.tiles = s.core.tiles := rfl
@[simp] theorem State.orFlags_core_trap (s : State) (i : Fin 12) (f : FFlags) : (s.orFlags i f).core.trap = s.core.trap := rfl
@[simp] theorem State.orFlags_core_bridled (s : State) (i : Fin 12) (f : FFlags) : (s.orFlags i f).core.bridled = s.core.bridled := rfl
@[simp] theorem State.orFlags_core_resend (s : State) (i : Fin 12) (f : FFlags) : (s.orFlags i f).core.resend = s.core.resend := rfl

/-! What updates of core registers, trap unit and scratchpad leave of the core -/

@[simp] theorem State.modRegs_core_ctxs (s : State) (f : CoreRegs → CoreRegs) : (s.modRegs f).core.ctxs = s.core.ctxs := rfl
@[simp] theorem State.modRegs_core_cur (s : State) (f : CoreRegs → CoreRegs) : (s.modRegs f).core.cur = s.core.cur := rfl
@[simp] theorem State.modRegs_core_gang (s : State) (f : CoreRegs → CoreRegs) : (s.modRegs f).core.gang = s.core.gang := rfl
@[simp] theorem State.modRegs_core_tenant (s : State) (f : CoreRegs → CoreRegs) : (s.modRegs f).core.tenant = s.core.tenant := rfl
@[simp] theorem State.modRegs_core_scratch (s : State) (f : CoreRegs → CoreRegs) : (s.modRegs f).core.scratch = s.core.scratch := rfl
@[simp] theorem State.modRegs_core_vq (s : State) (f : CoreRegs → CoreRegs) : (s.modRegs f).core.vq = s.core.vq := rfl
@[simp] theorem State.modRegs_core_flying (s : State) (f : CoreRegs → CoreRegs) : (s.modRegs f).core.flying = s.core.flying := rfl
@[simp] theorem State.modRegs_core_copies (s : State) (f : CoreRegs → CoreRegs) : (s.modRegs f).core.copies = s.core.copies := rfl
@[simp] theorem State.modRegs_core_work (s : State) (f : CoreRegs → CoreRegs) : (s.modRegs f).core.work = s.core.work := rfl
@[simp] theorem State.modRegs_core_markQ (s : State) (f : CoreRegs → CoreRegs) : (s.modRegs f).core.markQ = s.core.markQ := rfl
@[simp] theorem State.modRegs_core_exch (s : State) (f : CoreRegs → CoreRegs) : (s.modRegs f).core.exch = s.core.exch := rfl
@[simp] theorem State.modRegs_core_exchLast (s : State) (f : CoreRegs → CoreRegs) : (s.modRegs f).core.exchLast = s.core.exchLast := rfl
@[simp] theorem State.modRegs_core_lineErrors (s : State) (f : CoreRegs → CoreRegs) : (s.modRegs f).core.lineErrors = s.core.lineErrors := rfl
@[simp] theorem State.modRegs_core_msgSent (s : State) (f : CoreRegs → CoreRegs) : (s.modRegs f).core.msgSent = s.core.msgSent := rfl
@[simp] theorem State.modRegs_core_msgRecv (s : State) (f : CoreRegs → CoreRegs) : (s.modRegs f).core.msgRecv = s.core.msgRecv := rfl
@[simp] theorem State.modRegs_core_latched (s : State) (f : CoreRegs → CoreRegs) : (s.modRegs f).core.latched = s.core.latched := rfl
@[simp] theorem State.modRegs_core_trap (s : State) (f : CoreRegs → CoreRegs) : (s.modRegs f).core.trap = s.core.trap := rfl
@[simp] theorem State.modRegs_ctxAt (s : State) (f : CoreRegs → CoreRegs) (j : Fin 12) : (s.modRegs f).ctxAt j = s.ctxAt j := rfl
@[simp] theorem State.modRegs_ctx (s : State) (f : CoreRegs → CoreRegs) : (s.modRegs f).ctx = s.ctx := rfl
@[simp] theorem State.modVec_core_ctxs (s : State) (f : VecRegs → VecRegs) : (s.modVec f).core.ctxs = s.core.ctxs := rfl
@[simp] theorem State.modVec_core_cur (s : State) (f : VecRegs → VecRegs) : (s.modVec f).core.cur = s.core.cur := rfl
@[simp] theorem State.modVec_core_gang (s : State) (f : VecRegs → VecRegs) : (s.modVec f).core.gang = s.core.gang := rfl
@[simp] theorem State.modVec_core_tenant (s : State) (f : VecRegs → VecRegs) : (s.modVec f).core.tenant = s.core.tenant := rfl
@[simp] theorem State.modVec_core_scratch (s : State) (f : VecRegs → VecRegs) : (s.modVec f).core.scratch = s.core.scratch := rfl
@[simp] theorem State.modVec_core_vq (s : State) (f : VecRegs → VecRegs) : (s.modVec f).core.vq = s.core.vq := rfl
@[simp] theorem State.modVec_core_flying (s : State) (f : VecRegs → VecRegs) : (s.modVec f).core.flying = s.core.flying := rfl
@[simp] theorem State.modVec_core_copies (s : State) (f : VecRegs → VecRegs) : (s.modVec f).core.copies = s.core.copies := rfl
@[simp] theorem State.modVec_core_work (s : State) (f : VecRegs → VecRegs) : (s.modVec f).core.work = s.core.work := rfl
@[simp] theorem State.modVec_core_markQ (s : State) (f : VecRegs → VecRegs) : (s.modVec f).core.markQ = s.core.markQ := rfl
@[simp] theorem State.modVec_core_exch (s : State) (f : VecRegs → VecRegs) : (s.modVec f).core.exch = s.core.exch := rfl
@[simp] theorem State.modVec_core_exchLast (s : State) (f : VecRegs → VecRegs) : (s.modVec f).core.exchLast = s.core.exchLast := rfl
@[simp] theorem State.modVec_core_lineErrors (s : State) (f : VecRegs → VecRegs) : (s.modVec f).core.lineErrors = s.core.lineErrors := rfl
@[simp] theorem State.modVec_core_msgSent (s : State) (f : VecRegs → VecRegs) : (s.modVec f).core.msgSent = s.core.msgSent := rfl
@[simp] theorem State.modVec_core_msgRecv (s : State) (f : VecRegs → VecRegs) : (s.modVec f).core.msgRecv = s.core.msgRecv := rfl
@[simp] theorem State.modVec_core_latched (s : State) (f : VecRegs → VecRegs) : (s.modVec f).core.latched = s.core.latched := rfl
@[simp] theorem State.modVec_core_trap (s : State) (f : VecRegs → VecRegs) : (s.modVec f).core.trap = s.core.trap := rfl
@[simp] theorem State.modVec_ctxAt (s : State) (f : VecRegs → VecRegs) (j : Fin 12) : (s.modVec f).ctxAt j = s.ctxAt j := rfl
@[simp] theorem State.modVec_ctx (s : State) (f : VecRegs → VecRegs) : (s.modVec f).ctx = s.ctx := rfl
@[simp] theorem State.modFrame_core_ctxs (s : State) (f : Frame → Frame) : (s.modFrame f).core.ctxs = s.core.ctxs := rfl
@[simp] theorem State.modFrame_core_cur (s : State) (f : Frame → Frame) : (s.modFrame f).core.cur = s.core.cur := rfl
@[simp] theorem State.modFrame_core_gang (s : State) (f : Frame → Frame) : (s.modFrame f).core.gang = s.core.gang := rfl
@[simp] theorem State.modFrame_core_tenant (s : State) (f : Frame → Frame) : (s.modFrame f).core.tenant = s.core.tenant := rfl
@[simp] theorem State.modFrame_core_scratch (s : State) (f : Frame → Frame) : (s.modFrame f).core.scratch = s.core.scratch := rfl
@[simp] theorem State.modFrame_core_vq (s : State) (f : Frame → Frame) : (s.modFrame f).core.vq = s.core.vq := rfl
@[simp] theorem State.modFrame_core_flying (s : State) (f : Frame → Frame) : (s.modFrame f).core.flying = s.core.flying := rfl
@[simp] theorem State.modFrame_core_copies (s : State) (f : Frame → Frame) : (s.modFrame f).core.copies = s.core.copies := rfl
@[simp] theorem State.modFrame_core_work (s : State) (f : Frame → Frame) : (s.modFrame f).core.work = s.core.work := rfl
@[simp] theorem State.modFrame_core_markQ (s : State) (f : Frame → Frame) : (s.modFrame f).core.markQ = s.core.markQ := rfl
@[simp] theorem State.modFrame_core_exch (s : State) (f : Frame → Frame) : (s.modFrame f).core.exch = s.core.exch := rfl
@[simp] theorem State.modFrame_core_exchLast (s : State) (f : Frame → Frame) : (s.modFrame f).core.exchLast = s.core.exchLast := rfl
@[simp] theorem State.modFrame_core_lineErrors (s : State) (f : Frame → Frame) : (s.modFrame f).core.lineErrors = s.core.lineErrors := rfl
@[simp] theorem State.modFrame_core_msgSent (s : State) (f : Frame → Frame) : (s.modFrame f).core.msgSent = s.core.msgSent := rfl
@[simp] theorem State.modFrame_core_msgRecv (s : State) (f : Frame → Frame) : (s.modFrame f).core.msgRecv = s.core.msgRecv := rfl
@[simp] theorem State.modFrame_core_latched (s : State) (f : Frame → Frame) : (s.modFrame f).core.latched = s.core.latched := rfl
@[simp] theorem State.modFrame_core_trap (s : State) (f : Frame → Frame) : (s.modFrame f).core.trap = s.core.trap := rfl
@[simp] theorem State.modFrame_ctxAt (s : State) (f : Frame → Frame) (j : Fin 12) : (s.modFrame f).ctxAt j = s.ctxAt j := rfl
@[simp] theorem State.modFrame_ctx (s : State) (f : Frame → Frame) : (s.modFrame f).ctx = s.ctx := rfl
@[simp] theorem State.modRing_core_ctxs (s : State) (g : BitVec 3) (f : Ring → Ring) : (s.modRing g f).core.ctxs = s.core.ctxs := rfl
@[simp] theorem State.modRing_core_cur (s : State) (g : BitVec 3) (f : Ring → Ring) : (s.modRing g f).core.cur = s.core.cur := rfl
@[simp] theorem State.modRing_core_gang (s : State) (g : BitVec 3) (f : Ring → Ring) : (s.modRing g f).core.gang = s.core.gang := rfl
@[simp] theorem State.modRing_core_tenant (s : State) (g : BitVec 3) (f : Ring → Ring) : (s.modRing g f).core.tenant = s.core.tenant := rfl
@[simp] theorem State.modRing_core_scratch (s : State) (g : BitVec 3) (f : Ring → Ring) : (s.modRing g f).core.scratch = s.core.scratch := rfl
@[simp] theorem State.modRing_core_vq (s : State) (g : BitVec 3) (f : Ring → Ring) : (s.modRing g f).core.vq = s.core.vq := rfl
@[simp] theorem State.modRing_core_flying (s : State) (g : BitVec 3) (f : Ring → Ring) : (s.modRing g f).core.flying = s.core.flying := rfl
@[simp] theorem State.modRing_core_copies (s : State) (g : BitVec 3) (f : Ring → Ring) : (s.modRing g f).core.copies = s.core.copies := rfl
@[simp] theorem State.modRing_core_work (s : State) (g : BitVec 3) (f : Ring → Ring) : (s.modRing g f).core.work = s.core.work := rfl
@[simp] theorem State.modRing_core_markQ (s : State) (g : BitVec 3) (f : Ring → Ring) : (s.modRing g f).core.markQ = s.core.markQ := rfl
@[simp] theorem State.modRing_core_exch (s : State) (g : BitVec 3) (f : Ring → Ring) : (s.modRing g f).core.exch = s.core.exch := rfl
@[simp] theorem State.modRing_core_exchLast (s : State) (g : BitVec 3) (f : Ring → Ring) : (s.modRing g f).core.exchLast = s.core.exchLast := rfl
@[simp] theorem State.modRing_core_lineErrors (s : State) (g : BitVec 3) (f : Ring → Ring) : (s.modRing g f).core.lineErrors = s.core.lineErrors := rfl
@[simp] theorem State.modRing_core_msgSent (s : State) (g : BitVec 3) (f : Ring → Ring) : (s.modRing g f).core.msgSent = s.core.msgSent := rfl
@[simp] theorem State.modRing_core_msgRecv (s : State) (g : BitVec 3) (f : Ring → Ring) : (s.modRing g f).core.msgRecv = s.core.msgRecv := rfl
@[simp] theorem State.modRing_core_latched (s : State) (g : BitVec 3) (f : Ring → Ring) : (s.modRing g f).core.latched = s.core.latched := rfl
@[simp] theorem State.modRing_core_trap (s : State) (g : BitVec 3) (f : Ring → Ring) : (s.modRing g f).core.trap = s.core.trap := rfl
@[simp] theorem State.modRing_ctxAt (s : State) (g : BitVec 3) (f : Ring → Ring) (j : Fin 12) : (s.modRing g f).ctxAt j = s.ctxAt j := rfl
@[simp] theorem State.modRing_ctx (s : State) (g : BitVec 3) (f : Ring → Ring) : (s.modRing g f).ctx = s.ctx := rfl
@[simp] theorem State.setQueue_core_ctxs (s : State) (i : Fin 8) (l : List W64) : (s.setQueue i l).core.ctxs = s.core.ctxs := rfl
@[simp] theorem State.setQueue_core_cur (s : State) (i : Fin 8) (l : List W64) : (s.setQueue i l).core.cur = s.core.cur := rfl
@[simp] theorem State.setQueue_core_gang (s : State) (i : Fin 8) (l : List W64) : (s.setQueue i l).core.gang = s.core.gang := rfl
@[simp] theorem State.setQueue_core_tenant (s : State) (i : Fin 8) (l : List W64) : (s.setQueue i l).core.tenant = s.core.tenant := rfl
@[simp] theorem State.setQueue_core_scratch (s : State) (i : Fin 8) (l : List W64) : (s.setQueue i l).core.scratch = s.core.scratch := rfl
@[simp] theorem State.setQueue_core_vq (s : State) (i : Fin 8) (l : List W64) : (s.setQueue i l).core.vq = s.core.vq := rfl
@[simp] theorem State.setQueue_core_flying (s : State) (i : Fin 8) (l : List W64) : (s.setQueue i l).core.flying = s.core.flying := rfl
@[simp] theorem State.setQueue_core_copies (s : State) (i : Fin 8) (l : List W64) : (s.setQueue i l).core.copies = s.core.copies := rfl
@[simp] theorem State.setQueue_core_work (s : State) (i : Fin 8) (l : List W64) : (s.setQueue i l).core.work = s.core.work := rfl
@[simp] theorem State.setQueue_core_markQ (s : State) (i : Fin 8) (l : List W64) : (s.setQueue i l).core.markQ = s.core.markQ := rfl
@[simp] theorem State.setQueue_core_exch (s : State) (i : Fin 8) (l : List W64) : (s.setQueue i l).core.exch = s.core.exch := rfl
@[simp] theorem State.setQueue_core_exchLast (s : State) (i : Fin 8) (l : List W64) : (s.setQueue i l).core.exchLast = s.core.exchLast := rfl
@[simp] theorem State.setQueue_core_lineErrors (s : State) (i : Fin 8) (l : List W64) : (s.setQueue i l).core.lineErrors = s.core.lineErrors := rfl
@[simp] theorem State.setQueue_core_msgSent (s : State) (i : Fin 8) (l : List W64) : (s.setQueue i l).core.msgSent = s.core.msgSent := rfl
@[simp] theorem State.setQueue_core_msgRecv (s : State) (i : Fin 8) (l : List W64) : (s.setQueue i l).core.msgRecv = s.core.msgRecv := rfl
@[simp] theorem State.setQueue_core_latched (s : State) (i : Fin 8) (l : List W64) : (s.setQueue i l).core.latched = s.core.latched := rfl
@[simp] theorem State.setQueue_core_trap (s : State) (i : Fin 8) (l : List W64) : (s.setQueue i l).core.trap = s.core.trap := rfl
@[simp] theorem State.setQueue_ctxAt (s : State) (i : Fin 8) (l : List W64) (j : Fin 12) : (s.setQueue i l).ctxAt j = s.ctxAt j := rfl
@[simp] theorem State.setQueue_ctx (s : State) (i : Fin 8) (l : List W64) : (s.setQueue i l).ctx = s.ctx := rfl
@[simp] theorem State.modTrap_core_ctxs (s : State) (f : TrapUnit → TrapUnit) : (s.modTrap f).core.ctxs = s.core.ctxs := rfl
@[simp] theorem State.modTrap_core_cur (s : State) (f : TrapUnit → TrapUnit) : (s.modTrap f).core.cur = s.core.cur := rfl
@[simp] theorem State.modTrap_core_gang (s : State) (f : TrapUnit → TrapUnit) : (s.modTrap f).core.gang = s.core.gang := rfl
@[simp] theorem State.modTrap_core_tenant (s : State) (f : TrapUnit → TrapUnit) : (s.modTrap f).core.tenant = s.core.tenant := rfl
@[simp] theorem State.modTrap_core_scratch (s : State) (f : TrapUnit → TrapUnit) : (s.modTrap f).core.scratch = s.core.scratch := rfl
@[simp] theorem State.modTrap_core_vq (s : State) (f : TrapUnit → TrapUnit) : (s.modTrap f).core.vq = s.core.vq := rfl
@[simp] theorem State.modTrap_core_flying (s : State) (f : TrapUnit → TrapUnit) : (s.modTrap f).core.flying = s.core.flying := rfl
@[simp] theorem State.modTrap_core_copies (s : State) (f : TrapUnit → TrapUnit) : (s.modTrap f).core.copies = s.core.copies := rfl
@[simp] theorem State.modTrap_core_work (s : State) (f : TrapUnit → TrapUnit) : (s.modTrap f).core.work = s.core.work := rfl
@[simp] theorem State.modTrap_core_markQ (s : State) (f : TrapUnit → TrapUnit) : (s.modTrap f).core.markQ = s.core.markQ := rfl
@[simp] theorem State.modTrap_core_exch (s : State) (f : TrapUnit → TrapUnit) : (s.modTrap f).core.exch = s.core.exch := rfl
@[simp] theorem State.modTrap_core_exchLast (s : State) (f : TrapUnit → TrapUnit) : (s.modTrap f).core.exchLast = s.core.exchLast := rfl
@[simp] theorem State.modTrap_core_lineErrors (s : State) (f : TrapUnit → TrapUnit) : (s.modTrap f).core.lineErrors = s.core.lineErrors := rfl
@[simp] theorem State.modTrap_core_msgSent (s : State) (f : TrapUnit → TrapUnit) : (s.modTrap f).core.msgSent = s.core.msgSent := rfl
@[simp] theorem State.modTrap_core_msgRecv (s : State) (f : TrapUnit → TrapUnit) : (s.modTrap f).core.msgRecv = s.core.msgRecv := rfl
@[simp] theorem State.modTrap_core_latched (s : State) (f : TrapUnit → TrapUnit) : (s.modTrap f).core.latched = s.core.latched := rfl
@[simp] theorem State.modTrap_core_regs (s : State) (f : TrapUnit → TrapUnit) : (s.modTrap f).core.regs = s.core.regs := rfl
@[simp] theorem State.modTrap_ctxAt (s : State) (f : TrapUnit → TrapUnit) (j : Fin 12) : (s.modTrap f).ctxAt j = s.ctxAt j := rfl
@[simp] theorem State.modTrap_ctx (s : State) (f : TrapUnit → TrapUnit) : (s.modTrap f).ctx = s.ctx := rfl
@[simp] theorem State.setScratch_core_ctxs (s : State) (a : Nat) (bs : List Byte) : (s.setScratch a bs).core.ctxs = s.core.ctxs := rfl
@[simp] theorem State.setScratch_core_cur (s : State) (a : Nat) (bs : List Byte) : (s.setScratch a bs).core.cur = s.core.cur := rfl
@[simp] theorem State.setScratch_core_gang (s : State) (a : Nat) (bs : List Byte) : (s.setScratch a bs).core.gang = s.core.gang := rfl
@[simp] theorem State.setScratch_core_tenant (s : State) (a : Nat) (bs : List Byte) : (s.setScratch a bs).core.tenant = s.core.tenant := rfl
@[simp] theorem State.setScratch_core_vq (s : State) (a : Nat) (bs : List Byte) : (s.setScratch a bs).core.vq = s.core.vq := rfl
@[simp] theorem State.setScratch_core_flying (s : State) (a : Nat) (bs : List Byte) : (s.setScratch a bs).core.flying = s.core.flying := rfl
@[simp] theorem State.setScratch_core_copies (s : State) (a : Nat) (bs : List Byte) : (s.setScratch a bs).core.copies = s.core.copies := rfl
@[simp] theorem State.setScratch_core_work (s : State) (a : Nat) (bs : List Byte) : (s.setScratch a bs).core.work = s.core.work := rfl
@[simp] theorem State.setScratch_core_markQ (s : State) (a : Nat) (bs : List Byte) : (s.setScratch a bs).core.markQ = s.core.markQ := rfl
@[simp] theorem State.setScratch_core_exch (s : State) (a : Nat) (bs : List Byte) : (s.setScratch a bs).core.exch = s.core.exch := rfl
@[simp] theorem State.setScratch_core_exchLast (s : State) (a : Nat) (bs : List Byte) : (s.setScratch a bs).core.exchLast = s.core.exchLast := rfl
@[simp] theorem State.setScratch_core_lineErrors (s : State) (a : Nat) (bs : List Byte) : (s.setScratch a bs).core.lineErrors = s.core.lineErrors := rfl
@[simp] theorem State.setScratch_core_msgSent (s : State) (a : Nat) (bs : List Byte) : (s.setScratch a bs).core.msgSent = s.core.msgSent := rfl
@[simp] theorem State.setScratch_core_msgRecv (s : State) (a : Nat) (bs : List Byte) : (s.setScratch a bs).core.msgRecv = s.core.msgRecv := rfl
@[simp] theorem State.setScratch_core_latched (s : State) (a : Nat) (bs : List Byte) : (s.setScratch a bs).core.latched = s.core.latched := rfl
@[simp] theorem State.setScratch_core_trap (s : State) (a : Nat) (bs : List Byte) : (s.setScratch a bs).core.trap = s.core.trap := rfl
@[simp] theorem State.setScratch_core_regs (s : State) (a : Nat) (bs : List Byte) : (s.setScratch a bs).core.regs = s.core.regs := rfl
@[simp] theorem State.setScratch_ctxAt (s : State) (a : Nat) (bs : List Byte) (j : Fin 12) : (s.setScratch a bs).ctxAt j = s.ctxAt j := rfl
@[simp] theorem State.setScratch_ctx (s : State) (a : Nat) (bs : List Byte) : (s.setScratch a bs).ctx = s.ctx := rfl

/-! What an update puts where -/

@[simp] theorem State.modCore_core (s : State) (f : Core → Core) : (s.modCore f).core = f s.core := rfl
@[simp] theorem State.modRegs_regs (s : State) (f : CoreRegs → CoreRegs) : (s.modRegs f).core.regs = f s.core.regs := rfl
@[simp] theorem State.modVec_vec (s : State) (f : VecRegs → VecRegs) : (s.modVec f).core.regs.vec = f s.core.regs.vec := rfl
@[simp] theorem State.modVec_frame (s : State) (f : VecRegs → VecRegs) : (s.modVec f).core.regs.frame = s.core.regs.frame := rfl
@[simp] theorem State.modVec_q (s : State) (f : VecRegs → VecRegs) : (s.modVec f).core.regs.q = s.core.regs.q := rfl
@[simp] theorem State.modVec_qcfg (s : State) (f : VecRegs → VecRegs) : (s.modVec f).core.regs.qcfg = s.core.regs.qcfg := rfl
@[simp] theorem State.modVec_lumode (s : State) (f : VecRegs → VecRegs) : (s.modVec f).core.regs.lumode = s.core.regs.lumode := rfl
@[simp] theorem State.modVec_spinCount (s : State) (f : VecRegs → VecRegs) : (s.modVec f).core.regs.spinCount = s.core.regs.spinCount := rfl
@[simp] theorem State.modVec_spinHold (s : State) (f : VecRegs → VecRegs) : (s.modVec f).core.regs.spinHold = s.core.regs.spinHold := rfl
@[simp] theorem State.modVec_level (s : State) (f : VecRegs → VecRegs) : (s.modVec f).core.regs.level = s.core.regs.level := rfl
@[simp] theorem State.modVec_levelNext (s : State) (f : VecRegs → VecRegs) : (s.modVec f).core.regs.levelNext = s.core.regs.levelNext := rfl
@[simp] theorem State.modVec_sstep (s : State) (f : VecRegs → VecRegs) : (s.modVec f).core.regs.sstep = s.core.regs.sstep := rfl
@[simp] theorem State.modVec_weight (s : State) (f : VecRegs → VecRegs) : (s.modVec f).core.regs.weight = s.core.regs.weight := rfl
@[simp] theorem State.modVec_role (s : State) (f : VecRegs → VecRegs) : (s.modVec f).core.regs.role = s.core.regs.role := rfl
@[simp] theorem State.modVec_pacer (s : State) (f : VecRegs → VecRegs) : (s.modVec f).core.regs.pacer = s.core.regs.pacer := rfl
@[simp] theorem State.modVec_gpend (s : State) (f : VecRegs → VecRegs) : (s.modVec f).core.regs.gpend = s.core.regs.gpend := rfl
@[simp] theorem State.modVec_gathers (s : State) (f : VecRegs → VecRegs) : (s.modVec f).core.regs.gathers = s.core.regs.gathers := rfl
@[simp] theorem State.modVec_scats (s : State) (f : VecRegs → VecRegs) : (s.modVec f).core.regs.scats = s.core.regs.scats := rfl
@[simp] theorem State.modFrame_frame (s : State) (f : Frame → Frame) : (s.modFrame f).core.regs.frame = f s.core.regs.frame := rfl
@[simp] theorem State.modFrame_vec (s : State) (f : Frame → Frame) : (s.modFrame f).core.regs.vec = s.core.regs.vec := rfl
@[simp] theorem State.setQueue_vec (s : State) (i : Fin 8) (l : List W64) : (s.setQueue i l).core.regs.vec = s.core.regs.vec := rfl
@[simp] theorem State.modTrap_trap (s : State) (f : TrapUnit → TrapUnit) : (s.modTrap f).core.trap = f s.core.trap := rfl
@[simp] theorem State.modCtxAt_same (s : State) (i : Fin 12) (f : Ctx → Ctx) : (s.modCtxAt i f).ctxAt i = f (s.ctxAt i) := by simp [State.modCtxAt, State.modCore, Core.modCtxAt, State.ctxAt]
theorem State.modCtxAt_other (s : State) (i j : Fin 12) (f : Ctx → Ctx) (h : i ≠ j) : (s.modCtxAt i f).ctxAt j = s.ctxAt j := by
  have : i.val ≠ j.val := fun e => h (Fin.ext e)
  simp [State.modCtxAt, State.modCore, Core.modCtxAt, State.ctxAt, Vector.getElem_set_ne, this]
@[simp] theorem State.modCtx_ctx (s : State) (f : Ctx → Ctx) : (s.modCtx f).ctx = f s.ctx := State.modCtxAt_same s s.core.cur f
@[simp] theorem State.retire_ctx (s : State) : s.retire.ctx = s.ctx.retire := State.modCtx_ctx s Ctx.retire
@[simp] theorem State.retireTo_ctx (s : State) (t : W64) : (s.retireTo t).ctx = s.ctx.retireTo t := State.modCtx_ctx s (Ctx.retireTo t)
@[simp] theorem State.blockOn_ctx (s : State) (w : Wait) : (s.blockOn w).ctx = s.ctx.waitOn w := State.modCtx_ctx s _
@[simp] theorem State.writeP_ctx (s : State) (r : PReg) (b : Bool) : (s.writeP r b).ctx = s.ctx.setP r b := State.modCtx_ctx s (Ctx.setP r b)

/-! The package -/

@[simp] theorem State.modPkg_core (s : State) (f : Pkg → Pkg) : (s.modPkg f).core = s.core := rfl
@[simp] theorem State.modHost_core (s : State) (f : HostSide → HostSide) : (s.modHost f).core = s.core := rfl
@[simp] theorem State.modDie_core (s : State) (d : Nat) (f : Die → Die) : (s.modDie d f).core = s.core := rfl
@[simp] theorem State.modPkg_coreId (s : State) (f : Pkg → Pkg) : (s.modPkg f).coreId = s.coreId := rfl
@[simp] theorem State.modHost_coreId (s : State) (f : HostSide → HostSide) : (s.modHost f).coreId = s.coreId := rfl
@[simp] theorem State.modDie_coreId (s : State) (d : Nat) (f : Die → Die) : (s.modDie d f).coreId = s.coreId := rfl
@[simp] theorem State.modPkg_others (s : State) (f : Pkg → Pkg) : (s.modPkg f).others = s.others := rfl
@[simp] theorem State.modHost_others (s : State) (f : HostSide → HostSide) : (s.modHost f).others = s.others := rfl
@[simp] theorem State.modDie_others (s : State) (d : Nat) (f : Die → Die) : (s.modDie d f).others = s.others := rfl
@[simp] theorem State.modPkg_mem (s : State) (f : Pkg → Pkg) : (s.modPkg f).mem = s.mem := rfl
@[simp] theorem State.modHost_mem (s : State) (f : HostSide → HostSide) : (s.modHost f).mem = s.mem := rfl
@[simp] theorem State.modDie_mem (s : State) (d : Nat) (f : Die → Die) : (s.modDie d f).mem = s.mem := rfl
@[simp] theorem State.modPkg_badMem (s : State) (f : Pkg → Pkg) : (s.modPkg f).badMem = s.badMem := rfl
@[simp] theorem State.modPkg_owners (s : State) (f : Pkg → Pkg) : (s.modPkg f).owners = s.owners := rfl
@[simp] theorem State.modHost_badMem (s : State) (f : HostSide → HostSide) : (s.modHost f).badMem = s.badMem := rfl
@[simp] theorem State.modHost_owners (s : State) (f : HostSide → HostSide) : (s.modHost f).owners = s.owners := rfl
@[simp] theorem State.modDie_badMem (s : State) (d : Nat) (f : Die → Die) : (s.modDie d f).badMem = s.badMem := rfl
@[simp] theorem State.modDie_owners (s : State) (d : Nat) (f : Die → Die) : (s.modDie d f).owners = s.owners := rfl
@[simp] theorem State.modPkg_cycle (s : State) (f : Pkg → Pkg) : (s.modPkg f).cycle = s.cycle := rfl
@[simp] theorem State.modHost_cycle (s : State) (f : HostSide → HostSide) : (s.modHost f).cycle = s.cycle := rfl
@[simp] theorem State.modDie_cycle (s : State) (d : Nat) (f : Die → Die) : (s.modDie d f).cycle = s.cycle := rfl
@[simp] theorem State.modPkg_fresh (s : State) (f : Pkg → Pkg) : (s.modPkg f).fresh = s.fresh := rfl
@[simp] theorem State.modHost_fresh (s : State) (f : HostSide → HostSide) : (s.modHost f).fresh = s.fresh := rfl
@[simp] theorem State.modDie_fresh (s : State) (d : Nat) (f : Die → Die) : (s.modDie d f).fresh = s.fresh := rfl
@[simp] theorem State.modPkg_turn (s : State) (f : Pkg → Pkg) : (s.modPkg f).turn = s.turn := rfl
@[simp] theorem State.modHost_turn (s : State) (f : HostSide → HostSide) : (s.modHost f).turn = s.turn := rfl
@[simp] theorem State.modDie_turn (s : State) (d : Nat) (f : Die → Die) : (s.modDie d f).turn = s.turn := rfl
@[simp] theorem State.modPkg_inputs (s : State) (f : Pkg → Pkg) : (s.modPkg f).inputs = s.inputs := rfl
@[simp] theorem State.modHost_inputs (s : State) (f : HostSide → HostSide) : (s.modHost f).inputs = s.inputs := rfl
@[simp] theorem State.modDie_inputs (s : State) (d : Nat) (f : Die → Die) : (s.modDie d f).inputs = s.inputs := rfl
@[simp] theorem State.modPkg_pkg (s : State) (f : Pkg → Pkg) : (s.modPkg f).pkg = f s.pkg := rfl
@[simp] theorem State.modHost_host (s : State) (f : HostSide → HostSide) : (s.modHost f).pkg.host = f s.pkg.host := rfl
@[simp] theorem State.useFresh_core (s : State) : s.useFresh.core = s.core := rfl
@[simp] theorem State.useFresh_coreId (s : State) : s.useFresh.coreId = s.coreId := rfl
@[simp] theorem State.useFresh_others (s : State) : s.useFresh.others = s.others := rfl
@[simp] theorem State.useFresh_mem (s : State) : s.useFresh.mem = s.mem := rfl
@[simp] theorem State.useFresh_badMem (s : State) : s.useFresh.badMem = s.badMem := rfl
@[simp] theorem State.useFresh_owners (s : State) : s.useFresh.owners = s.owners := rfl
@[simp] theorem State.useFresh_pkg (s : State) : s.useFresh.pkg = s.pkg := rfl
@[simp] theorem State.useFresh_cycle (s : State) : s.useFresh.cycle = s.cycle := rfl
@[simp] theorem State.useFresh_turn (s : State) : s.useFresh.turn = s.turn := rfl
@[simp] theorem State.useFresh_inputs (s : State) : s.useFresh.inputs = s.inputs := rfl
@[simp] theorem State.useFresh_fresh (s : State) : s.useFresh.fresh = s.fresh + 1 := rfl

/-! Registers of a context -/

@[simp] theorem Ctx.setS_p (c : Ctx) (r : SReg) (v : W64) : (c.setS r v).p = c.p := by unfold Ctx.setS; split <;> rfl
@[simp] theorem Ctx.setS_h (c : Ctx) (r : SReg) (v : W64) : (c.setS r v).h = c.h := by unfold Ctx.setS; split <;> rfl
@[simp] theorem Ctx.setS_tstamp (c : Ctx) (r : SReg) (v : W64) : (c.setS r v).tstamp = c.tstamp := by unfold Ctx.setS; split <;> rfl
@[simp] theorem Ctx.setS_fstat (c : Ctx) (r : SReg) (v : W64) : (c.setS r v).fstat = c.fstat := by unfold Ctx.setS; split <;> rfl
@[simp] theorem Ctx.setS_frm (c : Ctx) (r : SReg) (v : W64) : (c.setS r v).frm = c.frm := by unfold Ctx.setS; split <;> rfl
@[simp] theorem Ctx.setS_buf (c : Ctx) (r : SReg) (v : W64) : (c.setS r v).buf = c.buf := by unfold Ctx.setS; split <;> rfl
@[simp] theorem Ctx.setS_log (c : Ctx) (r : SReg) (v : W64) : (c.setS r v).log = c.log := by unfold Ctx.setS; split <;> rfl
@[simp] theorem Ctx.setS_live (c : Ctx) (r : SReg) (v : W64) : (c.setS r v).live = c.live := by unfold Ctx.setS; split <;> rfl
@[simp] theorem Ctx.setS_wait (c : Ctx) (r : SReg) (v : W64) : (c.setS r v).wait = c.wait := by unfold Ctx.setS; split <;> rfl
@[simp] theorem Ctx.setS_spin (c : Ctx) (r : SReg) (v : W64) : (c.setS r v).spin = c.spin := by unfold Ctx.setS; split <;> rfl
@[simp] theorem Ctx.setS_ord (c : Ctx) (r : SReg) (v : W64) : (c.setS r v).ord = c.ord := by unfold Ctx.setS; split <;> rfl
@[simp] theorem Ctx.setS_taken (c : Ctx) (r : SReg) (v : W64) : (c.setS r v).taken = c.taken := by unfold Ctx.setS; split <;> rfl
@[simp] theorem Ctx.setS_blocked (c : Ctx) (r : SReg) (v : W64) : (c.setS r v).blocked = c.blocked := by unfold Ctx.setS; split <;> rfl
@[simp] theorem Ctx.setS_instret (c : Ctx) (r : SReg) (v : W64) : (c.setS r v).instret = c.instret := by unfold Ctx.setS; split <;> rfl
@[simp] theorem Ctx.setS_pc (c : Ctx) (r : SReg) (v : W64) : (c.setS r v).pc = c.pc := by unfold Ctx.setS; split <;> rfl
@[simp] theorem Ctx.setP_s (c : Ctx) (r : PReg) (b : Bool) : (c.setP r b).s = c.s := by unfold Ctx.setP; split <;> rfl
@[simp] theorem Ctx.setP_freed (c : Ctx) (r : PReg) (b : Bool) : (c.setP r b).freed = c.freed := by unfold Ctx.setP; split <;> rfl
@[simp] theorem Ctx.setP_h (c : Ctx) (r : PReg) (b : Bool) : (c.setP r b).h = c.h := by unfold Ctx.setP; split <;> rfl
@[simp] theorem Ctx.setP_tstamp (c : Ctx) (r : PReg) (b : Bool) : (c.setP r b).tstamp = c.tstamp := by unfold Ctx.setP; split <;> rfl
@[simp] theorem Ctx.setP_fstat (c : Ctx) (r : PReg) (b : Bool) : (c.setP r b).fstat = c.fstat := by unfold Ctx.setP; split <;> rfl
@[simp] theorem Ctx.setP_frm (c : Ctx) (r : PReg) (b : Bool) : (c.setP r b).frm = c.frm := by unfold Ctx.setP; split <;> rfl
@[simp] theorem Ctx.setP_buf (c : Ctx) (r : PReg) (b : Bool) : (c.setP r b).buf = c.buf := by unfold Ctx.setP; split <;> rfl
@[simp] theorem Ctx.setP_log (c : Ctx) (r : PReg) (b : Bool) : (c.setP r b).log = c.log := by unfold Ctx.setP; split <;> rfl
@[simp] theorem Ctx.setP_live (c : Ctx) (r : PReg) (b : Bool) : (c.setP r b).live = c.live := by unfold Ctx.setP; split <;> rfl
@[simp] theorem Ctx.setP_wait (c : Ctx) (r : PReg) (b : Bool) : (c.setP r b).wait = c.wait := by unfold Ctx.setP; split <;> rfl
@[simp] theorem Ctx.setP_spin (c : Ctx) (r : PReg) (b : Bool) : (c.setP r b).spin = c.spin := by unfold Ctx.setP; split <;> rfl
@[simp] theorem Ctx.setP_ord (c : Ctx) (r : PReg) (b : Bool) : (c.setP r b).ord = c.ord := by unfold Ctx.setP; split <;> rfl
@[simp] theorem Ctx.setP_taken (c : Ctx) (r : PReg) (b : Bool) : (c.setP r b).taken = c.taken := by unfold Ctx.setP; split <;> rfl
@[simp] theorem Ctx.setP_blocked (c : Ctx) (r : PReg) (b : Bool) : (c.setP r b).blocked = c.blocked := by unfold Ctx.setP; split <;> rfl
@[simp] theorem Ctx.setP_instret (c : Ctx) (r : PReg) (b : Bool) : (c.setP r b).instret = c.instret := by unfold Ctx.setP; split <;> rfl
@[simp] theorem Ctx.setP_pc (c : Ctx) (r : PReg) (b : Bool) : (c.setP r b).pc = c.pc := by unfold Ctx.setP; split <;> rfl
@[simp] theorem Ctx.waitOn_pc (c : Ctx) (w : Wait) : (c.waitOn w).pc = c.pc := rfl
@[simp] theorem Ctx.waitOn_s (c : Ctx) (w : Wait) : (c.waitOn w).s = c.s := rfl
@[simp] theorem Ctx.waitOn_past (c : Ctx) (w : Wait) : (c.waitOn w).past = c.past := rfl
@[simp] theorem Ctx.waitOn_freed (c : Ctx) (w : Wait) : (c.waitOn w).freed = c.freed := rfl
@[simp] theorem Ctx.waitOn_p (c : Ctx) (w : Wait) : (c.waitOn w).p = c.p := rfl
@[simp] theorem Ctx.waitOn_h (c : Ctx) (w : Wait) : (c.waitOn w).h = c.h := rfl
@[simp] theorem Ctx.waitOn_tstamp (c : Ctx) (w : Wait) : (c.waitOn w).tstamp = c.tstamp := rfl
@[simp] theorem Ctx.waitOn_fstat (c : Ctx) (w : Wait) : (c.waitOn w).fstat = c.fstat := rfl
@[simp] theorem Ctx.waitOn_frm (c : Ctx) (w : Wait) : (c.waitOn w).frm = c.frm := rfl
@[simp] theorem Ctx.waitOn_buf (c : Ctx) (w : Wait) : (c.waitOn w).buf = c.buf := rfl
@[simp] theorem Ctx.waitOn_log (c : Ctx) (w : Wait) : (c.waitOn w).log = c.log := rfl
@[simp] theorem Ctx.waitOn_live (c : Ctx) (w : Wait) : (c.waitOn w).live = c.live := rfl
@[simp] theorem Ctx.waitOn_spin (c : Ctx) (w : Wait) : (c.waitOn w).spin = c.spin := rfl
@[simp] theorem Ctx.waitOn_ord (c : Ctx) (w : Wait) : (c.waitOn w).ord = c.ord := rfl
@[simp] theorem Ctx.waitOn_taken (c : Ctx) (w : Wait) : (c.waitOn w).taken = c.taken := rfl
@[simp] theorem Ctx.waitOn_instret (c : Ctx) (w : Wait) : (c.waitOn w).instret = c.instret := rfl
@[simp] theorem Ctx.waitOn_wait (c : Ctx) (w : Wait) : (c.waitOn w).wait = w := rfl
@[simp] theorem Ctx.waitOn_blocked (c : Ctx) (w : Wait) : (c.waitOn w).blocked = (c.blocked || w.blocks) := rfl
@[simp] theorem Ctx.retireTo_s (c : Ctx) (t : W64) : (c.retireTo t).s = c.s := rfl
@[simp] theorem Ctx.retire_s (c : Ctx) : c.retire.s = c.s := rfl
@[simp] theorem Ctx.retireTo_freed (c : Ctx) (t : W64) : (c.retireTo t).freed = c.freed := rfl
@[simp] theorem Ctx.retire_freed (c : Ctx) : c.retire.freed = c.freed := rfl
@[simp] theorem Ctx.retireTo_p (c : Ctx) (t : W64) : (c.retireTo t).p = c.p := rfl
@[simp] theorem Ctx.retire_p (c : Ctx) : c.retire.p = c.p := rfl
@[simp] theorem Ctx.retireTo_h (c : Ctx) (t : W64) : (c.retireTo t).h = c.h := rfl
@[simp] theorem Ctx.retire_h (c : Ctx) : c.retire.h = c.h := rfl
@[simp] theorem Ctx.retireTo_tstamp (c : Ctx) (t : W64) : (c.retireTo t).tstamp = c.tstamp := rfl
@[simp] theorem Ctx.retire_tstamp (c : Ctx) : c.retire.tstamp = c.tstamp := rfl
@[simp] theorem Ctx.retireTo_fstat (c : Ctx) (t : W64) : (c.retireTo t).fstat = c.fstat := rfl
@[simp] theorem Ctx.retire_fstat (c : Ctx) : c.retire.fstat = c.fstat := rfl
@[simp] theorem Ctx.retireTo_frm (c : Ctx) (t : W64) : (c.retireTo t).frm = c.frm := rfl
@[simp] theorem Ctx.retire_frm (c : Ctx) : c.retire.frm = c.frm := rfl
@[simp] theorem Ctx.retireTo_buf (c : Ctx) (t : W64) : (c.retireTo t).buf = c.buf := rfl
@[simp] theorem Ctx.retire_buf (c : Ctx) : c.retire.buf = c.buf := rfl
@[simp] theorem Ctx.retireTo_log (c : Ctx) (t : W64) : (c.retireTo t).log = c.log := rfl
@[simp] theorem Ctx.retire_log (c : Ctx) : c.retire.log = c.log := rfl
@[simp] theorem Ctx.retireTo_live (c : Ctx) (t : W64) : (c.retireTo t).live = c.live := rfl
@[simp] theorem Ctx.retire_live (c : Ctx) : c.retire.live = c.live := rfl
@[simp] theorem Ctx.retireTo_ord (c : Ctx) (t : W64) : (c.retireTo t).ord = c.ord := rfl
@[simp] theorem Ctx.retireTo_taken (c : Ctx) (t : W64) : (c.retireTo t).taken = c.taken := rfl
@[simp] theorem Ctx.retire_ord (c : Ctx) : c.retire.ord = c.ord := rfl
@[simp] theorem Ctx.retire_taken (c : Ctx) : c.retire.taken = c.taken := rfl
@[simp] theorem Ctx.retireTo_pc (c : Ctx) (t : W64) : (c.retireTo t).pc = t := rfl
@[simp] theorem Ctx.retire_pc (c : Ctx) : c.retire.pc = c.pc + 4 := rfl
@[simp] theorem Ctx.retireTo_instret (c : Ctx) (t : W64) : (c.retireTo t).instret = c.instret + 1 := rfl
@[simp] theorem Ctx.retire_instret (c : Ctx) : c.retire.instret = c.instret + 1 := rfl
@[simp] theorem Ctx.retireTo_blocked (c : Ctx) (t : W64) : (c.retireTo t).blocked = false := rfl
@[simp] theorem Ctx.retire_blocked (c : Ctx) : c.retire.blocked = false := rfl
@[simp] theorem Ctx.retireTo_wait (c : Ctx) (t : W64) : (c.retireTo t).wait = .ready := rfl
@[simp] theorem Ctx.getS_zero (c : Ctx) : c.getS 0 = 0 := rfl
@[simp] theorem Ctx.setS_zero (c : Ctx) (v : W64) : c.setS 0 v = c := rfl
@[simp] theorem Ctx.getP_zero (c : Ctx) : c.getP 0 = true := rfl
@[simp] theorem Ctx.setP_zero (c : Ctx) (b : Bool) : c.setP 0 b = c := rfl

/-! Messages, and the rows a vector register has held -/

@[simp] theorem Core.sent_regs (c : Core) (n : Nat) : (c.sent n).regs = c.regs := rfl
@[simp] theorem Core.received_regs (c : Core) (n : Nat) : (c.received n).regs = c.regs := rfl
@[simp] theorem Core.sent_ctxs (c : Core) (n : Nat) : (c.sent n).ctxs = c.ctxs := rfl
@[simp] theorem Core.received_ctxs (c : Core) (n : Nat) : (c.received n).ctxs = c.ctxs := rfl
@[simp] theorem Core.sent_cur (c : Core) (n : Nat) : (c.sent n).cur = c.cur := rfl
@[simp] theorem Core.received_cur (c : Core) (n : Nat) : (c.received n).cur = c.cur := rfl
@[simp] theorem Core.sent_order (c : Core) (n : Nat) : (c.sent n).order = c.order := rfl
@[simp] theorem Core.received_order (c : Core) (n : Nat) : (c.received n).order = c.order := rfl
@[simp] theorem Core.sent_gang (c : Core) (n : Nat) : (c.sent n).gang = c.gang := rfl
@[simp] theorem Core.received_gang (c : Core) (n : Nat) : (c.received n).gang = c.gang := rfl
@[simp] theorem Core.sent_tenant (c : Core) (n : Nat) : (c.sent n).tenant = c.tenant := rfl
@[simp] theorem Core.received_tenant (c : Core) (n : Nat) : (c.received n).tenant = c.tenant := rfl
@[simp] theorem Core.sent_helpers (c : Core) (n : Nat) : (c.sent n).helpers = c.helpers := rfl
@[simp] theorem Core.received_helpers (c : Core) (n : Nat) : (c.received n).helpers = c.helpers := rfl
@[simp] theorem Core.sent_scratchReq (c : Core) (n : Nat) : (c.sent n).scratchReq = c.scratchReq := rfl
@[simp] theorem Core.received_scratchReq (c : Core) (n : Nat) : (c.received n).scratchReq = c.scratchReq := rfl
@[simp] theorem Core.sent_hfault (c : Core) (n : Nat) : (c.sent n).hfault = c.hfault := rfl
@[simp] theorem Core.received_hfault (c : Core) (n : Nat) : (c.received n).hfault = c.hfault := rfl
@[simp] theorem Core.sent_scratch (c : Core) (n : Nat) : (c.sent n).scratch = c.scratch := rfl
@[simp] theorem Core.received_scratch (c : Core) (n : Nat) : (c.received n).scratch = c.scratch := rfl
@[simp] theorem Core.sent_badScratch (c : Core) (n : Nat) : (c.sent n).badScratch = c.badScratch := rfl
@[simp] theorem Core.received_badScratch (c : Core) (n : Nat) : (c.received n).badScratch = c.badScratch := rfl
@[simp] theorem Core.sent_rcache (c : Core) (n : Nat) : (c.sent n).rcache = c.rcache := rfl
@[simp] theorem Core.received_rcache (c : Core) (n : Nat) : (c.received n).rcache = c.rcache := rfl
@[simp] theorem Core.sent_icache (c : Core) (n : Nat) : (c.sent n).icache = c.icache := rfl
@[simp] theorem Core.received_icache (c : Core) (n : Nat) : (c.received n).icache = c.icache := rfl
@[simp] theorem Core.sent_tlb (c : Core) (n : Nat) : (c.sent n).tlb = c.tlb := rfl
@[simp] theorem Core.received_tlb (c : Core) (n : Nat) : (c.received n).tlb = c.tlb := rfl
@[simp] theorem Core.sent_efifo (c : Core) (n : Nat) : (c.sent n).efifo = c.efifo := rfl
@[simp] theorem Core.received_efifo (c : Core) (n : Nat) : (c.received n).efifo = c.efifo := rfl
@[simp] theorem Core.sent_matchTab (c : Core) (n : Nat) : (c.sent n).matchTab = c.matchTab := rfl
@[simp] theorem Core.received_matchTab (c : Core) (n : Nat) : (c.received n).matchTab = c.matchTab := rfl
@[simp] theorem Core.sent_copies (c : Core) (n : Nat) : (c.sent n).copies = c.copies := rfl
@[simp] theorem Core.received_copies (c : Core) (n : Nat) : (c.received n).copies = c.copies := rfl
@[simp] theorem Core.sent_vq (c : Core) (n : Nat) : (c.sent n).vq = c.vq := rfl
@[simp] theorem Core.received_vq (c : Core) (n : Nat) : (c.received n).vq = c.vq := rfl
@[simp] theorem Core.sent_flying (c : Core) (n : Nat) : (c.sent n).flying = c.flying := rfl
@[simp] theorem Core.received_flying (c : Core) (n : Nat) : (c.received n).flying = c.flying := rfl
@[simp] theorem Core.sent_work (c : Core) (n : Nat) : (c.sent n).work = c.work := rfl
@[simp] theorem Core.received_work (c : Core) (n : Nat) : (c.received n).work = c.work := rfl
@[simp] theorem Core.sent_parked (c : Core) (n : Nat) : (c.sent n).parked = c.parked := rfl
@[simp] theorem Core.received_parked (c : Core) (n : Nat) : (c.received n).parked = c.parked := rfl
@[simp] theorem Core.sent_ordf (c : Core) (n : Nat) : (c.sent n).ordf = c.ordf := rfl
@[simp] theorem Core.received_ordf (c : Core) (n : Nat) : (c.received n).ordf = c.ordf := rfl
@[simp] theorem Core.sent_exch (c : Core) (n : Nat) : (c.sent n).exch = c.exch := rfl
@[simp] theorem Core.received_exch (c : Core) (n : Nat) : (c.received n).exch = c.exch := rfl
@[simp] theorem Core.sent_exchLast (c : Core) (n : Nat) : (c.sent n).exchLast = c.exchLast := rfl
@[simp] theorem Core.received_exchLast (c : Core) (n : Nat) : (c.received n).exchLast = c.exchLast := rfl
@[simp] theorem Core.sent_xmits (c : Core) (n : Nat) : (c.sent n).xmits = c.xmits := rfl
@[simp] theorem Core.received_xmits (c : Core) (n : Nat) : (c.received n).xmits = c.xmits := rfl
@[simp] theorem Core.sent_xsels (c : Core) (n : Nat) : (c.sent n).xsels = c.xsels := rfl
@[simp] theorem Core.received_xsels (c : Core) (n : Nat) : (c.received n).xsels = c.xsels := rfl
@[simp] theorem Core.sent_markQ (c : Core) (n : Nat) : (c.sent n).markQ = c.markQ := rfl
@[simp] theorem Core.received_markQ (c : Core) (n : Nat) : (c.received n).markQ = c.markQ := rfl
@[simp] theorem Core.sent_tiles (c : Core) (n : Nat) : (c.sent n).tiles = c.tiles := rfl
@[simp] theorem Core.received_tiles (c : Core) (n : Nat) : (c.received n).tiles = c.tiles := rfl
@[simp] theorem Core.sent_trap (c : Core) (n : Nat) : (c.sent n).trap = c.trap := rfl
@[simp] theorem Core.received_trap (c : Core) (n : Nat) : (c.received n).trap = c.trap := rfl
@[simp] theorem Core.sent_bridled (c : Core) (n : Nat) : (c.sent n).bridled = c.bridled := rfl
@[simp] theorem Core.received_bridled (c : Core) (n : Nat) : (c.received n).bridled = c.bridled := rfl
@[simp] theorem Core.sent_resend (c : Core) (n : Nat) : (c.sent n).resend = c.resend := rfl
@[simp] theorem Core.received_resend (c : Core) (n : Nat) : (c.received n).resend = c.resend := rfl
@[simp] theorem State.roundTrips_coreId (s : State) (n : Nat) : (s.roundTrips n).coreId = s.coreId := rfl
@[simp] theorem State.roundTrips_others (s : State) (n : Nat) : (s.roundTrips n).others = s.others := rfl
@[simp] theorem State.roundTrips_mem (s : State) (n : Nat) : (s.roundTrips n).mem = s.mem := rfl
@[simp] theorem State.roundTrips_badMem (s : State) (n : Nat) : (s.roundTrips n).badMem = s.badMem := rfl
@[simp] theorem State.roundTrips_owners (s : State) (n : Nat) : (s.roundTrips n).owners = s.owners := rfl
@[simp] theorem State.roundTrips_pkg (s : State) (n : Nat) : (s.roundTrips n).pkg = s.pkg := rfl
@[simp] theorem State.roundTrips_cycle (s : State) (n : Nat) : (s.roundTrips n).cycle = s.cycle := rfl
@[simp] theorem State.roundTrips_fresh (s : State) (n : Nat) : (s.roundTrips n).fresh = s.fresh := rfl
@[simp] theorem State.roundTrips_turn (s : State) (n : Nat) : (s.roundTrips n).turn = s.turn := rfl
@[simp] theorem State.roundTrips_inputs (s : State) (n : Nat) : (s.roundTrips n).inputs = s.inputs := rfl
@[simp] theorem State.roundTrips_core_regs (s : State) (n : Nat) : (s.roundTrips n).core.regs = s.core.regs := rfl
@[simp] theorem State.roundTrips_core_ctxs (s : State) (n : Nat) : (s.roundTrips n).core.ctxs = s.core.ctxs := rfl
@[simp] theorem State.roundTrips_core_cur (s : State) (n : Nat) : (s.roundTrips n).core.cur = s.core.cur := rfl
@[simp] theorem State.roundTrips_core_order (s : State) (n : Nat) : (s.roundTrips n).core.order = s.core.order := rfl
@[simp] theorem State.roundTrips_core_gang (s : State) (n : Nat) : (s.roundTrips n).core.gang = s.core.gang := rfl
@[simp] theorem State.roundTrips_core_tenant (s : State) (n : Nat) : (s.roundTrips n).core.tenant = s.core.tenant := rfl
@[simp] theorem State.roundTrips_core_helpers (s : State) (n : Nat) : (s.roundTrips n).core.helpers = s.core.helpers := rfl
@[simp] theorem State.roundTrips_core_scratchReq (s : State) (n : Nat) : (s.roundTrips n).core.scratchReq = s.core.scratchReq := rfl
@[simp] theorem State.roundTrips_core_hfault (s : State) (n : Nat) : (s.roundTrips n).core.hfault = s.core.hfault := rfl
@[simp] theorem State.roundTrips_core_scratch (s : State) (n : Nat) : (s.roundTrips n).core.scratch = s.core.scratch := rfl
@[simp] theorem State.roundTrips_core_badScratch (s : State) (n : Nat) : (s.roundTrips n).core.badScratch = s.core.badScratch := rfl
@[simp] theorem State.roundTrips_core_rcache (s : State) (n : Nat) : (s.roundTrips n).core.rcache = s.core.rcache := rfl
@[simp] theorem State.roundTrips_core_icache (s : State) (n : Nat) : (s.roundTrips n).core.icache = s.core.icache := rfl
@[simp] theorem State.roundTrips_core_tlb (s : State) (n : Nat) : (s.roundTrips n).core.tlb = s.core.tlb := rfl
@[simp] theorem State.roundTrips_core_efifo (s : State) (n : Nat) : (s.roundTrips n).core.efifo = s.core.efifo := rfl
@[simp] theorem State.roundTrips_core_matchTab (s : State) (n : Nat) : (s.roundTrips n).core.matchTab = s.core.matchTab := rfl
@[simp] theorem State.roundTrips_core_copies (s : State) (n : Nat) : (s.roundTrips n).core.copies = s.core.copies := rfl
@[simp] theorem State.roundTrips_core_vq (s : State) (n : Nat) : (s.roundTrips n).core.vq = s.core.vq := rfl
@[simp] theorem State.roundTrips_core_flying (s : State) (n : Nat) : (s.roundTrips n).core.flying = s.core.flying := rfl
@[simp] theorem State.roundTrips_core_work (s : State) (n : Nat) : (s.roundTrips n).core.work = s.core.work := rfl
@[simp] theorem State.roundTrips_core_parked (s : State) (n : Nat) : (s.roundTrips n).core.parked = s.core.parked := rfl
@[simp] theorem State.roundTrips_core_ordf (s : State) (n : Nat) : (s.roundTrips n).core.ordf = s.core.ordf := rfl
@[simp] theorem State.roundTrips_core_exch (s : State) (n : Nat) : (s.roundTrips n).core.exch = s.core.exch := rfl
@[simp] theorem State.roundTrips_core_exchLast (s : State) (n : Nat) : (s.roundTrips n).core.exchLast = s.core.exchLast := rfl
@[simp] theorem State.roundTrips_core_xmits (s : State) (n : Nat) : (s.roundTrips n).core.xmits = s.core.xmits := rfl
@[simp] theorem State.roundTrips_core_xsels (s : State) (n : Nat) : (s.roundTrips n).core.xsels = s.core.xsels := rfl
@[simp] theorem State.roundTrips_core_markQ (s : State) (n : Nat) : (s.roundTrips n).core.markQ = s.core.markQ := rfl
@[simp] theorem State.roundTrips_core_tiles (s : State) (n : Nat) : (s.roundTrips n).core.tiles = s.core.tiles := rfl
@[simp] theorem State.roundTrips_core_trap (s : State) (n : Nat) : (s.roundTrips n).core.trap = s.core.trap := rfl
@[simp] theorem State.roundTrips_core_bridled (s : State) (n : Nat) : (s.roundTrips n).core.bridled = s.core.bridled := rfl
@[simp] theorem State.roundTrips_core_resend (s : State) (n : Nat) : (s.roundTrips n).core.resend = s.core.resend := rfl
@[simp] theorem State.roundTrips_ctxAt (s : State) (n : Nat) (j : Fin 12) : (s.roundTrips n).ctxAt j = s.ctxAt j := rfl
@[simp] theorem State.roundTrips_ctx (s : State) (n : Nat) : (s.roundTrips n).ctx = s.ctx := rfl
@[simp] theorem VecRegs.setRow_vfreed (v : VecRegs) (d : VReg) (row : Vector W32 32) : (v.setRow d row).vfreed = v.vfreed := rfl
@[simp] theorem VecRegs.setRow_vgone (v : VecRegs) (d : VReg) (row : Vector W32 32) : (v.setRow d row).vgone = v.vgone := rfl
@[simp] theorem VecRegs.setRow_m (v : VecRegs) (d : VReg) (row : Vector W32 32) : (v.setRow d row).m = v.m := rfl
@[simp] theorem VecRegs.setRow_smx (v : VecRegs) (d : VReg) (row : Vector W32 32) : (v.setRow d row).smx = v.smx := rfl
@[simp] theorem VecRegs.setRow_rings (v : VecRegs) (d : VReg) (row : Vector W32 32) : (v.setRow d row).rings = v.rings := rfl
@[simp] theorem VecRegs.setRow_k (v : VecRegs) (d : VReg) (row : Vector W32 32) : (v.setRow d row).k = v.k := rfl
@[simp] theorem VecRegs.setRow_fmtIssued (v : VecRegs) (d : VReg) (row : Vector W32 32) : (v.setRow d row).fmtIssued = v.fmtIssued := rfl
@[simp] theorem VecRegs.setRow_fmt (v : VecRegs) (d : VReg) (row : Vector W32 32) : (v.setRow d row).fmt = v.fmt := rfl
@[simp] theorem VecRegs.setRow_smax (v : VecRegs) (d : VReg) (row : Vector W32 32) : (v.setRow d row).smax = v.smax := rfl
@[simp] theorem VecRegs.setRow_ssum (v : VecRegs) (d : VReg) (row : Vector W32 32) : (v.setRow d row).ssum = v.ssum := rfl
@[simp] theorem VecRegs.setRow_sfac (v : VecRegs) (d : VReg) (row : Vector W32 32) : (v.setRow d row).sfac = v.sfac := rfl
@[simp] theorem VecRegs.setRow_tabs (v : VecRegs) (d : VReg) (row : Vector W32 32) : (v.setRow d row).tabs = v.tabs := rfl
@[simp] theorem VecRegs.setRow_v (v : VecRegs) (d : VReg) (row : Vector W32 32) : (v.setRow d row).v = v.v.set d.toNat row := rfl
@[simp] theorem VecRegs.setRow_past (v : VecRegs) (d : VReg) (row : Vector W32 32) : (v.setRow d row).past = row :: v.past := rfl
@[simp] theorem Ctx.setP_past (c : Ctx) (r : PReg) (b : Bool) : (c.setP r b).past = c.past := by unfold Ctx.setP; split <;> rfl
@[simp] theorem Ctx.retireTo_past (c : Ctx) (t : W64) : (c.retireTo t).past = c.past := rfl
@[simp] theorem Ctx.retire_past (c : Ctx) : c.retire.past = c.past := rfl
theorem Ctx.setS_past (c : Ctx) (r : SReg) (v : W64) (h : r ≠ 0) : (c.setS r v).past = v :: c.past := by unfold Ctx.setS; rw [if_neg h]

end Sys2Proof.Machine
end

