-- ==== Sys2Proof/Laws/Ops.lean ====
section
/-!
SUPPORT. What each shared operation can do, said once: settling, operands, registers, focus, translation and the
checks of an address.
-/
namespace Sys2Proof.Machine

/-! Ends of an instruction -/

@[simp] theorem finish_ok (s t : State) : finish s (.ok t) = .next t := rfl
@[simp] theorem finish_trap (s : State) (t : Trap) : finish s (.error (.trap t)) = .next (takeTrap t s) := rfl
@[simp] theorem finish_block (s : State) (w : Wait) : finish s (.error (.block w)) = .next (s.blockOn w) := rfl

/-- Whatever an instruction computes, its result is a next state. -/
theorem finish_next (s : State) (r : Except Stop State) : finish s r = .next (settle s r) := rfl

theorem unlessStop_ok (bad : Bool) (e : Except Stop Unit) (h : bad = false) : unlessStop bad e = .ok () := by
  simp [unlessStop, h]

theorem unlessStop_stop (bad : Bool) (e : Except Stop Unit) (h : bad = true) : unlessStop bad e = e := by
  simp [unlessStop, h]

/-! Registers -/

theorem Ctx.getS_setS_same (c : Ctx) (r : SReg) (v : W64) (h0 : r ≠ 0) (h : r.toNat < 56) : (c.setS r v).getS r = v := by
  rw [Ctx.setS, if_neg h0, Ctx.getS, if_neg h0]
  simp [vget, h]

theorem Ctx.getS_setS_other (c : Ctx) (r k : SReg) (v : W64) (h : k ≠ r) : (c.setS r v).getS k = c.getS k := by
  have hn : r.toNat ≠ k.toNat := fun e => h (BitVec.eq_of_toNat_eq e.symm)
  unfold Ctx.setS
  split
  · rfl
  · simp [Ctx.getS, vget, hn]

theorem Ctx.getP_setP_same (c : Ctx) (r : PReg) (b : Bool) (h : r ≠ 0) : (c.setP r b).getP r = b := by
  rw [Ctx.setP, if_neg h, Ctx.getP]
  have hr : r.toNat < 16 := r.isLt
  have h' : ¬ r = 0#4 := h
  cases b <;> simp [h', hr]

theorem Ctx.getP_setP_other (c : Ctx) (r k : PReg) (b : Bool) (h : k ≠ r) : (c.setP r b).getP k = c.getP k := by
  have hn : k.toNat ≠ r.toNat := fun e => h (BitVec.eq_of_toNat_eq e)
  have hk : k.toNat < 16 := k.isLt
  unfold Ctx.setP
  split
  · rfl
  · unfold Ctx.getP
    congr 1
    by_cases hlt : k.toNat < r.toNat
    · cases b <;> simp [hlt, hk]
    · have : k.toNat - r.toNat ≠ 0 := by omega
      cases b <;> simp [hlt, this, hk]

/-- Writing a scalar changes the issuing context and the queues alone. -/
theorem State.writeS_frame (s : State) (r : SReg) (v : W64) :
    s.writeS r v = { s with core := { s.core with
      ctxs := s.core.ctxs.set s.core.cur ((s.writeS r v).ctxAt s.core.cur), regs := { s.core.regs with q := (s.writeS r v).core.regs.q } } } := by
  unfold State.writeS
  split
  · simp [State.setQueue, State.modRegs, State.modCore, State.ctxAt]
  · simp [State.modCtx, State.modCtxAt, State.modCore, Core.modCtxAt, State.ctxAt]

/-! Focus -/

@[simp] theorem State.focus_self (s : State) : s.focus s.coreId = s := by simp [State.focus]
@[simp] theorem State.coreAt_self (s : State) : s.coreAt s.coreId = s.core := by simp [State.coreAt]

/-- Acting on the core in focus. -/
theorem State.onCore_self (s : State) (f : State → State) (h : (f s).coreId = s.coreId) : s.onCore s.coreId f = f s := by
  simp [State.onCore, State.focus, h]

@[simp] theorem State.focus_coreId (s : State) (c : Nat) : (s.focus c).coreId = c := by
  unfold State.focus; split
  · rename_i h; exact h.symm
  · rfl

theorem State.focus_mem (s : State) (c : Nat) : (s.focus c).mem = s.mem ∧ (s.focus c).pkg = s.pkg ∧ (s.focus c).cycle = s.cycle ∧
    (s.focus c).fresh = s.fresh ∧ (s.focus c).turn = s.turn ∧ (s.focus c).inputs = s.inputs := by
  unfold State.focus; split <;> simp

/-! Operands -/

/-- From s to u, only the marks of last use of the issuing context, the queues and the counter of free values may differ. -/
structure OnlyReads (s u : State) : Prop where
  state : u = { s with
    core := { s.core with ctxs := s.core.ctxs.set s.core.cur (u.ctxAt s.core.cur), regs := { s.core.regs with q := u.core.regs.q } }
    fresh := u.fresh }
  ctx : u.ctxAt s.core.cur = { s.ctxAt s.core.cur with freed := (u.ctxAt s.core.cur).freed }
  fresh : s.fresh ≤ u.fresh

theorem OnlyReads.refl (s : State) : OnlyReads s s where
  state := by simp [State.ctxAt]
  ctx := rfl
  fresh := Nat.le_refl _

theorem OnlyReads.cur {s u : State} (h : OnlyReads s u) : u.core.cur = s.core.cur := by rw [h.state]

theorem OnlyReads.trans {s t u : State} (h : OnlyReads s t) (k : OnlyReads t u) : OnlyReads s u := by
  have hc := h.cur
  have e := k.state
  have x := k.ctx
  rw [hc] at x
  have hs := h.state
  refine ⟨?_, by rw [x, h.ctx], Nat.le_trans h.fresh k.fresh⟩
  have htc : t.core.cur = s.core.cur := hc
  generalize t.ctxAt s.core.cur = c1 at hs
  generalize t.core.regs.q = q1 at hs
  generalize t.fresh = f1 at hs
  subst hs
  simpa using e

theorem readOne_frame (s : State) (x : Src) (v : W64) (u : State) (h : readOne s x = .ok (v, u)) : OnlyReads s u := by
  unfold readOne at h
  split at h
  · split at h
    · simp [wait] at h
    · rename_i rest _
      simp only [Except.ok.injEq, Prod.mk.injEq] at h
      obtain ⟨-, rfl⟩ := h
      split
      · refine ⟨?_, ?_, Nat.le_refl _⟩ <;> simp [State.setQueue, State.modRegs, State.modCore, State.ctxAt]
      · exact OnlyReads.refl s
  · split at h
    · simp [wait] at h
    · split at h
      · simp only [Except.ok.injEq, Prod.mk.injEq] at h
        obtain ⟨-, rfl⟩ := h
        refine ⟨?_, ?_, Nat.le_succ _⟩ <;> simp [State.useFresh, State.ctxAt]
      · simp only [Except.ok.injEq, Prod.mk.injEq] at h
        obtain ⟨-, rfl⟩ := h
        exact OnlyReads.refl s

theorem readAll_frame (xs : List Src) (s : State) (vs : List W64) (u : State) (h : readAll s xs = .ok (vs, u)) :
    OnlyReads s u ∧ vs.length = xs.length := by
  induction xs generalizing s vs u with
  | nil =>
    simp only [readAll, Except.ok.injEq, Prod.mk.injEq] at h
    obtain ⟨rfl, rfl⟩ := h
    exact ⟨OnlyReads.refl s, rfl⟩
  | cons x xs ih =>
    unfold readAll at h
    split at h
    · cases h
    · rename_i v s1 h1
      split at h
      · cases h
      · rename_i vs' s2 h2
        simp only [Except.ok.injEq, Prod.mk.injEq] at h
        obtain ⟨rfl, rfl⟩ := h
        obtain ⟨f, l⟩ := ih s1 vs' s2 h2
        exact ⟨(readOne_frame s x v s1 h1).trans f, by simp [l]⟩

theorem Ctx.freeRegs_frame (xs : List Src) (c : Ctx) : c.freeRegs xs = { c with freed := (c.freeRegs xs).freed } := by
  induction xs generalizing c with
  | nil => rfl
  | cons x xs ih =>
    have := ih (if x.last && !isQueue x.reg && x.reg != 0 then
      { c with freed := c.freed ||| ((1 : BitVec 64) <<< x.reg.toNat) } else c)
    unfold Ctx.freeRegs
    refine this.trans ?_
    split <;> rfl

/-- WHAT READING OPERANDS DOES: it answers a value for each source; only marks of last use, queues and the counter of free values
change. -/
theorem operands_frame (s : State) (srcs : List Src) (ds : List SReg) (vs : List W64) (u : State)
    (h : operands s srcs ds = .ok (vs, u)) : OnlyReads s u ∧ vs.length = srcs.length := by
  unfold operands at h
  split at h
  · cases h
  · split at h
    · cases h
    · split at h
      · cases h
      · split at h
        · cases h
        · rename_i ws s1 h1
          split at h
          · cases h
          · simp only [Except.ok.injEq, Prod.mk.injEq] at h
            obtain ⟨rfl, rfl⟩ := h
            obtain ⟨f, l⟩ := readAll_frame srcs s ws s1 h1
            refine ⟨f.trans ⟨?_, ?_, Nat.le_refl _⟩, l⟩
            · simp [State.modCtx, State.modCtxAt, State.modCore, Core.modCtxAt, State.ctxAt]
            · simp only [State.modCtx, State.modCtxAt_same]
              exact Ctx.freeRegs_frame srcs _

/-- Registers, predicates and the program counter read as before. -/
theorem OnlyReads.registers {s u : State} (h : OnlyReads s u) :
    (∀ r : SReg, u.ctx.getS r = s.ctx.getS r) ∧ u.ctx.p = s.ctx.p ∧ u.ctx.pc = s.ctx.pc ∧ u.ctx.instret = s.ctx.instret := by
  have hc : u.ctx = { s.ctx with freed := u.ctx.freed } := by
    have := h.ctx
    rw [State.ctx, h.cur]
    exact this
  rw [hc]
  exact ⟨fun _ => rfl, rfl, rfl, rfl⟩

/-- Memories, the package, the clock and the inputs stay. -/
theorem OnlyReads.rest {s u : State} (h : OnlyReads s u) : u.mem = s.mem ∧ u.core.scratch = s.core.scratch ∧ u.pkg = s.pkg ∧
    u.others = s.others ∧ u.coreId = s.coreId ∧ u.cycle = s.cycle ∧ u.inputs = s.inputs ∧ u.turn = s.turn ∧
    u.core.regs = { s.core.regs with q := u.core.regs.q } := by
  rw [h.state]
  exact ⟨rfl, rfl, rfl, rfl, rfl, rfl, rfl, rfl, rfl⟩

/-! Traps -/

theorem takeTrap_replayable (t : Trap) (s : State) (h : trapClass t.code = .replayable) : takeTrap t s =
    (s.modCtx fun c => { c with wait := .pageFault t.addr t.stat }).modDie s.die
      (noteFault s.tid s.core.tenant t.addr s.ctx.pc t.stat) := by
  simp only [takeTrap, h]
  rfl

theorem takeTrap_handled (t : Trap) (s : State) (h : trapClass t.code = .handled) (hh : s.isHandler = false) :
    takeTrap t s = pauseFor (issueRec s.core.cur t s.ctx.pc s.cycle) s := by
  simp [takeTrap, h, hh]

theorem takeTrap_double (t : Trap) (s : State) (h : trapClass t.code ≠ .replayable) (hh : s.isHandler = true) :
    takeTrap t s = doubleFaultOf t.code s := by
  cases hc : trapClass t.code <;> simp_all [takeTrap]

theorem takeTrap_fatal (t : Trap) (s : State) (h : trapClass t.code = .fatal) (hh : s.isHandler = false) :
    takeTrap t s = endFatal s.core.cur t.code t.addr s.ctx.pc t.stat s := by
  simp [takeTrap, h, hh]

/-! Translation and the checks of an address -/

/-- From s to u, only cached translations and the counter of free values may differ. -/
structure OnlyTranslates (s u : State) : Prop where
  rest : u = { s with core := { s.core with tlb := u.core.tlb }, pkg := { s.pkg with dies := u.pkg.dies }, fresh := u.fresh }
  dies : ∀ d : Nat, u.dieAt d = { s.dieAt d with tcache := (u.dieAt d).tcache }
  fresh : s.fresh ≤ u.fresh

theorem OnlyTranslates.refl (s : State) : OnlyTranslates s s := ⟨rfl, fun _ => rfl, Nat.le_refl _⟩

theorem OnlyTranslates.useFresh (s : State) : OnlyTranslates s s.useFresh := ⟨rfl, fun _ => rfl, Nat.le_succ _⟩

theorem OnlyTranslates.note (s : State) (f : Core → Core) (g : Die → Die) (hf : ∀ c, f c = { c with tlb := (f c).tlb })
    (hg : ∀ d, g d = { d with tcache := (g d).tcache }) : OnlyTranslates s ((s.useFresh.modCore f).modDie s.die g) := by
  refine ⟨?_, ?_, Nat.le_succ _⟩
  · simp only [State.modDie, State.modPkg, State.modCore, State.useFresh]
    rw [hf]
  · intro d
    have hd : ∀ h : s.die < 24 ∧ d = s.die, vget (s.pkg.dies.setIfInBounds s.die (g (vget s.pkg.dies s.die Die.reset))) d Die.reset =
        g (s.dieAt d) := by
      rintro ⟨h, rfl⟩
      simp [vget, h, State.dieAt]
    by_cases h : s.die < 24 ∧ d = s.die
    · show vget (s.pkg.dies.setIfInBounds s.die (g (vget s.pkg.dies s.die Die.reset))) d Die.reset = _
      have e : ((s.useFresh.modCore f).modDie s.die g).dieAt d = g (s.dieAt d) := hd h
      rw [e, hd h]
      exact hg _
    · have e : ((s.useFresh.modCore f).modDie s.die g).dieAt d = s.dieAt d := by
        show vget (s.pkg.dies.setIfInBounds s.die (g (vget s.pkg.dies s.die Die.reset))) d Die.reset = vget s.pkg.dies d Die.reset
        simp only [vget, Vector.getElem?_setIfInBounds]
        by_cases hh : s.die = d
        · have : ¬ s.die < 24 := fun k => h ⟨k, hh.symm⟩
          subst hh
          simp [this]
        · simp [hh]
      rw [e]

theorem translate_frame (s : State) (t : BitVec 3) (va : W64) (e : TlbEntry) (u : State) (h : translate s t va = .ok (e, u)) :
    OnlyTranslates s u := by
  have note : ∀ e : TlbEntry, OnlyTranslates s
      ((s.useFresh.modCore fun c => { c with tlb := tlbInsert Config.tlbEntries s.fresh e c.tlb }).modDie s.die
        fun d => { d with tcache := tlbInsert Config.tcacheEntries s.fresh e d.tcache }) :=
    fun e => OnlyTranslates.note s _ _ (fun _ => rfl) (fun _ => rfl)
  have walked : ∀ (r : Except WalkFault TlbEntry) (e : TlbEntry) (u : State),
      r.map (fun e => (e, (s.useFresh.modCore fun c => { c with tlb := tlbInsert Config.tlbEntries s.fresh e c.tlb }).modDie s.die
        fun d => { d with tcache := tlbInsert Config.tcacheEntries s.fresh e d.tcache })) = .ok (e, u) → OnlyTranslates s u := by
    intro r e u hr
    cases r with
    | error x => simp [Except.map] at hr
    | ok x =>
      simp only [Except.map, Except.ok.injEq, Prod.mk.injEq] at hr
      obtain ⟨-, rfl⟩ := hr
      exact note x
  unfold translate at h
  simp only at h
  split at h
  · split at h
    · simp only [Except.ok.injEq, Prod.mk.injEq] at h
      obtain ⟨-, rfl⟩ := h
      exact OnlyTranslates.useFresh s
    · exact walked _ e u h
  · split at h
    · simp only [Except.ok.injEq, Prod.mk.injEq] at h
      obtain ⟨-, rfl⟩ := h
      exact note _
    · exact walked _ e u h
  · exact walked _ e u h

/-- WHAT THE CHECKS OF AN ADDRESS DO: cached translations may change, nothing else. -/
theorem checkAddress_frame (s : State) (acc : Access) (size : Nat) (b : Bool) (r : Region) (va : W64) (pl : Place) (u : State)
    (h : checkAddress s acc size b r va = .ok (pl, u)) : OnlyTranslates s u := by
  unfold checkAddress at h
  split at h
  · simp [raise] at h
  split at h
  · simp [raise] at h
  split at h
  · repeat' split at h
    all_goals first
      | (simp [raise] at h; done)
      | (simp only [Except.ok.injEq, Prod.mk.injEq] at h; obtain ⟨-, rfl⟩ := h; exact OnlyTranslates.refl s)
  · cases ht : translate s s.core.tenant va with
    | error f => rw [ht] at h; cases f <;> simp [raiseWalk, raise, wait] at h
    | ok x =>
      obtain ⟨e, s1⟩ := x
      rw [ht] at h
      simp only at h
      have k : u = s1 := by
        repeat' split at h
        all_goals first
          | (simp [raise] at h; done)
          | exact (congrArg (fun x => (x.toOption.map Prod.snd).getD s) h).symm
      rw [k]
      exact translate_frame s s.core.tenant va e s1 ht

/-! The registers of a gang without an image on its core -/

/-- No save-area image stands on the focused core. -/
def NoImage (s : State) : Prop := ∀ v ∈ s.pkg.saved, v.core ≠ s.coreId

theorem imageOf_none {s : State} (h : NoImage s) (g : W32) : imageOf s s.coreId g = none := by
  simp only [imageOf, List.find?_eq_none]
  intro v hv
  simp [h v hv]

/-- What the units of a core read of its registers is what stands in the core. -/
theorem gangRegs_live {s : State} (h : NoImage s) : s.gangRegs = s.core.regs := by
  unfold State.gangRegs
  split
  · simp [regsOf, imageOf_none h, State.coreAt]
  · rfl

theorem gangRing_live {s : State} (h : NoImage s) (g : BitVec 3) : s.gangRing g = s.ring g := by
  simp [State.gangRing, gangRegs_live h, State.ring]

/-- What they write goes there. -/
theorem modGangRegs_live {s : State} (h : NoImage s) (f : CoreRegs → CoreRegs) : s.modGangRegs f = s.modRegs f := by
  unfold State.modGangRegs
  split
  next g hg => simp [modRegsOf, imageOf_none h, State.coreAt, hg, State.modCoreAt, State.onCore, State.focus, State.modRegs, State.modCore]
  next => rfl

theorem modGangCtx_live {s : State} (h : NoImage s) (i : Fin 12) (f : Ctx → Ctx) : s.modGangCtx i f = s.modCtxAt i f := by
  unfold State.modGangCtx
  split
  next g hi hg =>
    simp [modCtxOf, imageOf_none h, State.coreAt, hg, State.modCoreAt, State.onCore, State.focus, State.modCtxAt, State.modCore, Core.modCtxAt]
  next => rfl

end Sys2Proof.Machine
end

