-- ==== Sys2Proof/Laws/PerInstr.lean ====
section
/-!
SUPPORT. Per-instruction facts, one lemma per constructor: an encoded instruction's fields fill one 32-bit word
(R320), so that `encode` loses no bit of `encodeNat`.
-/
namespace Sys2Proof

/-- Every field's value fits the field's width. -/
def fieldsFit : List (Nat × Nat) → Prop
  | [] => True
  | (w, v) :: rest => v < 2 ^ w ∧ fieldsFit rest

theorem pack_lt (l : List (Nat × Nat)) (h : fieldsFit l) : pack l < 2 ^ (l.map Prod.fst).sum := by
  induction l with
  | nil => simp [pack]
  | cons x rest ih =>
    obtain ⟨w, v⟩ := x
    have hr := ih h.2
    have hv : (v + 1) * 2 ^ (rest.map Prod.fst).sum ≤ 2 ^ w * 2 ^ (rest.map Prod.fst).sum := Nat.mul_le_mul_right _ h.1
    simp only [pack, List.map_cons, List.sum_cons, Nat.pow_add]
    calc _ < v * 2 ^ (rest.map Prod.fst).sum + 2 ^ (rest.map Prod.fst).sum := by omega
      _ ≤ _ := by rw [← Nat.succ_mul]; exact hv

theorem boolNat_lt (b : Bool) : boolNat b < 2 ^ 1 := by cases b <;> decide

theorem bits_fit {n w : Nat} (x : BitVec n) (h : n ≤ w) : x.toNat < 2 ^ w := Nat.lt_of_lt_of_le x.isLt (Nat.pow_le_pow_right (by decide) h)

namespace Laws.WordSize

/-- The encoding of the instruction, where it has one, is the number of a 32-bit word. -/
def Statement (i : Instr) : Prop := ∀ n, encodeNat i = some n → n < 2 ^ 32

theorem of_pack (i : Instr) (l : List (Nat × Nat)) (e : encodeNat i = some (pack l)) (hs : (l.map Prod.fst).sum = 32)
    (hf : fieldsFit l) : Statement i := by
  intro n h
  rw [e] at h
  cases h
  have := pack_lt l hf
  rwa [hs] at this

theorem add (d : BitVec 6) (l : Bool) (a : BitVec 6) (m : Bool) (b : BitVec 6) : Statement (.add d l a m b) :=
  of_pack _ _ rfl rfl ⟨by decide, bits_fit d (by decide), boolNat_lt l, bits_fit a (by decide), boolNat_lt m, bits_fit b (by decide), by decide, trivial⟩
theorem sub (d : BitVec 6) (l : Bool) (a : BitVec 6) (m : Bool) (b : BitVec 6) : Statement (.sub d l a m b) :=
  of_pack _ _ rfl rfl ⟨by decide, bits_fit d (by decide), boolNat_lt l, bits_fit a (by decide), boolNat_lt m, bits_fit b (by decide), by decide, trivial⟩
theorem and (d : BitVec 6) (l : Bool) (a : BitVec 6) (m : Bool) (b : BitVec 6) : Statement (.and d l a m b) :=
  of_pack _ _ rfl rfl ⟨by decide, bits_fit d (by decide), boolNat_lt l, bits_fit a (by decide), boolNat_lt m, bits_fit b (by decide), by decide, trivial⟩
theorem or (d : BitVec 6) (l : Bool) (a : BitVec 6) (m : Bool) (b : BitVec 6) : Statement (.or d l a m b) :=
  of_pack _ _ rfl rfl ⟨by decide, bits_fit d (by decide), boolNat_lt l, bits_fit a (by decide), boolNat_lt m, bits_fit b (by decide), by decide, trivial⟩
theorem xor (d : BitVec 6) (l : Bool) (a : BitVec 6) (m : Bool) (b : BitVec 6) : Statement (.xor d l a m b) :=
  of_pack _ _ rfl rfl ⟨by decide, bits_fit d (by decide), boolNat_lt l, bits_fit a (by decide), boolNat_lt m, bits_fit b (by decide), by decide, trivial⟩
theorem shl (d : BitVec 6) (l : Bool) (a : BitVec 6) (m : Bool) (b : BitVec 6) : Statement (.shl d l a m b) :=
  of_pack _ _ rfl rfl ⟨by decide, bits_fit d (by decide), boolNat_lt l, bits_fit a (by decide), boolNat_lt m, bits_fit b (by decide), by decide, trivial⟩
theorem shr (d : BitVec 6) (l : Bool) (a : BitVec 6) (m : Bool) (b : BitVec 6) : Statement (.shr d l a m b) :=
  of_pack _ _ rfl rfl ⟨by decide, bits_fit d (by decide), boolNat_lt l, bits_fit a (by decide), boolNat_lt m, bits_fit b (by decide), by decide, trivial⟩
theorem shrS (d : BitVec 6) (l : Bool) (a : BitVec 6) (m : Bool) (b : BitVec 6) : Statement (.shrS d l a m b) :=
  of_pack _ _ rfl rfl ⟨by decide, bits_fit d (by decide), boolNat_lt l, bits_fit a (by decide), boolNat_lt m, bits_fit b (by decide), by decide, trivial⟩
theorem mul (d : BitVec 6) (l : Bool) (a : BitVec 6) (m : Bool) (b : BitVec 6) : Statement (.mul d l a m b) :=
  of_pack _ _ rfl rfl ⟨by decide, bits_fit d (by decide), boolNat_lt l, bits_fit a (by decide), boolNat_lt m, bits_fit b (by decide), by decide, trivial⟩
theorem mulh (d : BitVec 6) (l : Bool) (a : BitVec 6) (m : Bool) (b : BitVec 6) : Statement (.mulh d l a m b) :=
  of_pack _ _ rfl rfl ⟨by decide, bits_fit d (by decide), boolNat_lt l, bits_fit a (by decide), boolNat_lt m, bits_fit b (by decide), by decide, trivial⟩
theorem mulhU (d : BitVec 6) (l : Bool) (a : BitVec 6) (m : Bool) (b : BitVec 6) : Statement (.mulhU d l a m b) :=
  of_pack _ _ rfl rfl ⟨by decide, bits_fit d (by decide), boolNat_lt l, bits_fit a (by decide), boolNat_lt m, bits_fit b (by decide), by decide, trivial⟩
theorem div (d : BitVec 6) (l : Bool) (a : BitVec 6) (m : Bool) (b : BitVec 6) : Statement (.div d l a m b) :=
  of_pack _ _ rfl rfl ⟨by decide, bits_fit d (by decide), boolNat_lt l, bits_fit a (by decide), boolNat_lt m, bits_fit b (by decide), by decide, trivial⟩
theorem divU (d : BitVec 6) (l : Bool) (a : BitVec 6) (m : Bool) (b : BitVec 6) : Statement (.divU d l a m b) :=
  of_pack _ _ rfl rfl ⟨by decide, bits_fit d (by decide), boolNat_lt l, bits_fit a (by decide), boolNat_lt m, bits_fit b (by decide), by decide, trivial⟩
theorem rem (d : BitVec 6) (l : Bool) (a : BitVec 6) (m : Bool) (b : BitVec 6) : Statement (.rem d l a m b) :=
  of_pack _ _ rfl rfl ⟨by decide, bits_fit d (by decide), boolNat_lt l, bits_fit a (by decide), boolNat_lt m, bits_fit b (by decide), by decide, trivial⟩
theorem remU (d : BitVec 6) (l : Bool) (a : BitVec 6) (m : Bool) (b : BitVec 6) : Statement (.remU d l a m b) :=
  of_pack _ _ rfl rfl ⟨by decide, bits_fit d (by decide), boolNat_lt l, bits_fit a (by decide), boolNat_lt m, bits_fit b (by decide), by decide, trivial⟩
theorem min (d : BitVec 6) (l : Bool) (a : BitVec 6) (m : Bool) (b : BitVec 6) : Statement (.min d l a m b) :=
  of_pack _ _ rfl rfl ⟨by decide, bits_fit d (by decide), boolNat_lt l, bits_fit a (by decide), boolNat_lt m, bits_fit b (by decide), by decide, trivial⟩
theorem minU (d : BitVec 6) (l : Bool) (a : BitVec 6) (m : Bool) (b : BitVec 6) : Statement (.minU d l a m b) :=
  of_pack _ _ rfl rfl ⟨by decide, bits_fit d (by decide), boolNat_lt l, bits_fit a (by decide), boolNat_lt m, bits_fit b (by decide), by decide, trivial⟩
theorem max (d : BitVec 6) (l : Bool) (a : BitVec 6) (m : Bool) (b : BitVec 6) : Statement (.max d l a m b) :=
  of_pack _ _ rfl rfl ⟨by decide, bits_fit d (by decide), boolNat_lt l, bits_fit a (by decide), boolNat_lt m, bits_fit b (by decide), by decide, trivial⟩
theorem maxU (d : BitVec 6) (l : Bool) (a : BitVec 6) (m : Bool) (b : BitVec 6) : Statement (.maxU d l a m b) :=
  of_pack _ _ rfl rfl ⟨by decide, bits_fit d (by decide), boolNat_lt l, bits_fit a (by decide), boolNat_lt m, bits_fit b (by decide), by decide, trivial⟩
theorem clz (d : BitVec 6) (l : Bool) (a : BitVec 6) (m : Bool) : Statement (.clz d l a m) :=
  of_pack _ _ rfl rfl ⟨by decide, bits_fit d (by decide), boolNat_lt l, bits_fit a (by decide), boolNat_lt m, by decide, trivial⟩
theorem popc (d : BitVec 6) (l : Bool) (a : BitVec 6) (m : Bool) : Statement (.popc d l a m) :=
  of_pack _ _ rfl rfl ⟨by decide, bits_fit d (by decide), boolNat_lt l, bits_fit a (by decide), boolNat_lt m, by decide, trivial⟩
theorem addi (d : BitVec 6) (l : Bool) (a : BitVec 6) (i : BitVec 13) : Statement (.addi d l a i) :=
  of_pack _ _ rfl rfl ⟨by decide, bits_fit d (by decide), boolNat_lt l, bits_fit a (by decide), bits_fit i (by decide), trivial⟩
theorem andi (d : BitVec 6) (l : Bool) (a : BitVec 6) (i : BitVec 13) : Statement (.andi d l a i) :=
  of_pack _ _ rfl rfl ⟨by decide, bits_fit d (by decide), boolNat_lt l, bits_fit a (by decide), bits_fit i (by decide), trivial⟩
theorem ori (d : BitVec 6) (l : Bool) (a : BitVec 6) (i : BitVec 13) : Statement (.ori d l a i) :=
  of_pack _ _ rfl rfl ⟨by decide, bits_fit d (by decide), boolNat_lt l, bits_fit a (by decide), bits_fit i (by decide), trivial⟩
theorem xori (d : BitVec 6) (l : Bool) (a : BitVec 6) (i : BitVec 13) : Statement (.xori d l a i) :=
  of_pack _ _ rfl rfl ⟨by decide, bits_fit d (by decide), boolNat_lt l, bits_fit a (by decide), bits_fit i (by decide), trivial⟩
theorem shli (d : BitVec 6) (l : Bool) (a : BitVec 6) (s : BitVec 6) : Statement (.shli d l a s) :=
  of_pack _ _ rfl rfl ⟨by decide, bits_fit d (by decide), boolNat_lt l, bits_fit a (by decide), by decide, bits_fit s (by decide), trivial⟩
theorem shri (d : BitVec 6) (l : Bool) (a : BitVec 6) (s : BitVec 6) : Statement (.shri d l a s) :=
  of_pack _ _ rfl rfl ⟨by decide, bits_fit d (by decide), boolNat_lt l, bits_fit a (by decide), by decide, bits_fit s (by decide), trivial⟩
theorem shriS (d : BitVec 6) (l : Bool) (a : BitVec 6) (s : BitVec 6) : Statement (.shriS d l a s) :=
  of_pack _ _ rfl rfl ⟨by decide, bits_fit d (by decide), boolNat_lt l, bits_fit a (by decide), by decide, bits_fit s (by decide), trivial⟩
theorem cmp (p : BitVec 4) (l : Bool) (a : BitVec 6) (m : Bool) (b : BitVec 6) (c : BitVec 3) : Statement (.cmp p l a m b c) :=
  of_pack _ _ rfl rfl ⟨by decide, by decide, bits_fit p (by decide), boolNat_lt l, bits_fit a (by decide), boolNat_lt m, bits_fit b (by decide), by decide, bits_fit c (by decide), trivial⟩
theorem cmpi (p : BitVec 4) (c : BitVec 3) (a : BitVec 6) (i : BitVec 13) : Statement (.cmpi p c a i) :=
  of_pack _ _ rfl rfl ⟨by decide, bits_fit p (by decide), bits_fit c (by decide), bits_fit a (by decide), bits_fit i (by decide), trivial⟩
theorem sel (d : BitVec 6) (l : Bool) (a : BitVec 6) (m : Bool) (b : BitVec 6) (n : Bool) (q : BitVec 4) : Statement (.sel d l a m b n q) :=
  of_pack _ _ rfl rfl ⟨by decide, bits_fit d (by decide), boolNat_lt l, bits_fit a (by decide), boolNat_lt m, bits_fit b (by decide), by decide, boolNat_lt n, bits_fit q (by decide), trivial⟩
theorem plog (d : BitVec 4) (l : Bool) (a : BitVec 4) (m : Bool) (b : BitVec 4) (o : BitVec 3) : Statement (.plog d l a m b o) :=
  of_pack _ _ rfl rfl ⟨by decide, by decide, bits_fit d (by decide), boolNat_lt l, by decide, bits_fit a (by decide), boolNat_lt m, by decide, bits_fit b (by decide), by decide, bits_fit o (by decide), trivial⟩
theorem bfx (d : BitVec 6) (l : Bool) (a : BitVec 6) (s : Bool) (w : BitVec 6) (p : BitVec 6) : Statement (.bfx d l a s w p) :=
  of_pack _ _ rfl rfl ⟨by decide, bits_fit d (by decide), boolNat_lt l, bits_fit a (by decide), boolNat_lt s, bits_fit w (by decide), bits_fit p (by decide), trivial⟩
theorem bfi (d : BitVec 6) (l : Bool) (a : BitVec 6) (w : BitVec 6) (p : BitVec 6) : Statement (.bfi d l a w p) :=
  of_pack _ _ rfl rfl ⟨by decide, bits_fit d (by decide), boolNat_lt l, bits_fit a (by decide), by decide, bits_fit w (by decide), bits_fit p (by decide), trivial⟩
theorem lih (d : BitVec 6) (i : BitVec 20) : Statement (.lih d i) :=
  of_pack _ _ rfl rfl ⟨by decide, bits_fit d (by decide), bits_fit i (by decide), trivial⟩
theorem pcrel (d : BitVec 6) (i : BitVec 20) : Statement (.pcrel d i) :=
  of_pack _ _ rfl rfl ⟨by decide, bits_fit d (by decide), bits_fit i (by decide), trivial⟩
theorem br (p : BitVec 4) (n : Bool) (o : BitVec 21) : Statement (.br p n o) :=
  of_pack _ _ rfl rfl ⟨by decide, bits_fit p (by decide), boolNat_lt n, bits_fit o (by decide), trivial⟩
theorem jal (d : BitVec 6) (o : BitVec 20) : Statement (.jal d o) :=
  of_pack _ _ rfl rfl ⟨by decide, bits_fit d (by decide), bits_fit o (by decide), trivial⟩
theorem jr (d : BitVec 6) (l : Bool) (a : BitVec 6) (m : Bool) : Statement (.jr d l a m) :=
  of_pack _ _ rfl rfl ⟨by decide, bits_fit d (by decide), boolNat_lt l, bits_fit a (by decide), boolNat_lt m, by decide, trivial⟩
theorem start (d : BitVec 6) (l : Bool) (a : BitVec 6) (m : Bool) (b : BitVec 6) (p : BitVec 4) : Statement (.start d l a m b p) :=
  of_pack _ _ rfl rfl ⟨by decide, bits_fit d (by decide), boolNat_lt l, bits_fit a (by decide), boolNat_lt m, bits_fit b (by decide), by decide, bits_fit p (by decide), trivial⟩
theorem quit (l : Bool) (m : Bool) : Statement (.quit l m) :=
  of_pack _ _ rfl rfl ⟨by decide, by decide, boolNat_lt l, by decide, boolNat_lt m, by decide, trivial⟩
theorem hwait (l : Bool) (a : BitVec 6) (m : Bool) : Statement (.hwait l a m) :=
  of_pack _ _ rfl rfl ⟨by decide, by decide, boolNat_lt l, bits_fit a (by decide), boolNat_lt m, by decide, trivial⟩
theorem yield (l : Bool) (m : Bool) : Statement (.yield l m) :=
  of_pack _ _ rfl rfl ⟨by decide, by decide, boolNat_lt l, by decide, boolNat_lt m, by decide, trivial⟩
theorem idle (l : Bool) (a : BitVec 6) (m : Bool) : Statement (.idle l a m) :=
  of_pack _ _ rfl rfl ⟨by decide, by decide, boolNat_lt l, bits_fit a (by decide), boolNat_lt m, by decide, trivial⟩
theorem ld (d : BitVec 6) (l : Bool) (a : BitVec 6) (z : BitVec 2) (g : Bool) (i : BitVec 10) : Statement (.ld d l a z g i) :=
  of_pack _ _ rfl rfl ⟨by decide, bits_fit d (by decide), boolNat_lt l, bits_fit a (by decide), bits_fit z (by decide), boolNat_lt g, bits_fit i (by decide), trivial⟩
theorem st (z : BitVec 2) (l : Bool) (a : BitVec 6) (m : Bool) (b : BitVec 6) (i : BitVec 10) : Statement (.st z l a m b i) :=
  of_pack _ _ rfl rfl ⟨by decide, bits_fit z (by decide), boolNat_lt l, bits_fit a (by decide), boolNat_lt m, bits_fit b (by decide), bits_fit i (by decide), trivial⟩
theorem lda (d : BitVec 6) (l : Bool) (a : BitVec 6) (z : BitVec 2) (g : Bool) (i : BitVec 10) : Statement (.lda d l a z g i) :=
  of_pack _ _ rfl rfl ⟨by decide, bits_fit d (by decide), boolNat_lt l, bits_fit a (by decide), bits_fit z (by decide), boolNat_lt g, bits_fit i (by decide), trivial⟩
theorem stl (z : BitVec 2) (l : Bool) (a : BitVec 6) (m : Bool) (b : BitVec 6) (c : BitVec 3) (i : BitVec 7) : Statement (.stl z l a m b c i) :=
  of_pack _ _ rfl rfl ⟨by decide, bits_fit z (by decide), boolNat_lt l, bits_fit a (by decide), boolNat_lt m, bits_fit b (by decide), bits_fit c (by decide), bits_fit i (by decide), trivial⟩
theorem stOwn (z : BitVec 2) (l : Bool) (a : BitVec 6) (m : Bool) (b : BitVec 6) (i : BitVec 7) : Statement (.stOwn z l a m b i) :=
  of_pack _ _ rfl rfl ⟨by decide, bits_fit z (by decide), boolNat_lt l, bits_fit a (by decide), boolNat_lt m, bits_fit b (by decide), by decide, bits_fit i (by decide), trivial⟩
theorem stStk (z : BitVec 2) (l : Bool) (a : BitVec 6) (m : Bool) (b : BitVec 6) (i : BitVec 7) : Statement (.stStk z l a m b i) :=
  of_pack _ _ rfl rfl ⟨by decide, bits_fit z (by decide), boolNat_lt l, bits_fit a (by decide), boolNat_lt m, bits_fit b (by decide), by decide, bits_fit i (by decide), trivial⟩
theorem ldsumF32 (d : BitVec 6) (l : Bool) (a : BitVec 6) (i : BitVec 10) : Statement (.ldsumF32 d l a i) :=
  of_pack _ _ rfl rfl ⟨by decide, bits_fit d (by decide), boolNat_lt l, bits_fit a (by decide), by decide, bits_fit i (by decide), trivial⟩
theorem ldsumF64 (d : BitVec 6) (l : Bool) (a : BitVec 6) (i : BitVec 10) : Statement (.ldsumF64 d l a i) :=
  of_pack _ _ rfl rfl ⟨by decide, bits_fit d (by decide), boolNat_lt l, bits_fit a (by decide), by decide, bits_fit i (by decide), trivial⟩
theorem ldsumI64 (d : BitVec 6) (l : Bool) (a : BitVec 6) (i : BitVec 10) : Statement (.ldsumI64 d l a i) :=
  of_pack _ _ rfl rfl ⟨by decide, bits_fit d (by decide), boolNat_lt l, bits_fit a (by decide), by decide, bits_fit i (by decide), trivial⟩
theorem fenceRel (l : Bool) (m : Bool) (s : BitVec 3) : Statement (.fenceRel l m s) :=
  of_pack _ _ rfl rfl ⟨by decide, by decide, boolNat_lt l, by decide, boolNat_lt m, by decide, bits_fit s (by decide), trivial⟩
theorem fenceAcq (l : Bool) (m : Bool) (s : BitVec 3) : Statement (.fenceAcq l m s) :=
  of_pack _ _ rfl rfl ⟨by decide, by decide, boolNat_lt l, by decide, boolNat_lt m, by decide, bits_fit s (by decide), trivial⟩
theorem fenceFull (l : Bool) (m : Bool) (s : BitVec 3) : Statement (.fenceFull l m s) :=
  of_pack _ _ rfl rfl ⟨by decide, by decide, boolNat_lt l, by decide, boolNat_lt m, by decide, bits_fit s (by decide), trivial⟩
theorem amo (d : BitVec 6) (l : Bool) (a : BitVec 6) (m : Bool) (b : BitVec 6) (w : Bool) (z : Bool) (o : BitVec 4) : Statement (.amo d l a m b w z o) :=
  of_pack _ _ rfl rfl ⟨by decide, bits_fit d (by decide), boolNat_lt l, bits_fit a (by decide), boolNat_lt m, bits_fit b (by decide), boolNat_lt w, boolNat_lt z, bits_fit o (by decide), trivial⟩
theorem amof (d : BitVec 6) (l : Bool) (a : BitVec 6) (m : Bool) (b : BitVec 6) (t : Bool) (o : BitVec 2) : Statement (.amof d l a m b t o) :=
  of_pack _ _ rfl rfl ⟨by decide, bits_fit d (by decide), boolNat_lt l, bits_fit a (by decide), boolNat_lt m, bits_fit b (by decide), by decide, boolNat_lt t, bits_fit o (by decide), trivial⟩
theorem redInt (l : Bool) (a : BitVec 6) (m : Bool) (b : BitVec 6) (z : Bool) (o : BitVec 4) : Statement (.redInt l a m b z o) :=
  of_pack _ _ rfl rfl ⟨by decide, by decide, boolNat_lt l, bits_fit a (by decide), boolNat_lt m, bits_fit b (by decide), by decide, boolNat_lt z, bits_fit o (by decide), trivial⟩
theorem redFloat (l : Bool) (a : BitVec 6) (m : Bool) (b : BitVec 6) (t : Bool) (o : BitVec 2) : Statement (.redFloat l a m b t o) :=
  of_pack _ _ rfl rfl ⟨by decide, by decide, boolNat_lt l, bits_fit a (by decide), boolNat_lt m, bits_fit b (by decide), by decide, boolNat_lt t, bits_fit o (by decide), trivial⟩
theorem mdep (l : Bool) (a : BitVec 6) (m : Bool) (b : BitVec 6) : Statement (.mdep l a m b) :=
  of_pack _ _ rfl rfl ⟨by decide, by decide, boolNat_lt l, bits_fit a (by decide), boolNat_lt m, bits_fit b (by decide), by decide, trivial⟩
theorem msenseMax (d : BitVec 6) (l : Bool) (a : BitVec 6) (k : BitVec 12) : Statement (.msenseMax d l a k) :=
  of_pack _ _ rfl rfl ⟨by decide, bits_fit d (by decide), boolNat_lt l, bits_fit a (by decide), by decide, bits_fit k (by decide), trivial⟩
theorem msenseMin (d : BitVec 6) (l : Bool) (a : BitVec 6) (k : BitVec 12) : Statement (.msenseMin d l a k) :=
  of_pack _ _ rfl rfl ⟨by decide, bits_fit d (by decide), boolNat_lt l, bits_fit a (by decide), by decide, bits_fit k (by decide), trivial⟩
theorem hitch (h : BitVec 4) (p : BitVec 4) (l : Bool) (a : BitVec 6) (f : BitVec 2) : Statement (.hitch h p l a f) :=
  of_pack _ _ rfl rfl ⟨by decide, bits_fit h (by decide), by decide, bits_fit p (by decide), boolNat_lt l, bits_fit a (by decide), by decide, bits_fit f (by decide), by decide, trivial⟩
theorem unhitch (h : BitVec 4) (l : Bool) (s : BitVec 3) : Statement (.unhitch h l s) :=
  of_pack _ _ rfl rfl ⟨by decide, bits_fit h (by decide), by decide, boolNat_lt l, by decide, bits_fit s (by decide), trivial⟩
theorem tbar (h : BitVec 4) (d : BitVec 6) (l : Bool) (s : BitVec 3) : Statement (.tbar h d l s) :=
  of_pack _ _ rfl rfl ⟨by decide, bits_fit h (by decide), bits_fit d (by decide), boolNat_lt l, by decide, bits_fit s (by decide), trivial⟩
theorem tarr (h : BitVec 4) (l : Bool) (s : BitVec 3) : Statement (.tarr h l s) :=
  of_pack _ _ rfl rfl ⟨by decide, bits_fit h (by decide), by decide, boolNat_lt l, by decide, bits_fit s (by decide), trivial⟩
theorem twait (h : BitVec 4) (d : BitVec 6) (l : Bool) : Statement (.twait h d l) :=
  of_pack _ _ rfl rfl ⟨by decide, bits_fit h (by decide), bits_fit d (by decide), boolNat_lt l, by decide, trivial⟩
theorem tvote (h : BitVec 4) (d : BitVec 6) (l : Bool) (a : BitVec 6) (o : BitVec 2) (s : BitVec 3) : Statement (.tvote h d l a o s) :=
  of_pack _ _ rfl rfl ⟨by decide, bits_fit h (by decide), bits_fit d (by decide), boolNat_lt l, bits_fit a (by decide), by decide, bits_fit o (by decide), bits_fit s (by decide), trivial⟩
theorem tred (h : BitVec 4) (d : BitVec 6) (l : Bool) (a : BitVec 6) (t : BitVec 2) (o : BitVec 2) (s : BitVec 3) : Statement (.tred h d l a t o s) :=
  of_pack _ _ rfl rfl ⟨by decide, bits_fit h (by decide), bits_fit d (by decide), boolNat_lt l, bits_fit a (by decide), by decide, bits_fit t (by decide), bits_fit o (by decide), bits_fit s (by decide), trivial⟩
theorem tinfo (h : BitVec 4) (d : BitVec 6) (l : Bool) : Statement (.tinfo h d l) :=
  of_pack _ _ rfl rfl ⟨by decide, bits_fit h (by decide), bits_fit d (by decide), boolNat_lt l, by decide, trivial⟩
theorem tdrop (h : BitVec 4) (l : Bool) : Statement (.tdrop h l) :=
  of_pack _ _ rfl rfl ⟨by decide, bits_fit h (by decide), by decide, boolNat_lt l, by decide, trivial⟩
theorem wpush (p : BitVec 4) (l : Bool) (a : BitVec 6) (m : Bool) : Statement (.wpush p l a m) :=
  of_pack _ _ rfl rfl ⟨by decide, by decide, bits_fit p (by decide), boolNat_lt l, bits_fit a (by decide), boolNat_lt m, by decide, trivial⟩
theorem wpushOrd (p : BitVec 4) (l : Bool) (a : BitVec 6) (m : Bool) : Statement (.wpushOrd p l a m) :=
  of_pack _ _ rfl rfl ⟨by decide, by decide, bits_fit p (by decide), boolNat_lt l, bits_fit a (by decide), boolNat_lt m, by decide, trivial⟩
theorem wpop (d : BitVec 6) (l : Bool) (a : BitVec 6) (m : Bool) (p : BitVec 4) : Statement (.wpop d l a m p) :=
  of_pack _ _ rfl rfl ⟨by decide, bits_fit d (by decide), boolNat_lt l, bits_fit a (by decide), boolNat_lt m, by decide, bits_fit p (by decide), by decide, trivial⟩
theorem wsteal (d : BitVec 6) (l : Bool) (a : BitVec 6) (m : Bool) (p : BitVec 4) (n : BitVec 3) : Statement (.wsteal d l a m p n) :=
  of_pack _ _ rfl rfl ⟨by decide, bits_fit d (by decide), boolNat_lt l, bits_fit a (by decide), boolNat_lt m, by decide, bits_fit p (by decide), by decide, bits_fit n (by decide), trivial⟩
theorem wcnt (d : BitVec 6) (l : Bool) (m : Bool) (n : BitVec 4) : Statement (.wcnt d l m n) :=
  of_pack _ _ rfl rfl ⟨by decide, bits_fit d (by decide), boolNat_lt l, by decide, boolNat_lt m, by decide, bits_fit n (by decide), trivial⟩
theorem chput (p : BitVec 4) (l : Bool) (a : BitVec 6) (m : Bool) (c : BitVec 6) : Statement (.chput p l a m c) :=
  of_pack _ _ rfl rfl ⟨by decide, by decide, bits_fit p (by decide), boolNat_lt l, bits_fit a (by decide), boolNat_lt m, bits_fit c (by decide), by decide, trivial⟩
theorem chget (d : BitVec 6) (p : BitVec 4) (m : Bool) (c : BitVec 6) : Statement (.chget d p m c) :=
  of_pack _ _ rfl rfl ⟨by decide, bits_fit d (by decide), by decide, bits_fit p (by decide), boolNat_lt m, bits_fit c (by decide), by decide, trivial⟩
theorem cpy (d : BitVec 6) (l : Bool) (a : BitVec 6) (m : Bool) (b : BitVec 6) (n : Bool) (s : BitVec 3) : Statement (.cpy d l a m b n s) :=
  of_pack _ _ rfl rfl ⟨by decide, bits_fit d (by decide), boolNat_lt l, bits_fit a (by decide), boolNat_lt m, bits_fit b (by decide), by decide, boolNat_lt n, bits_fit s (by decide), trivial⟩
theorem cpyCsr (d : BitVec 6) (l : Bool) (a : BitVec 6) (m : Bool) (s : BitVec 3) : Statement (.cpyCsr d l a m s) :=
  of_pack _ _ rfl rfl ⟨by decide, bits_fit d (by decide), boolNat_lt l, bits_fit a (by decide), boolNat_lt m, by decide, bits_fit s (by decide), trivial⟩
theorem cpym (d : BitVec 6) (l : Bool) (a : BitVec 6) (m : Bool) (b : BitVec 6) (s : BitVec 3) : Statement (.cpym d l a m b s) :=
  of_pack _ _ rfl rfl ⟨by decide, bits_fit d (by decide), boolNat_lt l, bits_fit a (by decide), boolNat_lt m, bits_fit b (by decide), by decide, bits_fit s (by decide), trivial⟩
theorem subs (p : BitVec 4) (l : Bool) (a : BitVec 6) (g : BitVec 3) : Statement (.subs p l a g) :=
  of_pack _ _ rfl rfl ⟨by decide, by decide, bits_fit p (by decide), boolNat_lt l, bits_fit a (by decide), by decide, bits_fit g (by decide), by decide, trivial⟩
theorem unsubs (l : Bool) (a : BitVec 6) : Statement (.unsubs l a) :=
  of_pack _ _ rfl rfl ⟨by decide, by decide, boolNat_lt l, bits_fit a (by decide), by decide, trivial⟩
theorem epush (p : BitVec 4) (l : Bool) (m : Bool) (b : BitVec 6) (n : BitVec 4) : Statement (.epush p l m b n) :=
  of_pack _ _ rfl rfl ⟨by decide, by decide, bits_fit p (by decide), boolNat_lt l, by decide, boolNat_lt m, bits_fit b (by decide), by decide, bits_fit n (by decide), trivial⟩
theorem epop (d : BitVec 6) (l : Bool) (p : BitVec 4) (m : Bool) (n : BitVec 4) : Statement (.epop d l p m n) :=
  of_pack _ _ rfl rfl ⟨by decide, bits_fit d (by decide), boolNat_lt l, by decide, bits_fit p (by decide), boolNat_lt m, by decide, bits_fit n (by decide), trivial⟩
theorem sync (l : Bool) (m : Bool) : Statement (.sync l m) :=
  of_pack _ _ rfl rfl ⟨by decide, by decide, boolNat_lt l, by decide, boolNat_lt m, by decide, trivial⟩
theorem xmit (n : BitVec 6) (l : Bool) (a : BitVec 6) (m : Bool) (b : BitVec 6) : Statement (.xmit n l a m b) :=
  of_pack _ _ rfl rfl ⟨by decide, bits_fit n (by decide), boolNat_lt l, bits_fit a (by decide), boolNat_lt m, bits_fit b (by decide), by decide, trivial⟩
theorem xsel (n : BitVec 6) (l : Bool) (a : BitVec 6) (m : Bool) (b : BitVec 6) : Statement (.xsel n l a m b) :=
  of_pack _ _ rfl rfl ⟨by decide, bits_fit n (by decide), boolNat_lt l, bits_fit a (by decide), boolNat_lt m, bits_fit b (by decide), by decide, trivial⟩
theorem mread (d : BitVec 6) (l : Bool) (a : BitVec 6) (m : Bool) : Statement (.mread d l a m) :=
  of_pack _ _ rfl rfl ⟨by decide, bits_fit d (by decide), boolNat_lt l, bits_fit a (by decide), boolNat_lt m, by decide, trivial⟩
theorem mtick (l : Bool) (a : BitVec 6) (m : Bool) : Statement (.mtick l a m) :=
  of_pack _ _ rfl rfl ⟨by decide, by decide, boolNat_lt l, bits_fit a (by decide), boolNat_lt m, by decide, trivial⟩
theorem launch (d : BitVec 6) (l : Bool) (a : BitVec 6) (m : Bool) (p : BitVec 4) : Statement (.launch d l a m p) :=
  of_pack _ _ rfl rfl ⟨by decide, bits_fit d (by decide), boolNat_lt l, bits_fit a (by decide), boolNat_lt m, by decide, bits_fit p (by decide), by decide, trivial⟩
theorem pace (l : Bool) (a : BitVec 6) (m : Bool) : Statement (.pace l a m) :=
  of_pack _ _ rfl rfl ⟨by decide, by decide, boolNat_lt l, bits_fit a (by decide), boolNat_lt m, by decide, trivial⟩
theorem permit (l : Bool) (a : BitVec 6) (m : Bool) : Statement (.permit l a m) :=
  of_pack _ _ rfl rfl ⟨by decide, by decide, boolNat_lt l, bits_fit a (by decide), boolNat_lt m, by decide, trivial⟩
theorem mfs (d : BitVec 6) (r : BitVec 12) : Statement (.mfs d r) :=
  of_pack _ _ rfl rfl ⟨by decide, bits_fit d (by decide), bits_fit r (by decide), by decide, trivial⟩
theorem mts (s : BitVec 6) (r : BitVec 12) : Statement (.mts s r) :=
  of_pack _ _ rfl rfl ⟨by decide, bits_fit s (by decide), bits_fit r (by decide), by decide, trivial⟩
theorem trap (c : BitVec 12) : Statement (.trap c) :=
  of_pack _ _ rfl rfl ⟨by decide, by decide, bits_fit c (by decide), by decide, trivial⟩
theorem eret : Statement (.eret) :=
  of_pack _ _ rfl rfl ⟨by decide, by decide, trivial⟩
theorem svctx (n : BitVec 4) : Statement (.svctx n) :=
  of_pack _ _ rfl rfl ⟨by decide, by decide, bits_fit n (by decide), by decide, trivial⟩
theorem ldctx (n : BitVec 4) : Statement (.ldctx n) :=
  of_pack _ _ rfl rfl ⟨by decide, by decide, bits_fit n (by decide), by decide, trivial⟩
theorem icflush : Statement (.icflush) :=
  of_pack _ _ rfl rfl ⟨by decide, by decide, trivial⟩
theorem rep (c : BitVec 4) (n : BitVec 8) (s : BitVec 14) : Statement (.rep c n s) :=
  of_pack _ _ rfl rfl ⟨by decide, bits_fit c (by decide), bits_fit n (by decide), bits_fit s (by decide), trivial⟩
theorem vadd (d : BitVec 5) (l : Bool) (a : BitVec 5) (m : Bool) (b : BitVec 5) (r : BitVec 3) (t : BitVec 4) : Statement (.vadd d l a m b r t) :=
  of_pack _ _ rfl rfl ⟨by decide, bits_fit d (by decide), boolNat_lt l, bits_fit a (by decide), boolNat_lt m, bits_fit b (by decide), bits_fit r (by decide), bits_fit t (by decide), trivial⟩
theorem vsub (d : BitVec 5) (l : Bool) (a : BitVec 5) (m : Bool) (b : BitVec 5) (r : BitVec 3) (t : BitVec 4) : Statement (.vsub d l a m b r t) :=
  of_pack _ _ rfl rfl ⟨by decide, bits_fit d (by decide), boolNat_lt l, bits_fit a (by decide), boolNat_lt m, bits_fit b (by decide), by have := r.isLt; omega, bits_fit t (by decide), trivial⟩
theorem vmul (d : BitVec 5) (l : Bool) (a : BitVec 5) (m : Bool) (b : BitVec 5) (r : BitVec 3) (t : BitVec 4) : Statement (.vmul d l a m b r t) :=
  of_pack _ _ rfl rfl ⟨by decide, bits_fit d (by decide), boolNat_lt l, bits_fit a (by decide), boolNat_lt m, bits_fit b (by decide), by have := r.isLt; omega, bits_fit t (by decide), trivial⟩
theorem vfma (d : BitVec 5) (l : Bool) (a : BitVec 5) (m : Bool) (b : BitVec 5) (r : BitVec 3) (t : BitVec 4) : Statement (.vfma d l a m b r t) :=
  of_pack _ _ rfl rfl ⟨by decide, bits_fit d (by decide), boolNat_lt l, bits_fit a (by decide), boolNat_lt m, bits_fit b (by decide), by have := r.isLt; omega, bits_fit t (by decide), trivial⟩
theorem vmax (d : BitVec 5) (l : Bool) (a : BitVec 5) (m : Bool) (b : BitVec 5) (t : BitVec 4) : Statement (.vmax d l a m b t) :=
  of_pack _ _ rfl rfl ⟨by decide, bits_fit d (by decide), boolNat_lt l, bits_fit a (by decide), boolNat_lt m, bits_fit b (by decide), by decide, bits_fit t (by decide), trivial⟩
theorem vmin (d : BitVec 5) (l : Bool) (a : BitVec 5) (m : Bool) (b : BitVec 5) (t : BitVec 4) : Statement (.vmin d l a m b t) :=
  of_pack _ _ rfl rfl ⟨by decide, bits_fit d (by decide), boolNat_lt l, bits_fit a (by decide), boolNat_lt m, bits_fit b (by decide), by decide, bits_fit t (by decide), trivial⟩
theorem vabs (d : BitVec 5) (l : Bool) (a : BitVec 5) (m : Bool) (t : BitVec 4) : Statement (.vabs d l a m t) :=
  of_pack _ _ rfl rfl ⟨by decide, bits_fit d (by decide), boolNat_lt l, bits_fit a (by decide), boolNat_lt m, by decide, bits_fit t (by decide), trivial⟩
theorem vneg (d : BitVec 5) (l : Bool) (a : BitVec 5) (m : Bool) (t : BitVec 4) : Statement (.vneg d l a m t) :=
  of_pack _ _ rfl rfl ⟨by decide, bits_fit d (by decide), boolNat_lt l, bits_fit a (by decide), boolNat_lt m, by decide, bits_fit t (by decide), trivial⟩
theorem vrcp (d : BitVec 5) (l : Bool) (a : BitVec 5) (m : Bool) (r : BitVec 5) (t : BitVec 4) : Statement (.vrcp d l a m r t) :=
  of_pack _ _ rfl rfl ⟨by decide, bits_fit d (by decide), boolNat_lt l, bits_fit a (by decide), boolNat_lt m, bits_fit r (by decide), by decide, bits_fit t (by decide), trivial⟩
theorem vrsq (d : BitVec 5) (l : Bool) (a : BitVec 5) (m : Bool) (r : BitVec 5) (t : BitVec 4) : Statement (.vrsq d l a m r t) :=
  of_pack _ _ rfl rfl ⟨by decide, bits_fit d (by decide), boolNat_lt l, bits_fit a (by decide), boolNat_lt m, bits_fit r (by decide), by decide, bits_fit t (by decide), trivial⟩
theorem vexp (d : BitVec 5) (l : Bool) (a : BitVec 5) (m : Bool) (t : BitVec 4) : Statement (.vexp d l a m t) :=
  of_pack _ _ rfl rfl ⟨by decide, bits_fit d (by decide), boolNat_lt l, bits_fit a (by decide), boolNat_lt m, by decide, bits_fit t (by decide), trivial⟩
theorem vlog (d : BitVec 5) (l : Bool) (a : BitVec 5) (m : Bool) (b : BitVec 5) (o : BitVec 3) (t : BitVec 4) : Statement (.vlog d l a m b o t) :=
  of_pack _ _ rfl rfl ⟨by decide, bits_fit d (by decide), boolNat_lt l, bits_fit a (by decide), boolNat_lt m, bits_fit b (by decide), by decide, bits_fit o (by decide), bits_fit t (by decide), trivial⟩
theorem vsh (d : BitVec 5) (l : Bool) (a : BitVec 5) (m : Bool) (b : BitVec 5) (o : BitVec 2) (t : BitVec 4) : Statement (.vsh d l a m b o t) :=
  of_pack _ _ rfl rfl ⟨by decide, bits_fit d (by decide), boolNat_lt l, bits_fit a (by decide), boolNat_lt m, bits_fit b (by decide), by decide, bits_fit o (by decide), bits_fit t (by decide), trivial⟩
theorem vmac (d : BitVec 5) (l : Bool) (a : BitVec 5) (m : Bool) (b : BitVec 5) (t : BitVec 4) : Statement (.vmac d l a m b t) :=
  of_pack _ _ rfl rfl ⟨by decide, bits_fit d (by decide), boolNat_lt l, bits_fit a (by decide), boolNat_lt m, bits_fit b (by decide), by decide, bits_fit t (by decide), trivial⟩
theorem vcmp (d : BitVec 5) (l : Bool) (a : BitVec 5) (m : Bool) (b : BitVec 5) (c : BitVec 3) (t : BitVec 4) : Statement (.vcmp d l a m b c t) :=
  of_pack _ _ rfl rfl ⟨by decide, bits_fit d (by decide), boolNat_lt l, bits_fit a (by decide), boolNat_lt m, bits_fit b (by decide), by decide, bits_fit c (by decide), bits_fit t (by decide), trivial⟩
theorem vsel (d : BitVec 5) (l : Bool) (a : BitVec 5) (m : Bool) (b : BitVec 5) (t : BitVec 4) : Statement (.vsel d l a m b t) :=
  of_pack _ _ rfl rfl ⟨by decide, bits_fit d (by decide), boolNat_lt l, bits_fit a (by decide), boolNat_lt m, bits_fit b (by decide), by decide, bits_fit t (by decide), trivial⟩
theorem vld (d : BitVec 5) (l : Bool) (s : BitVec 6) (i : BitVec 5) : Statement (.vld d l s i) :=
  of_pack _ _ rfl rfl ⟨by decide, bits_fit d (by decide), boolNat_lt l, bits_fit s (by decide), bits_fit i (by decide), by decide, trivial⟩
theorem vst (d : BitVec 5) (l : Bool) (s : BitVec 6) (i : BitVec 5) : Statement (.vst d l s i) :=
  of_pack _ _ rfl rfl ⟨by decide, bits_fit d (by decide), boolNat_lt l, bits_fit s (by decide), bits_fit i (by decide), by decide, trivial⟩
theorem vgath (d : BitVec 5) (l : Bool) (s : BitVec 6) (b : BitVec 5) (t : BitVec 4) : Statement (.vgath d l s b t) :=
  of_pack _ _ rfl rfl ⟨by decide, bits_fit d (by decide), boolNat_lt l, bits_fit s (by decide), bits_fit b (by decide), by decide, bits_fit t (by decide), trivial⟩
theorem vscat (d : BitVec 5) (l : Bool) (s : BitVec 6) (b : BitVec 5) (t : BitVec 4) : Statement (.vscat d l s b t) :=
  of_pack _ _ rfl rfl ⟨by decide, bits_fit d (by decide), boolNat_lt l, bits_fit s (by decide), bits_fit b (by decide), by decide, bits_fit t (by decide), trivial⟩
theorem vbcast (d : BitVec 5) (l : Bool) (s : BitVec 6) (t : BitVec 4) : Statement (.vbcast d l s t) :=
  of_pack _ _ rfl rfl ⟨by decide, bits_fit d (by decide), boolNat_lt l, bits_fit s (by decide), by decide, bits_fit t (by decide), trivial⟩
theorem vperm (d : BitVec 5) (l : Bool) (a : BitVec 5) (m : Bool) (b : BitVec 5) : Statement (.vperm d l a m b) :=
  of_pack _ _ rfl rfl ⟨by decide, bits_fit d (by decide), boolNat_lt l, bits_fit a (by decide), boolNat_lt m, bits_fit b (by decide), by decide, trivial⟩
theorem vred (d : BitVec 5) (l : Bool) (a : BitVec 5) (m : Bool) (k : BitVec 5) (f : BitVec 3) (t : BitVec 4) : Statement (.vred d l a m k f t) :=
  of_pack _ _ rfl rfl ⟨by decide, bits_fit d (by decide), boolNat_lt l, bits_fit a (by decide), boolNat_lt m, bits_fit k (by decide), bits_fit f (by decide), bits_fit t (by decide), trivial⟩
theorem vscan (d : BitVec 5) (l : Bool) (a : BitVec 5) (m : Bool) (k : BitVec 5) (f : BitVec 3) (t : BitVec 4) : Statement (.vscan d l a m k f t) :=
  of_pack _ _ rfl rfl ⟨by decide, bits_fit d (by decide), boolNat_lt l, bits_fit a (by decide), boolNat_lt m, bits_fit k (by decide), by have := f.isLt; omega, bits_fit t (by decide), trivial⟩
theorem vcvt (d : BitVec 5) (l : Bool) (a : BitVec 5) (m : Bool) (g : BitVec 5) (r : BitVec 3) (t : BitVec 4) : Statement (.vcvt d l a m g r t) :=
  of_pack _ _ rfl rfl ⟨by decide, bits_fit d (by decide), boolNat_lt l, bits_fit a (by decide), boolNat_lt m, bits_fit g (by decide), by have := r.isLt; omega, bits_fit t (by decide), trivial⟩
theorem venc (d : BitVec 5) (l : Bool) (a : BitVec 5) (m : Bool) (s : BitVec 2) : Statement (.venc d l a m s) :=
  of_pack _ _ rfl rfl ⟨by decide, bits_fit d (by decide), boolNat_lt l, bits_fit a (by decide), boolNat_lt m, by decide, bits_fit s (by decide), by decide, trivial⟩
theorem vdec (d : BitVec 5) (l : Bool) (a : BitVec 5) (m : Bool) (s : BitVec 2) : Statement (.vdec d l a m s) :=
  of_pack _ _ rfl rfl ⟨by decide, bits_fit d (by decide), boolNat_lt l, bits_fit a (by decide), boolNat_lt m, by decide, bits_fit s (by decide), by decide, trivial⟩
theorem vflip (d : BitVec 5) (l : Bool) (a : BitVec 5) (m : Bool) (b : BitVec 5) (g : BitVec 3) : Statement (.vflip d l a m b g) :=
  of_pack _ _ rfl rfl ⟨by decide, bits_fit d (by decide), boolNat_lt l, bits_fit a (by decide), boolNat_lt m, bits_fit b (by decide), by decide, bits_fit g (by decide), by decide, trivial⟩
theorem mma (d : BitVec 3) (a : BitVec 3) (b : BitVec 3) (k : BitVec 3) (i : BitVec 6) (x : Bool) (r : Bool) (p : Bool) (q : Bool) : Statement (.mma d a b k i x r p q) :=
  of_pack _ _ rfl rfl ⟨by decide, bits_fit d (by decide), bits_fit a (by decide), bits_fit b (by decide), bits_fit k (by decide), bits_fit i (by decide), by decide, boolNat_lt x, boolNat_lt r, boolNat_lt p, boolNat_lt q, trivial⟩
theorem mzero (d : BitVec 3) (k : BitVec 3) (i : BitVec 6) : Statement (.mzero d k i) :=
  of_pack _ _ rfl rfl ⟨by decide, bits_fit d (by decide), by decide, bits_fit k (by decide), bits_fit i (by decide), by decide, trivial⟩
theorem mscale (d : BitVec 3) (k : BitVec 3) (i : BitVec 6) : Statement (.mscale d k i) :=
  of_pack _ _ rfl rfl ⟨by decide, bits_fit d (by decide), by decide, bits_fit k (by decide), bits_fit i (by decide), by decide, trivial⟩
theorem msm (d : BitVec 3) (g : BitVec 3) (k : BitVec 3) (i : BitVec 6) (h : Bool) : Statement (.msm d g k i h) :=
  of_pack _ _ rfl rfl ⟨by decide, bits_fit d (by decide), bits_fit g (by decide), by decide, bits_fit k (by decide), bits_fit i (by decide), by decide, boolNat_lt h, trivial⟩
theorem mmas (d : BitVec 3) (a : BitVec 3) (b : BitVec 3) (k : BitVec 3) (i : BitVec 6) (t : BitVec 2) (g : BitVec 3) (p : Bool) (q : Bool) : Statement (.mmas d a b k i t g p q) :=
  of_pack _ _ rfl rfl ⟨by decide, bits_fit d (by decide), bits_fit a (by decide), bits_fit b (by decide), bits_fit k (by decide), bits_fit i (by decide), by decide, bits_fit t (by decide), bits_fit g (by decide), boolNat_lt p, boolNat_lt q, trivial⟩
theorem mld (d : BitVec 3) (s : BitVec 6) (k : BitVec 3) (i : BitVec 6) (t : Bool) (m : BitVec 5) : Statement (.mld d s k i t m) :=
  of_pack _ _ rfl rfl ⟨by decide, bits_fit d (by decide), bits_fit s (by decide), bits_fit k (by decide), bits_fit i (by decide), by decide, boolNat_lt t, bits_fit m (by decide), trivial⟩
theorem mst (d : BitVec 3) (s : BitVec 6) (k : BitVec 3) (i : BitVec 6) (m : BitVec 5) : Statement (.mst d s k i m) :=
  of_pack _ _ rfl rfl ⟨by decide, bits_fit d (by decide), bits_fit s (by decide), bits_fit k (by decide), bits_fit i (by decide), by decide, bits_fit m (by decide), trivial⟩
theorem mmov (t : BitVec 3) (s : BitVec 6) (v : BitVec 5) (c : Bool) (d : Bool) (m : BitVec 5) : Statement (.mmov t s v c d m) :=
  of_pack _ _ rfl rfl ⟨by decide, bits_fit t (by decide), bits_fit s (by decide), bits_fit v (by decide), boolNat_lt c, by decide, boolNat_lt d, bits_fit m (by decide), trivial⟩
theorem mfmt (s : BitVec 6) : Statement (.mfmt s) :=
  of_pack _ _ rfl rfl ⟨by decide, by decide, bits_fit s (by decide), by decide, trivial⟩
theorem mtab (t : BitVec 2) (s : BitVec 6) : Statement (.mtab t s) :=
  of_pack _ _ rfl rfl ⟨by decide, by decide, bits_fit t (by decide), bits_fit s (by decide), by decide, trivial⟩
theorem kld (k : BitVec 3) (s : BitVec 6) : Statement (.kld k s) :=
  of_pack _ _ rfl rfl ⟨by decide, bits_fit k (by decide), bits_fit s (by decide), by decide, trivial⟩
theorem kop (k : BitVec 3) (s : BitVec 6) (a : BitVec 3) (o : BitVec 2) : Statement (.kop k s a o) :=
  of_pack _ _ rfl rfl ⟨by decide, bits_fit k (by decide), bits_fit s (by decide), bits_fit a (by decide), by decide, bits_fit o (by decide), trivial⟩
theorem hint (h : BitVec 26) : Statement (.hint h) :=
  of_pack _ _ rfl rfl ⟨by decide, bits_fit h (by decide), trivial⟩
theorem illegalWord (w : W32) : Statement (.illegalWord w) := nofun
theorem qcfgWrite (s : SReg) : Statement (.qcfgWrite s) := nofun
theorem domainWrite (s : SReg) : Statement (.domainWrite s) := nofun
theorem tstampWrite (s : SReg) : Statement (.tstampWrite s) := nofun
theorem ringDescriptorWrite (g : BitVec 3) (s : SReg) : Statement (.ringDescriptorWrite g s) := nofun
theorem fstatClear (s : SReg) : Statement (.fstatClear s) := nofun
theorem fstatRead (d : SReg) : Statement (.fstatRead d) := nofun
theorem hfaultClear (s : SReg) : Statement (.hfaultClear s) := nofun
theorem roleWrite (s : SReg) : Statement (.roleWrite s) := nofun
theorem vshareWrite (s : SReg) : Statement (.vshareWrite s) := nofun
theorem frameWrite (which : BitVec 2) (s : SReg) : Statement (.frameWrite which s) := nofun
theorem vectorQueueDispatch (core : Nat) : Statement (.vectorQueueDispatch core) := nofun
theorem vectorEntryComplete (core : Nat) : Statement (.vectorEntryComplete core) := nofun
theorem frameStepDispatch (core : Nat) : Statement (.frameStepDispatch core) := nofun
theorem commitWindowApply (dom : Nat) : Statement (.commitWindowApply dom) := nofun
theorem storeReplay (die : Nat) : Statement (.storeReplay die) := nofun
theorem domainArrival (core : Nat) : Statement (.domainArrival core) := nofun
theorem superstepRelease (dom : Nat) : Statement (.superstepRelease dom) := nofun
theorem superstepEnd (dom : Nat) : Statement (.superstepEnd dom) := nofun
theorem exchangeTransmit (core : Nat) (frame : Byte) (slot : BitVec 6) : Statement (.exchangeTransmit core frame slot) := nofun
theorem exchangeArrival (core : Nat) (frame : Byte) (slot : BitVec 6) : Statement (.exchangeArrival core frame slot) := nofun
theorem gatherServe (core : Nat) : Statement (.gatherServe core) := nofun
theorem markEndNotice (core : Nat) : Statement (.markEndNotice core) := nofun
theorem markTick (tenant : BitVec 3) (region : Byte) : Statement (.markTick tenant region) := nofun
theorem markDepositApply (core : Nat) : Statement (.markDepositApply core) := nofun
theorem markSenseServe (core : Nat) : Statement (.markSenseServe core) := nofun
theorem teamArrival (tenant : BitVec 3) (tid : BitVec 15) (req : TeamReq) : Statement (.teamArrival tenant tid req) := nofun
theorem teamDeparture (slot : BitVec 14) (tid : BitVec 15) : Statement (.teamDeparture slot tid) := nofun
theorem teamParkedNotice (slot : BitVec 14) (tid : BitVec 15) (parked : Bool) : Statement (.teamParkedNotice slot tid parked) := nofun
theorem domainResumeRequest (dom : Nat) : Statement (.domainResumeRequest dom) := nofun
theorem copySlotReserve (core : Nat) (id : Nat) : Statement (.copySlotReserve core id) := nofun
theorem copyStatus (core : Nat) (id : Nat) : Statement (.copyStatus core id) := nofun
theorem streamerBatchElement (core : Nat) (fifo : BitVec 4) : Statement (.streamerBatchElement core fifo) := nofun
theorem streamerCompletionPush (core : Nat) (fifo : BitVec 4) : Statement (.streamerCompletionPush core fifo) := nofun
theorem multicastArrival (core : Nat) : Statement (.multicastArrival core) := nofun
theorem reductionBatch (stack : Nat) : Statement (.reductionBatch stack) := nofun
theorem descriptorWake (core : Nat) : Statement (.descriptorWake core) := nofun
theorem pacerPush (core : Nat) : Statement (.pacerPush core) := nofun
theorem wranglerSample (die : Nat) (tenant : BitVec 3) : Statement (.wranglerSample die tenant) := nofun
theorem spinGovernorTrip (core : Nat) (ctx : Fin 12) : Statement (.spinGovernorTrip core ctx) := nofun
theorem spinHoldExpiry (core : Nat) (ctx : Fin 12) : Statement (.spinHoldExpiry core ctx) := nofun
theorem idleExpiry (core : Nat) (ctx : Fin 12) : Statement (.idleExpiry core ctx) := nofun
theorem weightRefresh (die : Nat) : Statement (.weightRefresh die) := nofun
theorem waitCounterPoll (gang : W32) : Statement (.waitCounterPoll gang) := nofun
theorem gangPlace : Statement (.gangPlace) := nofun
theorem gangComplete (gang : W32) : Statement (.gangComplete gang) := nofun
theorem preemptInterrupt (core : Nat) (stat : BitVec 2) : Statement (.preemptInterrupt core stat) := nofun
theorem restoreInterrupt (core : Nat) (gang : W32) : Statement (.restoreInterrupt core gang) := nofun
theorem lendEnd (core : Nat) : Statement (.lendEnd core) := nofun
theorem spillDivert (core : Nat) (p : Packet) : Statement (.spillDivert core p) := nofun
theorem packetResend (core : Nat) : Statement (.packetResend core) := nofun
theorem pageFaultRetry (die : Nat) (tenant : BitVec 3) (page : BitVec 32) : Statement (.pageFaultRetry die tenant page) := nofun
theorem pageFaultFatal (die : Nat) (tenant : BitVec 3) (page : BitVec 32) : Statement (.pageFaultFatal die tenant page) := nofun
theorem trapQueueRecord (die : Nat) : Statement (.trapQueueRecord die) := nofun
theorem doubleFault (core : Nat) : Statement (.doubleFault core) := nofun
theorem lostResponse (core : Nat) (ctx : Fin 12) (k : LostKind) : Statement (.lostResponse core ctx k) := nofun
theorem bridleHalt (tenant : Option (BitVec 3)) : Statement (.bridleHalt tenant) := nofun
theorem bridleResume (tenant : Option (BitVec 3)) : Statement (.bridleResume tenant) := nofun
theorem powerLimit (on : Bool) : Statement (.powerLimit on) := nofun
theorem criticalTemperature : Statement (.criticalTemperature) := nofun
theorem deviceReset (firmware configuration : Image) : Statement (.deviceReset firmware configuration) := nofun
theorem tenantCreate (c : Cmd) (spec : TenantSpec) : Statement (.tenantCreate c spec) := nofun
theorem tenantTeardown (c : Cmd) : Statement (.tenantTeardown c) := nofun
theorem fabricConfiguration (c : Cmd) (cal : List (Nat × Nat × Byte)) (rein : List (Nat × Nat × Half)) (link : List (Nat × Nat × Byte)) : Statement (.fabricConfiguration c cal rein link) := nofun
theorem imageLoad (c : Cmd) (image : Image) (bytes : Nat) : Statement (.imageLoad c image bytes) := nofun
theorem memoryRead (c : Cmd) (at_ : HostAddr) (n : Nat) : Statement (.memoryRead c at_ n) := nofun
theorem memoryWrite (c : Cmd) (at_ : HostAddr) (bytes : List Byte) : Statement (.memoryWrite c at_ bytes) := nofun
theorem hostLaunch (c : Cmd) (record : BitVec 512) : Statement (.hostLaunch c record) := nofun
theorem event (c : Cmd) (va : W64) (value : W64) : Statement (.event c va value) := nofun
theorem weightStoreFill (c : Cmd) (va : W64) (bytes : List Byte) : Statement (.weightStoreFill c va bytes) := nofun
theorem regionInstall (c : Cmd) (region : Byte) (desc : BitVec 128) : Statement (.regionInstall c region desc) := nofun
theorem regionRewrite (c : Cmd) (region : Byte) (desc : BitVec 128) : Statement (.regionRewrite c region desc) := nofun
theorem regionRemove (c : Cmd) (region : Byte) : Statement (.regionRemove c region) := nofun
theorem translationInvalidate (c : Cmd) : Statement (.translationInvalidate c) := nofun
theorem pageMigrate (c : Cmd) (va : W64) (home : Loc) : Statement (.pageMigrate c va home) := nofun
theorem journalRead (c : Cmd) (from_ : W64) : Statement (.journalRead c from_) := nofun
theorem capabilityRead (c : Cmd) : Statement (.capabilityRead c) := nofun
theorem attest (c : Cmd) (nonce : BitVec 512) : Statement (.attest c nonce) := nofun
theorem layerSleep (c : Cmd) (die : Nat) : Statement (.layerSleep c die) := nofun
theorem layerWake (c : Cmd) (die : Nat) : Statement (.layerWake c die) := nofun
theorem bridleQuiesced (tenant : Option (BitVec 3)) : Statement (.bridleQuiesced tenant) := nofun
theorem fatalRecordServed (die : Nat) : Statement (.fatalRecordServed die) := nofun
theorem tenantFieldError (link : Nat) : Statement (.tenantFieldError link) := nofun
theorem networkSendElement (core : Nat) (fifo : BitVec 4) : Statement (.networkSendElement core fifo) := nofun
theorem networkInbound (core : Nat) (fifo : BitVec 4) (elem : W64) (writes : List (W64 × Byte)) (ack : Option (BitVec 15)) : Statement (.networkInbound core fifo elem writes ack) := nofun

end Laws.WordSize

end Sys2Proof
end

