-- ==== Sys2Proof/Laws/Reds.lean ====
section
/-!
SUPPORT. What flushing a core's REDs does where it has sent none, and what an instruction that waits behind its release keeps.
-/
namespace Sys2Proof.Machine

/-- With no RED ahead, nothing is flushed. -/
theorem landReds_none (ahead : RedReq → Bool) (s : State) (h : ∀ r ∈ s.pkg.reds, ahead r = false) : landReds ahead s = s := by
  have : s.pkg.reds.filter ahead = [] := List.filter_eq_nil_iff.mpr fun r m => by simp [h r m]
  simp [landReds, this]

theorem flushReds_none (p : Nat) (s : State) (h : ∀ r ∈ s.pkg.reds, r.core ≠ s.coreId) : flushReds p s = s :=
  landReds_none _ s fun r m => by simp [RedReq.goesTo, h r m]

theorem flushAhead_none (es : List WinEntry) (s : State) (h : ∀ r ∈ s.pkg.reds, r.core ≠ s.coreId) : flushAhead es s = s := by
  induction es with
  | nil => rfl
  | cons e es ih =>
    rw [flushAhead, List.foldl_cons, flushReds_none _ s h, ite_self]
    exact ih

/-- Behind its release an instruction that waits has taken its entries, and one that completes or traps is as without sources. -/
theorem settleTaking_wait (srcs : List Src) (s : State) (w : Wait) : settleTaking srcs s (wait w) = (takeEntries srcs s).blockOn w := rfl

theorem settleTaking_ok (srcs : List Src) (s t : State) : settleTaking srcs s (.ok t) = t := rfl

theorem settleTaking_trap (srcs : List Src) (s : State) (x : Trap) : settleTaking srcs s (.error (.trap x)) = takeTrap x s := rfl

end Sys2Proof.Machine
end

