-- ==== Sys2Proof/Tests/Slice0.lean ====
section
/-!
SUPPORT. Tests: what `legal` refuses, the decoding of words from the manual, one-step checks against the manual, and for every
statement with hypotheses a concrete state and operands that meet them.
-/
namespace Sys2Proof.Tests
open Machine Claims
set_option Elab.async false

/-! Small states -/

/-- Core 0 under gang 1, with s6 = 5, s7 = 3, s8 = 64, s9 = 2 (a bad target). -/
def base : State := (State.reset.modCore fun c => { c with gang := some 1 }).modCtx fun c =>
  (((c.setS 6 5).setS 7 3).setS 8 64).setS 9 2

/-- `base` about to fetch a word. -/
def at0 (w : Nat) : State := base.withFetchWord 32 w

/-- `base` with the helper 1 or the handler issuing. -/
def asHelper : State := base.modCore fun c => { c with cur := 1, ctxs := (c.ctxs.set 1 { c.ctxs[0] with live := true }) }
def asHandler : State := base.modCore fun c => { c with cur := 11, ctxs := c.ctxs.set 11 { c.ctxs[0] with live := true } }

/-- A tenant with all of far memory below 1 GiB mapped at its own numbers: root table at 0, one leaf in the table at 0x1000. -/
def someSpec : TenantSpec :=
  { cores := [0, 1], root := ⟨0, 0, 0⟩, capVA := 0, teamQuota := 8, launchQuota := 8, srwin := 0, rwwin := 0, replicas := [],
    kernelTable := 0, fifos := [], stages := [], images := [], keys := [0], tables := [] }
def someTenant : Tenant := { num := 0, spec := someSpec, regions := [], memKey := 0 }
def tables : Memory := [(0, 0x01), (1, 0x10), (0x1000, 0x4F)]
/-- A slot of tenant 0 in the calendar of a die. -/
def slotted (d : Nat) (s : State) : State := s.modDie d fun x => { x with cal := x.cal.set 0 0x10 }
/-- Rein slots of a stack for its base die and its layer 1. -/
def reined (st : Nat) (s : State) : State := s.modStack st fun k => { k with slots := (k.slots.set 0 1).set 1 0 }
def paged : State := reined 0 (slotted 0 { base with
  mem := tables, pkg := { base.pkg with host := { base.pkg.host with ready := true, tenants := [someTenant] } } })

/-- A register of the issuing context set to a value. -/
def withS (s : State) (r : SReg) (v : W64) : State := s.modCtx fun c => c.setS r v

/-- A Boolean test of the next state. -/
def after (r : Result) (p : State → Bool) : Bool := match r with | .next t => p t | _ => false

/-- An operation answers a value of which `p` holds. -/
def answers {ε α : Type} (r : Except ε α) (p : α → Bool) : Bool := match r with | .ok a => p a | .error _ => false
theorem of_answers {ε α : Type} {r : Except ε α} {p : α → Bool} (h : answers r p = true) : ∃ a, r = .ok a ∧ p a = true := by
  cases r with
  | ok a => exact ⟨a, rfl, h⟩
  | error e => cases h
/-- A release is complete in a state of which `p` holds. -/
def done (r : Release) (p : State → Bool) : Bool := match r with | .done t => p t | _ => false

/-! What `legal` refuses: an ill-formed term for each check -/

theorem test_refusesScalar : ([.plog 1 false 1 false 1 6, .bfx 1 false 1 false 63 1, .bfi 1 false 1 63 1, .bfi 56 false 1 0 0, .ld 1 false 1 3 true 0, .lda 1 false 1 3 true 0,
    .stl 3 false 1 false 1 6 0, .fenceRel false false 6, .fenceFull false false 6, .amo 1 false 1 false 1 false true 10, .amo 56 false 1 false 1 false true 9,
    .amof 1 false 1 false 1 true 3, .redInt false 1 false 1 true 8, .redFloat false 1 false 1 true 3] : List Instr).all (fun i => !legal i) = true := by decide
theorem test_refusesTeams : ([.hitch 1 1 false 1 3, .unhitch 1 false 6, .tbar 1 1 false 6, .tbar 1 56 false 0, .tarr 1 false 6, .twait 1 56 false, .tvote 1 2 false 1 0 6,
    .tvote 1 2 false 1 3 0, .tvote 1 3 false 1 0 0, .tvote 1 0 false 1 0 0, .tvote 1 56 false 1 0 0, .tred 1 2 false 4 0 0 6, .tred 1 2 false 4 0 3 0, .tred 1 2 false 4 3 0 0,
    .tred 1 3 false 4 0 0 0, .tred 1 2 false 5 0 0 0, .tinfo 1 56 false] : List Instr).all (fun i => !legal i) = true := by decide
theorem test_refusesUnits : ([.wcnt 1 false false 9, .chput 1 false 1 false 24, .chget 1 1 false 24, .cpy 1 false 1 false 8 false 0, .cpy 1 false 1 false 63 false 6,
    .cpy 56 false 1 false 63 false 0, .cpyCsr 1 false 1 false 6, .cpyCsr 56 false 1 false 0, .cpym 1 false 1 false 1 6, .cpym 56 false 1 false 1 0, .mfs 1 0x007, .mfs 1 0x00A,
    .mts 1 0x032, .mts 1 0x052, .mts 1 0x075, .svctx 11, .ldctx 11] : List Instr).all (fun i => !legal i) = true := by decide
theorem test_refusesVector : ([.vadd 1 false 1 false 1 5 2, .vadd 1 false 1 false 1 0 5, .vsub 1 false 1 false 1 5 2, .vsub 1 false 1 false 1 0 5, .vmul 1 false 1 false 1 5 2,
    .vmul 1 false 1 false 1 0 5, .vfma 1 false 1 false 1 5 2, .vfma 1 false 1 false 1 0 0, .vmax 1 false 1 false 1 5, .vmin 1 false 1 false 1 5, .vabs 1 false 1 false 1,
    .vneg 1 false 1 false 1, .vrcp 1 false 1 false 5 2, .vrcp 1 false 1 false 0 0, .vrsq 1 false 1 false 5 2, .vrsq 1 false 1 false 0 0, .vexp 1 false 1 false 0,
    .vlog 1 false 1 false 1 0 2, .vlog 1 false 1 false 1 4 0, .vlog 1 false 1 false 0 5 0, .vsh 1 false 1 false 1 0 2, .vsh 1 false 1 false 1 3 0] : List Instr).all
    (fun i => !legal i) = true := by decide
theorem test_refusesRows : ([.vmac 1 false 1 false 1 6, .vcmp 1 false 1 false 1 0 5, .vcmp 1 false 1 false 1 6 0, .vsel 1 false 1 false 1 5, .vgath 1 false 1 1 5, .vscat 1 false 1 1 5,
    .vbcast 1 false 1 5, .vred 1 false 1 false 0 0 5, .vred 1 false 1 false 0 7 0, .vscan 1 false 1 false 0 0 5, .vscan 1 false 1 false 0 7 0, .vcvt 1 false 1 false 2 5 0,
    .vcvt 1 false 1 false 2 0 7, .vcvt 1 false 1 false 7 0 0, .vcvt 1 false 1 false 2 0 2, .mma 0 1 1 0 0 false false false true, .mmas 0 1 2 0 0 3 4 false false,
    .mmas 0 1 1 0 0 0 4 false true, .mmas 0 1 2 0 0 0 2 true false, .mmas 0 1 1 0 0 0 1 true false] : List Instr).all (fun i => !legal i) = true := by decide
theorem test_refusesCores : ([.vectorQueueDispatch 1536, .vectorEntryComplete 1536, .frameStepDispatch 1536, .domainArrival 1536, .exchangeTransmit 1536 0 0, .exchangeArrival 1536 0 0,
    .gatherServe 1536, .markEndNotice 1536, .markDepositApply 1536, .markSenseServe 1536, .copySlotReserve 1536 0, .copyStatus 1536 0, .streamerBatchElement 1536 0,
    .streamerCompletionPush 1536 0, .multicastArrival 1536, .descriptorWake 1536, .pacerPush 1536, .spinGovernorTrip 1536 0, .spinHoldExpiry 1536 0, .idleExpiry 1536 0,
    .preemptInterrupt 1536 0, .restoreInterrupt 1536 1, .lendEnd 1536, .spillDivert 1536 ⟨0, 1, 0, .release 0⟩, .packetResend 1536, .doubleFault 1536, .lostResponse 1536 0 .resend,
    .networkSendElement 1536 0, .networkInbound 1536 0 0 [] none] : List Instr).all (fun i => !legal i) = true := by decide
theorem test_refusesDies : ([.storeReplay 24, .reductionBatch 4, .wranglerSample 24 0, .weightRefresh 24, .pageFaultRetry 24 0 0, .pageFaultFatal 24 0 0, .trapQueueRecord 24,
    .layerSleep ⟨0, 0, 0, 0, 0, 0, 0, 0, 0⟩ 24, .layerWake ⟨0, 0, 0, 0, 0, 0, 0, 0, 0⟩ 24, .fatalRecordServed 24] : List Instr).all (fun i => !legal i) = true := by decide

/-! Words written out bit by bit -/

/-- OP 0x01 (R341): the examples, and the function codes in format 3R. -/
theorem test_decode_integer :
    decode 0x0488_D1C0 = .ok (.add 8 true 6 true 7) ∧
    decode 0x04F1_A381 = .ok (.sub 15 false 13 false 14) ∧
    decode 0x0470_C013 = .ok (.clz 7 false 6 false) ∧
    decode 0b000001_001010_0_000110_1_000111_000010 = .ok (.and 10 false 6 true 7) ∧
    decode 0b000001_001011_1_000110_0_000111_000011 = .ok (.or 11 true 6 false 7) ∧
    decode 0b000001_001100_0_000110_1_000111_000100 = .ok (.xor 12 false 6 true 7) ∧
    decode 0b000001_001101_1_000110_0_000111_000101 = .ok (.shl 13 true 6 false 7) ∧
    decode 0b000001_001110_0_000110_1_000111_000110 = .ok (.shr 14 false 6 true 7) ∧
    decode 0b000001_001111_1_000110_0_000111_000111 = .ok (.shrS 15 true 6 false 7) ∧
    decode 0b000001_010000_0_000110_1_000111_001000 = .ok (.mul 16 false 6 true 7) ∧
    decode 0b000001_010001_1_000110_0_000111_001001 = .ok (.mulh 17 true 6 false 7) ∧
    decode 0b000001_010010_0_000110_1_000111_001010 = .ok (.mulhU 18 false 6 true 7) ∧
    decode 0b000001_010011_1_000110_0_000111_001011 = .ok (.div 19 true 6 false 7) ∧
    decode 0b000001_010100_0_000110_1_000111_001100 = .ok (.divU 20 false 6 true 7) ∧
    decode 0b000001_010101_1_000110_0_000111_001101 = .ok (.rem 21 true 6 false 7) ∧
    decode 0b000001_010110_0_000110_1_000111_001110 = .ok (.remU 22 false 6 true 7) ∧
    decode 0b000001_010111_1_000110_0_000111_001111 = .ok (.min 23 true 6 false 7) ∧
    decode 0b000001_011000_0_000110_1_000111_010000 = .ok (.minU 24 false 6 true 7) ∧
    decode 0b000001_011001_1_000110_0_000111_010001 = .ok (.max 25 true 6 false 7) ∧
    decode 0b000001_011010_0_000110_1_000111_010010 = .ok (.maxU 26 false 6 true 7) ∧
    decode 0b000001_001001_1_000110_0_000000_010100 = .ok (.popc 9 true 6 false) :=
  ⟨rfl, rfl, rfl, rfl, rfl, rfl, rfl, rfl, rfl, rfl, rfl, rfl, rfl, rfl, rfl, rfl, rfl, rfl, rfl, rfl, rfl⟩

/-- OP 0x02–0x0F (R342, R345, R348, R386, R391, R367, R390). -/
theorem test_decode_immediate :
    decode 0x0899_0064 = .ok (.addi 9 true 8 100) ∧
    decode 0x0CE1_601F = .ok (.andi 14 false 11 31) ∧
    decode 0x1060_C94E = .ok (.ori 6 false 6 0x94E) ∧
    decode 0b000101_000111_0_000110_1111111111111 = .ok (.xori 7 false 6 0x1FFF) ∧
    decode 0b000110_000111_1_000110_0000000_100001 = .ok (.shli 7 true 6 33) ∧
    decode 0x1CA9_0010 = .ok (.shri 10 true 8 16) ∧
    decode 0x1C60_D003 = .ok (.shriS 6 false 6 3) ∧
    decode 0x2020_C1C2 = .ok (.cmp 2 false 6 false 7 2) ∧
    decode 0x2508_C000 = .ok (.cmpi 4 1 6 0) ∧
    decode 0x24D1_6000 = .ok (.cmpi 3 2 11 0) ∧
    decode 0x2880_C1C2 = .ok (.sel 8 false 6 false 7 false 2) ∧
    decode 0x2880_C1D2 = .ok (.sel 8 false 6 false 7 true 2) ∧
    decode 0x2C30_2080 = .ok (.plog 3 false 1 false 2 0) ∧
    decode 0x2C40_0103 = .ok (.plog 4 false 0 false 4 3) ∧
    decode 0x3070_C0D0 = .ok (.bfx 7 false 6 false 3 16) ∧
    decode 0x34A0_C0C4 = .ok (.bfi 10 false 6 3 4) ∧
    decode 0x3866_7414 = .ok (.lih 6 0x67414) ∧
    decode 0x3C60_0002 = .ok (.pcrel 6 2) :=
  ⟨rfl, rfl, rfl, rfl, rfl, rfl, rfl, rfl, rfl, rfl, rfl, rfl, rfl, rfl, rfl, rfl, rfl, rfl⟩

/-- OP 0x10–0x14 (R346, R360, R31, R430). -/
theorem test_decode_control :
    decode 0x4060_0003 = .ok (.br 1 true 3) ∧
    decode 0x401F_FFFB = .ok (.br 0 false (-5)) ∧
    decode 0x45F0_0010 = .ok (.jal 31 16) ∧
    decode 0x480B_E000 = .ok (.jr 0 true 31 false) ∧
    decode 0x4C60_E202 = .ok (.start 6 false 7 false 8 2) ∧
    decode 0x5000_0000 = .ok (.quit false false) ∧
    decode 0x5000_8001 = .ok (.hwait false 4 false) ∧
    decode 0x5000_0002 = .ok (.yield false false) ∧
    decode 0x5001_2003 = .ok (.idle false 9 false) :=
  ⟨rfl, rfl, rfl, rfl, rfl, rfl, rfl, rfl, rfl⟩

/-- OP 0x15–0x1D (R363, R364, R366, R392, R393, R395, R355, R343, R344, R388). -/
theorem test_decode_memory :
    decode 0x5460_3805 = .ok (.ld 6 false 1 3 false 5) ∧
    decode 0x54F1_B01F = .ok (.ld 15 false 13 2 false 31) ∧
    decode 0x5460_E7FF = .ok (.ld 6 false 7 0 true (-1)) ∧
    decode 0x5B92_23FF = .ok (.st 3 true 9 false 8 (-1)) ∧
    decode 0x5C90_D800 = .ok (.lda 9 false 6 3 false 0) ∧
    decode 0x632E_5900 = .ok (.stl 3 false 23 false 22 2 0) ∧
    decode 0x630E_3301 = .ok (.stOwn 3 false 7 false 12 1) ∧
    decode 0x630F_2380 = .ok (.stStk 3 false 7 true 8 0) ∧
    decode 0x6580_F801 = .ok (.ldsumF64 24 false 7 1) ∧
    decode 0b011001_011000_0_000111_10_0_0000000001 = .ok (.ldsumF32 24 false 7 1) ∧
    decode 0b011001_011000_0_000111_11_1_0000000001 = .ok (.ldsumI64 24 false 7 1) ∧
    decode 0x6800_000A = .ok (.fenceRel false false 2) ∧
    decode 0x6800_0014 = .ok (.fenceAcq false false 4) ∧
    decode 0x6800_001C = .ok (.fenceFull false false 4) ∧
    decode 0x6C60_E230 = .ok (.amo 6 false 7 false 8 true true 0) ∧
    decode 0x6C80_C1D9 = .ok (.amo 8 false 6 false 7 false true 9) ∧
    decode 0x7060_E204 = .ok (.amof 6 false 7 false 8 true 0) ∧
    decode 0x7400_C1D0 = .ok (.redInt false 6 false 7 true 0) ∧
    decode 0x7400_C1E0 = .ok (.redFloat false 6 false 7 false 0) :=
  ⟨rfl, rfl, rfl, rfl, rfl, rfl, rfl, rfl, rfl, rfl, rfl, rfl, rfl, rfl, rfl, rfl, rfl, rfl, rfl⟩

/-- OP 0x1E–0x27 (R103, R72). -/
theorem test_decode_marks_teams :
    decode 0x7800_C1C0 = .ok (.mdep false 6 false 7) ∧
    decode 0x7C80_C00F = .ok (.msenseMax 8 false 6 15) ∧
    decode 0x7C80_D00F = .ok (.msenseMin 8 false 6 15) ∧
    decode 0x8043_0E10 = .ok (.hitch 1 3 false 7 2) ∧
    decode 0x8480_0004 = .ok (.unhitch 2 false 4) ∧
    decode 0x8886_0004 = .ok (.tbar 2 6 false 4) ∧
    decode 0x8C00_0004 = .ok (.tarr 0 false 4) ∧
    decode 0x9086_0000 = .ok (.twait 2 6 false) ∧
    decode 0x940A_1213 = .ok (.tvote 0 10 false 9 2 3) ∧
    decode 0x9808_1843 = .ok (.tred 0 8 false 12 2 0 3) ∧
    decode 0x9CC9_0000 = .ok (.tinfo 3 9 false) ∧
    decode 0x9CC0_0008 = .ok (.tdrop 3 false) :=
  ⟨rfl, rfl, rfl, rfl, rfl, rfl, rfl, rfl, rfl, rfl, rfl, rfl⟩

/-- OP 0x28–0x2B (R256, R264, R349–R353, R396, R409). -/
theorem test_decode_work :
    decode 0xA011_0000 = .ok (.wpush 1 false 8 false) ∧
    decode 0b101000_00_0001_1_001000_0_000000_000001 = .ok (.wpushOrd 1 true 8 false) ∧
    decode 0xA060_E082 = .ok (.wpop 6 false 7 false 2) ∧
    decode 0xA060_E088 = .ok (.wsteal 6 false 7 false 2 0) ∧
    decode 0xA090_0018 = .ok (.wcnt 9 false false 8) ∧
    decode 0xA410_C200 = .ok (.chput 1 false 6 false 8) ∧
    decode 0xA470_4201 = .ok (.chget 7 2 false 8) ∧
    decode 0xA8E1_6002 = .ok (.cpy 14 false 11 false 0 false 2) ∧
    decode 0xA890_CFD4 = .ok (.cpyCsr 9 false 6 false 4) ∧
    decode 0xA890_C1E4 = .ok (.cpym 9 false 6 false 7 4) ∧
    decode 0xA820_C0F0 = .ok (.subs 2 false 6 3) ∧
    decode 0xA800_C031 = .ok (.unsubs false 6) ∧
    decode 0xAC10_0243 = .ok (.epush 1 false false 9 3) ∧
    decode 0xAC60_4014 = .ok (.epop 6 false 2 false 4) :=
  ⟨rfl, rfl, rfl, rfl, rfl, rfl, rfl, rfl, rfl, rfl, rfl, rfl, rfl, rfl⟩

/-- OP 0x2C and 0x2D (R31, R235, R103, R247, R384). -/
theorem test_decode_domain_launch :
    decode 0xB000_0000 = .ok (.sync false false) ∧
    decode 0xB050_C1C1 = .ok (.xmit 5 false 6 false 7) ∧
    decode 0xB051_0242 = .ok (.xsel 5 false 8 false 9) ∧
    decode 0xB090_C003 = .ok (.mread 9 false 6 false) ∧
    decode 0xB000_C004 = .ok (.mtick false 6 false) ∧
    decode 0xB460_E040 = .ok (.launch 6 false 7 false 1) ∧
    decode 0xB400_C001 = .ok (.pace false 6 false) ∧
    decode 0xB400_C002 = .ok (.permit false 6 false) :=
  ⟨rfl, rfl, rfl, rfl, rfl, rfl, rfl, rfl⟩

/-- OP 0x2E, 0x2F and 0x3F (R371, R404, R354, R397, R365, R358, R389, R336). -/
theorem test_decode_system :
    decode 0xB900_1600 = .ok (.mfs 16 0x016) ∧
    decode 0xB890_1200 = .ok (.mfs 9 0x012) ∧
    decode 0xB870_2001 = .ok (.mts 7 0x020) ∧
    decode 0xB800_0502 = .ok (.trap 5) ∧
    decode 0xB800_0003 = .ok (.eret) ∧
    decode 0xB800_0004 = .ok (.svctx 0) ∧
    decode 0xB800_0205 = .ok (.ldctx 2) ∧
    decode 0xB800_0006 = .ok (.icflush) ∧
    decode 0xBC87_C201 = .ok (.rep 2 31 0x201) ∧
    decode 0xFC00_0000 = .ok (.hint 0) ∧
    decode 0xFD00_0000 = .ok (.hint 0x1000000) :=
  ⟨rfl, rfl, rfl, rfl, rfl, rfl, rfl, rfl, rfl, rfl, rfl⟩

/-- OP 0x30–0x34 (R410–R427; vmin, vneg and vrsq by R331 and R412). -/
theorem test_decode_vector :
    decode 0xC0C3_0E12 = .ok (.vadd 6 false 6 false 7 1 2) ∧
    decode 0xC0C3_0E54 = .ok (.vsub 6 false 6 false 7 0 4) ∧
    decode 0xC103_0EB4 = .ok (.vmul 8 false 6 false 7 1 4) ∧
    decode 0xC103_0F02 = .ok (.vfma 8 false 6 false 7 1 2) ∧
    decode 0xC0C3_0F44 = .ok (.vmax 6 false 6 false 7 4) ∧
    decode 0b110000_00110_1_00110_0_00111_10101_0000 = .ok (.vmin 6 true 6 false 7 0) ∧
    decode 0xC0C3_8162 = .ok (.vabs 6 false 7 false 2) ∧
    decode 0b110000_00110_0_00111_1_00000_10111_0010 = .ok (.vneg 6 false 7 true 2) ∧
    decode 0xC0C3_8382 = .ok (.vrcp 6 false 7 false 1 2) ∧
    decode 0b110000_00110_0_00111_0_00001_11001_0010 = .ok (.vrsq 6 false 7 false 1 2) ∧
    decode 0xC0C3_81A2 = .ok (.vexp 6 false 7 false 2) ∧
    decode 0xC4C3_0E01 = .ok (.vlog 6 false 6 false 7 0 1) ∧
    decode 0xC4C3_0E81 = .ok (.vsh 6 false 6 false 7 0 1) ∧
    decode 0xC4E3_12C8 = .ok (.vmac 7 false 6 false 9 8) ∧
    decode 0xC4E3_12C7 = .ok (.vmac 7 false 6 false 9 7) ∧
    decode 0xC523_0F22 = .ok (.vcmp 9 false 6 false 7 2 2) ∧
    decode 0xC523_0F82 = .ok (.vsel 9 false 6 false 7 2) ∧
    decode 0xC8C3_0000 = .ok (.vld 6 false 12 0) ∧
    decode 0xC903_4010 = .ok (.vst 8 false 13 0) ∧
    decode 0xCAC1_8822 = .ok (.vgath 22 false 6 4 2) ∧
    decode 0xCA81_8832 = .ok (.vscat 20 false 6 4 2) ∧
    decode 0xC932_4040 = .ok (.vbcast 9 true 9 0) ∧
    decode 0xC8C3_9050 = .ok (.vperm 6 false 7 false 8) ∧
    decode 0xCD24_0014 = .ok (.vred 9 false 8 false 0 1 4) ∧
    decode 0xCD43_0E12 = .ok (.vred 10 false 6 false 7 1 2) ∧
    decode 0xCD03_8081 = .ok (.vscan 8 false 7 false 0 0 1) ∧
    decode 0xCD03_0E92 = .ok (.vscan 8 false 6 false 7 1 2) ∧
    decode 0xCCE3_0B12 = .ok (.vcvt 7 false 6 false 5 1 2) ∧
    decode 0xCCE3_0182 = .ok (.venc 7 false 6 false 0) ∧
    decode 0xCD03_8199 = .ok (.vdec 8 false 7 false 0) ∧
    decode 0xD143_0E22 = .ok (.vflip 10 false 6 false 7 2) :=
  ⟨rfl, rfl, rfl, rfl, rfl, rfl, rfl, rfl, rfl, rfl, rfl, rfl, rfl, rfl, rfl, rfl, rfl, rfl, rfl, rfl, rfl, rfl, rfl, rfl, rfl, rfl, rfl, rfl, rfl, rfl, rfl⟩

/-- OP 0x35–0x37 (R368–R383). -/
theorem test_decode_matrix :
    decode 0xD402_0003 = .ok (.mma 0 0 1 0 0 false false true true) ∧
    decode 0xD400_0010 = .ok (.mzero 0 0 0) ∧
    decode 0xD580_0020 = .ok (.mscale 3 0 0) ∧
    decode 0xD420_0030 = .ok (.msm 0 2 0 0 false) ∧
    decode 0xD402_408A = .ok (.mmas 0 0 1 1 0 0 2 true false) ∧
    decode 0xD81A_0020 = .ok (.mld 0 13 0 0 true 0) ∧
    decode 0xD81A_0040 = .ok (.mst 0 13 0 0 0) ∧
    decode 0xD880_0080 = .ok (.mmov 1 0 0 false false 0) ∧
    decode 0xDC0C_0000 = .ok (.mfmt 6) ∧
    decode 0xDC34_0040 = .ok (.mtab 0 26) ∧
    decode 0xDCB6_0080 = .ok (.kld 1 27) ∧
    decode 0xDC92_40C3 = .ok (.kop 1 9 1 3) :=
  ⟨rfl, rfl, rfl, rfl, rfl, rfl, rfl, rfl, rfl, rfl, rfl, rfl⟩

/-! Witnesses: decoding, the step -/

theorem witness_decodeOfEncode : (Instr.add 8 true 6 true 7).WellFormed ∧ encode (.add 8 true 6 true 7) = some 0x0488_D1C0 := ⟨rfl, rfl⟩
theorem witness_encodeOfDecode : decode 0xC4C3_0E81 = .ok (.vsh 6 false 6 false 7 0 1) := rfl
theorem witness_stepRunsDecoded : ∃ u, (at0 0x0899_0064).coreId < Config.cores ∧ (at0 0x0899_0064).turn = some (.issue (at0 0x0899_0064).coreId 0) ∧
    fetchWord (issuing 0 (at0 0x0899_0064)) ((at0 0x0899_0064).ctxAt 0).pc = .ok (0x0899_0064, u) ∧
    decode 0x0899_0064 = .ok (.addi 9 true 8 100) ∧ u.core.exch = none := ⟨_, by decide, rfl, rfl, rfl, rfl⟩
theorem witness_stepRunsIllegal : ∃ u, fetchWord (issuing 0 (at0 0xE000_0000)) ((at0 0xE000_0000).ctxAt 0).pc = .ok (0xE000_0000, u) ∧
    decode 0xE000_0000 = .error (.reservedOpcode 0x38) ∧ u.core.exch = none := ⟨_, rfl, rfl, rfl⟩
/-- In an exchange phase, with a transfer armed or none. -/
def inExchange (armed : List Xmit) : State := (at0 0x0899_0064).modCore fun c => { c with exch := some 0, xmits := armed }
theorem witness_stepEndsExchange : ∃ u, fetchWord (issuing 0 (inExchange [])) ((inExchange []).ctxAt 0).pc = .ok (0x0899_0064, u) ∧
    u.core.exch ≠ none ∧ exchangePending u.cycle.toNat u.core = false ∧ Instr.isExchange (.addi 9 true 8 100) = false := ⟨_, rfl, by decide, rfl, rfl⟩
theorem witness_stepWaitsExchange : ∃ u, fetchWord (issuing 0 (inExchange [⟨5, 0, 0, 1, false, false, false⟩])) 0 = .ok (0x0899_0064, u) ∧
    u.core.exch ≠ none ∧ exchangePending u.cycle.toNat u.core = true := ⟨_, rfl, by decide, rfl⟩
theorem witness_instructionsKeepClock : ∃ t, (Instr.hint 0).Encoded ∧ exec (.hint 0) base = .next t := ⟨_, rfl, rfl⟩
theorem witness_everyStepKeepsSound : ∃ t, Sound (at0 0xFC00_0000) ∧ step (at0 0xFC00_0000) = .next t := by
  refine ⟨_, ⟨?_, ?_, ?_⟩, rfl⟩
  · unfold MemoriesCanonical; decide
  · unfold FocusedCore; decide
  · unfold OthersApart; decide

/-! Witnesses: operands and scalar instructions -/

theorem witness_fetchReadsScratchpad : (0 : W64).toNat % 4 = 0 ∧ (0 : W64).toNat + 4 ≤ base.core.scratchReq ∧
    (0 : W64).toNat + 4 ≤ Config.pinnedBase ∧ badBytes base.core.badScratch 0 4 = false ∧ base.core.icache.lookup 0 = none := by decide
theorem witness_stepAnswers : (∀ c i, base.turn = some (.issue c i) → c < Config.cores) ∧ ∀ p ∈ base.cores, p.1 < Config.cores := by
  constructor
  · intro c i h; cases h
  · decide
theorem witness_memoryReadAfterWrite : Memory.wf [(3, 7)] = true ∧ (4 : Nat) ≠ 3 := by decide
theorem witness_plainOperands : PlainSource base 6 ∧ PlainSource base 0 ∧ PlainDest base 8 := by
  refine ⟨⟨rfl, rfl, .inr rfl⟩, ⟨rfl, rfl, .inl rfl⟩, rfl, rfl⟩
/-- Queue 2 between the control context and itself, holding two values. -/
def queued (l : List W64) : State := base.modRegs fun r => { r with qcfg := 0xFFFF_FFFF_FF00_FFFF, q := r.q.set 2 l }
theorem witness_queueSources : isQueue 58 = true ∧ queueIx 58 = 2 ∧ (queued []).isCtx (consOf (queued []).core.regs.qcfg 2) = true ∧
    (queued []).queue 2 = [] ∧ (queued [4]).queue 2 = [4] ∧ (queued [4, 9]).queue 2 = [4, 9] := ⟨rfl, rfl, rfl, rfl, rfl, rfl⟩
theorem witness_queueAccess : base.isCtx (consOf base.core.regs.qcfg 2) = false ∧ base.isCtx (prodOf base.core.regs.qcfg 2) = false ∧
    (queued []).isCtx (prodOf (queued []).core.regs.qcfg 2) = true ∧
    Config.queueDepth ≤ ((queued (List.replicate 8 1)).queue 2).length := ⟨rfl, rfl, rfl, by decide⟩
/-- s6 freed, under either mode. -/
def freed6 (m : Bool) : State := (base.modCtx fun c => { c with freed := 1 <<< 6 }).modRegs fun r => { r with lumode := m }
theorem witness_freedRegister : isQueue 6 = false ∧ (freed6 true).ctx.freed.getLsbD 6 = true ∧ (freed6 false).core.regs.lumode = false ∧
    (freed6 true).core.regs.lumode = true ∧ (freed6 true).statusPending 6 = false ∧ (freed6 true).ctx.past ≠ [] := ⟨rfl, rfl, rfl, rfl, rfl, by decide⟩
theorem witness_scalarWrites : isQueue 58 = true ∧ isQueue 6 = false := ⟨rfl, rfl⟩
theorem witness_twoSources : ∃ u, operands base [⟨6, true⟩, ⟨7, false⟩] [8] = .ok ([5, 3], u) := ⟨_, rfl⟩
theorem witness_oneSource : ∃ u, operands base [⟨6, true⟩] [8] = .ok ([5], u) := ⟨_, rfl⟩
theorem witness_insertSources : ∃ u, operands base [⟨6, false⟩, ⟨7, false⟩] [7] = .ok ([5, 3], u) := ⟨_, rfl⟩
theorem witness_noSource : ∃ u, operands base [] [8] = .ok ([], u) := ⟨_, rfl⟩
theorem witness_noDestination : ∃ u, operands base [⟨6, true⟩, ⟨7, false⟩] [] = .ok ([5, 3], u) := ⟨_, rfl⟩
theorem witness_zeroDivisor : ∃ u, operands base [⟨6, false⟩, ⟨0, false⟩] [8] = .ok ([5, 0], u) := ⟨_, rfl⟩
theorem witness_fieldAtTop : (0 : BitVec 6).toNat + (63 : BitVec 6).toNat < 64 ∧ (63 : BitVec 6).toNat + (0 : BitVec 6).toNat < 64 := by decide
theorem witness_operandStops : operands base [⟨57, false⟩, ⟨7, false⟩] [8] = .error (.trap ⟨5, 0, 1⟩) ∧
    operands (queued []) [⟨58, false⟩, ⟨7, false⟩] [8] = .error (.block (.qRead 2 1)) ∧
    scalarShape (.add 8 false 58 false 7) = some (8, [⟨58, false⟩, ⟨7, false⟩]) := ⟨rfl, rfl, rfl⟩
theorem witness_scalarFrame : ∃ u, scalarShape (.sel 8 true 6 false 7 false 2) = some (8, [⟨6, true⟩, ⟨7, false⟩]) ∧
    operands base [⟨6, true⟩, ⟨7, false⟩] [8] = .ok ([5, 3], u) := ⟨_, rfl, rfl⟩
theorem witness_jumps : ∃ u v w, operands base [] [31] = .ok ([], u) ∧ (operands base [⟨8, false⟩] [31] = .ok ([64], v) ∧ field 64 1 0 = 0) ∧
    operands base [⟨9, false⟩] [31] = .ok ([2], w) ∧ field 2 1 0 ≠ 0 := ⟨_, _, _, rfl, ⟨rfl, by decide⟩, rfl, by decide⟩

/-! Witnesses: helpers and waits -/

/-- A kernel with one helper slot, free or taken. -/
def helpers1 (live : Bool) : State := base.modCore fun c => { c with helpers := 1, ctxs := c.ctxs.set 1 { c.ctxs[1] with live := live } }
theorem witness_startNone : ∃ u, base.isControl = true ∧ operands base [⟨8, false⟩, ⟨7, false⟩] [10] = .ok ([64, 3], u) ∧ field 64 1 0 = 0 ∧
    ∀ k : Fin 12, 1 ≤ k.val → k.val ≤ 10 → k.val ≤ (helpers1 true).core.helpers → ((helpers1 true).ctxAt k).live = true :=
  ⟨_, rfl, rfl, by decide, by decide⟩
theorem witness_startOne : ∃ u, operands (helpers1 false) [⟨8, false⟩, ⟨7, false⟩] [10] = .ok ([64, 3], u) ∧
    (1 : Fin 12).val ≤ (helpers1 false).core.helpers ∧ ((helpers1 false).ctxAt 1).live = false ∧
    ∀ j : Fin 12, 1 ≤ j.val → j.val < (1 : Fin 12).val → ((helpers1 false).ctxAt j).live = true := ⟨_, rfl, by decide, rfl, by decide⟩
theorem witness_startBad : ∃ u, operands base [⟨9, false⟩, ⟨7, false⟩] [10] = .ok ([2, 3], u) ∧ field 2 1 0 ≠ 0 := ⟨_, rfl, by decide⟩
theorem witness_hwait : ∃ u, operands base [⟨9, false⟩] [] = .ok ([2], u) ∧ (∀ i ∈ liveHelpers base.core, (2 : W64).getLsbD i.val = false) ∧
    (1 : Fin 12) ∈ liveHelpers (helpers1 true).core ∧ (2 : W64).getLsbD (1 : Fin 12).val = true := ⟨_, rfl, by decide, by decide, rfl⟩
/-- HWAIT has taken its entry of queue 2 and waits for helper 1, which has ended. -/
def hwaiting : State := (helpers1 false).modCtx fun c => { c with wait := .hwait 2 [⟨58, true⟩], taken := [(2, 4)] }
theorem witness_hwaitEnds : hwaiting.ctx.wait = .hwait 2 [⟨58, true⟩] ∧ (∀ i ∈ liveHelpers hwaiting.core, (2 : BitVec 11).getLsbD i.val = false) ∧
    hwaiting.pkg.saved = [] := by decide +kernel
theorem test_hwaitEnds : (after (step { hwaiting with turn := some (.answer hwaiting.coreId hwaiting.core.cur) }) fun t =>
    t.ctx.pc == 4 && t.ctx.taken == [] && t.ctx.wait == .ready) = true := by decide +kernel
theorem witness_idle : ∃ u v, operands base [⟨9, false⟩] [] = .ok ([2], u) ∧ (2 : W64).toNat ≠ 0 ∧ operands base [⟨0, false⟩] [] = .ok ([0], v) ∧
    base.isHandler = false := ⟨_, _, rfl, by decide, rfl, rfl⟩

/-! Witnesses: loads, stores, fences -/

/-- `base` with an address in s10; the top word below a kernel's request. -/
def atTop : State := withS base 10 0x2BFF8
theorem witness_scratchLoad : ∃ u, operands atTop [⟨10, false⟩] [11] = .ok ([0x2BFF8], u) ∧
    (BitVec.ofInt 64 ((0x2BFF8 : W64).toNat + (0 : BitVec 10).toInt * 2 ^ (3 : BitVec 2).toNat)).toNat = 0x2BFF8 ∧ 0x2BFF8 % 2 ^ (3 : BitVec 2).toNat = 0 ∧
    0x2BFF8 + 2 ^ (3 : BitVec 2).toNat ≤ atTop.core.scratchReq ∧ 0x2BFF8 + 2 ^ (3 : BitVec 2).toNat ≤ Config.pinnedBase ∧
    queueTouches atTop 0x2BFF8 8 = false ∧ badBytes atTop.core.badScratch 0x2BFF8 8 = false := ⟨_, rfl, rfl, rfl, by decide, by decide, rfl, rfl⟩
/-- The tables and open slots of tenant 0, with an address of far memory in s10, one in the replicated region in s11 and one in the reduction window in s12. -/
def windowed : State :=
  let t := { someTenant with spec := { someSpec with srwin := 0x1_0000_0020_0000, rwwin := 0x1_0000_0040_0000, replicas := [(0, 0x10000)] } }
  let open_ := paged.modPkg fun p => { p with host := { p.host with tenants := [t] } }
  withS (withS (withS open_ 10 0x100000) 11 0x200000) 12 0x400000
theorem witness_homeLoad : (answers (operands windowed [⟨10, false⟩] [13]) fun x => x.1 == [0x100000] &&
    answers (checkAddress x.2 .load 8 true .readable 0x100000) fun y => y.1 == .home (farBase + 0x100000) false &&
      (y.2.core.rcache.all fun line => line.line != lineOf (farBase + 0x100000)) && (refreshing y.2.cycle (farBase + 0x100000)).isNone &&
      !badLines y.2.badMem (farBase + 0x100000) 8 && readOpen y.2 y.2.core.tenant y.2.die (farBase + 0x100000)) = true := by decide +kernel
theorem witness_scratchStore : ∃ u, operands atTop [⟨10, false⟩, ⟨7, false⟩] [] = .ok ([0x2BFF8, 3], u) ∧ queueTouches atTop 0x2BFF8 8 = false ∧
    Memory.wf atTop.core.scratch = true := ⟨_, rfl, rfl, rfl⟩
theorem witness_globalStore : (answers (operands windowed [⟨10, false⟩, ⟨7, false⟩] []) fun x => x.1 == [0x100000, 3] &&
    answers (checkAddress x.2 .store 8 true .outside 0x100000) fun y => y.1 == .home (farBase + 0x100000) false &&
      (storeEntry (parkedHere y.2).length 0x100000 (toBytesLE 8 3) .plain y.2.ctx).isSome) = true := by decide +kernel
theorem witness_replicaStore : (answers (operands windowed [⟨11, false⟩, ⟨7, false⟩] []) fun x => x.1 == [0x200000, 3] &&
    answers (checkAddress x.2 .store 8 false .inside 0x200000) fun y => y.1 == .replica 0x10000 &&
      (storeEntry (parkedHere y.2).length 0x200000 (toBytesLE 8 3) .own y.2.ctx).isSome) = true := by decide +kernel
theorem witness_storeEntry : ∃ c, storeEntry 0 8 [1, 2] .plain base.ctx = some c ∧ 8 % 8 + [(1 : Byte), 2].length ≤ 8 ∧
    base.ctx.buf.length ≤ Config.bufEntries ∧ base.ctx.log.length ≤ Config.logStoreEntries := ⟨_, rfl, by decide, by decide, by decide⟩
theorem witness_fences : ∃ t w, base.ctx.ord = none ∧ release 2 base = .done t ∧ base.ctx.buf = [] ∧ base.ctx.log = [] ∧
    (parkedHere base).isEmpty = true ∧ redPending 2 base = false ∧ encode (.fenceRel false false 2) = some w := ⟨_, _, rfl, rfl, rfl, rfl, rfl, rfl, rfl⟩
/-- `base` in an ordered task. -/
def ordered : State := base.modCtx fun c => { c with ord := some ⟨0, 0, false⟩ }
/-- A request of core 0 to word 64 of its die. -/
def aRequest : RedReq :=
  { die := 0, core := 0, ctx := 0, tenant := 0, gang := 1, va := 64, phys := 64, wide := true, float := false, op := 0, operand := 1, cmp := 0, answer := false, seq := 0 }
/-- It is on its way to its home. -/
def fencing : State := (slotted 0 base).modPkg fun p => { p with reds := [aRequest] }
theorem witness_fenceInTask : ∃ w v, ordered.ctx.ord.isSome = true ∧ encode (.fenceRel false false 2) = some w ∧
    encode (.fenceFull false false 2) = some v := ⟨_, _, rfl, rfl, rfl⟩
theorem witness_fenceHold : ∃ x t, fencing.ctx.ord = none ∧ release 4 fencing = .hold x t := ⟨_, _, rfl, rfl⟩
theorem witness_stl : (answers (stlCheck 3 false 10 false 7 4 0 windowed) fun x => x.1 == (toBytesLE 8 3, .home (farBase + 0x100000) false) &&
    done (release (4 : BitVec 3).toNat windowed) fun t => answers (stlCheck 3 false 10 false 7 4 0 t) fun y =>
      y.1 == (toBytesLE 8 3, .home (farBase + 0x100000) false) && sendOpen y.2 y.2.core.tenant y.2.die (farBase + 0x100000) &&
      Memory.wf y.2.mem) = true := by decide +kernel
/-- `windowed` at reset's slots, which carry nothing. -/
def closed : State := windowed.modStack 0 fun k => { k with slots := Vector.replicate 64 7 }
theorem witness_stlWaits : done (release (4 : BitVec 3).toNat closed) (fun t => answers (stlCheck 3 false 10 false 7 4 0 t) fun y =>
    y.1 == (toBytesLE 8 3, .home (farBase + 0x100000) false) &&
      !sendOpen y.2 y.2.core.tenant y.2.die (farBase + 0x100000)) = true := by decide +kernel
theorem witness_stlScratch : done (release (4 : BitVec 3).toNat atTop) (fun t => answers (stlCheck 3 false 10 false 7 4 0 t) fun y =>
    y.1 == (toBytesLE 8 3, .scratch 0x2BFF8) && Memory.wf y.2.core.scratch) = true := by decide +kernel

/-! Witnesses: atomics, reductions, marks -/

theorem witness_atomic : (answers (operands windowed [⟨10, false⟩, ⟨7, false⟩] [13]) fun x => x.1 == [0x100000, 3] &&
    answers (atomicCheck x.2 true false 0x100000) fun y => y.1 == farBase + 0x100000) = true ∧
    answers (atomicPath windowed true false 0x100000 (farBase + 0x100000)) (fun _ => true) = true ∧ windowed.pkg.reds = [] ∧
    windowed.inReduction windowed.core.tenant 0x100000 = false ∧ Memory.wf windowed.mem = true := by decide +kernel
theorem witness_cas : (answers (operands windowed [⟨10, false⟩, ⟨7, false⟩, ⟨6, false⟩] [6]) fun x => x.1 == [0x100000, 3, 5] &&
    answers (atomicCheck x.2 false false 0x100000) fun y => y.1 == farBase + 0x100000) = true := by decide +kernel
theorem witness_reduction : (answers (operands windowed [⟨10, false⟩, ⟨7, false⟩] []) fun x => x.1 == [0x100000, 3] &&
    answers (atomicCheck x.2 true false 0x100000) fun y => y.1 == farBase + 0x100000) = true := by decide +kernel
theorem witness_reductionWindow : (answers (operands windowed [⟨12, false⟩, ⟨7, false⟩] [13]) fun x => x.1 == [0x400000, 3] &&
    answers (atomicCheck x.2 true false 0x400000) fun y => y.1 == farBase + 0x400000) = true ∧
    answers (atomicPath windowed true true 0x400000 (farBase + 0x400000)) (fun _ => true) = true ∧
    windowed.inReduction windowed.core.tenant 0x400000 = true := by decide +kernel
/-- `aRequest` at the switch of stack 0. -/
def switched : State := windowed.modStack 0 fun k => { k with switch := [aRequest] }
theorem witness_reductionBatch : (0 : Nat) < 4 ∧ (switched.stackAt 0).switch = [aRequest] ∧ (∀ j < 4, j ≠ 0 → (switched.stackAt j).switch = []) ∧
    aRequest.answer = false ∧ reductionOpen switched aRequest = true ∧ aRequest.die < 24 ∧ OthersApart switched :=
  ⟨by decide, rfl, by decide, rfl, by decide +kernel, by decide, by unfold OthersApart; decide⟩
/-- Two REDs on their way, to the die's own memory. -/
def redsSent : State := fencing.modPkg fun p => { p with reds := [aRequest, { aRequest with phys := 128 }] }
theorem witness_redArrives : redsSent.pkg.reds[1]? = some { aRequest with phys := 128 } ∧ redDue redsSent 1 = true := by decide
/-- All layers of stack 0 and its base die have slots. -/
def layered : State := (List.range 6).foldl (fun t d => slotted d t) (windowed.modStack 0 fun k =>
  { k with slots := ((((k.slots.set 2 2).set 3 3).set 4 4).set 5 5).set 6 6 })
theorem witness_ldsum : (answers (operands layered [⟨11, false⟩] [13]) fun x => x.1 == [0x200000] &&
    answers (checkAddress x.2 .load 8 false .inside (BitVec.ofInt 64 ((0x200000 : W64).toNat + (0 : BitVec 10).toInt * 8))) fun y =>
      y.1 == .replica 0x10000 && (diesOfStack (stackOfDie layered.die)).all fun k => (y.2.dieAt k).awake) = true ∧
    sumClosed layered 0x10000 = none ∧ layered.badMem = [] ∧ heldEntries layered = [] := by decide +kernel
/-- Region 6 of the tenant: 4 × 4 cells on die 0, K = 4, valid, owned by the package. -/
def someRegion : BitVec 128 := 0x4_3FF8_2100_4200_0000
def marked (q : List MarkMsg) : State :=
  withS ((paged.modPkg fun p => { p with host := { p.host with tenants := [{ someTenant with regions := [(6, someRegion)] }] } }).modCore
    fun c => { c with markQ := q }) 14 0x0600_0005
theorem witness_markPosts : ∃ u v rd, operands (marked []) [⟨14, false⟩, ⟨7, false⟩] [] = .ok ([0x0600_0005, 3], u) ∧
    markCheck u 0x0600_0005 true = .ok rd ∧ operands (marked []) [⟨14, false⟩] [] = .ok ([0x0600_0005], v) ∧
    markCheck v 0x0600_0005 false = .ok rd := ⟨_, _, _, rfl, rfl, rfl, rfl⟩
theorem witness_markSense : ∃ u rd, operands (marked []) [⟨14, false⟩] [13] = .ok ([0x0600_0005], u) ∧ markCheck (marked []) 0x0600_0005 true = .ok rd ∧
    (marked []).core.markQ = [] ∧ (marked []).core.resident ⟨(marked []).core.tenant, (marked []).core.tag, (marked []).core.cur, .release 0⟩ = true ∧
    markOpen (marked []) (marked []).coreId { tenant := 0, gang := 1, ctx := 0, op := .read 0x0600_0005 } = true ∧
    ((marked []).markRun (marked []).core.tenant (maRegion 0x0600_0005)).waitsFor (marked []).coreId (marked []).core.tag = [] ∧ (marked []).pkg.badMarks = [] :=
  ⟨_, _, rfl, rfl, rfl, rfl, by decide +kernel, rfl, rfl⟩
/-- A deposit of 7 into cell 5 of the region, and an end notice, on their way. -/
def aDeposit : MarkMsg := { tenant := 0, gang := 1, ctx := 0, op := .deposit 0x0600_0005 7 }
def aNotice : MarkMsg := { tenant := 0, gang := 1, ctx := 0, op := .notice 6 3 }
/-- A tick of region 6 that superstep 3 has triggered; core 0 has ended it, or not. -/
def aTrigger (l : List Nat) : MarkTrig := { id := 3, gang := 1, members := [0], notices := l }
def tickingWith (l : List Nat) (q : List MarkMsg) : State :=
  ((marked q).setMarkRun { tenant := 0, region := 6, tick := 0, trigs := [aTrigger l], held := [] }).modCells (cellSet (cellKey someRegion 5) (16, 7))
theorem witness_markArrive : (marked [aDeposit]).core.markQ = aDeposit :: [] ∧
    ((marked [aDeposit]).markRun aDeposit.tenant (maRegion 0x0600_0005)).waitsFor 0 1 = [] ∧ markOpen (marked [aDeposit]) 0 aDeposit = true ∧
    ((tickingWith [0] [aDeposit]).markRun aDeposit.tenant (maRegion 0x0600_0005)).waitsFor 0 1 = [3] ∧
    (tickingWith [] [aNotice]).core.markQ = [aNotice] ∧ markOpen (tickingWith [] [aNotice]) 0 aNotice = true ∧
    (((tickingWith [] [aNotice]).markRun 0 6).trigs.map (·.id)).Nodup := by decide +kernel
/-- The region's tick is due: its one owner has ended its exchange phase. -/
def ticking : State := tickingWith [0] []
theorem witness_tick : nextTick ticking 0 6 = some (aTrigger [0]) ∧ (aTrigger [0]).notices ≠ [] ∧
    (ticking.markRun 0 6).held = [] ∧ ticking.pkg.badMarks = [] ∧ (ticking.pkg.marks.map (·.1)).Nodup ∧
    (5 : Nat) < rdCells (ticking.region 0 6) := ⟨by decide +kernel, by decide, rfl, rfl, by decide, by decide⟩
/-- A superstep whose members have all departed. -/
theorem witness_tickOfNone : nextTick ((ticking.setMarkRun { tenant := 0, region := 6, tick := 0, trigs := [{ aTrigger [] with members := [] }], held := [] })) 0 6 =
    some { aTrigger [] with members := [] } := by decide +kernel
/-- A request held for the tick, and an MTICK on its way that is served or held. -/
def aTick : MarkMsg := { tenant := 0, gang := 1, ctx := 0, op := .tick 0x0600_0000 }
def tickHolds (m : MarkMsg) : State := ticking.setMarkRun { tenant := 0, region := 6, tick := 0, trigs := [aTrigger [0]], held := [(0, m, [3])] }
theorem witness_tickHeld : (tickHolds aDeposit).pkg.marks = ticking.pkg.marks ∧ (tickHolds aTick).pkg.marks = ticking.pkg.marks ∧
    nextTick (tickHolds aDeposit) 0 6 = some (aTrigger [0]) ∧ nextTick (tickHolds aTick) 0 6 = some (aTrigger [0]) ∧
    ((tickHolds aDeposit).markRun 0 6).held = [(0, aDeposit, [3])] ∧ ((tickHolds aTick).markRun 0 6).held = [(0, aTick, [3])] ∧
    maRegion 0x0600_0005 = 6 ∧ maRegion 0x0600_0000 = 6 ∧ maCell 0x0600_0005 < rdCells ((tickHolds aDeposit).region 0 6) := by decide +kernel
theorem test_tickHeld : (after (exec (.markTick 0 6) (tickHolds aDeposit)) fun t => cellGet t.pkg.marks (cellKey someRegion 5) == (19, 7)) = true ∧
    (after (exec (.markTick 0 6) (tickHolds aTick)) fun t => cellGet t.pkg.marks (cellKey someRegion 5) == (14, 0)) = true := by decide +kernel
/-- Two members, one of which has ended its exchange phase: no domain tick is due, and core 0's requests are held for it. -/
def tickAsked (l : List Nat) : State :=
  ((marked [aTick]).modPkg fun p => { p with gangs := [{ num := 1, tenant := 0, prio := 0, cores := [0, 1], compl := 0, placed := 0, status := 0, state := .running, ended := [], caddr := none, wanted := false }] }).setMarkRun
    { tenant := 0, region := 6, tick := 0, trigs := [{ aTrigger l with members := [0, 1] }], held := [] }
theorem witness_tickAsked : domainTickDue (tickAsked []) 0 6 = false ∧ domainTickDue (tickAsked [0]) 0 6 = false ∧ (tickAsked []).others = [] ∧
    (tickAsked [0]).others = [] ∧ (tickAsked []).core.markQ = [aTick] ∧ (tickAsked [0]).core.markQ = [aTick] ∧ markOpen (tickAsked []) 0 aTick = true ∧
    markOpen (tickAsked [0]) 0 aTick = true ∧ ((tickAsked []).markRun 0 6).waitsFor 0 1 = [] ∧ ((tickAsked [0]).markRun 0 6).waitsFor 0 1 = [3] := by decide +kernel

/-! Witnesses: teams -/

theorem witness_hitch : (answers (operands paged [⟨8, false⟩] []) fun x => x.1 == [64]) = true ∧ paged.isHandler = false ∧ paged.ctx.ord = none ∧
    (paged.ctx.h[(1 : BitVec 4).toNat]).getLsbD 31 = false ∧ ((64 : W64).setWidth 32 : W32) ≠ 0 ∧ paged.pkg.departs = [] ∧ paged.pkg.teams = [] ∧
    readOpen paged paged.core.tenant paged.die (basePlace (homeStack ((64 : W64).setWidth 32)).toNat) = true ∧
    (paged.tenant? paged.core.tenant).isSome = true ∧ someSpec.teamQuota > paged.pkg.teams.length ∧
    paged.pkg.teams.length < Config.quarterEntries ∧ (2 : BitVec 2).getLsbD 0 = false ∧ (1 : BitVec 2).getLsbD 0 = true := by decide +kernel
/-- The control context of core 0 alone in team 0, which its harness register 2 names. -/
def soleMember : Member := { tid := 0, gang := 1, first := 0, arrived := none, waiting := false, tarr := none, dlast := 0, parked := false }
def soleTeam : TeamEntry :=
  { slot := 0, tenant := 0, name := 9, gen := 0, dep := 0, members := [soleMember], withdrawn := [], scope := 0, scopeNext := 0, winId := 1, win := [], winNextId := 2, winNext := [] }
def teamed (e : TeamEntry) : State := (paged.modPkg fun p => { p with teams := [e], nextId := 3 }).modCtx fun c => { c with h := c.h.set 2 0x80000000 }
theorem witness_alone : Alone (teamed soleTeam) 2 soleTeam soleMember where
  context := by decide +kernel
  handle := by decide +kernel
  entry := by decide +kernel
  member := by decide +kernel
  clean := by
    refine ⟨by decide +kernel, by decide +kernel, by decide +kernel, by decide +kernel, by decide +kernel, by decide +kernel, fun d => ?_⟩
    by_cases h : d < 24
    · have k : ∀ d : Fin 24, ((teamed soleTeam).dieAt d).replay = [] := by decide +kernel
      exact k ⟨d, h⟩
    · simp [State.dieAt, vget, h, Die.reset]
  path := by decide +kernel
/-- TRED of .F32 keeps the low half of its operand. -/
theorem test_tredNarrow : (after (exec (.tred 2 14 false 10 1 0 0) (withS (teamed soleTeam) 10 0x7_3F80_0000)) fun t => t.ctx.getS 14 == 0x3F80_0000) = true := by decide +kernel
theorem witness_teamOperands : (answers (operands (teamed soleTeam) [⟨6, false⟩] [14, 15]) fun x => x.1 == [5]) = true ∧
    (answers (operands (teamed soleTeam) [⟨6, false⟩, ⟨7, false⟩] [14, 15]) fun x => x.1 == [5, 3]) = true ∧
    (answers (operands (teamed soleTeam) [] [14]) fun x => x.1 == []) = true ∧ isQueue 14 = false ∧
    (teamed soleTeam).statusPending 14 = false ∧ (teamed soleTeam).statusPending 15 = false := by decide +kernel
/-- The context's harness register 1 is free, and s8 names the team; its member is another context. -/
def hitching (m : Member) : State := teamed { soleTeam with name := 64, gen := 5, dep := 2, members := [m] }
theorem witness_hitchJoins : (answers (operands (hitching { soleMember with tid := 16 }) [⟨8, false⟩] []) fun x => x.1 == [64]) = true ∧
    (hitching { soleMember with tid := 16 }).pkg.departs = [] ∧ ((hitching { soleMember with tid := 16 }).ctx.h[(1 : BitVec 4).toNat]).getLsbD 31 = false ∧
    (hitching { soleMember with tid := 16 }).team? 0 = some { soleTeam with name := 64, gen := 5, dep := 2, members := [{ soleMember with tid := 16 }] } ∧
    ((hitching { soleMember with tid := 16 }).pkg.teams.find? fun k => k.tenant == 0 && k.name == ((64 : W64).setWidth 32 : W32)) =
      some { soleTeam with name := 64, gen := 5, dep := 2, members := [{ soleMember with tid := 16 }] } ∧ (2 : BitVec 2).getLsbD 1 = true ∧
    readOpen (hitching { soleMember with tid := 16 }) 0 0 (basePlace (homeStack ((64 : W64).setWidth 32)).toNat) = true := by decide +kernel
theorem witness_hitchTraps : ((teamed soleTeam).ctx.h[(2 : BitVec 4).toNat]).getLsbD 31 = true ∧
    (answers (operands (teamed soleTeam) [⟨0, false⟩] []) fun x => x.1 == [0]) = true ∧ ((0 : W64).setWidth 32 : W32) = 0 ∧
    soleMember.tid = (hitching soleMember).tid ∧ soleMember.gang = (hitching soleMember).core.tag := by decide +kernel
theorem test_hitchJoins : (after (exec (.hitch 1 1 false 8 0) (hitching { soleMember with tid := 16 })) fun t => t.ctx.h[1] == 0x80000000 && t.ctx.getP 1 &&
      (t.team? 0).map (fun e => e.members.map fun m => (m.tid, m.first, m.dlast)) == some [(16, 0, 0), (0, 6, 2)]) = true ∧
    (after (exec (.hitch 1 1 false 8 2) (hitching { soleMember with tid := 16 })) fun t => t.ctx.h[1] == 0 && !t.ctx.getP 1) = true ∧
    (after (exec (.hitch 1 1 false 8 0) (hitching soleMember)) fun t => t.core.trap.tcause == 0x22) = true := by decide +kernel
/-- A second member that has not arrived; the first has departed. -/
def pair : TeamEntry := { soleTeam with members := [soleMember, { soleMember with tid := 16 }] }
theorem witness_teamEvents : (teamed soleTeam).team? 0 = some soleTeam ∧ soleTeam.members = [soleMember] ∧
    soleMember.gang = tagOfTid (teamed soleTeam) 0 ∧ isResident (teamed soleTeam) 0 = true ∧ isResident (teamed soleTeam) 12 = false ∧ soleMember.first ≤ soleTeam.gen ∧
    ((teamed pair).modPkg fun p => { p with departs := [⟨0, 0, 1, none⟩] }).pkg.departs = [⟨0, 0, 1, none⟩] ∧ (teamed pair).pkg.departs = [] ∧
    ((teamed pair).modPkg fun p => { p with departs := [⟨0, 0, 1, some true⟩] }).pkg.departs = [⟨0, 0, 1, some true⟩] := by decide +kernel

/-! Witnesses: windows, supersteps -/

/-- Two contributions to the word at 64, of stamps 1 and 2. -/
def contribution (stamp : W64) (tid : Nat) (data : W64) : Contribution :=
  { key := ⟨stamp, tid⟩, core := tid / 16, gang := 1, ctx := 0, tenant := 0, scats := [], entries := [⟨⟨8, 0xFF, data, .plain⟩, 64, 0⟩], ord := none, win := 1, drain := 1 }
theorem witness_window : Memory.wf base.mem = true ∧ (contribution 1 0 5).scats = [] ∧
    lastWritten (contribution 2 16 9) 64 = some 9 ∧ (contribution 1 0 5).key.rank < (contribution 2 16 9).key.rank ∧
    [contribution 1 0 5, contribution 2 16 9].count (contribution 2 16 9) = 1 ∧ lastWritten (contribution 1 0 5) 72 = none := by decide +kernel
theorem witness_plainWords : PlainWords [contribution 2 16 9, contribution 1 0 5] := by unfold PlainWords; decide
theorem test_windowLargestKey : (applyWindow 1 [contribution 2 16 9, contribution 1 0 5] base).mem.get 64 = 9 := by decide +kernel

/-- Gang 1 on core 0, and its superstep at core level: not arrived, arrived, applied, released, or waiting for an image. -/
def soleGang : Gang := { num := 1, tenant := 0, prio := 0, cores := [0], compl := 0, placed := 0, status := 0, state := .running, ended := [], caddr := none, wanted := false }
def soleStep (arrived applied released ended : Bool) : Superstep :=
  { id := 7, gang := 1, level := 0, unit := 0, arrived := if arrived then [(0, 0)] else [], contribs := [], applied := applied, released := released,
    ended := if ended then [0] else [], ticks := [] }
def stepping (x : Superstep) : State :=
  ((paged.modPkg fun p => { p with gangs := [soleGang], steps := [x] }).modCtx fun c => { c with wait := .sync }).modCore fun c =>
    { c with arrivals := [{ gang := 1, level := 0, contrib := contribution 1 0 5 }] }
theorem witness_domainArrival : (soleStep false false false false).gang = 1 ∧ (soleStep false false false false).applied = false ∧ (stepping (soleStep false false false false)).core.arrivals.length = 1 ∧
    (soleStep false false false false).unit = (stepping (soleStep false false false false)).coreId / unitSize (0 : BitVec 3).toNat ∧
    arrivalOpen (stepping (soleStep false false false false)) 0 { gang := 1, level := 0, contrib := contribution 1 0 5 } = true ∧
    ((stepping (soleStep false false false false)).gangOf 1).map (·.ended) = some [] := by decide +kernel
theorem witness_windowDue : ((stepping (soleStep true false false false)).step? 7).isSome = true ∧
    windowDue (stepping (soleStep true false false false)) (soleStep true false false false) = true := by decide +kernel
/-- An ordered task at core 1 whose signature the one of core 0, applied first, hits; a write of its own would be lost. -/
def orderedStep : Superstep := { soleStep true false false false with
  contribs := [{ contribution 1 0 5 with ord := some ⟨64, 0, false⟩ }, { contribution 2 16 9 with ord := some ⟨65, 3, false⟩ }] }
theorem witness_orderedWindow : windowDue (stepping orderedStep) orderedStep = true ∧ (orderedStep.contribs.map (·.key.rank)).Nodup ∧
    (∀ d : Fin 24, ((stepping orderedStep).dieAt d).replay = []) ∧ Memory.wf (stepping orderedStep).mem = true := by decide +kernel
theorem witness_orderedRule : PlainWords orderedStep.contribs ∧ OthersApart (stepping orderedStep) ∧
    OrderedRule orderedStep.contribs fun c => c.key.stamp = 1 := by
  refine ⟨by unfold PlainWords; decide, by unfold OthersApart; decide, ?_⟩
  intro c h
  simp only [orderedStep, List.mem_cons, List.not_mem_nil, or_false] at h
  obtain rfl | rfl := h <;> decide +kernel
theorem witness_releaseDue : releaseDue (stepping (soleStep true true false false)) (soleStep true true false false) = true ∧
    (stepping (soleStep true true false false)).core.gang = some 1 ∧
    ((stepping (soleStep true true false false)).gangOf 1).map (·.tenant) = some (stepping (soleStep true true false false)).core.tenant ∧ (stepping (soleStep true true false false)).core.cur = 0 ∧
    (stepping (soleStep true true false false)).ctx.wait = .sync ∧ (stepping (soleStep true true false false)).core.trap.saved.getLsbD 0 = false ∧
    ((soleStep true true false false).arrived.map (·.1)).Nodup ∧
    (stepping (soleStep true true false false)).core.resident (releasePacket 0 1 0) = true := by decide +kernel
theorem witness_stepOver : stepOver (stepping (soleStep true true true true)) (soleStep true true true true) = true ∧
    stepCores (stepping (soleStep true true true true)) (soleStep true true true true) = [0] ∧ soleGang.cores.Nodup := by decide +kernel
theorem witness_requeues : (stepping orderedStep).pkg.inFlight = [] ∧ (orderedStep.contribs.map fun c => c.ord.map (·.ended)) = [some false, some false] := by
  decide +kernel
theorem test_releaseStartsPhase : (after (exec (.superstepRelease 7) (stepping (soleStep true true false false))) fun t =>
    t.core.exch == some 0 && t.core.rcache == [] && t.ctx.pc == 4 && t.ctx.wait == .ready) = true := by decide +kernel
theorem test_stepEnd : (after (exec (.superstepEnd 7) (stepping (soleStep true true true true))) fun t =>
    t.core.regs.sstep == 1 && t.pkg.steps == []) = true := by decide +kernel
/-- Core 0 of a gang of two has arrived, core 1 is saved. -/
def image (k : Nat) : Saved := { gang := 1, core := k, ctxs := [], regs := none, spill := [], lent := none, rest := Core.reset }
def waitingStep : Superstep := { soleStep true false false false with level := 1, arrived := [(0, 1)] }
def savedStep : State := (stepping waitingStep).modPkg fun p => { p with gangs := [{ soleGang with cores := [0, 1] }], saved := [image 1], steps := [waitingStep] }
theorem witness_stepWants : savedStep.step? 7 = some waitingStep ∧ stepWants savedStep waitingStep = true ∧ (savedStep.gangOf 1).isSome = true := by decide +kernel
/-- Both have arrived, and core 1 is saved: the release, and the end, of two members. -/
def twoStep (fin : Bool) : Superstep :=
  { soleStep true true fin false with level := 1, arrived := [(0, 1), (1, 1)], ended := if fin then [0, 1] else [] }
def twoStepping (fin : Bool) : State :=
  (stepping (twoStep fin)).modPkg fun p => { p with gangs := [{ soleGang with cores := [0, 1] }], saved := [image 1], steps := [twoStep fin] }
theorem witness_twoMembers : releaseDue (twoStepping false) (twoStep false) = true ∧ ((twoStep false).arrived.map (·.1)).Nodup ∧
    ((twoStepping false).coreAt 1).resident (releasePacket 0 1 0) = false ∧
    (image 1).spill.length < spillRoom ∧
    stepOver (twoStepping true) (twoStep true) = true ∧ (imageOf (twoStepping true) 1 1).isSome = true ∧ 1 / unitSize 1 = (twoStep true).unit ∧
    (twoStepping true).core.gang = some 1 := by decide +kernel
theorem witness_twoSaved : (twoStepping false).pkg.saved.find? (savedFor 1 (releasePacket 0 1 0)) = some (image 1) := rfl
theorem witness_twoApart : OthersApart (twoStepping false) ∧ OthersApart (twoStepping true) := by unfold OthersApart; decide
theorem witness_sync : paged.isControl = true ∧ frameActive paged.core.regs.frame.word = false ∧ paged.core.entries = [] ∧ paged.ctx.buf = [] ∧ paged.ctx.log = [] ∧ (serveScatters paged.core.regs).scats = [] ∧
    frameActive (paged.modRegs fun r => { r with frame := { r.frame with word := 0x1000000 } }).core.regs.frame.word = true ∧
    asHelper.isControl = false ∧ (encode (.sync false false)).isSome = true := by decide +kernel
theorem witness_quit : asHelper.isHelper = true ∧ asHelper.ctx.ord = none ∧ asHelper.ctx.buf = [] ∧ asHelper.ctx.log = [] ∧
    (parkedHere asHelper).isEmpty = true ∧ (∀ h : BitVec 4, (asHelper.ctx.h[h.toNat]).getLsbD 31 = false) ∧
    (helpers1 true).isControl = true ∧ liveHelpers (helpers1 true).core ≠ [] := by decide +kernel

/-- A scatter of the last phase whose home, far memory, has a path, and a queued entry. -/
def scattered : State := windowed.modRegs fun r => { r with scats := [⟨⟨0x20000, 0xFF, 5, .plain⟩, farBase + 0x100000, 0⟩] }
theorem witness_syncNoReds : scattered.pkg.reds = [] := by decide +kernel
theorem witness_syncScatter : (serveScatters scattered.core.regs).scats ≠ [] ∧
    ((serveScatters scattered.core.regs).scats.all fun e => closedPath scattered scattered.core.tenant scattered.die e == none) = true := by decide +kernel

/-! Witnesses: the exchange, gathers -/

/-- Slot 5 of the die's calendar is an exchange slot of tenant 0, and core 0 is in an exchange phase. -/
def exchanging (r : Option Nat) : State :=
  withS (withS ((paged.modDie 0 fun d => { d with cal := d.cal.set 5 0x18 }).modCore fun c => { c with exch := r }) 10 0x100) 11 0x10003
theorem witness_exchangeArm : (answers (operands (exchanging (some 0)) [⟨10, false⟩, ⟨11, false⟩] []) fun x => x.1 == [0x100, 0x10003]) = true ∧
    (exchanging (some 0)).isControl = true ∧ (exchanging none).core.exch = none ∧
    isExchSlot (vget ((exchanging (some 0)).dieAt (exchanging (some 0)).die).cal (5 : BitVec 6).toNat 0) (exchanging (some 0)).core.tenant = true ∧
    (exchanging (some 0)).cycle.toNat + 4 ≤ 0 + 64 * (field 0x10003 15 8 + 1) + (5 : BitVec 6).toNat ∧
    (0x100 : W64).toNat % 8 = 0 ∧ (0x100 : W64).toNat + 8 * (field 0x10003 4 0 + 1) ≤ 0x2C000 := by decide +kernel
theorem witness_exchangeSelect : (answers (operands (exchanging (some 0)) [⟨11, false⟩, ⟨10, false⟩] []) fun x => x.1 == [0x10003, 0x100]) = true ∧
    (exchanging (some 0)).cycle.toNat + 4 ≤ 0 + 64 * (field 0x10003 23 16 + 1) + (5 : BitVec 6).toNat ∧ (0x100 : W64).toNat % 8 = 0 ∧
    (0x100 : W64).toNat + 256 ≤ 0x2C000 ∧ field 0x10003 10 0 < 1536 := by decide +kernel
def sending : State := (exchanging (some 0)).modCore fun c =>
  { c with xmits := [⟨5, 1, 0x100, 2, true, false, false⟩], xsels := [⟨5, 1, 1, 0x200, false⟩], scratch := [(0x100, 7), (0x108, 9)] }
/-- The transfer that reaches core 0 from core 1, both members of a superstep. -/
def arriving : State := sending.modPkg fun p =>
  { p with transfers := [{ tenant := 0, src := 1, slot := 5, frame := 1, c0 := c0Of sending.core 1 5, words := [3, 4], stk := true, pkg := false }]
           steps := [{ soleStep true true true false with arrived := [(0, 0), (1, 0)] }] }
theorem witness_exchangeEvents : sending.core.xmits.length = 1 ∧ (sending.core.xmits.all fun x => badXmit sending.core x == none) = true ∧ OthersApart arriving ∧ (received arriving ⟨5, 1, 1, 0x200, false⟩ 0 (c0Of arriving.core 1 5)).isSome = true ∧
    Memory.wf arriving.core.scratch = true := by unfold OthersApart; decide +kernel
theorem test_exchangeMoves : (after (exec (.exchangeTransmit 0 1 5) sending) fun t => t.pkg.transfers.map (·.words) == [[7, 9]]) = true ∧
    (after (exec (.exchangeArrival 0 1 5) arriving) fun t => t.core.scratch.num 0x200 8 == 3 && t.core.scratch.num 0x208 8 == 4) = true := by decide +kernel
/-- A sent gather of one lane. -/
def aGather : Gather := { scat := false, vd := 3, wide := false, lanes := [⟨2, 0x100000, 64, 0⟩], sent := true, served := false, values := [] }
def gathering : State := ({ paged with mem := tables ++ [] }).modRegs fun r => { r with gathers := [aGather] }
theorem witness_gatherServe : gathering.core.regs.gathers = [aGather] ∧ aGather.sent = true ∧ aGather.served = false ∧
    gatherDue gathering gathering.coreId = true ∧ gathering.core.gang ≠ none ∧ gathering.pkg.saved = [] ∧
    (aGather.lanes.all fun k => !laneBad gathering aGather.wide k) = true := by decide +kernel

/-! Witnesses: system registers, rings, queues, channels -/

theorem witness_systemRegisters : (answers (operands base [] [10]) fun x => x.1 == []) = true ∧ base.isHandler = false ∧ (encode (.mfs 10 0)).isSome = true ∧
    asHandler.isHandler = true ∧ (answers (operands asHandler [] [10]) fun x => x.1 == []) = true ∧ base.core.owes base.core.cur = false ∧
    (answers (operands base [⟨6, false⟩] []) fun x => x.1 == [5]) = true ∧ (answers (operands asHandler [⟨6, false⟩] []) fun x => x.1 == [5]) = true ∧
    (answers (operands asHelper [⟨6, false⟩] []) fun x => x.1 == [5]) = true ∧ asHelper.isHelper = true ∧ (encode (.mts 6 0x011)).isSome = true := by decide +kernel
/-- An entry of the context is queued. -/
def withEntry : State := base.modCore fun c => { c with vq := [plainEntry base (.vadd 6 false 6 false 7 1 2) 0xC0C3_0E12 0 none] }
theorem witness_capp : (answers (operands paged [] [10]) fun x => x.1 == []) = true ∧ paged.tenant? paged.core.tenant = some someTenant ∧
    6 < (0x074 : BitVec 12).toNat := by decide +kernel
theorem witness_fstatWaits : withEntry.core.owes withEntry.core.cur = true ∧ (answers (operands withEntry [] [10]) fun x => x.1 == []) = true := by decide +kernel
theorem witness_qcfg : base.isHelper = false ∧ ∀ i : Fin 12, (base.ctxAt i).wait = .ready := by decide +kernel
theorem witness_ringWrite : base.core.entries = [] ∧ ((base.ring 2).resv.all fun k => k.owner == 0 || k.done) = true ∧
    RingInRange base (0x1000 + 2 * 2 ^ 18 + 4 * 2 ^ 22) ∧ ¬ RingInRange base 0x20 := by unfold RingInRange; decide +kernel
/-- The bounds of each field: an end at the pinned area, the largest SLOG and SIZE, and one past each. -/
theorem witness_ringBounds : RingInRange base (0x2BFC0 + 2 ^ 22) ∧ ¬ RingInRange base (0x2BFC0 + 2 ^ 18 + 2 ^ 22) ∧ RingInRange base (8 * 2 ^ 18 + 2 ^ 22) ∧ ¬ RingInRange base (9 * 2 ^ 18 + 2 ^ 22) ∧
    RingInRange base (2816 * 2 ^ 22) ∧ ¬ RingInRange base (2817 * 2 ^ 22) ∧ ¬ RingInRange base 0 := by unfold RingInRange; decide +kernel
theorem test_qcfgEmptiesChanged : (after (exec (.qcfgWrite 15) (withS (queued [4]) 15 0xFFFFFFFFFF000000)) fun t =>
    t.queue 2 == [] || t.core.regs.qcfg == 0xFFFFFFFFFF000000) = true := by decide +kernel

/-- A descriptor at 0x200: PC 0x1000; the same with a counter to wait for, and a bad one. -/
def atDesc (d : W64) (work : List (BitVec 256)) : State :=
  withS (base.modCore fun c => { c with work := work, scratch := c.scratch.setBytes 0x200 (toBytesLE 32 (0x1000 + d.toNat * 2 ^ 192)) }) 10 0x200
theorem witness_push : (answers (operands (atDesc 0 []) [⟨10, false⟩] []) fun x => x.1 == [0x200] && answers (scratchArea x.2 32 32 true 0x200) fun _ => true) = true ∧
    descWAIT (BitVec.ofNat 256 ((atDesc 0 []).core.scratch.num 0x200 32)) = false ∧ descBad (BitVec.ofNat 256 ((atDesc 0 []).core.scratch.num 0x200 32)) = none ∧
    (atDesc 0 []).core.ordf + 1 ≤ (atDesc 0 []).core.workFree ∧ descBad (BitVec.ofNat 256 ((atDesc 4 []).core.scratch.num 0x200 32)) = some 24 ∧
    descWAIT (BitVec.ofNat 256 ((atDesc 4 []).core.scratch.num 0x200 32)) = false := by decide +kernel
theorem witness_pushFull : (atDesc 0 (List.replicate 256 0)).core.workFree < (atDesc 0 (List.replicate 256 0)).core.ordf + 1 := by decide +kernel
theorem witness_pop : (answers (operands (atDesc 0 [0x1234]) [⟨10, false⟩] [11]) fun x => x.1 == [0x200] && answers (scratchArea x.2 32 32 false 0x200) fun _ => true) = true ∧
    (atDesc 0 [0x1234]).core.work = 0x1234 :: [] ∧ descORD 0x1234 = false ∧ Memory.wf (atDesc 0 [0x1234]).core.scratch = true ∧ (atDesc 0 []).core.work = [] := by decide +kernel
/-- A descriptor that waits for the counter at 0x100000. -/
def atWaiting : State := withS (windowed.modCore fun c => { c with scratch := c.scratch.setBytes 0x200 (toBytesLE 32 (0x1000 + (2 + 0x100000) * 2 ^ 192)) }) 10 0x200
theorem witness_pushWaits : (answers (operands atWaiting [⟨10, false⟩] []) fun x => x.1 == [0x200] && answers (scratchArea x.2 32 32 true 0x200) (fun _ => true) &&
    answers (counterPlace x.2 (BitVec.ofNat 256 (atWaiting.core.scratch.num 0x200 32))) fun y => y.1 == some (farBase + 0x100000)) = true ∧
    descBad (BitVec.ofNat 256 (atWaiting.core.scratch.num 0x200 32)) = none ∧ atWaiting.core.ordf + 1 ≤ atWaiting.core.workFree := by decide +kernel
/-- The push has been sent; the counter holds `v`, and `ws` wait at its die. -/
def pushSent (v : Byte) (ws : List (Nat × Waiter)) : State :=
  ({ atWaiting with mem := [(64, v)] }.modCtx fun c => { c with wait := .push 64 (2 <<< 192) 1 ⟨10, false⟩ }).modDie 0 fun d => { d with waiters := ws }
theorem witness_pushAnswer : (pushSent 0 []).ctx.wait = .push 64 (2 <<< 192) 1 ⟨10, false⟩ ∧ homeDie 64 < 24 ∧ (State.mem (pushSent 0 [])).num 64 8 = 0 ∧
    (State.mem (pushSent 5 [])).num 64 8 ≠ 0 ∧ ((pushSent 5 []).dieAt 0).waiters.length < 4096 := by decide +kernel
theorem witness_pushAnswerFull (w : Nat × Waiter) : 4096 ≤ ((pushSent 5 (List.replicate 4096 w)).dieAt 0).waiters.length :=
  (List.length_replicate ▸ Nat.le_refl 4096 : 4096 ≤ (List.replicate 4096 w).length)

/-- The neighbour of core 0 in direction 0 is core 1, of the same gang, with one descriptor. -/
def besideCore1 : State := { slotted 0 (atDesc 0 []) with others := [(1, { Core.reset with gang := some 1, work := [0x1234] })] }
theorem witness_steal : besideCore1.core.gang ≠ none ∧ neighbourCore besideCore1.coreId (0 : BitVec 3).toNat = 1 ∧
    readOpen besideCore1 besideCore1.core.tenant besideCore1.die (diePlace (dieOfCore 1)) = true ∧
    (besideCore1.coreAt 1).gang = besideCore1.core.gang ∧ (besideCore1.coreAt 1).work = [] ++ [0x1234] := by decide +kernel
theorem witness_apart : OthersApart besideCore1 := by unfold OthersApart; decide +kernel
theorem test_steal : (after (exec (.wsteal 11 false 10 false 2 0) besideCore1) fun t =>
    t.ctx.getS 11 == 0x1234 && t.ctx.getP 2 && (t.coreAt 1).work == [] && t.core.scratch.num 0x200 32 == 0x1234) = true := by decide +kernel
def waking : State := (slotted 0 (atDesc 0 [])).modPkg fun p => { p with wakes := [(64, 0, 1, 0x1234)] }
theorem witness_wake : waking.pkg.wakes = [(64, waking.coreId, 1, 0x1234)] ∧ wakeOpen waking (64, 0, 1, 0x1234) = true ∧ waking.core.gang = some 1 := by decide +kernel

/-- Stage ring 3 of die 0 is tenant 0's and holds up to two elements; ring register 2 has slots of 256 bytes. -/
def channelled (elems : List W64) (filled : BitVec 9) : State :=
  ((slotted 0 base).modDie 0 fun d => { d with stages := d.stages.set 3 ⟨true, 0, 1, 0, elems⟩ }).modRegs fun r =>
    { r with vec := { r.vec with rings := r.vec.rings.set 2 { base := 0x1000, slog := 2, size := 4, head := 3, tail := 3, filled := filled, free := 4 - filled, resv := [] } } }
theorem witness_stage : (11 : BitVec 6).toNat = (3 : Fin 16).val + 8 ∧ (channelled [7] 1).die < 24 ∧ calSends (channelled [7] 1) (channelled [7] 1).core.tenant (channelled [7] 1).die = true ∧
    ((channelled [7] 1).dieAt (channelled [7] 1).die).stages[(3 : Fin 16)] = ⟨true, 0, 1, 0, [7]⟩ ∧ (base.dieAt 0).stages[(3 : Fin 16)].valid = false ∧
    (answers (operands (channelled [7] 1) [⟨6, false⟩] []) fun x => x.1 == [5]) = true ∧ (answers (operands (channelled [7] 1) [] [11]) fun x => x.1 == []) = true := by decide +kernel
theorem witness_ringChannel : queueNames (channelled [] 1).core 2 = false ∧ ((channelled [] 1).ring 2).size ≠ 0 ∧ ((channelled [] 1).ring 2).resv = [] ∧
    ((channelled [] 1).ring 2).free ≠ 0 ∧ ((channelled [] 1).ring 2).filled ≠ 0 ∧ Memory.wf (channelled [] 1).core.scratch = true ∧
    badBytes (channelled [] 1).core.badScratch (0x1000 + 64 * 4 * 3) 8 = false ∧ queueTouches (channelled [] 1) (0x1000 + 64 * 4 * 3) 8 = false := by decide +kernel
theorem test_stageRing : (after (exec (.chput 1 false 6 false 11) (channelled [7] 1)) fun t => (t.dieAt 0).stages[(3 : Fin 16)].elems == [7, 5] && t.ctx.getP 1) = true ∧
    (after (exec (.chput 1 false 6 false 11) (channelled [7, 8] 1)) fun t => (t.dieAt 0).stages[(3 : Fin 16)].elems == [7, 8] && !t.ctx.getP 1) = true ∧
    (after (exec (.chget 12 1 false 11) (channelled [7, 8] 1)) fun t => t.ctx.getS 12 == 7 && t.ctx.getP 1) = true := by decide +kernel
theorem test_ringWraps : (after (exec (.chput 1 false 6 false 2) (channelled [] 1)) fun t => t.core.scratch.num (0x1000 + 64 * 4 * 3) 8 == 5 && (t.ring 2).tail == 0 &&
    (t.ring 2).filled == 2 && (t.ring 2).free == 2) = true := by decide +kernel
/-- A move is pending, and the rings of both kinds and the queue are empty. -/
def moving : State := (channelled [] 0).modRegs fun r => { r with role := { stage := 3, en := true, lock := false, pend := true, next := 9 } }
theorem witness_moving : (moving.ring 2).filled = 0 ∧ (moving.dieAt moving.die).stages[(3 : Fin 16)].elems = [] ∧ moving.core.work = [] ∧
    (movedRole moving.core.regs.role).stage = 9 ∧ (answers (operands moving [⟨8, false⟩] [11]) fun x => x.1 == [64] &&
      answers (scratchArea x.2 32 32 false 64) fun _ => true) = true := by decide +kernel
theorem test_moveCarriedOut : (after (exec (.chget 12 1 false 11) moving) fun t => t.core.regs.role.stage == 9 && !t.core.regs.role.pend) = true ∧
    (after (exec (.chget 12 1 false 2) moving) fun t => t.core.regs.role.stage == 9 && !t.core.regs.role.pend) = true ∧
    (after (exec (.wpop 11 false 8 false 1) moving) fun t => t.core.regs.role.stage == 9 && !t.core.regs.role.pend) = true := by decide +kernel
/-- Stage ring 3 is half full and has core 0; stage 4 is empty and has cores 1 and 2. -/
def wrangled : State :=
  let at_ := fun (n : BitVec 4) => { base.core with regs := { base.core.regs with role := { stage := n, en := true, lock := false, pend := false, next := 0 } } }
  { ((channelled [7] 0).modDie 0 fun d => { d with stages := d.stages.set 4 ⟨true, 0, 1, 0, []⟩ }) with core := at_ 3, others := [(1, at_ 4), (2, at_ 4)] }
theorem witness_wranglerMoves : wranglerMove wrangled wrangled.die 0 (wrangled.cycle.toNat / 1024) = some (2, 3, 4) ∧ OthersApart wrangled := by
  unfold OthersApart; decide +kernel
theorem test_wranglerMoves : (after (exec (.wranglerSample 0 0) wrangled) fun t => (t.coreAt 2).regs.role == ⟨4, true, false, true, 3⟩) = true := by decide +kernel
theorem witness_wrangler : wranglerMove base base.die 0 (base.cycle.toNat / 1024) = none := by decide +kernel

/-! Witnesses: traps, the handler, pre-emption -/

theorem witness_trap : trapClass 0x10 = .handled ∧ base.isHandler = false ∧ base.core.trap.halted = false ∧ base.core.trap.service = .none ∧
    base.core.trap.pendTraps = [] ∧ base.die < 24 ∧ asHandler.isHandler = true := by decide +kernel
theorem test_trapEntry : (after (exec (.trap 5) base) fun t => t.core.trap.tcause == 8 && t.core.trap.tstat == 5 && t.core.trap.tepc == 0 &&
    (t.ctxAt handlerIx).pc == 0x2C000 && t.ctx.wait == .trapped) = true := by decide +kernel
/-- The handler serves a trap of context 0 with an action. -/
def serving (act : BitVec 3) : State :=
  let r : TrapRec := ⟨0, 8, 0, 5, 0x40, 0x40, false, none, none, .ready, 0⟩
  (asHandler.modTrap fun t => { t with tact := act, tepc := 0x40, service := .trap r }).modCtxAt 0 fun c => { c with wait := .trapped }
theorem witness_eret : (serving 0).isHandler = true ∧ ((serving 0).core.trap.service != .none) = true ∧ (serving 0).core.trap.halted = false ∧ (serving 0).core.trap.pendTraps = [] ∧ (serving 0).core.trap.pendIntrs = [] ∧
    (serving 0).pkg.saved = [] ∧ (serving 0).core.trap.tact = 0 ∧ (serving 1).core.trap.tact = 1 ∧ (serving 2).core.trap.tact = 2 ∧
    3 ≤ (serving 5).core.trap.tact.toNat ∧ (0 : Fin 12) ≠ handlerIx := by decide +kernel
theorem test_eret : (after (exec .eret (serving 0)) fun t => (t.ctxAt 0).pc == 0x40 && (t.ctxAt 0).wait == .ready && t.core.trap.service == .none) = true ∧
    (after (exec .eret (serving 1)) fun t => (t.ctxAt 0).pc == 0x44 && (t.ctxAt 0).wait == .ready) = true ∧
    (after (exec .eret (serving 2)) fun t => !(t.ctxAt 0).live) = true ∧ (after (exec .eret (serving 5)) fun t => t.core.trap.halted) = true := by decide +kernel
/-- The handler serves a pre-empt interrupt; helper 1 lives with s5 = 77. -/
def saving : State :=
  (asHandler.modTrap fun t => { t with service := .intr ⟨1, 0⟩ }).modCtxAt 1 fun c => { (c.setS 5 77) with live := true, pc := 0x80 }
theorem witness_svctx : ctxIx (1 : BitVec 4).toNat = some 1 ∧ saving.core.gang = some 1 ∧ saving.isHandler = true ∧ saving.core.trap.service.saving = true ∧
    (saving.ctxAt 1).live = true ∧ saving.core.trap.saved.getLsbD 1 = false ∧ ((saving.ctxAt 1).h.toList.all fun h => !handleValid h) = true := ⟨rfl, rfl, rfl, rfl, rfl, rfl, rfl⟩
theorem witness_svctxWords : ∃ v w, encode (.svctx 1) = some v ∧ encode (.ldctx 1) = some w ∧ base.isHandler = false := ⟨_, _, rfl, rfl, rfl⟩
theorem test_saveAndLoad : (after (exec (.svctx 1) saving) fun t => !(t.ctxAt 1).live && after (exec (.ldctx 1) t) fun v =>
    (v.ctxAt 1).live && (v.ctxAt 1).pc == 0x80 && (v.ctxAt 1).getS 5 == 77) = true := by decide +kernel
def preempting : State := (reined 0 (slotted 0 base)).modPkg fun p => { p with gangs := [soleGang], preempts := [(0, 2)] }
theorem witness_preempt : controlRuns preempting preempting.coreId = true ∧ preempting.pkg.preempts = [(preempting.coreId, 2)] ∧ preempting.core.exch = none ∧
    coreReached preempting preempting.core.tenant preempting.coreId = true ∧ preempting.core.bridled = false ∧ preempting.core.trap.pendIntrs = [] := by decide +kernel
def restoring : State := { reined 0 (slotted 0 base) with core := Core.reset, pkg := { (reined 0 (slotted 0 base)).pkg with gangs := [{ soleGang with state := .saving }], saved := [{ image 0 with ctxs := [(0, Ctx.reset true)] }] } }
theorem witness_restore : (restoring.pkg.saved.map (·.core)) = [restoring.coreId] ∧ (restoring.pkg.saved.all fun v => restoreDue restoring v) = true ∧
    (image 0).rest.trap.halted = false ∧ (image 0).rest.trap.service = .none ∧ (image 0).rest.trap.pendTraps = [] ∧ (image 0).rest.trap.pendIntrs = [] := by decide +kernel
def lending : State := { restoring with cycle := 70000, pkg := { restoring.pkg with saved := [{ image 0 with lent := some 0 }] } }
/-- The borrower, gang 2, has the core: its control context lives, or has quit. -/
def lentTo (quit : Bool) : State :=
  (lending.modCore fun c => { c with gang := some 2 }).modPkg fun p => { p with gangs := [soleGang, { soleGang with num := 2, ended := if quit then [0] else [] }] }
theorem witness_lend : (lendDue lending 0 = true ∧ lending.coreId = 0 ∧ lending.core.gang = none) ∧
    (lendDue (lentTo false) 0 = true ∧ controlRuns (lentTo false) 0 = true) ∧
    (lendDue (lentTo true) 0 = true ∧ (lentTo true).core.gang ≠ none ∧ controlRuns (lentTo true) 0 = false) := by decide +kernel

/-! Witnesses: management, losses, timed ends -/

/-- A page-fault record for page 3 of tenant 0, a fatal record, and records that wait. -/
def aRecord (kind : BitVec 5) (addr : W64) : TqRec := { seq := 0, tid := 0, tenant := 0, kind := kind, code := 0x14, addr := addr, epc := 0, stat := 0 }
def managed (q w : List TqRec) : State :=
  (base.modDie 0 fun d => { d with tq := q, tqWait := w, faults := [(0, 3)] }).modCtx fun c => { c with wait := .pageFault 0x30000 0 }
theorem witness_faultDue : faultDue ((managed [aRecord 0 0x30000] []).dieAt 0) 0 3 = true ∧ (managed [aRecord 0 0x30000] []).others = [] ∧
    ((managed [aRecord 0 0x30000] []).dieAt 0).replay = [] ∧ ((managed [aRecord 0 0x30000] []).ctxAt 0).live = true ∧
    ((managed [aRecord 0 0x30000] []).ctxAt 0).wait = .pageFault 0x30000 0 ∧ pageOf 0x30000 = 3 := by decide +kernel
theorem witness_records : ((managed [] [aRecord 1 0]).dieAt 0).tqWait = [aRecord 1 0] ∧ tqRoom ((managed [] [aRecord 1 0]).dieAt 0) (aRecord 1 0).kind = true ∧
    ((managed [aRecord 1 0] []).dieAt 0).tq = aRecord 1 0 :: [] ∧ (aRecord 1 0).kind = 1 ∧
    doubleDue (base.modTrap fun t => { t with halted := true }) 0 = true ∧ base.pkg.saved = [] := by decide +kernel
theorem witness_bridle : base.others = [] ∧ base.coreId < 1536 ∧ base.core.bridled = false ∧ (base.modCore fun c => { c with bridled := true }).core.bridled = true ∧
    base.ctx.live = true := by decide +kernel
/-- A WCNT of a neighbour, whose round trip counts a message. -/
def asking : State := (slotted 0 base).withFetchWord 32 0xA2C0_0010
theorem witness_requestLost : asking.ctx.live = true ∧ asking.ctx.wait = .ready ∧ fetchedWord asking = some (0xA2C0_0010, false) ∧
    decode 0xA2C0_0010 = .ok (.wcnt 44 false false 0) ∧ (requestOf (.wcnt 44 false false 0)).map (·.idem) = some true ∧
    (after (exec (.wcnt 44 false false 0) asking) fun t => t.core.msgSent != asking.core.msgSent && t.ctx.instret != asking.ctx.instret) = true := by decide +kernel
/-- A push of the own queue needs no message; it is not idempotent. -/
def pushOwn : State := (atDesc 0 []).withFetchWord 32 0xA011_4000
theorem witness_pushLost : pushOwn.ctx.live = true ∧ pushOwn.ctx.wait = .ready ∧ fetchedWord pushOwn = some (0xA011_4000, false) ∧
    decode 0xA011_4000 = .ok (.wpush 1 false 10 false) ∧ (requestOf (.wpush 1 false 10 false)).map (fun f => (f.idem, f.leaves)) = some (false, false) ∧
    (after (exec (.wpush 1 false 10 false) pushOwn) fun t => t.ctx.instret != pushOwn.ctx.instret && t.core.cur == pushOwn.core.cur && t.coreId == pushOwn.coreId) = true := by decide +kernel
/-- A sense waits for its answer, its request still on its way. -/
def sensing : State := (marked [{ tenant := 0, gang := 1, ctx := 0, op := .read 0x0600_0005 }]).modCtx fun c => { c with wait := .mark 13 [⟨14, false⟩] }
theorem witness_waitsLost : sensing.ctx.live = true ∧ sensing.ctx.wait = .mark 13 [⟨14, false⟩] ∧ sensing.core.markQ.length = 1 ∧
    (sensing.core.markQ.all fun m => m.awaited sensing.core.cur sensing.core.tag) = true ∧ sensing.pkg.markRuns = [] ∧ (pushSent 0 []).ctx.live = true := by decide +kernel
/-- The cores of tenant 0 are halted, and nothing of theirs is on its way. -/
def halted : State := { paged with core := { paged.core with bridled := true }, others := [(1, { Core.reset with bridled := true })] }
theorem witness_quiet : Machine.quiet halted (some 0) = true := by decide +kernel
def waiting (w : Wait) : State := base.modCtx fun c => { c with wait := w }
theorem witness_timedEnds : ((waiting (.refresh 0)).ctxAt 0).wait = .refresh 0 ∧ 0 ≤ base.cycle.toNat ∧ ((waiting (.idle 0)).ctxAt 0).wait = .idle 0 ∧
    ((waiting (.hold 0)).ctxAt 0).wait = .hold 0 := by decide +kernel
theorem witness_spin : spinTripped (base.modCtx fun c => { c with spin := 64 }).core 0 = true ∧
    coreHasSaved (base.modCtx fun c => { c with spin := 64 }) 0 = false := by decide +kernel

/-! Witnesses: copies, multicast, FIFOs, engines -/

/-- A copy descriptor at 0x200, 8 bytes from 0x1000 to 0x2000, a conversion descriptor at 0x240, a tag and length in s11, a configured ring 2. -/
def copying : State :=
  let bytes := toBytesLE 8 0x1000 ++ toBytesLE 8 0x2000 ++ toBytesLE 4 8 ++ List.replicate 12 0
  let csr := toBytesLE 8 0x1000 ++ toBytesLE 4 1 ++ toBytesLE 4 1 ++ toBytesLE 8 4 ++ toBytesLE 8 0x2000 ++ toBytesLE 8 0x2100 ++ toBytesLE 8 0x2200 ++
    List.replicate 16 0
  withS (withS (withS ((channelled [] 1).modCore fun c => { c with scratch := (((c.scratch.setBytes 0x200 bytes).setBytes 0x240 csr).setBytes 0x1000
    [1, 2, 3, 4, 5, 6, 7, 8]) }) 10 0x200) 12 0x240) 11 0x40_0000_0003
theorem witness_copyPlain : outstanding copying < 64 ∧ (answers (operands copying [⟨10, false⟩] [13]) fun x => x.1 == [0x200] &&
    answers (descriptorAt x.2 32 0x200) fun desc => copyShape desc && answers (firstByte x.2 false (BitVec.ofNat 64 (descBytes desc 7 0))) fun y => !y.1 &&
      answers (firstByte y.2 true (BitVec.ofNat 64 (descBytes desc 15 8))) fun z => !z.1) = true ∧ 8 ≤ (8 : BitVec 6).toNat := by decide +kernel
theorem witness_copyBelow : BelowRequest copying 0x1000 8 ∧ BelowRequest copying 0x2000 8 ∧ BelowRequest copying 64 256 ∧ BelowRequest copying 0x1000 4 ∧ BelowRequest copying 0x2200 8 ∧
    BelowRequest copying 64 64 := by unfold BelowRequest; decide +kernel
/-- The arrays of the conversion: its row of SRC, a bound of ROWPTR for each row and one more, and the elements that it keeps. -/
theorem witness_csrBelow : (answers (descriptorAt copying 64 0x240) fun desc => csrOf desc == ⟨0x1000, 1, 1, 4, 0x2000, 0x2100, 0x2200, 0, 0, 0, 0⟩) = true ∧
    keptNow copying ⟨0x1000, 1, 1, 4, 0x2000, 0x2100, 0x2200, 0, 0, 0, 0⟩ = 1 ∧ BelowRequest copying 0x2000 4 ∧ BelowRequest copying 0x2100 4 ∧
    BelowRequest copying 0x2200 8 := by unfold BelowRequest; decide +kernel
/-- With a request of 0x2000 bytes element 1 of VAL, the first that is written, lies above it; ROWPTR and SRC stand below. -/
def csrAbove : State := copying.modCore fun c => { c with scratchReq := 0x2000, scratch := ((c.scratch.setBytes 0x258 (toBytesLE 8 0x1FFC)).setBytes 0x268 (toBytesLE 8 0x1800)).setBytes 0x27C [1] }
theorem witness_csrAbove : (answers (operands csrAbove [⟨12, false⟩] [13]) fun x => x.1 == [0x240] && answers (descriptorAt x.2 64 0x240) fun desc =>
    csrOf desc == ⟨0x1000, 1, 1, 4, 0x1FFC, 0x2100, 0x1800, 0, 0, 1, 0⟩ && (csrOf desc).fine && keptNow x.2 (csrOf desc) == 1 &&
      answers (firstByte x.2 false (csrOf desc).src) fun y => answers (firstByte y.2 true (csrOf desc).val) fun _ => true) = true ∧ csrAbove.isHandler = false ∧
    BelowRequest csrAbove 0x1000 4 ∧ BelowRequest csrAbove 0x1800 8 ∧ (0x2000 : W64).toNat = Nat.max (0x1FFC + 4 * 1) csrAbove.core.scratchReq := by unfold BelowRequest; decide +kernel
/-- A request of 0x1004 bytes, inside the copy's source; the destination is 0x800. -/
def copyAbove : State := copying.modCore fun c => { c with scratchReq := 0x1004, scratch := c.scratch.setBytes 0x208 (toBytesLE 8 0x800) }
theorem witness_copyAbove : (answers (operands copyAbove [⟨10, false⟩] [13]) fun x => x.1 == [0x200] && answers (descriptorAt x.2 32 0x200) fun desc => copyShape desc &&
    descBytes desc 7 0 == 0x1000 && descBytes desc 19 16 == 8 && answers (firstByte x.2 false 0x1000) fun y => answers (firstByte y.2 true (BitVec.ofNat 64 (descBytes desc 15 8)))
      fun z => !z.1) = true ∧ copyAbove.isHandler = false ∧ (0x1004 : W64).toNat = copyAbove.core.scratchReq := by decide +kernel
theorem test_copyAboveRequestTraps : (after (exec (.cpy 13 false 10 false 8 false 0) copyAbove) fun t => t.core.trap.tcause == 0x12 && t.core.trap.taddr == 0x1004 &&
    t.core.copies == []) = true := by decide +kernel
theorem witness_copyRing : (answers (operands copying [⟨8, false⟩] [13]) fun x => x.1 == [64] && answers (firstByte x.2 false 64) fun y => !y.1) = true ∧
    (copying.ring 2).size ≠ 0 ∧ (64 : W64).toNat % 64 = 0 := by decide +kernel
theorem witness_copyCsr : (answers (operands copying [⟨12, false⟩] [13]) fun x => x.1 == [0x240] && answers (descriptorAt x.2 64 0x240) fun desc =>
    (csrOf desc).fine && answers (firstByte x.2 false (csrOf desc).src) fun y => answers (firstByte y.2 true (csrOf desc).val) fun z => !z.1) = true := by decide +kernel
theorem witness_copyMulticast : (answers (operands copying [⟨8, false⟩, ⟨11, false⟩] [13]) fun x => x.1 == [64, 0x40_0000_0003] &&
    answers (firstByte x.2 false 64) fun y => !y.1) = true ∧ field 0x40_0000_0003 15 0 ≠ 0 := by decide +kernel
/-- One copy of context 0 under way, its status directed at s13. -/
def aCopy (form : CopyForm) (bad : Bool) : Copy :=
  { id := 0, ctx := 0, sd := some 13, mode := 0, scope := 0, form := form, src := 0x1000, len := 8, bad := bad, slot := none, batch := none, sent := false, result := none, moved := [] }
def copyOut (form : CopyForm) (bad : Bool) : State := copying.modCore fun c => { c with copies := [aCopy form bad] }
theorem witness_copyEnds : (copyOut (.plain 0x2000) true).core.copies = [aCopy (.plain 0x2000) true] ∧ (aCopy (.plain 0x2000) true).batch = none ∧
    (aCopy (.plain 0x2000) true).result = none ∧ (aCopy (.plain 0x2000) true).sd = some 13 ∧ (aCopy (.plain 0x2000) false).len = 8 ∧
    statusOpen (copyOut (.plain 0x2000) true) (aCopy (.plain 0x2000) true) = true ∧
    (aCopy (.plain 0x2000) false).mode = 0 ∧ (aCopy (.plain 0x2000) false).moved = [] ∧ Memory.wf copying.core.scratch = true ∧ 0x2000 + 8 ≤ copying.core.scratchReq ∧
    copying.core.scratchReq ≤ Config.pinnedBase ∧ copying.core.badScratch = [] ∧ copying.pkg.saved = [] := by decide +kernel
theorem test_copyMovesBytes : (after (exec (.copyStatus 0 0) (copyOut (.plain 0x2000) false)) fun t => t.core.scratch.bytes 0x2000 8 == [1, 2, 3, 4, 5, 6, 7, 8] &&
    t.ctx.getS 13 == 0x8000_0000_0000_0008) = true := by decide +kernel
/-- A unit that moves ahead of the status changes the destination and is not moved again. -/
theorem test_copyUnitMovesAhead : ((copyOut (.plain 0x2000) false).core.copy? 0).isSome = true ∧
    ((copyUnits false ⟨.same, .va 0x2000, 8⟩ 0x1000 [0] 1 0 copying).map fun x => (x.1, x.2.1, x.2.2.core.scratch.bytes 0x2000 8)) =
      some (8, 0, List.replicate 8 0) := by decide +kernel
theorem witness_copyReserves : (copyOut (.ring 2) false).core.copies = [aCopy (.ring 2) false] ∧ ((copyOut (.ring 2) false).ring 2).free ≠ 0 := by decide +kernel
def aTile : Tile := { tag := 3, bytes := [9, 8, 7], sender := 1, copy := 0, port := 64 }
def tiled : State := copying.modCore fun c => { c with tiles := [aTile], matchTab := [(3, 2)] }
theorem witness_tileLands : tiled.core.tiles = [aTile] ∧ tiled.core.matchTab.lookup aTile.tag = some 2 ∧ (tiled.ring 2).free ≠ 0 ∧ (tiled.ring 2).resv = [] ∧
    aTile.bytes.length ≤ 64 * (tiled.ring 2).size.toNat ∧
    replyOpen tiled tiled.core.tenant tiled.die aTile.port = true := by decide +kernel
/-- Slots of every link, and of the rein. -/
def joining : State := (reined 0 copying).modPkg fun p => { p with links := Vector.replicate 12 (Vector.replicate 64 0x10) }
theorem witness_subscribe : joining.isHandler = false ∧ (answers (operands joining [⟨7, false⟩] []) fun x => x.1 == [3]) = true ∧ field 3 15 0 ≠ 0 ∧
    (joining.ring 2).size ≠ 0 ∧ joining.core.matchTab = [] ∧ joining.others = [] ∧ joining.pkg.saved = [] ∧
    (∀ k < 4, readOpen joining joining.core.tenant joining.die (basePlace k) = true) := by decide +kernel
/-- FIFO 1 of a kind, bound with completion FIFO 2, holding elements. -/
def fifoed (kind : BitVec 4) (elems : List W64) : State :=
  copying.modCore fun c => { c with efifo := c.efifo.set 1 { kind := kind, scope := 0, depth := 4, completion := 2, elems := elems } }
theorem witness_epush : (fifoed 1 []).ctx.ord = none ∧ ((fifoed 1 []).core.fifo (1 : BitVec 4).toNat).kind = 1 ∧
    (answers (operands (fifoed 1 []) [⟨10, false⟩] []) fun x => x.1 == [0x200]) = true ∧
    (done (release ((fifoed 1 []).core.fifo (1 : BitVec 4).toNat).scope.toNat (fifoed 1 [])) fun t => t.core.efifo == (fifoed 1 []).core.efifo &&
      answers (operands t [⟨10, false⟩] []) fun x => x.1 == [0x200]) = true ∧
    ((fifoed 1 []).core.fifo (1 : BitVec 4).toNat).elems.length < ((fifoed 1 []).core.fifo (1 : BitVec 4).toNat).depth := by decide +kernel
theorem witness_epop : (answers (operands (fifoed 2 [5]) [] [13]) fun x => x.1 == []) = true ∧ ((fifoed 2 [5]).core.fifo (1 : BitVec 4).toNat).kind = 2 ∧
    ((fifoed 2 [5]).core.fifo (1 : BitVec 4).toNat).elems ≠ [] := by decide +kernel
theorem test_epopTakesOldest : (after (exec (.epop 13 false 1 false 1) (fifoed 2 [5, 6])) fun t => t.ctx.getS 13 == 5 && t.ctx.getP 1 && (t.core.fifo 1).elems == [6]) = true := by
  decide +kernel
theorem witness_batchElement : ((fifoed 1 [0x3_0000_0010_0000]).core.fifo (1 : BitVec 4).toNat).kind = 1 ∧
    ((fifoed 1 [0x3_0000_0010_0000]).core.fifo (1 : BitVec 4).toNat).elems = 0x3_0000_0010_0000 :: [] := by decide +kernel
/-- The descriptor of a batch element can be read, or its fields are bad. -/
theorem witness_batchCopy : ((batchCopy (fifoed 1 [0x3_0000_0010_0001]) ((fifoed 1 []).core.fifo 1) 0x3_0000_0010_0001).map fun k => (k.bad, k.batch)) =
      some (true, some (2, 3)) ∧
    ((batchCopy windowed ((fifoed 1 []).core.fifo 1) 0x3_0000_0010_0000).map fun k => (k.sd, k.batch)) = some (none, some (2, 3)) := by decide +kernel
def completed : State := (fifoed 2 []).modCore fun c => { c with copies := [{ aCopy (.plain 0) false with batch := some (1, 7), result := some (copyStatusWord 8 0) }] }
theorem witness_completionPush : completed.core.copies.map (fun k => (k.batch, k.result.isSome)) = [(some (1, 7), true)] ∧
    (completed.core.fifo (1 : BitVec 4).toNat).elems.length < (completed.core.fifo (1 : BitVec 4).toNat).depth := by decide +kernel
theorem witness_network : ((fifoed 3 [5]).core.fifo (1 : BitVec 4).toNat).kind = 3 ∧ ((fifoed 3 [5]).core.fifo (1 : BitVec 4).toNat).elems = 5 :: [] ∧
    networkOpen (reined 0 (fifoed 3 [5])) 0 = true ∧
    ((fifoed 4 []).core.fifo (1 : BitVec 4).toNat).kind = 4 ∧
    ((fifoed 4 []).core.fifo (1 : BitVec 4).toNat).elems.length < ((fifoed 4 []).core.fifo (1 : BitVec 4).toNat).depth := by decide +kernel

/-! Witnesses: launch, the Pacer -/

/-- A launch record in far memory at 0x100000: PC 0x10000, ARG 7, one group of one core, PLACE 0. -/
def recordBytes : List Byte := toBytesLE 8 0x10000 ++ toBytesLE 8 7 ++ toBytesLE 4 1 ++ toBytesLE 4 1 ++ List.replicate 40 0
def aRecord512 : BitVec 512 := BitVec.ofNat 512 (ofBytesLE recordBytes)
def launching : State := { windowed with mem := windowed.mem.setBytes (farBase + 0x100000) recordBytes }
theorem witness_launch : launching.isHelper = false ∧ launching.ctx.ord = none ∧ (0x100000 : W64).toNat % 64 = 0 ∧ Config.scratchBytes ≤ (0x100000 : W64).toNat ∧
    (done (release 4 launching) fun t => answers (operands t [⟨10, false⟩] [13]) fun x => x.1 == [0x100000] &&
      answers (checkAddress x.2 .load 64 false .readable 0x100000) fun y => y.1 == .home (farBase + 0x100000) false &&
        BitVec.ofNat 512 (y.2.mem.num (farBase + 0x100000) 64) == aRecord512 && recHeld y.2 y.2.core.tenant aRecord512 == none && recBad y.2 y.2.core.tenant aRecord512 == none &&
        (y.2.tenant? y.2.core.tenant).isSome && coreReached y.2 y.2.core.tenant y.2.coreId && y.2.pkg.launches == [] && (refreshing y.2.cycle (farBase + 0x100000)).isNone &&
        readOpen y.2 y.2.core.tenant y.2.die (farBase + 0x100000) && !badLines y.2.badMem (farBase + 0x100000) 64) = true ∧ recWAIT aRecord512 = 0 := by decide +kernel
/-- A record that is eligible, or one that waits on the counter at 0x200000, which is 0. -/
def aLaunch (since : Option Nat) (wait : Nat) : LaunchRec :=
  { gang := 5, tenant := 0, record := BitVec.ofNat 512 (ofBytesLE recordBytes + wait * 2 ^ 256), since := since, registered := false, woken := none, caddr := none }
def pending (x : LaunchRec) : State := { launching with core := Core.reset, pkg := { launching.pkg with launches := [x] } }
theorem witness_waitCounter : (pending (aLaunch none 0x200000)).pkg.launches = [aLaunch none 0x200000] ∧ (aLaunch none 0x200000).since = none ∧
    recWAIT (aLaunch none 0x200000).record ≠ 0 ∧ pollOpen (pending (aLaunch none 0x200000)) (aLaunch none 0x200000) = true ∧
    (answers (translateFor (pending (aLaunch none 0x200000)) 0 (recWAIT (aLaunch none 0x200000).record) false) fun p => p == farBase + 0x200000 &&
      (pending (aLaunch none 0x200000)).mem.num p 8 == 0) = true := by decide +kernel
theorem witness_gangPlace : ((nextPlaced (pending (aLaunch (some 0) 0))).map fun x => (x.1.gang, x.2)) = some (5, [[0]]) ∧
    recMCOUNT (aLaunch (some 0) 0).record = 0 ∧ (pending (aLaunch (some 0) 0)).coreId = 0 := by decide +kernel
theorem test_gangPlace : (after (exec .gangPlace (pending (aLaunch (some 0) 0))) fun t => t.core.gang == some 5 && (t.ctxAt 0).pc == 0x10000 && (t.ctxAt 0).getS 1 == 7 &&
    (t.ctxAt 0).getS 4 == 1 && (t.ctxAt 0).getS 5 == 1) = true := by decide +kernel
/-- Gang 1 has ended on its one core; without and with a completion record. -/
def ending (compl : W64) : State := paged.modPkg fun p => { p with gangs := [{ soleGang with ended := [0], compl := compl }] }
theorem witness_gangComplete : (((ending 0).gangOf 1).map fun g => gangDone (ending 0) g) = some true ∧ (ending 0).core.gang = some 1 ∧
    (answers (translateFor (ending 0x100000) 0 0x100000 true) fun p => p == farBase + 0x100000 && isWeight p == false) = true ∧
    completeOpen (ending 0) { soleGang with ended := [0] } = true ∧ completeOpen (ending 0x100000) { soleGang with ended := [0], compl := 0x100000 } = true ∧
    (ending 0).gangOf 1 = some { soleGang with ended := [0] } := by decide +kernel
/-- A leaf of the weight store: SPACE 1, writable, of 1 GiB. -/
def weighted : State := { ending 0x100000 with mem := (ending 0x100000).mem.set 0x1000 0x2F }
theorem witness_completeWeight : (answers (translateFor weighted 0 0x100000 true) fun p => isWeight p) = true := by decide +kernel
/-- A pace descriptor at 0x280: one level of three iterations, one stream on queue 3, base 0x500, stride 8, 2 permits; queue 3 the Pacer's. -/
def paceBytes : List Byte := [0x30, 0, 2, 0, 0, 0, 0, 0, 3, 0] ++ List.replicate 6 0 ++ toBytesLE 8 0x500 ++ List.replicate 24 0 ++ [8] ++ List.replicate 79 0
def pacing (p : Pacer) : State :=
  withS ((base.modRegs fun r => { r with qcfg := 0xFFFF_FFFF_0CFF_FFFF, pacer := p }).modCore fun c => { c with scratch := c.scratch.setBytes 0x280 paceBytes }) 10 0x280
theorem witness_pace : (answers (operands (pacing Pacer.reset) [⟨10, false⟩] []) fun x => x.1 == [0x280] && answers (scratchArea x.2 128 128 true 0x280) fun _ => true) = true ∧
    (pacing Pacer.reset).core.regs.pacer.active = false ∧ paceBad ((pacing Pacer.reset).core.scratch.num 0x280 128) = none ∧
    paceQueue (pacing Pacer.reset).core.regs.qcfg ((pacing Pacer.reset).core.scratch.num 0x280 128) = none := by decide +kernel
def pushing : Pacer := { paceLoad (ofBytesLE paceBytes) with stream := some 0, i := #v[2, 0, 0, 0] }
theorem witness_pacerPush : pacerDue (pacing pushing).core = true ∧ (pacing pushing).core.regs.pacer.stream = some 0 ∧ (pacing pushing).core.regs.pacer.streams = 1 ∧
    (pacing pushing).core.regs.pacer.levels = 1 ∧ (pacing pushing).core.regs.pacer.qbase = (3 : Fin 8).val := by decide +kernel
theorem test_pacerPush : (after (exec (.pacerPush 0) (pacing pushing)) fun t => t.queue 3 == [0x510] && !t.core.regs.pacer.active) = true := by decide +kernel

/-! Witnesses: the vector queue -/

def vAdd : Instr := .vadd 6 true 6 false 7 1 2
theorem witness_vectorWord : queuedWord vAdd = true ∧ (encode vAdd).map guarded = some false ∧ asHelper.isHelper = true ∧ base.isHelper = false ∧ frameHolds base = false ∧
    base.core.entries.length < 16 ∧ (answers (vecOperands base vAdd) fun x => x.1 == 0 && answers (entryChecks base base.isHandler (fmtInForce base) x.1 vAdd) fun _ => true) = true := by
  decide +kernel
/-- A repeat frame of the control context, and a full queue. -/
def framed (w : W64) (body : List W32) : State := base.modFrame fun f => { f with word := w, base := 0x44, body := body, pc := 0x4C }
def someEntry (w : W32) (v : W64) : VEntry := { word := w, pc := 0x40, ctx := 0, sval := v, rm := 0, image := [], owed := none, frame := none }
def queueing (l : List VEntry) : State := base.modCore fun c => { c with vq := l }
theorem witness_vectorWaits : base.isHelper = false ∧ frameHolds (framed 0x1000000 []) = true ∧ 16 ≤ (queueing (List.replicate 16 (someEntry 0 0))).core.entries.length ∧
    frameHolds (queueing (List.replicate 16 (someEntry 0 0))) = false := by decide +kernel
/-- A guarded MLD whose address register is readable, or freed. -/
def guardedLoad : Instr := .mld 1 10 2 5 false 0
theorem witness_guardedWord : queuedWord guardedLoad = true ∧ (encode guardedLoad).map guarded = some true ∧
    (answers (operands base (vecScalar guardedLoad) []) fun x => x.1 == [0]) = true ∧
    operands ((base.modCtx fun c => { c with freed := 1 <<< 10 })) (vecScalar guardedLoad) [] = .error (.trap ⟨4, 0, 10⟩) ∧
    base.core.entries.length < 16 := by decide +kernel

/-- An entry at the head: an add, a guarded MZERO whose predicate is 0, a load from an odd address. -/
def headed (e : VEntry) : State := queueing [e]
def addWord : W32 := (encode vAdd).getD 0
def guardedWord : W32 := (encode (.mzero 1 2 5)).getD 0
theorem witness_headGuardOff : (headed (someEntry guardedWord 0)).core.flying = none ∧ (headed (someEntry guardedWord 0)).core.vq = someEntry guardedWord 0 :: [] ∧
    guardHolds (headed (someEntry guardedWord 0)).core.regs.vec (someEntry guardedWord 0) = false := by decide +kernel
theorem witness_headStarts : (headed (someEntry addWord 0)).core.vq = someEntry addWord 0 :: [] ∧ decode addWord = .ok vAdd ∧ guarded addWord = false ∧
    (rowResult base.core.regs.vec (fun r => base.core.regs.vec.v[r.toNat]) .rne 0 vAdd).isSome = true := ⟨rfl, rfl, rfl, rfl⟩
theorem witness_headGoes : headState (headed (someEntry ((encode (.mzero 1 0 0)).getD 0) 0)) (someEntry ((encode (.mzero 1 0 0)).getD 0) 0) = .go := by decide +kernel
theorem witness_headTraps : headState (headed { someEntry guardedWord 0 with word := (encode guardedLoad).getD 0, sval := 4 })
      { someEntry guardedWord 0 with word := (encode guardedLoad).getD 0, sval := 4 } = .drop ∧
    headState ((headed (someEntry ((encode guardedLoad).getD 0) 4)).modVec fun v => { v with k := v.k.set 2 0x20 }) (someEntry ((encode guardedLoad).getD 0) 4) =
      .trap ⟨0x10, 4, 64⟩ ∧ (someEntry 0 4).frame = none ∧ (0 : Fin 12) ≠ handlerIx ∧ base.core.trap.halted = false ∧ base.core.trap.service = .none ∧
    base.core.trap.pendTraps = [] := by decide +kernel
/-- An entry that has started. -/
def started (e : VEntry) : State := (base.modCore fun c => { c with flying := some e }).modVec fun v =>
  { v with v := (v.v.set 6 (Vector.replicate 32 0x3F800000)).set 7 (Vector.replicate 32 0x40000000), rings := v.rings.set 2 { Ring.reset with base := 0x1000, size := 64, resv := [⟨0, 0, false⟩] } }
theorem witness_completes : (started (someEntry addWord 0)).core.flying = some (someEntry addWord 0) ∧ decode addWord = .ok vAdd ∧
    (rowResult (started (someEntry addWord 0)).core.regs.vec (readRow (started (someEntry addWord 0)).core.regs.vec 0) (modeOf 0) 0 vAdd).isSome = true ∧
    (started (someEntry addWord 0)).core.regs.vec.vgone.getLsbD 6 = false := ⟨rfl, rfl, rfl, rfl⟩
theorem test_vaddCompletes : (after (exec (.vectorEntryComplete 0) (started (someEntry addWord 0))) fun t =>
    (t.core.regs.vec.v[6]).toList == List.replicate 32 (0x40400000 : W32) && t.core.flying == none && t.ctx.fstat == 0) = true := by decide +kernel
theorem witness_elements : tyFmt 1 = none ∧ tyFmt 2 = some f32 ∧ tyWidth 2 = 32 ∧ 32 ≤ tyWidth 1 ∧
    (∃ g ∈ elementTable .rne false false 0 1 2 3 1, g.1 = .vadd 3 false 1 false 2 0 1 ∧ g.2 = .inl fun _ x y _ => x + y) := by
  refine ⟨rfl, rfl, rfl, by decide, _, List.mem_cons_self, rfl, rfl⟩
theorem witness_maskedRow : tyFmt 1 = none ∧ 32 ≤ tyWidth 1 ∧ (3 : BitVec 3).toNat ≤ 4 := by decide
/-- 1 + 2^-25 in FP32. -/
theorem witness_rounding : roundDy f32 .rne false ⟨2 ^ 25 + 1, -25⟩ = (0x3F800000, 1) ∧ f32.isInf 0x3F800000 = false ∧ (0x3F800001 : Nat) < 2 ^ f32.width ∧
    f32.isNaN 0x3F800001 = false ∧ f32.isInf 0x3F800001 = false ∧ roundDy f32 .rtz false ⟨2 ^ 25 + 3, -25⟩ = (0x3F800000, 1) := by decide +kernel
/-- Finite operands of each sign and zero, a form of the exact sum, an overflow, and NaN operands. -/
theorem witness_floatOperands : FinitePattern f32 0x3F800000 ∧ FinitePattern f32 0xBF800000 ∧ FinitePattern f32 0x80000000 ∧
    f32.isNaN 0x7FC00000 = true ∧ f32.isSNaN 0x7F800001 = true ∧ f32.isInf (roundDy f32 .rne false ⟨1, 200⟩).1 = true := by
  unfold FinitePattern; decide +kernel
theorem witness_floatNumbers : numberOf (f32.value 0x3F800000) = 1 ∧ numberOf (f32.value 0xBF800000) = -1 ∧ numberOf (f32.value 0x80000000) = 0 ∧
    numberOf ⟨4, -1⟩ = 1 - -1 := by decide +kernel
/-- Every tile and matrix word can stand at the place where entries complete. -/
theorem witness_tileWords : ([.mzero 1 0 0, .mld 1 10 0 0 true 2, .mst 1 10 0 0 2, .mmov 1 10 6 true true 3, .mmov 1 10 6 false false 3, .mfmt 10, .kld 1 10, .kop 1 10 2 3,
      .vld 6 false 10 1, .vst 6 false 10 1, .mma 1 2 3 0 0 true false true false, .mmas 1 2 3 0 0 1 4 true true, .mscale 1 0 0, .msm 1 2 0 0 true, .mtab 1 10] : List Instr).all
    (fun i => match encode i with | some w => decode w == .ok i && (started (someEntry w 0)).core.flying == some (someEntry w 0) | none => false) = true := by decide +kernel
def mmaWord : W32 := (encode (.mma 1 2 3 0 0 true false true false)).getD 0
theorem witness_matrixWords : ∃ t, decode mmaWord = .ok (.mma 1 2 3 0 0 true false true false) ∧
    exec (.vectorEntryComplete (started (someEntry mmaWord 0)).coreId) (started (someEntry mmaWord 0)) = .next t := ⟨_, rfl, rfl⟩
theorem witness_msm : fmtOTYPE (started (someEntry 0 0)).core.regs.vec.fmt = 0 ∧ (outType base.core.regs.vec ((1 : W64) <<< 8)).isSome = true ∧
    (2 : BitVec 3) ≠ 3 ∧ ((started (someEntry 0 0)).ring 2).resv = [⟨0, 0, false⟩] := by decide +kernel
theorem test_mzeroClearsTile : (after (exec (.vectorEntryComplete 0) ((started (someEntry ((encode (.mzero 1 0 0)).getD 0) 0)).modVec fun v =>
    { v with m := v.m.set 1 (Vector.replicate 1024 7) })) fun t => tileAt t.core.regs.vec.m[1] 31 31 == 0 && tileAt t.core.regs.vec.m[1] 0 0 == 0) = true := by decide +kernel
/-- VLD of row 1 behind s-value 0x1000: byte 0x1080 on. -/
theorem test_vldReadsBehind : (after (exec (.vectorEntryComplete 0) ((started (someEntry ((encode (.vld 6 false 10 1)).getD 0) 0x1000)).modCore fun c =>
    { c with scratch := c.scratch.setBytes 0x1080 [1, 2, 3, 4] })) fun t => (t.core.regs.vec.v[6])[0] == 0x04030201) = true := by decide +kernel

/-- s15 points to far memory, v7 holds an index of 8 in lane 0 and lanes that are off. -/
def lanes7 : State := withS (windowed.modVec fun v => { v with v := v.v.set 7 ((Vector.replicate 32 0x80000000).set 0 8) }) 15 0x100000
theorem witness_gather : lanes7.isHelper = false ∧ frameHolds lanes7 = false ∧ (encode (.vgath 6 false 15 7 0)).isSome = true ∧ (encode (.vscat 6 false 15 7 0)).isSome = true ∧
    writesPending lanes7.core [7, 6] = false ∧ (answers (vecOperands lanes7 (.vgath 6 false 15 7 0)) fun x => x.1 == 0x100000 &&
      answers (checkLanes false 4 [] (lanesOf 0x100000 0 (readRow lanes7.core.regs.vec lanes7.fresh 7)) x.2.useFresh) fun y => y.1.map (·.home) == [farBase + 0x100008]) = true ∧
    (answers (vecOperands lanes7 (.vscat 6 false 15 7 0)) fun x => answers (checkLanes true 4 (elems 32 32 (readRow lanes7.core.regs.vec lanes7.fresh 6))
      (lanesOf 0x100000 0 (readRow lanes7.core.regs.vec lanes7.fresh 7)) x.2.useFresh) fun y => y.1.length == 1) = true ∧
    (lanes7.core.regs.gathers.filter fun g => !g.sent).length < 64 := by decide +kernel
/-- The image of a decode table in the scratchpad. -/
theorem witness_mtab : (encode (.mtab 1 8)).isSome = true ∧ (answers (vecOperands base (.mtab 1 8)) fun x => x.1 == 64 &&
    answers (readImage x.2 64 (.mtab 1 8)) fun y => y.1.length == 256 && decide (y.2.core.entries.length < 16)) = true := by decide +kernel
/-- An illegal word of the MST form: its scalar can be read, is freed, or waits for a queue. -/
def storeForm (a : Nat) : W32 := BitVec.ofNat 32 (0x36 * 2 ^ 26 + a * 2 ^ 17 + 5 * 2 ^ 14 + 2 ^ 5 + 2 ^ 6)
theorem witness_illegalScalar : guarded (storeForm 6) = true ∧ (decode (storeForm 6)).toOption = none ∧
    (answers (operands base (illegalScalar (storeForm 6)) []) fun x => x.1 == [5]) = true ∧
    operands (freed6 false) (illegalScalar (storeForm 6)) [] = .error (.trap ⟨4, 0, 6⟩) ∧
    operands (queued []) (illegalScalar (storeForm 58)) [] = .error (.block (.qRead 2 1)) := by decide +kernel
theorem witness_illegalWords : guarded 0 = false ∧ guarded (guardedWord ||| 0xF8) = true ∧ (decode (guardedWord ||| 0xF8)).toOption = none ∧ base.core.entries.length < 16 := by decide +kernel

/-- REP of two words at 0x40: MZERO and an add, or a NOP second. -/
def repeating (second : W32) : State :=
  (base.modCore fun c => { c with scratch := (c.scratch.setBytes 0x44 (toBytesLE 4 guardedWord.toNat)).setBytes 0x48 (toBytesLE 4 second.toNat) }).modCtx fun c => { c with pc := 0x40 }
theorem witness_rep : frameActive (repeating addWord).core.regs.frame.word = false ∧
    (answers (fetchBody ((repeating addWord).ctx.pc + 4) ((1 : BitVec 4).toNat + 1) (repeating addWord)) fun x => x.1 == [guardedWord, addWord] && x.1.all frameWord) = true ∧
    (answers (fetchBody ((repeating 0xFC000000).ctx.pc + 4) ((1 : BitVec 4).toNat + 1) (repeating 0xFC000000)) fun x => (x.1.findIdx? fun w => !frameWord w) == some 1) = true := by decide +kernel
/-- Index 1 of a frame of two words, steps 0–1 with vector stride 1; the same at step 1, and at index 0. -/
def stepping2 (step index : Nat) : State := framed (BitVec.ofNat 64 (step + 256 * index + 2 ^ 12 + 2 ^ 16 + 2 ^ 24 + 2 ^ 41)) [addWord, addWord]
theorem witness_frameStep : frameMay (stepping2 0 1).core = true ∧ (stepping2 0 1).isHelper = false ∧ (stepping2 0 1).core.trap.held = [] ∧
    (stepping2 0 1).core.regs.frame.body[frameIndex (stepping2 0 1).core.regs.frame.word]? = some addWord ∧ frameWord addWord = true ∧
    stagger (field (stepping2 1 1).core.regs.frame.word 45 32) (frameStep (stepping2 1 1).core.regs.frame.word) vAdd = .vadd 7 true 7 false 8 1 2 ∧
    (encode (.vadd 7 true 7 false 8 1 2)).map guarded = some false ∧ (answers (vecOperands (stepping2 1 1) (.vadd 7 true 7 false 8 1 2)) fun x => x.1 == 0) = true ∧
    frameIndex (stepping2 0 0).core.regs.frame.word < frameCount (stepping2 0 0).core.regs.frame.word ∧
    frameIndex (stepping2 0 1).core.regs.frame.word = frameCount (stepping2 0 1).core.regs.frame.word ∧
    frameStep (stepping2 0 1).core.regs.frame.word < frameLast (stepping2 0 1).core.regs.frame.word ∧
    frameStep (stepping2 1 1).core.regs.frame.word = frameLast (stepping2 1 1).core.regs.frame.word ∧ (stepping2 1 1).core.entries.length < 16 := by decide +kernel
theorem test_frameStepStaggers : (after (exec (.frameStepDispatch 0) (stepping2 1 0)) fun t =>
    (t.core.vq.map fun e => decode e.word) == [.ok (.vadd 7 true 7 false 8 1 2)] && frameIndex t.core.regs.frame.word == 1) = true := by decide +kernel

/-! Witnesses: packets, parked stores -/

def aPacket : Packet := { tenant := 0, gang := 1, ctx := 0, body := .tile 3 [1] 0 0 64 }
def away : State := base.modPkg fun p => { p with saved := [{ image 0 with gang := 7 }] }
theorem witness_spill : away.core.resident { aPacket with gang := 7 } = false ∧ away.pkg.saved = [{ image 0 with gang := 7 }] ∧ (image 0).core = away.coreId ∧
    ({ image 0 with gang := 7 }.gang.setWidth 16 : Half) = { aPacket with gang := 7 }.gang ∧ (image 0).spill.length < spillRoom := ⟨rfl, rfl, rfl, rfl, by decide⟩
/-- Context 0 of the gang on the core has been saved. -/
def savedContext : State := (base.modTrap fun t => { t with saved := 1 }).modPkg fun p => { p with saved := [image 0] }
theorem witness_spillHere : savedContext.core.resident aPacket = false ∧ savedContext.core.gang = some (image 0).gang := by decide +kernel
theorem witness_spillSaved : savedContext.pkg.saved = [image 0] ∧ away.core.gang ≠ some ({ image 0 with gang := 7 }).gang := ⟨rfl, by decide⟩
def resending : State := base.modCore fun c => { c with resend := [aPacket] }
theorem witness_resend : resending.core.resend = aPacket :: [] ∧ resending.core.resident aPacket = true ∧ aPacket.body = .tile 3 [1] 0 0 64 := by decide +kernel
/-- A whole word for far memory at 0x100000, parked and resolved; its window has applied. -/
def aReplay : Replay :=
  { core := 0, gang := 1, ctx := 0, tid := 0, tenant := 0, win := 9, drain := 9, seq := 0, key := ⟨1, 0⟩, entry := ⟨0x20000, 0xFF, 0x1122, .plain⟩, page := 16, resolved := true }
def replaying : State := windowed.modDie 0 fun d => { d with replay := [aReplay] }
theorem witness_replay : (replaying.dieAt replaying.die).replay = [aReplay] ∧ replaying.die < 24 ∧ aReplay.resolved = true ∧ aReplay.core = replaying.coreId ∧
    aReplay.entry.mask = 0xFF ∧ aReplay.entry.kind = .plain ∧ (match drainPlace aReplay.tenant aReplay.entry replaying with
      | .place q u => q == farBase + 0x100000 && sendOpen u aReplay.tenant replaying.die q && !winPending u aReplay.win && u.mem == replaying.mem
      | _ => false) = true ∧ replaying.pkg.openWins = [] ∧ replaying.pkg.reds = [] ∧ replaying.pkg.teamDone = [] ∧ Memory.wf replaying.mem = true := by decide +kernel
theorem test_replayWrites : (after (exec (.storeReplay 0) replaying) fun t => t.mem.num (farBase + 0x100000) 8 == 0x1122 && (t.dieAt 0).replay == []) = true := by decide +kernel

/-! Witnesses: the host -/

/-- A configuration image, which names the owner's endpoint, and the device that runs it. -/
def someImage : Image := { configuration := true, payload := [], modulus := 15, exponent := 3, signature := 2 }
def owned : State := paged.modHost fun h => { h with configuration := some someImage }
def ownerCmd (op : Byte) : Cmd :=
  { seq := 5, opcode := op, tenant := 0, slot := 1, len := 0, arg := 0, caddr := 0x40, endpoint := Config.imageOwner someImage.payload, key := 9 }
def tenantCmd (op : Byte) : Cmd := { ownerCmd op with key := 0 }
theorem owned_isOwner (op : Byte) : isOwner owned (ownerCmd op) = true := beq_self_eq_true _
theorem witness_ownerSpace : spaceOf owned (ownerCmd 0x01) = 8 ∧ spaceOf owned (ownerCmd 0x0D) = 8 ∧ spaceOf paged (tenantCmd 0x0D) = 0 := by
  refine ⟨?_, ?_, rfl⟩ <;> rw [spaceOf, owned_isOwner] <;> rfl
theorem witness_acceptedOwner (op : Byte) : Accepted owned (ownerCmd op) 8 where
  ready := rfl
  fresh e h := by cases h
  above q h := by cases h
  slot := rfl
  again x h := by cases h
theorem witness_acceptedTenant (op : Byte) : Accepted paged (tenantCmd op) (tenantCmd op).tenant.toNat where
  ready := rfl
  fresh e h := by cases h
  above q h := by cases h
  slot := rfl
  again x h := by cases h
theorem witness_holdsKey (op : Byte) : holdsKey paged (tenantCmd op) = true ∧ holdsKey owned (ownerCmd op) = false ∧ dataFits (tenantCmd op) 2 = true ∧
    (paged.tenant? (tenantCmd op).tenant).isSome = true := ⟨rfl, rfl, rfl, rfl⟩
theorem witness_hostCommand : hostCommand (.capabilityRead (tenantCmd 0x0E)) = some (tenantCmd 0x0E, 0x0E, .either) ∧
    hostCommand (.layerWake (ownerCmd 0x10) 3) = some (ownerCmd 0x10, 0x10, .owner) ∧ base.pkg.host.ready = false ∧ paged.pkg.host.ready = true ∧
    isOwner paged (tenantCmd 0x10) = false ∧ (tenantCmd 0x05).opcode ≠ 0x06 := ⟨rfl, rfl, rfl, rfl, rfl, by decide⟩
theorem witness_denied : Denied paged (ownerCmd 0x10) .owner ∧ Denied paged (ownerCmd 0x05) .tenant ∧ Denied paged (ownerCmd 0x0E) .either := ⟨rfl, rfl, rfl, rfl⟩
/-- The device has answered SEQ 5 in tenant 0's space, or accepted it in slot 1. -/
def journaled (state : Byte) : State := paged.modHost fun h => { h with
  maxSeq := [(0, 5)], journal := [⟨.command, 0, 0, 5, 0, 0, 5, 1, state, 0, 0⟩] }
def occupied : State := (journaled 0).modHost fun h => { h with accepted := [(0, 0, .capabilityRead (tenantCmd 0x0E))] }
theorem witness_staleCommand : spaceOf (journaled 2) { tenantCmd 5 with seq := 4 } = 0 ∧ usedSeq (journaled 2) 0 = some 5 ∧
    ({ tenantCmd 5 with seq := 4 } : Cmd).seq.toNat ≤ (5 : W64).toNat ∧
    (∀ e ∈ (journaled 2).pkg.host.journal, e.kind = .command → e.space = 0 → e.seq ≠ ({ tenantCmd 5 with seq := 4 } : Cmd).seq) := ⟨rfl, rfl, by decide, by decide⟩
theorem witness_slotTaken : slotTaken occupied 0 1 = true ∧ slotTaken paged 0 1 = false ∧
    (∀ q, usedSeq occupied 0 = some q → q.toNat < ({ tenantCmd 5 with seq := 6 } : Cmd).seq.toNat) := by
  refine ⟨rfl, rfl, fun q h => ?_⟩
  cases h; decide
theorem witness_repeatedCommand : ([0, 2] : List Byte).map (fun b => ((journaled b).pkg.host.journal.find? fun x =>
    x.kind == .command && x.space == spaceOf (journaled b) (tenantCmd 5) && x.seq == (tenantCmd 5).seq && x.slot == (tenantCmd 5).slot).map (·.state)) =
    [some 0, some 2] := rfl
/-- Tables of four levels whose one page, at address 0x40000, lies in layer memory or weight store at 0x50000. -/
def onePage (leaf : Byte) : State := { paged with
  mem := [(0, 1), (1, 0x10), (0x1000, 1), (0x1001, 0x20), (0x2000, 1), (0x2001, 0x30), (0x3020, leaf), (0x3022, 5)] }
theorem witness_hostMemory : Memory.wf (onePage 0x0F).mem = true ∧ (onePage 0x0F).badMem = [] ∧
    hostPlaces (onePage 0x0F) 0 false 0x48000 2 = some ((List.range 2).map fun k => .home (0x58000 + k)) ∧
    hostPlaces (onePage 0x0F) 0 true 0x48000 2 = some ((List.range 2).map fun k => .home (0x58000 + k)) ∧
    hostPlaces (onePage 0x0F) 0 false 0x50000 1 = none ∧ tenantRuns (onePage 0x0F) 0 = false ∧
    tenantRuns preempting 0 = true ∧
    fillPlaces (onePage 0x2F) 0 0x48000 2 = some ((List.range 2).map fun k => weightBase + 0x58000 + k) ∧ (0x48000 : W64).toNat % 8 = 0 ∧
    (onePage 0x0F).inReduction 0 0x48000 = false ∧ (onePage 0x0F).inReplicated 0 0x48000 = false := by decide +kernel
theorem test_hostWrite : (after (exec (.memoryWrite (tenantCmd 6) (.va 0x48000) [7, 8]) (onePage 0x0F)) fun t => t.mem.bytes 0x58000 3 == [7, 8, 0]) = true := by decide +kernel
theorem witness_tenantCreate : specFine (paged.modHost fun h => { h with tenants := [] }) 0 someSpec = true ∧
    specFits (paged.modHost fun h => { h with tenants := [] }) someSpec = true ∧ specFine paged 0 someSpec = false := by decide +kernel
theorem witness_hostLaunch : recBad paged 0 aRecord512 = none ∧ recWAIT aRecord512 = 0 ∧ paged.pkg.launches = [] ∧ 0 < someSpec.launchQuota ∧ paged.pkg.nextGang ≠ 0 ∧
    recBad paged 0 (aRecord512 ||| 1) = some 0 := by decide +kernel
theorem witness_regions : tenantRuns (marked []) 0 = false ∧ regionFine (marked []) 0 6 someRegion = true ∧ (paged.modPkg fun p => { p with gangs := [soleGang] }).pkg.host.ready = true ∧
    tenantRuns (paged.modPkg fun p => { p with gangs := [soleGang] }) 0 = true := by decide +kernel
theorem witness_invalidate : OthersApart paged := by unfold OthersApart; decide
theorem witness_migrate : leafAt (onePage 0x0F) (0x48000 : W64).toNat [1, 2, 3, 4] someSpec.root = some (0x3020, 4) ∧ physOf (homeOfLeaf ((onePage 0x0F).mem.num 0x3020 8)) = 0x50000 ∧
    fitsSpace (onePage 0x0F) ⟨0, 0, 0x60000⟩ 65536 = true ∧ physOf ⟨0, 0, 0x60000⟩ = 0x60000 := by decide +kernel
theorem witness_imageAndFabric : paged.pkg.gangs = [] ∧ (paged.modPkg fun p => { p with gangs := [soleGang] }).pkg.gangs ≠ [] := by decide +kernel
/-- Layer 0 asleep since SEQ 3, one write of SEQ 4 missed. -/
def sleeping : State := (paged.modDie 0 fun d => { d with awake := false, lastSeq := 3 }).modStack 0 fun k => { k with seq := 4, log := [(4, [(0x100, 9)])] }
theorem witness_layers : (paged.dieAt 0).awake = true ∧ sleepBusy (paged.modPkg fun p => { p with gangs := [soleGang] }) 0 = true ∧ sleepBusy paged 0 = false ∧
    (sleeping.dieAt 0).awake = false ∧ Memory.wf sleeping.mem = true ∧ (sleeping.stackAt (stackOfDie 0)).log = [(4, [(0x100, 9)])] ∧
    (sleeping.dieAt 0).lastSeq.toNat < (4 : W64).toNat ∧ (sleeping.stackAt (stackOfDie 0)).seq = 4 := by decide +kernel
theorem test_layerWakeHears : (match wakeLayer 0 sleeping with | t => t.mem.get (replicaPhys 0 0x100) == 9 && (t.dieAt 0).awake) = true := by decide +kernel

/-! Witnesses: words that are no instruction, repeat frames with other words -/

theorem witness_refusedWords : wordField 0x0400_0015 31 26 = 0x01 ∧ 0x15 ≤ wordField 0x0400_0015 5 0 ∧ wordField 0x0400_0053 31 26 = 0x01 ∧ 0x13 ≤ wordField 0x0400_0053 5 0 ∧
    wordField 0x0400_0053 11 6 ≠ 0 ∧ wordField 0x1800_0040 31 26 = 0x06 ∧ wordField 0x1800_0040 12 6 ≠ 0 ∧ wordField 0x1C00_0040 31 26 = 0x07 ∧ wordField 0x1C00_0040 11 6 ≠ 0 ∧
    wordField 0x3000_0FC1 31 26 = 0x0C ∧ 64 < wordField 0x3000_0FC1 5 0 + wordField 0x3000_0FC1 11 6 + 1 ∧ wordField 0x3400_1000 31 26 = 0x0D ∧ wordField 0x3400_1000 12 12 = 1 ∧
    wordField 0x3780_0000 25 20 = 56 ∧ wordField 0x2800_0020 31 26 = 0x0A ∧ wordField 0x2800_0020 5 5 = 1 ∧ wordField 0x2000_0008 31 26 = 0x08 ∧
    8 ≤ wordField 0x2000_0008 5 0 ∧ wordField 0x2C00_0006 31 26 = 0x0B ∧ 6 ≤ wordField 0x2C00_0006 5 0 := by decide +kernel
theorem test_refusedWords : decode 0 = .error .opcodeZero ∧ decode 0xE000_0000 = .error (.reservedOpcode 0x38) ∧ (decode 0x0400_0015).toOption = none ∧ (decode 0x0400_0053).toOption = none ∧
    (decode 0x1800_0040).toOption = none ∧ (decode 0x3000_0FC1).toOption = none ∧ (decode 0x3780_0000).toOption = none ∧ (decode 0x2C00_0006).toOption = none := by decide +kernel
theorem witness_hint : wordField 0xFC00_0000 31 26 = 0x3F ∧ frameWord 0xFC00_0000 = false := by decide +kernel
theorem witness_hintEndsPhase : ∃ u, (at0 0xFC00_0000).coreId < Config.cores ∧ (at0 0xFC00_0000).turn = some (.issue (at0 0xFC00_0000).coreId 0) ∧
    fetchWord (issuing 0 ((at0 0xFC00_0000).modCore fun c => { c with exch := some 0 })) (((at0 0xFC00_0000).modCore fun c => { c with exch := some 0 }).ctxAt 0).pc = .ok (0xFC00_0000, u) ∧
    u.core.exch ≠ none ∧ exchangePending u.cycle.toNat u.core = false := ⟨_, by decide, rfl, rfl, by decide, rfl⟩
theorem witness_senseChoice : ([(1, 5), (2, 9)] : List (Nat × Nat)) ≠ [] ∧ senseResult false false 0 [(1, 5), (2, 9)] = 0x10_0000 + 2 * 0x1_0000 + 9 := by decide +kernel

/-! The manual's worked examples -/

/-- The part of an encode list around the values of an example: codes with the integers they stand for. -/
def partList (l : List (Nat × Int)) : List (Nat × Nat) := l.map fun x => (x.1, (roundDy e8m10 .rne false ⟨x.2, 0⟩).1)
/-- A table whose NaN codes are 0x7F and 0xFF, and one without NaN codes. -/
def nanTable : CodeTable := ((Vector.replicate 256 (0 : BitVec 21)).set 0x7F 0x80000).set 0xFF 0xC0000
def plainTable : CodeTable := Vector.replicate 256 0
/-- 07, worked example: 17.0, 19.0, 500.0 and −NaN through e4m3. -/
theorem test_encodeE4M3 : [0x41880000, 0x41980000, 0x43FA0000, 0xFFC00000].map (encodeCode nanTable (partList [(0x57, 15), (0x58, 16), (0x59, 18), (0x5A, 20), (0x7D, 416), (0x7E, 448)])) =
    [(0x58, 1), (0x5A, 1), (0x7E, 5), (0xFF, 0)] := by decide +kernel
/-- 07, worked example: 60,000, 62,000 and 100,000 through e5m2. -/
theorem test_encodeE5M2 : [0x476A6000, 0x47723000, 0x47C35000].map (encodeCode plainTable (partList [(0x79, 40960), (0x7A, 49152), (0x7B, 57344)] ++ [(0x7C, e8m10.infBits)])) =
    [(0x7B, 1), (0x7C, 5), (0x7C, 5)] := by decide +kernel
/-- 07, worked example: −0.5 and a NaN through int8. -/
theorem test_encodeInt8 : [0xBF000000, 0x7FC00000].map (encodeCode plainTable (partList [(0xFE, -2), (0xFF, -1), (0x00, 0), (0x01, 1), (0x7F, 127)])) =
    [(0x00, 1), (0x7F, 16)] := by decide +kernel
/-- 07, worked example: 2^24 and 64 products of 0.5 in one rounding. -/
theorem test_oneRounding : sumTerms (termOf f32 0x4B800000 :: (List.range 64).map fun _ => termMul (termOf bf16 0x3F80) (termOf bf16 0x3F00)) = (0x4B800010, 0) := by
  decide +kernel
/-- 08, worked example: a row of 2.0, then a row of 3.0, through MSM with BF16 output. -/
theorem test_msmFirstBlock : (let y := msmRow (.fp bf16) 0xFF800000 0 (List.replicate 32 0x40000000)
    (y.smax, y.sfac, y.ssum, y.p)) = (0x40000000, 0, 0x42000000, List.replicate 32 0x3F80) := by decide +kernel
theorem test_msmSecondBlock : (let y := msmRow (.fp bf16) 0x40000000 0x42000000 (List.replicate 32 0x40400000)
    (y.smax, y.sfac, y.ssum, y.p)) = (0x40400000, 0x3EBC5AB2, 0x422F16AC, List.replicate 32 0x3F80) := by decide +kernel
/-- 10, example 1: the second store merges into the entry of the first. -/
theorem test_storesMerge : ((storeEntry 0 0x100 (toBytesLE 8 0x1111222233334444) .plain base.ctx).bind fun c =>
    (storeEntry 0 0x102 (toBytesLE 2 0xBEEF) .plain c).map (·.buf)) = some [⟨0x20, 0xFF, 0x11112222BEEF4444, .plain⟩] := by decide +kernel
/-- 10, example 2: 100 distinct words leave BUF 64 and LOG 36. -/
theorem test_storesOverflow : (((List.range 100).foldl (fun (c : Option Ctx) i => c.bind (storeEntry 0 (0x1000 + 8 * i) (toBytesLE 8 i) .plain)) (some base.ctx)).map fun c =>
    (c.buf.length, c.log.length, lastHeld (c.log ++ c.buf) 0x1008)) = some (64, 36, some 1) := by decide +kernel
/-- 09, after R170: WSRF at frame cycles 20,580 and 20,736. -/
theorem test_weightRefreshRegister : wsrfOf 20580 = 0x009C_0015 ∧ wsrfOf 20736 = 0x0F00_0006 := by decide +kernel
/-- 00, after R9, and 04: helper 3 of core 37 on layer 4 of stack 2; the home of the name 0x6741_494E. -/
theorem test_numbers : tidOf (15 * 64 + 37) 3 = 0x3E53 ∧ stackOfDie 15 = 2 ∧ homeStack 0x6741494E = 1 := by decide +kernel
/-- 05, timeline rows 3 and 6: the maximum over N 1, E 60,000, S 20, W 0, and the minimum. -/
theorem test_senses : senseResult false false 0 [(0, 1), (1, 60000), (2, 20), (3, 0)] = 0x0011EA60 ∧
    senseResult false true 0 [(0, 1), (1, 60000), (2, 20), (3, 0)] = 0x00130000 := by decide +kernel
/-- 15, after R272: the first two iterations of two streams. -/
def twoStreams (i : Nat) : Pacer := { Pacer.reset with
  levels := 2, streams := 2, qbase := 4, base := #v[0x10000, 0x200000, 0, 0], stride := (((Vector.replicate 16 0).set 0 128).set 1 8192).set 5 64, n := #v[64, 8, 1, 1], i := #v[i, 0, 0, 0] }
theorem test_paceAddresses : [paceAddr (twoStreams 0) 0, paceAddr (twoStreams 0) 1, paceAddr (twoStreams 1) 0, paceAddr (twoStreams 1) 1] = [0x10000, 0x200000, 0x10080, 0x200000] := by
  decide +kernel

/-! One step of a scalar instruction -/

/-- R341: −2^63 ÷ −1 wraps; R391: BFX and BFI of a register that is source and destination; R367. -/
theorem test_divideWraps : (after (exec (.div 10 false 11 false 12) (withS (withS base 11 0x8000000000000000) 12 0xFFFFFFFFFFFFFFFF)) fun t =>
    t.ctx.getS 10 == 0x8000000000000000) = true := by decide +kernel
theorem test_sourceIsDestination : (after (exec (.sub 6 true 6 false 7) base) fun t => t.ctx.getS 6 == 2 && !t.ctx.freed.getLsbD 6 && t.ctx.freed.getLsbD 7 == false) = true := by decide +kernel
theorem test_bfxSigned : (after (exec (.bfx 10 false 11 true 3 4) (withS base 11 0x90)) fun t => t.ctx.getS 10 == 0xFFFFFFFFFFFFFFF9) = true := by decide +kernel
theorem test_lihNegative : (after (exec (.lih 6 0x80000) base) fun t => t.ctx.getS 6 == 0xFFFFFFFF80000000) = true := by decide +kernel
theorem test_branchBack : (after (exec (.br 0 false 0x1FFFFB) (base.modCtx fun c => { c with pc := 0x40 })) fun t => t.ctx.pc == 0x2C) = true := by decide +kernel
theorem test_loadSignExtends : (after (exec (.ld 10 false 8 0 true 0) (base.modCore fun c => { c with scratch := [(64, 0x80)] })) fun t =>
    t.ctx.getS 10 == 0xFFFFFFFFFFFFFF80) = true := by decide +kernel
/-- 22, the lock example: the first CAS finds 0 and stores its operand. -/
theorem test_casTakesLock : (after (exec (.amo 13 false 10 false 7 false true 9) windowed) fun t => t.ctx.getS 13 == 0 && t.mem.num (farBase + 0x100000) 8 == 3) = true := by decide +kernel

/-! SHA-512 -/

/-- FIPS 180-4's example: the digest of "abc" begins DD AF 35 A1. -/
theorem test_sha512 : (sha512 [0x61, 0x62, 0x63]).take 4 = [0xDD, 0xAF, 0x35, 0xA1] := by decide +kernel
end Sys2Proof.Tests
end

namespace Sys2Proof.Machine

/-! ## A step that issues: the issuing context, its program counter and the fetched word -/

@[simp] theorem untake_core_cur (x : Fin 8 × W64) (s : State) : (untake x s).core.cur = s.core.cur := by
  unfold untake
  split <;> rfl

@[simp] theorem untake_core_ctxs (x : Fin 8 × W64) (s : State) : (untake x s).core.ctxs = s.core.ctxs := by
  unfold untake
  split <;> rfl

/-- Entries that go back to their queues leave the contexts and the one that is current as they were. -/
theorem foldr_untake_core (xs : List (Fin 8 × W64)) (s : State) :
    (xs.foldr untake s).core.cur = s.core.cur ∧ (xs.foldr untake s).core.ctxs = s.core.ctxs := by
  induction xs with
  | nil => exact ⟨rfl, rfl⟩
  | cons x xs ih => simpa using ih

theorem foldr_untake_ctx (xs : List (Fin 8 × W64)) (s : State) : (xs.foldr untake s).ctx = s.ctx := by
  obtain ⟨hcur, hctxs⟩ := foldr_untake_core xs s
  simp only [State.ctx, State.ctxAt, hcur, hctxs]

@[simp] theorem giveBack_core_cur (s : State) : (giveBack s).core.cur = s.core.cur := by
  unfold giveBack
  split
  · rfl
  · exact (foldr_untake_core s.ctx.taken s).1

@[simp] theorem giveBack_ctx_pc (s : State) : (giveBack s).ctx.pc = s.ctx.pc := by
  unfold giveBack
  split
  · rfl
  · rw [State.modCtx_ctx, foldr_untake_ctx]

@[simp] theorem rotateOrder_cur (i : Fin 12) (c : Core) : (rotateOrder i c).cur = c.cur := by
  unfold rotateOrder
  split <;> rfl

@[simp] theorem rotateOrder_ctxs (i : Fin 12) (c : Core) : (rotateOrder i c).ctxs = c.ctxs := by
  unfold rotateOrder
  split <;> rfl

@[simp] theorem issuing_core_cur (i : Fin 12) (s : State) : (Claims.issuing i s).core.cur = i := by
  simp [Claims.issuing, State.modCore]

@[simp] theorem issuing_ctx_pc (i : Fin 12) (s : State) : (Claims.issuing i s).ctx.pc = (s.ctxAt i).pc := by
  rw [Claims.issuing, giveBack_ctx_pc]
  simp [State.modCore, State.ctx, State.ctxAt]

theorem OnlyTranslates.core_cur {s u : State} (h : OnlyTranslates s u) : u.core.cur = s.core.cur := by rw [h.rest]

@[simp] theorem lineRead_core_cur (s : State) (p n : Nat) (cached byFetch : Bool) :
    (lineRead s p n cached byFetch).2.core.cur = s.core.cur := by
  unfold lineRead
  split <;> rfl

/-- A read through the cache leaves current the context that was, where the reading itself does. -/
theorem throughCache_core_cur {s : State} {p n : Nat} {cached byFetch : Bool} {read : Except Stop (List Byte × State)}
    (hread : ∀ bs u, read = .ok (bs, u) → u.core.cur = s.core.cur) {bs : List Byte} {u : State}
    (h : throughCache s p n cached byFetch read = .ok (bs, u)) : u.core.cur = s.core.cur := by
  unfold throughCache at h
  split at h
  · cases h; rfl
  · exact hread bs u h

theorem replicaRead_core_cur {s : State} {va : W64} {p n : Nat} {cached byFetch : Bool} {own : Nat → Bool} {bs : List Byte} {u : State}
    (h : replicaRead s va p n cached byFetch own = .ok (bs, u)) : u.core.cur = s.core.cur := by
  unfold replicaRead at h
  split at h
  · cases h
  split at h
  · cases h
  split at h
  · cases h
  obtain ⟨-, rfl⟩ := Prod.mk.inj (Except.ok.inj h)
  exact lineRead_core_cur ..

theorem homeRead_core_cur {s : State} {va : W64} {p n : Nat} {cached byFetch : Bool} {own : Nat → Bool} {bs : List Byte} {u : State}
    (h : homeRead s va p n cached byFetch own = .ok (bs, u)) : u.core.cur = s.core.cur := by
  unfold homeRead at h
  split at h
  · cases h
  split at h
  · cases h
  split at h
  · cases h
  obtain ⟨-, rfl⟩ := Prod.mk.inj (Except.ok.inj h)
  exact lineRead_core_cur ..

theorem readPlace_core_cur {s : State} {va : W64} {n : Nat} {bypass byFetch : Bool} {own : Nat → Bool} {pl : Place}
    {bs : List Byte} {u : State} (h : readPlace s va n bypass byFetch own pl = .ok (bs, u)) : u.core.cur = s.core.cur := by
  cases pl with
  | scratch a =>
    simp only [readPlace] at h
    split at h
    · cases h
    · cases h; rfl
  | replica off => exact throughCache_core_cur (fun _ _ => replicaRead_core_cur) h
  | home p nc => exact throughCache_core_cur (fun _ _ => homeRead_core_cur) h

/-- A fetch changes what is kept of memory, and not which context issues. -/
theorem fetchWord_core_cur {s u : State} {pc : W64} {w : W32} (h : fetchWord s pc = .ok (w, u)) : u.core.cur = s.core.cur := by
  unfold fetchWord at h
  split at h
  · cases h
  · rename_i pl s1 hcheck
    have hs1 : s1.core.cur = s.core.cur := (checkAddress_frame s _ _ _ _ _ pl s1 hcheck).core_cur
    cases hread : readPlace s1 pc 4 false true noneOwn pl with
    | error e =>
      simp only [hread] at h
      split at h
      · split at h
        · cases h; exact hs1
        · cases h
      · cases h
    | ok r =>
      have hr : r.2.core.cur = s.core.cur := (readPlace_core_cur hread).trans hs1
      simp only [hread] at h
      split at h
      · split at h
        · cases h; exact hs1
        · cases h; exact hr
      · cases h; exact hr

/-- ONE ISSUE: a turn that is an issue of the focused core runs the word fetched at the context's program counter (R44, R45). -/
theorem step_issue {s u : State} {i : Fin 12} {w : W32} (hcore : s.coreId < Config.cores) (hturn : s.turn = some (.issue s.coreId i))
    (hfetch : fetchWord (Claims.issuing i s) (s.ctxAt i).pc = .ok (w, u)) : step s = runWord w u := by
  have hfocus : ({ s with turn := none } : State).focus s.coreId = { s with turn := none } := State.focus_self { s with turn := none }
  rw [← issuing_ctx_pc, Claims.issuing] at hfetch
  simp only [step, hturn, takeTurn, issueTurn, if_neg (Nat.not_le.mpr hcore), hfocus, hfetch]

/-- The control context's first instruction that is no transfer ends the exchange phase, no transfer being armed, and runs (R39, R238). -/
theorem runWord_endsPhase {w : W32} {s : State} (hexch : s.core.exch ≠ none) (hcur : s.core.cur = 0)
    (hins : Instr.isExchange (instrOf w) = false) (hdone : exchangePending s.cycle.toNat s.core = false) :
    runWord w s = exec (instrOf w) (endPhase s) := by
  have hphase : (s.core.exch.isSome && s.isControl && !Instr.isExchange (instrOf w)) = true := by
    simp [State.isControl, hcur, hins, Option.isSome_iff_ne_none, hexch]
  simp only [runWord, hphase, hdone, if_true, Bool.false_eq_true, if_false]

theorem instrOf_decoded {w : W32} {i : Instr} (h : decode w = .ok i) : instrOf w = i := by simp only [instrOf, h]

/-! ## Hints (R336) -/

/-- The major opcode of a hint is named by its six top bits, and its number by the rest. -/
theorem decode_op3F {w : W32} (hop : bitsOf w.toNat 31 26 = 0x3F) : decode w = .ok (.hint (w.setWidth 26)) := by
  have hraw : decodeRaw w.toNat = .ok (.hint (w.setWidth 26)) := by
    have hnumber : fld 26 w.toNat 25 0 = w.setWidth 26 := BitVec.eq_of_toNat_eq (by simp [fld, bitsOf])
    simp only [decodeRaw, hop, decodeOp3F, hnumber]
  simp only [decode, hraw, legal, if_true]

@[simp] theorem exec_hint (h : BitVec 26) (s : State) : exec (.hint h) s = .next s.retire := rfl

/-- Retiring changes the issuing context alone: where it stands, what it has counted, and that it waits for nothing. -/
theorem State.retire_eq_modCtxAt (s : State) :
    s.retire = s.modCtxAt s.core.cur (fun c => { c with pc := s.retire.ctx.pc, instret := s.retire.ctx.instret,
                                                        spin := s.retire.ctx.spin, wait := .ready, blocked := false }) := by
  rw [State.retire_ctx]
  rfl

theorem wentTo_retire (s : State) : Claims.WentTo (s.ctx.pc + 4) s s.retire := by simp [Claims.WentTo]

theorem frameWord_eq_false_of_op3F {w : W32} (hop : bitsOf w.toNat 31 26 = 0x3F) : frameWord w = false := by
  simp [frameWord, wordOp, hop]

/-- A hint in an exchange phase in which no transfer is armed ends the phase and retires. -/
theorem step_hint_endsPhase {s u : State} {w : W32} (hop : bitsOf w.toNat 31 26 = 0x3F) (hcore : s.coreId < Config.cores)
    (hturn : s.turn = some (.issue s.coreId 0)) (hfetch : fetchWord (Claims.issuing 0 s) (s.ctxAt 0).pc = .ok (w, u))
    (hexch : u.core.exch ≠ none) (hdone : exchangePending u.cycle.toNat u.core = false) : step s = .next (endPhase u).retire := by
  have hcur : u.core.cur = 0 := (fetchWord_core_cur hfetch).trans (issuing_core_cur 0 s)
  have hins : instrOf w = .hint (w.setWidth 26) := instrOf_decoded (decode_op3F hop)
  rw [step_issue hcore hturn hfetch, runWord_endsPhase hexch hcur (by rw [hins]; rfl) hdone, hins, exec_hint]

/-! ## REP of a body with another word (R389) -/

/-- The first word of the body that is no vector, matrix or tile word makes the REP raise *repeat frame* with its place. -/
theorem exec_rep_otherWord {s u : State} {c : BitVec 4} {n : BitVec 8} {x : BitVec 14} {ws : List W32} {k : Nat}
    (hctx : s.isHelper = false) (hframe : frameActive s.core.regs.frame.word = false)
    (hbody : fetchBody (s.ctx.pc + 4) (c.toNat + 1) s = .ok (ws, u)) (hplace : (ws.findIdx? fun y => !frameWord y) = some k) :
    exec (.rep c n x) s = .next (takeTrap ⟨0x34, 0, BitVec.ofNat 64 k⟩ s) := by
  change execRep c n x s = _
  simp only [execRep, notHelper, unlessStop, hctx, hframe, hbody, hplace, Bool.and_false, Bool.false_eq_true, if_false]
  rfl

/-- Settles O42: a hint runs as `exec_hint` and ends an exchange phase as any word that is no transfer; a REP stops at it because its
major opcode lies outside the vector, matrix and tile classes. -/
theorem hintsOnlyRetire : Obligations.HintsOnlyRetire := by
  intro w s hop
  refine ⟨decode_op3F hop, exec_hint _ s, wentTo_retire s, s.retire_eq_modCtxAt, rfl, ?_, frameWord_eq_false_of_op3F hop, ?_⟩
  · intro u hcore hturn hfetch hexch hdone
    exact step_hint_endsPhase hop hcore hturn hfetch hexch hdone
  · intro c n x u ws k hctx hframe hbody hplace _
    exact exec_rep_otherWord hctx hframe hbody hplace

end Sys2Proof.Machine

namespace Sys2Proof.Machine

/-! ## Words of the scalar groups: what `encode` builds, and what `decode` refuses (R321, R323, R335) -/

@[simp] theorem pack_singleton (w v : Nat) : pack [(w, v)] = v := by simp [pack]

/-- The word of an instruction is the number that its fields make. -/
theorem encode_eq_of_pack {i : Instr} {fs : List (Nat × Nat)} {w : W32} (h : encodeNat i = some (pack fs))
    (hw : BitVec.ofNat 32 (pack fs) = w) : encode i = some w := by
  simp only [encode, h, Option.map_some, hw]

/-- A word of format 3R from its fields, those of the function code told apart or not (R321). -/
theorem encode_eq_word3R {i : Instr} {op d a b fn : Nat} {l m : Bool} {fs : List (Nat × Nat)}
    (h : encodeNat i = some (pack ((6, op) :: (6, d) :: (1, boolNat l) :: (6, a) :: (1, boolNat m) :: (6, b) :: fs)))
    (hwidth : (fs.map Prod.fst).sum = 6) (hfn : pack fs = fn) : encode i = some (Claims.word3R op d a b fn l m) :=
  encode_eq_of_pack h (by simp [pack, hwidth, hfn, Claims.word3R, Nat.add_assoc])

/-- A word of format I from its fields, those of the immediate told apart or not (R321). -/
theorem encode_eq_wordI {i : Instr} {op d a imm : Nat} {l : Bool} {fs : List (Nat × Nat)}
    (h : encodeNat i = some (pack ((6, op) :: (6, d) :: (1, boolNat l) :: (6, a) :: fs)))
    (hwidth : (fs.map Prod.fst).sum = 13) (himm : pack fs = imm) : encode i = some (Claims.wordI op d a l imm) :=
  encode_eq_of_pack h (by simp [pack, hwidth, himm, Claims.wordI, Nat.add_assoc])

/-! The decoder of each major opcode (R325) -/

theorem decodeRaw_op01 {n : Nat} (h : bitsOf n 31 26 = 0x01) : decodeRaw n = decodeOp01 n := by simp only [decodeRaw, h]
theorem decodeRaw_op06 {n : Nat} (h : bitsOf n 31 26 = 0x06) : decodeRaw n = decodeOp06 n := by simp only [decodeRaw, h]
theorem decodeRaw_op07 {n : Nat} (h : bitsOf n 31 26 = 0x07) : decodeRaw n = decodeOp07 n := by simp only [decodeRaw, h]
theorem decodeRaw_op08 {n : Nat} (h : bitsOf n 31 26 = 0x08) : decodeRaw n = decodeOp08 n := by simp only [decodeRaw, h]
theorem decodeRaw_op0A {n : Nat} (h : bitsOf n 31 26 = 0x0A) : decodeRaw n = decodeOp0A n := by simp only [decodeRaw, h]
theorem decodeRaw_op0B {n : Nat} (h : bitsOf n 31 26 = 0x0B) : decodeRaw n = decodeOp0B n := by simp only [decodeRaw, h]
theorem decodeRaw_op0C {n : Nat} (h : bitsOf n 31 26 = 0x0C) : decodeRaw n = decodeOp0C n := by simp only [decodeRaw, h]
theorem decodeRaw_op0D {n : Nat} (h : bitsOf n 31 26 = 0x0D) : decodeRaw n = decodeOp0D n := by simp only [decodeRaw, h]

/-- A word that the opcode tables give no instruction is none. -/
theorem refusedWord_of_unassigned {w : W32} {e : DecodeError} (h : decodeRaw w.toNat = .error e) : Claims.refusedWord w :=
  ⟨e, by simp only [decode, h]⟩

/-- A word whose operands break a rule of its instruction is none. -/
theorem refusedWord_of_illegal {w : W32} {i : Instr} (h : decodeRaw w.toNat = .ok i) (hi : legal i = false) : Claims.refusedWord w :=
  ⟨.illegalOperand (bitsOf w.toNat 31 26), by simp only [decode, h, hi, Bool.false_eq_true, if_false]⟩

/-- Two adjacent fields, read as one. -/
theorem bitsOf_split (n : Nat) {hi mid lo : Nat} (hmid : lo ≤ mid) (hhi : mid ≤ hi) :
    bitsOf n hi lo = bitsOf n hi (mid + 1) * 2 ^ (mid + 1 - lo) + bitsOf n mid lo := by
  have hlow : n / 2 ^ (mid + 1) = n / 2 ^ lo / 2 ^ (mid + 1 - lo) := by
    rw [Nat.div_div_eq_div_mul, ← Nat.pow_add, Nat.add_sub_cancel' (by omega)]
  have hwidth : hi + 1 - lo = (mid + 1 - lo) + (hi + 1 - (mid + 1)) := by omega
  simp only [bitsOf]
  rw [hwidth, Nat.pow_add, Nat.mod_mul, hlow, Nat.mul_comm, Nat.add_comm]

theorem toNat_fld {k n hi lo : Nat} (h : k = hi + 1 - lo) : (fld k n hi lo).toNat = bitsOf n hi lo := by
  subst h
  simp [fld, bitsOf]

/-! ## What an instruction that computes one scalar or one predicate does -/

theorem scalarOp_ok {d : SReg} {srcs : List Src} {f : List W64 → W64} {s u : State} {vs : List W64} {r : W64}
    (h : operands s srcs [d] = .ok (vs, u)) (hr : f vs = r) : scalarOp d srcs f s = .next (u.writeS d r).retire := by
  simp only [scalarOp, h, finish_ok, hr]

theorem scalarOp_error {d : SReg} {srcs : List Src} {f : List W64 → W64} {s : State} {e : Stop}
    (h : operands s srcs [d] = .error e) : scalarOp d srcs f s = finish s (.error e) := by
  simp only [scalarOp, h]

theorem binaryOp_ok {d a b : SReg} {l m : Bool} {f : W64 → W64 → W64} {s u : State} {x y r : W64}
    (h : operands s [⟨a, l⟩, ⟨b, m⟩] [d] = .ok ([x, y], u)) (hr : f x y = r) :
    binaryOp d l a m b f s = .next (u.writeS d r).retire := scalarOp_ok h hr

theorem unaryOp_ok {d a : SReg} {l : Bool} {f : W64 → W64} {s u : State} {x r : W64}
    (h : operands s [⟨a, l⟩] [d] = .ok ([x], u)) (hr : f x = r) : unaryOp d l a f s = .next (u.writeS d r).retire := scalarOp_ok h hr

theorem predicateOp_ok {p : PReg} {srcs : List Src} {f : List W64 → Bool} {s u : State} {vs : List W64} {r : Bool}
    (h : operands s srcs [] = .ok (vs, u)) (hr : f vs = r) : predicateOp p srcs f s = .next (u.writeP p r).retire := by
  simp only [predicateOp, h, finish_ok, hr]

/-- Each instruction that computes one scalar reads its sources, writes one value of them and retires. -/
theorem exec_eq_scalarOp {i : Instr} {d : SReg} {srcs : List Src} (h : Claims.scalarShape i = some (d, srcs)) (s : State) :
    ∃ f, exec i s = scalarOp d srcs f s := by
  unfold Claims.scalarShape at h
  split at h <;> cases h <;> exact ⟨_, rfl⟩

theorem operandStops : Claims.OperandStops := by
  intro i s d srcs hshape
  obtain ⟨f, hexec⟩ := exec_eq_scalarOp hshape s
  rw [hexec]
  exact ⟨fun x h => (scalarOp_error h).trans (finish_trap s x), fun w h => (scalarOp_error h).trans (finish_block s w)⟩

/-! ## The operations of R341 as numbers -/

theorem sub_eq_ofInt (x y : W64) : x - y = BitVec.ofInt 64 ((x.toNat : Int) - y.toNat) := by
  rw [Int.sub_eq_add_neg, BitVec.ofInt_add, BitVec.ofInt_neg]
  simp [BitVec.sub_eq_add_neg]

theorem mul_eq_ofNat (x y : W64) : x * y = BitVec.ofNat 64 (x.toNat * y.toNat) := by simp [BitVec.ofNat_mul]

theorem divU_eq (x y : W64) : divU x y = if y = 0 then BitVec.allOnes 64 else BitVec.ofNat 64 (x.toNat / y.toNat) := by
  rw [divU, BitVec.udiv_def]

theorem remU_eq (x y : W64) : remU x y = if y = 0 then x else BitVec.ofNat 64 (x.toNat % y.toNat) := by
  rw [remU, BitVec.umod_def]

/-- The quotient that leaves the signed range, −2^63 ÷ −1, wraps on both sides. -/
theorem divS_eq (x y : W64) : divS x y = if y = 0 then BitVec.allOnes 64 else BitVec.ofInt 64 (x.toInt.tdiv y.toInt) := by
  rw [divS, ← BitVec.ofInt_toInt (x := x.sdiv y), BitVec.toInt_sdiv, ← BitVec.toInt_ofInt, BitVec.ofInt_toInt]

theorem remS_eq (x y : W64) : remS x y = if y = 0 then x else BitVec.ofInt 64 (x.toInt.tmod y.toInt) := by
  rw [remS, ← BitVec.toInt_srem, BitVec.ofInt_toInt]

theorem shiftLeft_eq_ofNat (x : W64) (n : Nat) : x <<< n = BitVec.ofNat 64 (x.toNat * 2 ^ n) :=
  BitVec.eq_of_toNat_eq (by simp [Nat.shiftLeft_eq])

theorem ushiftRight_eq_ofNat (x : W64) (n : Nat) : x >>> n = BitVec.ofNat 64 (x.toNat / 2 ^ n) := by
  rw [← Nat.shiftRight_eq_div_pow, ← BitVec.toNat_ushiftRight, BitVec.ofNat_toNat, BitVec.setWidth_eq]

theorem sshiftRight_eq_ofInt (x : W64) (n : Nat) : x.sshiftRight n = BitVec.ofInt 64 (x.toInt / 2 ^ n) := by
  rw [← BitVec.ofInt_toInt (x := x.sshiftRight n), BitVec.toInt_sshiftRight, Int.shiftRight_eq_div_pow]
  norm_cast

/-- Choosing between two by a strict or by a weak comparison differs only where both are equal, and there both choices are. -/
theorem ite_lt_eq_ite_le {α β : Type} [LinearOrder β] {key : α → β} (hkey : Function.Injective key) {x y p q : α} (hpq : x = y → p = q) :
    (if key x < key y then p else q) = if key x ≤ key y then p else q := by
  by_cases hxy : x = y
  · simp [hpq hxy]
  · simp [(hkey.ne hxy).le_iff_lt]

theorem toInt_injective : Function.Injective (BitVec.toInt (n := 64)) := fun _ _ => BitVec.eq_of_toInt_eq

theorem minS_eq (x y : W64) : minS x y = if x.toInt ≤ y.toInt then x else y := by
  simp only [minS, BitVec.slt_iff_toInt_lt]
  exact ite_lt_eq_ite_le toInt_injective id

theorem maxS_eq (x y : W64) : maxS x y = if x.toInt ≤ y.toInt then y else x := by
  simp only [maxS, BitVec.slt_iff_toInt_lt]
  exact ite_lt_eq_ite_le toInt_injective Eq.symm

theorem minU_eq (x y : W64) : minU x y = if x.toNat ≤ y.toNat then x else y := by
  simp only [minU, BitVec.ult_iff_toNat_lt]
  exact ite_lt_eq_ite_le BitVec.toNat_injective id

theorem maxU_eq (x y : W64) : maxU x y = if x.toNat ≤ y.toNat then y else x := by
  simp only [maxU, BitVec.ult_iff_toNat_lt]
  exact ite_lt_eq_ite_le BitVec.toNat_injective Eq.symm

theorem bitLength_eq_size (n x : Nat) (hx : x < 2 ^ n) : bitLength n x = x.size := by
  induction n with
  | zero => simp [bitLength, show x = 0 by omega]
  | succ n ih =>
    rw [Nat.pow_succ] at hx
    by_cases htop : 2 ^ n ≤ x
    · have hdiv : x / 2 ^ n = 1 := Nat.div_eq_of_lt_le (by omega) (by omega)
      have hsize : x.size = n + 1 := Nat.le_antisymm (Nat.size_le.2 (by rw [Nat.pow_succ]; omega)) (Nat.lt_size.2 htop)
      simp [bitLength, hdiv, hsize]
    · have hlt : x < 2 ^ n := Nat.not_le.1 htop
      simpa [bitLength, Nat.div_eq_of_lt hlt] using ih hlt

/-- The leading zeros of a word lie above its highest one: it is below 2 to the number of the bits that are left, and not below half of
that. -/
theorem clz64_spec (x : W64) : ∃ n, clz64 x = BitVec.ofNat 64 n ∧ n ≤ 64 ∧ x.toNat < 2 ^ (64 - n) ∧ (n < 64 → 2 ^ (63 - n) ≤ x.toNat) := by
  have hsize : x.toNat.size ≤ 64 := Nat.size_le.2 x.isLt
  refine ⟨64 - x.toNat.size, by rw [clz64, bitLength_eq_size 64 _ x.isLt], Nat.sub_le _ _, ?_, fun hn => ?_⟩
  · rw [Nat.sub_sub_self hsize]
    exact Nat.lt_size_self _
  · exact Nat.lt_size.1 (by omega)

theorem countOnes_eq_length_filter (n x : Nat) : countOnes n x = ((List.range n).filter fun k => x.testBit k).length := by
  induction n generalizing x with
  | zero => rfl
  | succ n ih =>
    have htail : (fun k => x.testBit k) ∘ Nat.succ = fun k => (x / 2).testBit k := funext fun k => Nat.testBit_succ x k
    rw [countOnes, ih, List.range_succ_eq_map, List.filter_cons, List.filter_map, htail, Nat.testBit_zero]
    rcases Nat.mod_two_eq_zero_or_one x with h | h <;> simp [h, Nat.add_comm]

theorem popc64_eq (x : W64) : popc64 x = BitVec.ofNat 64 ((List.range 64).filter fun k => x.getLsbD k).length := by
  rw [popc64, countOnes_eq_length_filter]
  rfl

/-! ## The integer register group (R341) -/

/-- CLZ and POPC are named by the b field with the function code, every other instruction of the group by its function code below 0x13. -/
theorem decodeOp01_unassigned {n : Nat} (hfn : 0x13 ≤ bitsOf n 5 0) (hb : bitsOf n 11 6 ≠ 0 ∨ 0x15 ≤ bitsOf n 5 0) :
    decodeOp01 n = .error (.unassignedCode 0x01) := by
  have hsplit : bitsOf n 11 0 = bitsOf n 11 6 * 64 + bitsOf n 5 0 := bitsOf_split n (by decide) (by decide)
  have hfield : bitsOf n 5 0 < 64 := Nat.mod_lt _ (by decide)
  simp (disch := omega) only [decodeOp01, if_neg]

/-- The instructions of R341 that have two sources differ in their words by the function code alone. -/
theorem encodeNat_integerTable (d a b : SReg) (l m : Bool) : ∀ k ∈ Claims.integerTable d l a m b, encodeNat k.2 =
    some (pack [(6, 0x01), (6, d.toNat), (1, boolNat l), (6, a.toNat), (1, boolNat m), (6, b.toNat), (6, k.1)]) := by
  simp only [Claims.integerTable, List.forall_mem_cons, List.not_mem_nil, false_implies, implies_true, and_true]
  and_intros <;> rfl

theorem integerGroupEncoding : Claims.IntegerGroupEncoding := by
  refine ⟨fun d a b l m k hk => ?_, fun d a l m => ⟨?_, ?_⟩, fun w hop => ⟨fun hfn => ?_, fun hfn hb => ?_⟩⟩
  · exact encode_eq_word3R (encodeNat_integerTable d a b l m k hk) rfl (pack_singleton _ _)
  · exact encode_eq_of_pack rfl (by simp [pack, Claims.word3R, Nat.add_assoc])
  · exact encode_eq_of_pack rfl (by simp [pack, Claims.word3R, Nat.add_assoc])
  · exact refusedWord_of_unassigned ((decodeRaw_op01 hop).trans (decodeOp01_unassigned (Nat.le_trans (by decide) hfn) (.inr hfn)))
  · exact refusedWord_of_unassigned ((decodeRaw_op01 hop).trans (decodeOp01_unassigned hfn (.inl hb)))

theorem arithmeticResults : Claims.ArithmeticResults := by
  intro s u d a b l m x y h
  refine ⟨binaryOp_ok h (BitVec.add_def x y), binaryOp_ok h (sub_eq_ofInt x y), binaryOp_ok h (mul_eq_ofNat x y), binaryOp_ok h rfl,
    binaryOp_ok h rfl, ⟨x &&& y, binaryOp_ok h rfl, fun k => ?_⟩, ⟨x ||| y, binaryOp_ok h rfl, fun k => ?_⟩,
    ⟨x ^^^ y, binaryOp_ok h rfl, fun k => ?_⟩⟩
  · exact BitVec.getLsbD_and
  · exact BitVec.getLsbD_or
  · exact BitVec.getLsbD_xor

theorem divisionResults : Claims.DivisionResults := by
  intro s u d a b l m x y h
  exact ⟨binaryOp_ok h (divU_eq x y), binaryOp_ok h (remU_eq x y), binaryOp_ok h (divS_eq x y), binaryOp_ok h (remS_eq x y)⟩

theorem shiftAndOrderResults : Claims.ShiftAndOrderResults := by
  intro s u d a b l m x y
  refine ⟨fun h => ⟨?_, ?_, ?_, binaryOp_ok h (minS_eq x y), binaryOp_ok h (maxS_eq x y), binaryOp_ok h (minU_eq x y),
    binaryOp_ok h (maxU_eq x y)⟩, fun h => ⟨?_, unaryOp_ok h (popc64_eq x)⟩⟩
  · exact binaryOp_ok (f := fun x y => x <<< shamt y) h (shiftLeft_eq_ofNat x _)
  · exact binaryOp_ok (f := fun x y => x >>> shamt y) h (ushiftRight_eq_ofNat x _)
  · exact binaryOp_ok (f := fun x y => x.sshiftRight (shamt y)) h (sshiftRight_eq_ofInt x _)
  · obtain ⟨n, hclz, hspec⟩ := clz64_spec x
    exact ⟨n, unaryOp_ok h hclz, hspec⟩

/-- Settles O39: the words by their fields, and each result by the number that its operation computes (R341). -/
theorem integerRegisterGroup : Obligations.IntegerRegisterGroup :=
  ⟨integerGroupEncoding, arithmeticResults, divisionResults, shiftAndOrderResults, operandStops⟩

/-! ## The immediate group, BFX, BFI, LIH, PCREL and SEL (R342, R345, R367, R385, R391) -/

theorem add_ofInt_eq (x : W64) (n : Int) : x + BitVec.ofInt 64 n = BitVec.ofInt 64 (x.toNat + n) := by
  rw [BitVec.ofInt_add, BitVec.ofInt_natCast, BitVec.ofNat_toNat, BitVec.setWidth_eq]

theorem add_imm13_eq (x : W64) (i : BitVec 13) : x + imm13 i = BitVec.ofInt 64 (x.toNat + i.toInt) := add_ofInt_eq x i.toInt

theorem upper_eq_ofInt (c : BitVec 20) : upper c = BitVec.ofInt 64 (c.toInt * 4096) := by
  have htoInt : (c ++ (0 : BitVec 12)).toInt = c.toInt * 4096 := by
    rw [BitVec.toInt_append, mul_comm]
    simp
  rw [upper, BitVec.signExtend, htoInt]

/-- The field that BFX and BFI name by its lowest bit and its width less one (R345). -/
theorem field_eq_of_width (x : W64) (w p : BitVec 6) :
    Claims.field x (p.toNat + w.toNat) p.toNat = x.toNat / 2 ^ p.toNat % 2 ^ (w.toNat + 1) := by
  rw [Claims.field, show p.toNat + w.toNat + 1 - p.toNat = w.toNat + 1 by omega]

theorem bfxOf_unsigned (w p : BitVec 6) (x : W64) :
    bfxOf false w p x = BitVec.ofNat 64 (Claims.field x (p.toNat + w.toNat) p.toNat) := by
  simp [bfxOf, field_eq_of_width]

/-- A field whose top bit is set stands for its number less 2 to its width. -/
theorem bfxOf_signed (w p : BitVec 6) (x : W64) :
    bfxOf true w p x = BitVec.ofInt 64 (if Claims.field x (p.toNat + w.toNat) p.toNat < 2 ^ w.toNat then
      (Claims.field x (p.toNat + w.toNat) p.toNat : Int) else Claims.field x (p.toNat + w.toNat) p.toNat - 2 ^ (w.toNat + 1)) := by
  rw [bfxOf, ← field_eq_of_width]
  have hfield : Claims.field x (p.toNat + w.toNat) p.toNat < 2 ^ w.toNat * 2 := by
    rw [field_eq_of_width, ← Nat.pow_succ]
    exact Nat.mod_lt _ (Nat.two_pow_pos _)
  generalize Claims.field x (p.toNat + w.toNat) p.toNat = f at hfield ⊢
  by_cases htop : f < 2 ^ w.toNat
  · simp [htop, Nat.div_eq_of_lt htop]
  · have hdiv : f / 2 ^ w.toNat = 1 := Nat.div_eq_of_lt_le (by omega) (by omega)
    have hwidth : 2 ^ (w.toNat + 1) ≤ 2 ^ 64 := Nat.pow_le_pow_right (by decide) (by have := w.isLt; omega)
    have hvalue : ((f + 2 ^ 64 - 2 ^ (w.toNat + 1) : Nat) : Int) = (f - 2 ^ (w.toNat + 1) : Int) + 2 ^ 64 := by
      rw [Nat.cast_sub (by omega)]
      push_cast
      ring
    simp only [htop, hdiv, Bool.true_and, beq_self_eq_true, if_true, if_false]
    rw [← BitVec.ofInt_natCast, hvalue, BitVec.ofInt_add]
    simp

/-- BFI puts the low bits of its source into the field and keeps the other bits of its destination (R345). -/
theorem getLsbD_bfiOf (w p : BitVec 6) (old x : W64) {j : Nat} (hj : j < 64) :
    (bfiOf w p old x).getLsbD j = if p.toNat ≤ j ∧ j ≤ p.toNat + w.toNat then x.getLsbD (j - p.toNat) else old.getLsbD j := by
  have hmask : (BitVec.ofNat 64 ((2 ^ (w.toNat + 1) - 1) * 2 ^ p.toNat)).getLsbD j = decide (p.toNat ≤ j ∧ j ≤ p.toNat + w.toNat) := by
    rw [BitVec.getLsbD_ofNat, Nat.testBit_mul_two_pow, Nat.testBit_two_pow_sub_one]
    simp only [hj, decide_true, Bool.true_and, ← Bool.decide_and, decide_eq_decide]
    omega
  simp only [bfiOf, BitVec.getLsbD_or, BitVec.getLsbD_and, BitVec.getLsbD_not, BitVec.getLsbD_shiftLeft, hmask, hj]
  by_cases hin : p.toNat ≤ j ∧ j ≤ p.toNat + w.toNat
  · simp [hin, Nat.not_lt.2 hin.1]
  · simp [hin]

theorem immediateAndFieldResults : Claims.ImmediateAndFieldResults := by
  intro s u d a b l m x y i k
  refine ⟨fun h => ⟨?_, ?_, ?_, ?_, ?_, ?_, ?_,
    fun w p _ => ⟨unaryOp_ok h (bfxOf_unsigned w p x), unaryOp_ok h (bfxOf_signed w p x)⟩⟩, fun h w p _ => ?_, fun h n q => ?_,
    fun h c => ⟨scalarOp_ok h (upper_eq_ofInt c), ?_⟩⟩
  · exact unaryOp_ok (f := fun x => x + imm13 i) h (add_imm13_eq x i)
  · exact unaryOp_ok (f := fun x => x &&& imm13 i) h rfl
  · exact unaryOp_ok (f := fun x => x ||| imm13 i) h rfl
  · exact unaryOp_ok (f := fun x => x ^^^ imm13 i) h rfl
  · exact unaryOp_ok (f := fun x => x <<< k.toNat) h (shiftLeft_eq_ofNat x _)
  · exact unaryOp_ok (f := fun x => x >>> k.toNat) h (ushiftRight_eq_ofNat x _)
  · exact unaryOp_ok (f := fun x => x.sshiftRight k.toNat) h (sshiftRight_eq_ofInt x _)
  · exact ⟨bfiOf w p y x, scalarOp_ok h rfl, fun j hj => getLsbD_bfiOf w p y x hj⟩
  · exact scalarOp_ok h rfl
  · exact scalarOp_ok h (by rw [upper_eq_ofInt, add_ofInt_eq])

/-- The field that BFX takes must lie in a register (R345). -/
theorem legal_bfx_eq_false {n : Nat} (d a : SReg) (l g : Bool) (h : 64 < bitsOf n 5 0 + bitsOf n 11 6 + 1) :
    legal (.bfx d l a g (fld 6 n 11 6) (fld 6 n 5 0)) = false := by
  simpa [legal, toNat_fld] using h

/-- The field that BFI replaces must lie in a register, and that register be no queue (R345). -/
theorem legal_bfi_eq_false {n : Nat} (a : SReg) (l : Bool) (h : 64 < bitsOf n 5 0 + bitsOf n 11 6 + 1 ∨ 56 ≤ bitsOf n 25 20) :
    legal (.bfi (fld 6 n 25 20) l a (fld 6 n 11 6) (fld 6 n 5 0)) = false := by
  simp only [legal, toNat_fld, Bool.and_eq_false_iff, decide_eq_false_iff_not]
  omega

/-- Bit 12 of a BFI word is 0, its field fits a register, and its destination is no queue (R345). -/
theorem refusedWord_bfi {w : W32} (hop : bitsOf w.toNat 31 26 = 0x0D) (h : bitsOf w.toNat 12 12 = 1 ∨
    64 < bitsOf w.toNat 5 0 + bitsOf w.toNat 11 6 + 1 ∨ 56 ≤ bitsOf w.toNat 25 20) : Claims.refusedWord w := by
  have hraw : decodeRaw w.toNat = decodeOp0D w.toNat := decodeRaw_op0D hop
  by_cases hbit : bitsOf w.toNat 12 12 = 0
  · rw [decodeOp0D, if_pos hbit] at hraw
    exact refusedWord_of_illegal hraw (legal_bfi_eq_false _ _ (h.resolve_left (by omega)))
  · rw [decodeOp0D, if_neg hbit] at hraw
    exact refusedWord_of_unassigned hraw

theorem refusedWord_bfx {w : W32} (hop : bitsOf w.toNat 31 26 = 0x0C) (h : 64 < bitsOf w.toNat 5 0 + bitsOf w.toNat 11 6 + 1) :
    Claims.refusedWord w :=
  refusedWord_of_illegal (decodeRaw_op0C hop) (legal_bfx_eq_false _ _ _ _ h)

theorem refusedWord_shli {w : W32} (hop : bitsOf w.toNat 31 26 = 0x06) (h : bitsOf w.toNat 12 6 ≠ 0) : Claims.refusedWord w :=
  refusedWord_of_unassigned ((decodeRaw_op06 hop).trans (if_neg h))

/-- Bit 12 of the word tells SHRI from SHRI.S; with a nonzero field between it and the count the word is neither. -/
theorem refusedWord_shri {w : W32} (hop : bitsOf w.toNat 31 26 = 0x07) (h : bitsOf w.toNat 11 6 ≠ 0) : Claims.refusedWord w := by
  have hsplit : bitsOf w.toNat 12 6 = bitsOf w.toNat 12 12 * 64 + bitsOf w.toNat 11 6 := bitsOf_split _ (by decide) (by decide)
  have hfield : bitsOf w.toNat 11 6 < 64 := Nat.mod_lt _ (by decide)
  have hcode : decodeOp07 w.toNat = .error (.unassignedCode 0x07) := by
    rw [decodeOp07, if_neg (by omega), if_neg (by omega)]
  exact refusedWord_of_unassigned ((decodeRaw_op07 hop).trans hcode)

theorem refusedWord_sel {w : W32} (hop : bitsOf w.toNat 31 26 = 0x0A) (h : bitsOf w.toNat 5 5 = 1) : Claims.refusedWord w :=
  refusedWord_of_unassigned ((decodeRaw_op0A hop).trans (if_neg (by omega)))

theorem immediateEncodings : Claims.ImmediateEncodings := by
  refine ⟨fun d a b l m n i k p w c q => ⟨encode_eq_wordI rfl rfl (pack_singleton _ _),
    encode_eq_wordI rfl rfl (pack_singleton _ _), encode_eq_wordI rfl rfl (pack_singleton _ _),
    encode_eq_wordI rfl rfl (pack_singleton _ _), ?_, ?_, ?_, ?_, ?_, ?_, ?_, ?_⟩, fun w => ⟨refusedWord_shli, refusedWord_shri, ?_, ?_, refusedWord_sel⟩⟩
  · exact encode_eq_wordI rfl rfl (by simp [pack])
  · exact encode_eq_wordI rfl rfl (by simp [pack])
  · exact encode_eq_wordI rfl rfl (by simp [pack, Nat.add_comm])
  · exact encode_eq_wordI rfl rfl (by simp only [pack, List.map, List.sum_cons, List.sum_nil]; omega)
  · exact encode_eq_wordI rfl rfl (by simp only [pack, List.map, List.sum_cons, List.sum_nil]; omega)
  · exact encode_eq_of_pack rfl (by simp [pack, Nat.add_assoc])
  · exact encode_eq_of_pack rfl (by simp [pack, Nat.add_assoc])
  · exact encode_eq_word3R rfl rfl (by simp only [pack, List.map, List.sum_cons, List.sum_nil]; omega)
  · rintro (hop | hop) h
    · exact refusedWord_bfx hop h
    · exact refusedWord_bfi hop (.inr (.inl h))
  · exact fun hop h => refusedWord_bfi hop (h.imp_right .inr)

/-- Settles O40: the words by their fields and the rules of the decoder, each result by the number or the bits that its operation
gives. -/
theorem immediateGroup : Obligations.ImmediateGroup := ⟨immediateEncodings, immediateAndFieldResults⟩

/-! ## CMP, CMPI and PLOG (R348, R386) -/

/-- A context that an update leaves as it stands leaves the state as it stands. -/
theorem State.modCtx_eq_self {s : State} {f : Ctx → Ctx} (h : f s.ctx = s.ctx) : s.modCtx f = s := by
  have hcur : f s.core.ctxs[s.core.cur.val] = s.core.ctxs[s.core.cur.val] := h
  simp [State.modCtx, State.modCtxAt, State.modCore, Core.modCtxAt, hcur]

@[simp] theorem State.writeP_zero (s : State) (v : Bool) : s.writeP 0 v = s := State.modCtx_eq_self (Ctx.setP_zero s.ctx v)

theorem State.getP_writeP_same (s : State) {p : PReg} (v : Bool) (hp : p ≠ 0) : (s.writeP p v).ctx.getP p = v := by
  rw [State.writeP_ctx, Ctx.getP_setP_same _ _ _ hp]

theorem State.getP_writeP_other (s : State) {p q : PReg} (v : Bool) (hq : q ≠ p) : (s.writeP p v).ctx.getP q = s.ctx.getP q := by
  rw [State.writeP_ctx, Ctx.getP_setP_other _ _ _ _ hq]

@[simp] theorem State.getS_writeP (s : State) (p : PReg) (v : Bool) (r : SReg) : (s.writeP p v).ctx.getS r = s.ctx.getS r := by
  simp only [State.writeP_ctx, Ctx.getS, Ctx.setP_s]

theorem bytesKept_writeP (s : State) (p : PReg) (v : Bool) : Claims.BytesKept s (s.writeP p v) := fun _ => ⟨rfl, rfl⟩

theorem beq_eq_decide_toNat (x y : W64) : (x == y) = decide (x.toNat = y.toNat) := by
  rw [beq_eq_decide, decide_eq_decide, BitVec.toNat_inj]

theorem bne_eq_decide_toNat (x y : W64) : (x != y) = decide (x.toNat ≠ y.toNat) := by
  rw [bne, beq_eq_decide_toNat, decide_not]

theorem predicateResults : Claims.PredicateResults := by
  intro s u p pa pb a b l m x y i o
  refine ⟨fun h c => ?_, fun h c => predicateOp_ok h rfl, ?_, rfl, s.writeP_zero l, s.getP_writeP_same l, fun q => s.getP_writeP_other l,
    s.getS_writeP p l, bytesKept_writeP s p l⟩
  · refine predicateOp_ok h ?_
    have hc : c.toNat < 8 := c.isLt
    interval_cases hcond : c.toNat <;> simp only [condHolds, hcond]
    · exact beq_eq_decide_toNat x y
    · exact bne_eq_decide_toNat x y
    all_goals rfl
  · have ho : o.toNat < 8 := o.isLt
    change execPlog p l pa m pb o s = _
    rw [execPlog]
    congr 3
    interval_cases hop : o.toNat <;> simp only [plogOf, hop]
    all_goals exact (Bool.not_not _).symm

/-- CMP has eight conditions, in bits 2:0, and four bits for its predicate (R348). -/
theorem refusedWord_cmp {w : W32} (hop : bitsOf w.toNat 31 26 = 0x08) (h : 8 ≤ bitsOf w.toNat 5 0 ∨ bitsOf w.toNat 25 24 ≠ 0) :
    Claims.refusedWord w := by
  have hsplit : bitsOf w.toNat 5 0 = bitsOf w.toNat 5 3 * 8 + bitsOf w.toNat 2 0 := bitsOf_split _ (by decide) (by decide)
  have hfield : bitsOf w.toNat 2 0 < 8 := Nat.mod_lt _ (by decide)
  exact refusedWord_of_unassigned ((decodeRaw_op08 hop).trans (if_neg (by omega)))

/-- PLOG has six operations, and three predicates of four bits in fields of six (R386). -/
theorem refusedWord_plog {w : W32} (hop : bitsOf w.toNat 31 26 = 0x0B) (h : 6 ≤ bitsOf w.toNat 5 0 ∨ bitsOf w.toNat 25 24 ≠ 0 ∨
    bitsOf w.toNat 18 17 ≠ 0 ∨ bitsOf w.toNat 11 10 ≠ 0) : Claims.refusedWord w := by
  have hraw : decodeRaw w.toNat = decodeOp0B w.toNat := decodeRaw_op0B hop
  have hsplit : bitsOf w.toNat 5 0 = bitsOf w.toNat 5 3 * 8 + bitsOf w.toNat 2 0 := bitsOf_split _ (by decide) (by decide)
  rw [decodeOp0B] at hraw
  split at hraw
  next hzero =>
    refine refusedWord_of_illegal hraw ?_
    simp only [legal, toNat_fld, decide_eq_false_iff_not]
    omega
  next => exact refusedWord_of_unassigned hraw

theorem predicateEncodings : Claims.PredicateEncodings := by
  refine ⟨fun p pa pb a b l m c i => ⟨?_, ?_, fun _ => ?_⟩, fun w => ⟨refusedWord_cmp, refusedWord_plog⟩⟩
  · exact encode_eq_of_pack rfl (by simp [pack, Claims.word3R, Nat.add_assoc])
  · exact encode_eq_of_pack rfl (by simp [pack, Nat.add_assoc])
  · exact encode_eq_of_pack rfl (by simp [pack, Claims.word3R, Nat.add_assoc])

/-- Settles O41: the words by their fields and the rules of the decoder; the conditions and the operations of PLOG one by one; what a
predicate write leaves, by the rules of `writeP`. -/
theorem predicateGroup : Obligations.PredicateGroup := ⟨predicateEncodings, predicateResults⟩

end Sys2Proof.Machine
